-- ==== Sys2Proof/Word.lean ====
section
/-! DEFINITION. The word types of the JC-440's link and records: a byte, a 16-bit half and a 32-bit word.
Byte order and field extraction stand in Sys2Proof/Decode.lean, where a repair can reach them. -/

namespace Sys2Proof

/-- One byte of a message or of context memory. -/
abbrev Byte := BitVec 8

/-- A 16-bit field: a token, a payload length, half of an argument or result word. -/
abbrev Half := BitVec 16

/-- A 32-bit field: an argument word, a result word, a tag word or an entry word. -/
abbrev Word := BitVec 32

end Sys2Proof
end

