-- ==== Sys2Proof/Config.lean ====
section
/-! DEFINITION. What the part fixes once for all: its capacities and limits, and the two values the spec
leaves open: which bytes of a page an abandoned fill write had reached, and the spacing of the bytes the part sends. -/

namespace Sys2Proof.Config

/-- Bytes of one page, and pages of context memory (R126). -/
def pageBytes : Nat := 1024

/-- Largest payload of a message, and so the largest frame or data transfer (R155). -/
def payloadMax : Nat := 8192

/-- Bytes of a message the receiver keeps (R160). -/
def keptBytes : Nat := 8206

/-- Entries of a port's request queue (R153, R161). -/
def requestQueueMax : Nat := 4

/-- Entries of a port's link answer list (R153, R161). -/
def linkAnswerMax : Nat := 4

/-- Where the unanswered count and the lost count stop rising (R143, R161). -/
def countMax : Nat := 255

/-- Notices a notice queue holds (R141). -/
def noticeMax : Nat := 16

/-- Entries of a lock's waiter list (R94). -/
def waiterMax : Nat := 8

/-- Largest data area, in bytes (R117). -/
def dataAreaMax : Nat := 16384

/-- Longest lease period, in milliseconds (R8). -/
def leaseMax : Nat := 60000

/-- The part code that HELLO reports (Table 9-8). -/
def partCode : Half := 0x0440#16

/-- FREE VALUE (assumption 5). `partialWrite n i` says whether the n-th abandoned fill write had already
reached byte i of its page when it was abandoned. R39 and R79 say only that the write under way "stays partly
in the page"; the constant has no body, so nothing can be proved of which bytes those are. -/
opaque partialWrite : Nat → Nat → Bool

/-- FREE VALUE (assumption 24). `sendGap m i` is the number of clock periods of 1 that the part leaves after byte i of
a message m it sends. R154 says only that there are at most nine; the constant has no body, so nothing else can be
proved of it. -/
opaque sendGap : List Byte → Nat → Fin 10

end Sys2Proof.Config
end

