-- ==== Sys2Proof/Syntax.lean ====
section
/-! DEFINITION. The commands of the JC-440: one constructor of `Instr` for each row of spec/opcode_table.json,
with the operands the row's rule gives it. Requests carry the fields of a request header (Table 9-2) beside the
port they are sent on; events of the part carry what the outside world decides about them. -/

namespace Sys2Proof

/-- A host port, 0 to 3. -/
abbrev Port := Fin 4

/-- A task number, 0 to 63 (R1). -/
abbrev TaskNo := Fin 64

/-- A lock number, 0 to 31 (R91). -/
abbrev LockNo := Fin 32

/-- A page number, 0 to 1023 (R126). -/
abbrev PageNo := Fin 1024

/-- The 25 requests of Table 10-1. -/
inductive RequestCode where
  | hello | goodbye | grantRights | fetchNotice
  | define | discard | retune | queryTask | salvage
  | claim | release | suspend | renew | evict
  | peekFrame | dataRead | dataWrite
  | lockNew | lockReturn | take | takeWait | withdraw | give | queryLock
  | queryMemory
  deriving DecidableEq, Repr

/-- The request header of Table 9-2 without its request code and payload length, and the payload itself.
The payload length field is the payload's length (R155). -/
structure Operands where
  tag     : Byte
  task    : Byte
  flags   : Byte
  token   : Half
  arg     : Word
  payload : List Byte
  deriving DecidableEq, Repr

/-- A request as a port engine holds it: its code and its operands (R156). -/
structure Request where
  code : Byte
  ops  : Operands
  deriving DecidableEq, Repr

/-- A message on SDIn as its end leaves it in the receiver: its bytes in the order received, and whether a
framing fault was found in it (R154). -/
structure LineMessage where
  bytes        : List Byte
  framingFault : Bool
  deriving DecidableEq, Repr

/-- What the error correction says of one page read (R134): sound, a single-bit error that it corrected, or an
error it cannot correct. The memory's condition decides it, not the part. -/
inductive ReadOutcome where
  | sound | corrected | uncorrectable
  deriving DecidableEq, Repr

/-- The two causes of a full reset (R169). -/
inductive ResetCause where
  | line      -- FRST_N asserted
  | powerOn
  deriving DecidableEq, Repr

/-- The commands: one constructor per row of spec/opcode_table.json, in the table's order. -/
inductive Instr where
  | messageEnd (p : Port) (m : LineMessage)
  | responseSent (p : Port)
  | hello (p : Port) (o : Operands)
  | goodbye (p : Port) (o : Operands)
  | grantRights (p : Port) (o : Operands)
  | fetchNotice (p : Port) (o : Operands)
  | define (p : Port) (o : Operands)
  | discard (p : Port) (o : Operands)
  | retune (p : Port) (o : Operands)
  | queryTask (p : Port) (o : Operands)
  | salvage (p : Port) (o : Operands)
  | claim (p : Port) (o : Operands)
  | release (p : Port) (o : Operands)
  | suspend (p : Port) (o : Operands)
  | renew (p : Port) (o : Operands)
  | evict (p : Port) (o : Operands)
  | peekFrame (p : Port) (o : Operands)
  | dataRead (p : Port) (o : Operands)
  | dataWrite (p : Port) (o : Operands)
  | lockNew (p : Port) (o : Operands)
  | lockReturn (p : Port) (o : Operands)
  | take (p : Port) (o : Operands)
  | takeWait (p : Port) (o : Operands)
  | withdraw (p : Port) (o : Operands)
  | give (p : Port) (o : Operands)
  | queryLock (p : Port) (o : Operands)
  | queryMemory (p : Port) (o : Operands)
  | unknownCode (p : Port) (code : Byte) (o : Operands)
  | arbiterGrant
  | deliveryPartTransfer (e : ReadOutcome)
  | fillPageWrite
  | peekPartTransfer (e : ReadOutcome)
  | dataReadPartTransfer (e : ReadOutcome)
  | dataWritePageTransfer (e : ReadOutcome)
  | scrubberTakePage
  | scrubCompletion
  | leaseExpiry (t : TaskNo)
  | portReset (p : Port)
  | portResetRelease (p : Port)
  | fullReset (cause : ResetCause)
  | fullResetRelease
  | leaseTimerMillisecond
  deriving DecidableEq, Repr

end Sys2Proof
end

