-- ==== Sys2Proof/Decode.lean ====
section
/-! DEFINITION. From link bits to commands and back: byte order, the link bytes of R154, the CRC of R155, the request
codes of Table 10-1, the link check of R160 and the request header of Table 9-2. The decoder is total and rejects
by name; the encoder after it writes the message a host sends for a request. The opcode table gives its rows no
bits, so `decodeTableWord` spells no command (assumption 2). -/

namespace Sys2Proof

/-! ### Byte order: multi-byte fields are little-endian -/

/-- Two bytes as a 16-bit field, low byte first. -/
def word16 (b0 b1 : Byte) : Half := b1 ++ b0

/-- Four bytes as a 32-bit field, low byte first. -/
def word32 (b0 b1 b2 b3 : Byte) : Word := b3 ++ b2 ++ b1 ++ b0

/-- The two bytes of a 16-bit field, low byte first. -/
def bytes16 (h : Half) : List Byte := [h.extractLsb' 0 8, h.extractLsb' 8 8]

/-- The four bytes of a 32-bit field, low byte first. -/
def bytes32 (w : Word) : List Byte :=
  [w.extractLsb' 0 8, w.extractLsb' 8 8, w.extractLsb' 16 8, w.extractLsb' 24 8]

/-- The low 16 bits of a word. -/
def lowHalf (w : Word) : Half := w.extractLsb' 0 16

/-- The high 16 bits of a word. -/
def highHalf (w : Word) : Half := w.extractLsb' 16 16

/-- Two numbers as the low and high 16 bits of a word. -/
def halves (low high : Nat) : Word := BitVec.ofNat 16 high ++ BitVec.ofNat 16 low

/-! ### Link bytes (R154) -/

/-- The ten bits of one link byte: start bit 0, the data bits least significant first, stop bit 1 (R154). -/
def byteBits (b : Byte) : List Bool := false :: (List.range 8).map (fun i => b.getLsbD i) ++ [true]

/-- A run of link bytes as it stands on the line, each byte followed by its number of clock periods of 1, and the
ten periods of 1 that end the message (R154). -/
def runBits (run : List (Byte × Nat)) : List Bool :=
  run.flatMap (fun x => byteBits x.1 ++ List.replicate x.2 true) ++ List.replicate 10 true

/-- Eight data bits, least significant first, as a byte. -/
def byteOfBits (bits : List Bool) : Byte :=
  BitVec.ofNat 8 (bits.foldr (fun b n => (if b then 1 else 0) + 2 * n) 0)

/-- Where the receiver stands in a message: after a stop bit with so many periods of 1, inside a byte with its
data bits so far, before the stop bit of a byte, or in a message marked bad with so many periods of 1. -/
inductive Receiver where
  | gap (ones : Nat)
  | data (bits : List Bool)
  | stop (b : Byte)
  | bad (ones : Nat)
  deriving DecidableEq, Repr

/-- Takes the bits of SDIn after a message's first start bit and gives the message when ten periods of 1 have ended
it, or none while it is half-received (R154). A byte whose stop bit is 0 still counts as received, and no byte
after it does (DESIGN CHOICE, assumption 16). -/
def receive : List Bool → List Byte → Receiver → Option LineMessage
  | [], _, _ => none
  | b :: bs, acc, .gap k =>
    if b then (if k + 1 = 10 then some ⟨acc, false⟩ else receive bs acc (.gap (k + 1)))
    else receive bs acc (.data [])
  | b :: bs, acc, .data l =>
    if l.length = 7 then receive bs acc (.stop (byteOfBits (l ++ [b])))
    else receive bs acc (.data (l ++ [b]))
  | b :: bs, acc, .stop v => if b then receive bs (acc ++ [v]) (.gap 0) else receive bs (acc ++ [v]) (.bad 0)
  | b :: bs, acc, .bad k =>
    if b then (if k + 1 = 10 then some ⟨acc, true⟩ else receive bs acc (.bad (k + 1)))
    else receive bs acc (.bad 0)

/-- The first message on a line that rests at 1, if it has ended (R154). -/
def LineMessage.ofLine : List Bool → Option LineMessage
  | [] => none
  | true :: bs => LineMessage.ofLine bs
  | false :: bs => receive bs [] (.data [])

/-! ### CRC (R155) -/

/-- One bit of the cyclic check, in the reflected form 8408h. -/
def crcShift (r : Half) : Half := if r.getLsbD 0 then (r >>> 1) ^^^ 0x8408#16 else r >>> 1

/-- One byte of the cyclic check, least significant bit first. -/
def crcByte (r : Half) (b : Byte) : Half := Nat.iterate crcShift 8 (r ^^^ b.zeroExtend 16)

/-- The register after a run of bytes, from FFFFh, with no final inversion. -/
def crc (bytes : List Byte) : Half := bytes.foldl crcByte 0xFFFF#16

/-- Bytes followed by their 2-byte trailer, low byte first. -/
def withTrailer (bytes : List Byte) : List Byte := bytes ++ bytes16 (crc bytes)

/-! ### Request codes (Table 10-1) -/

/-- The code of each request. -/
def RequestCode.byte : RequestCode → Byte
  | .hello => 0x01 | .goodbye => 0x02 | .grantRights => 0x03 | .fetchNotice => 0x04
  | .define => 0x10 | .discard => 0x11 | .retune => 0x12 | .queryTask => 0x13 | .salvage => 0x14
  | .claim => 0x20 | .release => 0x21 | .suspend => 0x22 | .renew => 0x23 | .evict => 0x24
  | .peekFrame => 0x30 | .dataRead => 0x31 | .dataWrite => 0x32
  | .lockNew => 0x40 | .lockReturn => 0x41 | .take => 0x42 | .takeWait => 0x43 | .withdraw => 0x44
  | .give => 0x45 | .queryLock => 0x46
  | .queryMemory => 0x50

/-- All requests, in the order of Table 10-1. -/
def RequestCode.all : List RequestCode :=
  [.hello, .goodbye, .grantRights, .fetchNotice, .define, .discard, .retune, .queryTask, .salvage, .claim, .release,
   .suspend, .renew, .evict, .peekFrame, .dataRead, .dataWrite, .lockNew, .lockReturn, .take, .takeWait, .withdraw,
   .give, .queryLock, .queryMemory]

/-- The request a code names, or none for a code not in the table (R170). -/
def RequestCode.ofByte (b : Byte) : Option RequestCode := RequestCode.all.find? (fun c => c.byte == b)

/-! ### The link check (R160) and the request header (Table 9-2) -/

/-- Why a message fails the link check (R160). -/
inductive LinkFault where
  | framing          -- a framing fault was found in it
  | tooShort         -- shorter than 14 bytes
  | payloadTooLong   -- its payload length field exceeds 8192
  | wrongLength      -- its length is not 14 + payload length
  | badCrc           -- its CRC is wrong
  deriving DecidableEq, Repr

/-- The link check on a message that has ended: the request it holds, or why it fails (R160). The request code is not
examined. A header of all ones fails here for its payload length field FFFFh, whatever its CRC: the link check is
the first step (R171), and R170 has the unknown code FFh answered once it is passed (assumption 23). -/
def linkCheck (m : LineMessage) : Except LinkFault Request :=
  if m.framingFault then .error .framing
  else if m.bytes.length < 14 then .error .tooShort
  else match m.bytes with
    | code :: tag :: task :: flags :: t0 :: t1 :: l0 :: l1 :: a0 :: a1 :: a2 :: a3 :: rest =>
      let n := (word16 l0 l1).toNat
      if n > Config.payloadMax then .error .payloadTooLong
      else if m.bytes.length ≠ 14 + n then .error .wrongLength
      else if crc m.bytes ≠ 0 then .error .badCrc
      else .ok { code := code,
                 ops := { tag := tag, task := task, flags := flags, token := word16 t0 t1,
                          arg := word32 a0 a1 a2 a3, payload := rest.take n } }
    | _ => .error .tooShort

/-- The twelve header bytes of a request (Table 9-2). -/
def Request.header (q : Request) : List Byte :=
  [q.code, q.ops.tag, q.ops.task, q.ops.flags] ++ bytes16 q.ops.token
    ++ bytes16 (BitVec.ofNat 16 q.ops.payload.length) ++ bytes32 q.ops.arg

/-- The message a host sends for a request: header, payload, CRC trailer (R155). -/
def encodeRequest (q : Request) : List Byte := withTrailer (q.header ++ q.ops.payload)

/-! ### Requests and commands -/

/-- The command that stands for a request sent on a port. -/
def Instr.ofRequest (p : Port) (q : Request) : Instr :=
  match RequestCode.ofByte q.code with
  | some .hello => .hello p q.ops
  | some .goodbye => .goodbye p q.ops
  | some .grantRights => .grantRights p q.ops
  | some .fetchNotice => .fetchNotice p q.ops
  | some .define => .define p q.ops
  | some .discard => .discard p q.ops
  | some .retune => .retune p q.ops
  | some .queryTask => .queryTask p q.ops
  | some .salvage => .salvage p q.ops
  | some .claim => .claim p q.ops
  | some .release => .release p q.ops
  | some .suspend => .suspend p q.ops
  | some .renew => .renew p q.ops
  | some .evict => .evict p q.ops
  | some .peekFrame => .peekFrame p q.ops
  | some .dataRead => .dataRead p q.ops
  | some .dataWrite => .dataWrite p q.ops
  | some .lockNew => .lockNew p q.ops
  | some .lockReturn => .lockReturn p q.ops
  | some .take => .take p q.ops
  | some .takeWait => .takeWait p q.ops
  | some .withdraw => .withdraw p q.ops
  | some .give => .give p q.ops
  | some .queryLock => .queryLock p q.ops
  | some .queryMemory => .queryMemory p q.ops
  | none => .unknownCode p q.code q.ops

/-- The request a command stands for and its port, or none for an event of the part. -/
def Instr.request : Instr → Option (Port × Request)
  | .hello p o => some (p, ⟨RequestCode.hello.byte, o⟩)
  | .goodbye p o => some (p, ⟨RequestCode.goodbye.byte, o⟩)
  | .grantRights p o => some (p, ⟨RequestCode.grantRights.byte, o⟩)
  | .fetchNotice p o => some (p, ⟨RequestCode.fetchNotice.byte, o⟩)
  | .define p o => some (p, ⟨RequestCode.define.byte, o⟩)
  | .discard p o => some (p, ⟨RequestCode.discard.byte, o⟩)
  | .retune p o => some (p, ⟨RequestCode.retune.byte, o⟩)
  | .queryTask p o => some (p, ⟨RequestCode.queryTask.byte, o⟩)
  | .salvage p o => some (p, ⟨RequestCode.salvage.byte, o⟩)
  | .claim p o => some (p, ⟨RequestCode.claim.byte, o⟩)
  | .release p o => some (p, ⟨RequestCode.release.byte, o⟩)
  | .suspend p o => some (p, ⟨RequestCode.suspend.byte, o⟩)
  | .renew p o => some (p, ⟨RequestCode.renew.byte, o⟩)
  | .evict p o => some (p, ⟨RequestCode.evict.byte, o⟩)
  | .peekFrame p o => some (p, ⟨RequestCode.peekFrame.byte, o⟩)
  | .dataRead p o => some (p, ⟨RequestCode.dataRead.byte, o⟩)
  | .dataWrite p o => some (p, ⟨RequestCode.dataWrite.byte, o⟩)
  | .lockNew p o => some (p, ⟨RequestCode.lockNew.byte, o⟩)
  | .lockReturn p o => some (p, ⟨RequestCode.lockReturn.byte, o⟩)
  | .take p o => some (p, ⟨RequestCode.take.byte, o⟩)
  | .takeWait p o => some (p, ⟨RequestCode.takeWait.byte, o⟩)
  | .withdraw p o => some (p, ⟨RequestCode.withdraw.byte, o⟩)
  | .give p o => some (p, ⟨RequestCode.give.byte, o⟩)
  | .queryLock p o => some (p, ⟨RequestCode.queryLock.byte, o⟩)
  | .queryMemory p o => some (p, ⟨RequestCode.queryMemory.byte, o⟩)
  | .unknownCode p code o => some (p, ⟨code, o⟩)
  | .messageEnd _ _ | .responseSent _ | .arbiterGrant | .deliveryPartTransfer _ | .fillPageWrite
  | .peekPartTransfer _ | .dataReadPartTransfer _ | .dataWritePageTransfer _ | .scrubberTakePage | .scrubCompletion
  | .leaseExpiry _ | .portReset _ | .portResetRelease _ | .fullReset _ | .fullResetRelease
  | .leaseTimerMillisecond => none

/-- The command a message on port p stands for, or why its link check fails. -/
def decodeMessage (p : Port) (m : LineMessage) : Except LinkFault Instr :=
  (linkCheck m).map (Instr.ofRequest p)

/-- The bytes of the message that sends a request command; none for an event of the part. -/
def encode (i : Instr) : Option (List Byte) := i.request.map (fun x => encodeRequest x.2)

/-- The command a word of opcode-table bits spells. The table gives no row any bits, so no word spells one
(assumption 2). -/
def decodeTableWord (_nbits _w : Nat) : Option Instr := none

end Sys2Proof
end

