-- ==== Sys2Proof/WellFormed.lean ====
section
/-! DEFINITION. Which commands are well formed: those the link can carry. A request's payload fits its message
(R155), an unknown code is one that Table 10-1 does not list (R170), and a message has at least one byte (R154). -/

namespace Sys2Proof

/-- The payload of a request fits a message (R155). -/
def Operands.fits (o : Operands) : Bool := o.payload.length ≤ Config.payloadMax

/-- The checks of a command's operands. -/
def Instr.wellFormed : Instr → Bool
  | .messageEnd _ m => !m.bytes.isEmpty
  | .hello _ o | .goodbye _ o | .grantRights _ o | .fetchNotice _ o | .define _ o | .discard _ o | .retune _ o
  | .queryTask _ o | .salvage _ o | .claim _ o | .release _ o | .suspend _ o | .renew _ o | .evict _ o
  | .peekFrame _ o | .dataRead _ o | .dataWrite _ o | .lockNew _ o | .lockReturn _ o | .take _ o | .takeWait _ o
  | .withdraw _ o | .give _ o | .queryLock _ o | .queryMemory _ o => o.fits
  | .unknownCode _ code o => o.fits && (RequestCode.ofByte code).isNone
  | .responseSent _ | .arbiterGrant | .deliveryPartTransfer _ | .fillPageWrite | .peekPartTransfer _
  | .dataReadPartTransfer _ | .dataWritePageTransfer _ | .scrubberTakePage | .scrubCompletion | .leaseExpiry _
  | .portReset _ | .portResetRelease _ | .fullReset _ | .fullResetRelease | .leaseTimerMillisecond => true

/-- A command the link can carry, or an event of the part. -/
abbrev WellFormed (i : Instr) : Prop := i.wellFormed = true

end Sys2Proof
end

