-- ==== Sys2Proof/Machine/State.lean ====
section
/-! DEFINITION. Everything the JC-440 holds, as plain data: port records (Table 9-1), task records with slots, frame
records, frame stack, claim and in-flight operation (Tables 1-1, 2-3, 3-1), lock records (Table 5-1), page records
and the scrub queue (Table 7-1), the memory arbiter (R136), the claim-token counter (R50), context memory (R126),
the reset lines, and the queue of commands waiting to be carried out. `State.reset` is the part right after full
reset. -/

namespace Sys2Proof.Machine

/-! ### Small enumerations and sets -/

/-- A port's session (R153). -/
inductive Session where
  | offline | online
  deriving DecidableEq, Repr

/-- A rights set, a subset of the rights DEFINE, EVICT and GRANT (R167). -/
structure Rights where
  define : Bool
  evict  : Bool
  grant  : Bool
  deriving DecidableEq, Repr

/-- A set of ports, port n being bit n (R158). -/
abbrev PortSet := BitVec 4

/-- A set of locks, listed in ascending lock number without repeats. -/
abbrev LockSet := List LockNo

/-- How a claim treats a suspended task's top frame (R7). -/
inductive ResumeMode where
  | restore | notify
  deriving DecidableEq, Repr

/-- The origin of a frame and the level of a claim (R29, R49). -/
inductive Origin where
  | primary | handler
  deriving DecidableEq, Repr

/-- The state of an existing task; an EMPTY record is the absence of a record (Table 1-2). -/
inductive TaskState where
  | ready | suspended | running | faulted
  deriving DecidableEq, Repr

/-- The status of a slot (Table 2-1). -/
inductive SlotStatus where
  | empty | filling | filled | retained
  deriving DecidableEq, Repr

/-- The phase of a claim (R47). -/
inductive Phase where
  | opening | active
  deriving DecidableEq, Repr

/-- How a claim was started (R49). -/
inductive StartKind where
  | fresh | restored | notified
  deriving DecidableEq, Repr

/-- Why a claim ended abnormally (R77). -/
inductive EndCause where
  | lapsed | evicted | portDown
  deriving DecidableEq, Repr

/-! ### Tasks -/

/-- A frame record (Table 2-3). -/
structure FrameRecord where
  length    : Nat
  tagWord   : Word
  origin    : Origin
  carried   : LockSet
  locksLost : Bool
  pushedBy  : Port
  deriving DecidableEq, Repr

/-- A slot's status and, when FILLED or RETAINED, its frame record (R25). -/
structure Slot where
  status : SlotStatus
  frame  : Option FrameRecord
  deriving DecidableEq, Repr

/-- A claim record (Table 3-1). `lease` is the lease remaining, absent while the timer is stopped. `expiryDue` says
that the running timer would have fallen below 1, so that its expiry can be taken (R71, assumption 7). -/
structure Claim where
  port      : Port
  token     : Half
  phase     : Phase
  level     : Origin
  startKind : StartKind
  retained  : Option Nat
  lease     : Option Nat
  expiryDue : Bool
  deriving DecidableEq, Repr

/-- An in-flight operation with its progress (R4). `next` is the part whose transfer comes next; `buffer` is what
the port engine's message buffer has received; `cleared` counts the poison marks a data write has cleared. -/
inductive Op where
  | delivery (slot next : Nat) (buffer : List Byte)
  | fill (slot next : Nat) (tagWord : Word) (bytes : List Byte) (withdrew : Bool)
  | peek (position slot next : Nat) (buffer : List Byte)
  | dataRead (offset length next : Nat) (buffer : List Byte)
  | dataWrite (offset : Nat) (bytes : List Byte) (next cleared : Nat)
  deriving DecidableEq, Repr

/-- The kind of an in-flight operation (Table 9-4). -/
inductive OpKind where
  | delivery | fill | peek | dataRead | dataWrite
  deriving DecidableEq, Repr

/-- A task record that is not EMPTY (Table 1-1). The depth is the length of `stack`, which lists slots bottom
first. -/
structure Task where
  state         : TaskState
  frameLimit    : Nat
  framePages    : Nat
  dataPages     : Nat
  resumeMode    : ResumeMode
  affinity      : PortSet
  watch         : PortSet
  leasePeriod   : Nat
  entryWord     : Word
  slotPages     : List (List PageNo)
  dataAreaPages : List PageNo
  slots         : List Slot
  stack         : List Nat
  claim         : Option Claim
  op            : Option Op
  deriving DecidableEq, Repr

/-! ### Locks -/

/-- The state of a lock (Table 5-2). -/
inductive LockState where
  | unallocated | free | held
  deriving DecidableEq, Repr

/-- The holder of a HELD lock: a claim or a saved frame (R93). -/
inductive Holder where
  | claim (task : TaskNo) (token : Half)
  | frame (task : TaskNo) (slot : Nat)
  deriving DecidableEq, Repr

/-- An entry of a waiter list, naming a claim (R94). -/
structure Waiter where
  task  : TaskNo
  token : Half
  deriving DecidableEq, Repr

/-- A lock record (Table 5-1). -/
structure Lock where
  state      : LockState
  holder     : Option Holder
  waiters    : List Waiter
  lastHolder : Option TaskNo
  deriving DecidableEq, Repr

/-! ### Pages and the arbiter -/

/-- The state of a page (R126). -/
inductive PageState where
  | free | reserved | scrubbing
  deriving DecidableEq, Repr

/-- Where a reserved page stands in its owner (Table 7-1). -/
inductive Role where
  | slotPart (slot part : Nat)
  | dataPart (part : Nat)
  deriving DecidableEq, Repr

/-- A page record (Table 7-1). -/
structure Page where
  state    : PageState
  owner    : Option TaskNo
  role     : Option Role
  stale    : Bool
  poisoned : Bool
  deriving DecidableEq, Repr

/-- A claimant of the context-memory access path (R136). -/
inductive Claimant where
  | port (p : Port)
  | scrubber
  deriving DecidableEq, Repr

/-- Context memory: the bytes that are not zero, by rising address. Page n holds addresses 1024 n to
1024 n + 1023. An unlisted address reads as zero (assumption 4). -/
abbrev Memory := List Host.Cell

/-! ### Notices -/

/-- A notice record, its kind deciding which fields it has (Tables 8-1 and 8-2). -/
inductive Notice where
  | lockGranted (task : TaskNo) (lock : LockNo)
  | claimLost (task : TaskNo) (cause : Nat)
  | taskFreed (task : TaskNo) (depth : Nat)
  | taskFaulted (task : TaskNo) (depth : Nat)
  | portDown (port : Port) (claims : Nat)
  | noticesLost (count : Nat)
  deriving DecidableEq, Repr

/-! ### Responses -/

/-- The status codes (Table 10-6). -/
inductive Status where
  | ok | queued | none
  | linkError | overrun
  | notOnline | noRight | badParam
  | noTask | noLock | exists_ | tableFull | noPages | locksExhausted
  | busy | notRunning | conflict | stale | denied | noRoom | faulted | notFaulted | lastGrant
  | damaged | aborted
  | held | ownFrame | notHolder | waitFull | alreadyWaiting | notWaiting
  deriving DecidableEq, Repr

/-- The notes of a response (Table 9-3). -/
structure Notes where
  alreadyHeld   : Bool
  waitWithdrawn : Bool
  deriving DecidableEq, Repr

/-- HELLO's result record (Table 9-8). -/
structure HelloRecord where
  port         : Port
  rights       : Rights
  partCode     : Half
  taskCapacity : Nat
  lockCapacity : Nat
  pageCapacity : Nat
  freePages    : Nat
  deriving DecidableEq, Repr

/-- QUERY-TASK's result record (Table 1-6). -/
structure TaskRecord where
  state          : TaskState
  depth          : Nat
  frameLimit     : Nat
  framePages     : Nat
  dataPages      : Nat
  resumeMode     : ResumeMode
  affinity       : PortSet
  watch          : PortSet
  leasePeriod    : Nat
  entryWord      : Word
  claimPort      : Option Port
  claimLevel     : Option Origin
  claimPhase     : Option Phase
  claimStart     : Option StartKind
  leaseRemaining : Option Nat
  inFlight       : Option OpKind
  topTagWord     : Option Word
  topOrigin      : Option Origin
  deriving DecidableEq, Repr

/-- CLAIM's result record, without token and frame bytes (Table 3-3). -/
structure ClaimRecord where
  startKind   : StartKind
  level       : Origin
  depth       : Nat
  entryWord   : Option Word
  tagWord     : Option Word
  frameLength : Option Nat
  origin      : Option Origin
  slot        : Option Nat
  locksLost   : Option Bool
  pushedBy    : Option Port
  heldLocks   : Option LockSet
  deriving DecidableEq, Repr

/-- PEEK-FRAME's result record, without frame bytes (Table 2-5). -/
structure PeekRecord where
  position  : Nat
  slot      : Nat
  length    : Nat
  tagWord   : Word
  origin    : Origin
  carried   : LockSet
  locksLost : Bool
  pushedBy  : Port
  deriving DecidableEq, Repr

/-- Whether a claim or a saved frame holds a lock (Table 9-4). -/
inductive HolderKind where
  | claim | frame
  deriving DecidableEq, Repr

/-- QUERY-LOCK's result record (Table 5-5). The holder stands in it by kind, task, and port or slot: a claim's token is
no part of it (R108). -/
structure LockRecord where
  held       : Bool
  holderKind : Option HolderKind
  holderTask : Option TaskNo
  holderPort : Option Port
  holderSlot : Option Nat
  waiters    : Nat
  lastHolder : Option TaskNo
  deriving DecidableEq, Repr

/-- QUERY-MEMORY's result record (Table 7-5). -/
structure MemoryRecord where
  free        : Nat
  reserved    : Nat
  scrubbing   : Nat
  queueLength : Nat
  inProgress  : Option PageNo
  poisoned    : Nat
  deriving DecidableEq, Repr

/-- The result record of a response, by request (Table 9-5). -/
inductive ResultRecord where
  | none
  | hello (r : HelloRecord)
  | task (r : TaskRecord)
  | claim (r : ClaimRecord)
  | peek (r : PeekRecord)
  | lock (r : LockRecord)
  | memory (r : MemoryRecord)
  | notice (n : Notice)
  deriving DecidableEq, Repr

/-- A response or a link answer: the header fields of Table 9-3, the result record, and the frame or data bytes. -/
structure Response where
  status : Status
  tag    : Byte
  task   : Byte
  notes  : Notes
  token  : Half
  result : Word
  record : ResultRecord
  bytes  : List Byte
  deriving DecidableEq, Repr

/-- A link answer that waits to be sent (R160, R161): a LINK-ERROR or an OVERRUN, and the low half of its result
word. The high half is the unanswered count when it begins to be sent. -/
structure LinkAnswer where
  overrun : Bool
  tag     : Byte
  task    : Byte
  low     : Nat
  deriving DecidableEq, Repr

/-- What is being sent on SDOn: the response to the head request, or a link answer (R161). -/
inductive Outgoing where
  | answer (r : Response)
  | link (r : Response)
  deriving DecidableEq, Repr

/-! ### Ports -/

/-- A port record (Table 9-1). The head of `requests` is the request executing. `waiting` is the head's response
while it waits behind a link answer being sent (R161); `sending` is the response in progress. `attention` is ATNn.
`held` says that PRSTn_N is asserted (R165). -/
structure PortRecord where
  session     : Session
  rights      : Rights
  requests    : List Request
  linkAnswers : List LinkAnswer
  unanswered  : Nat
  waiting     : Option Response
  sending     : Option Outgoing
  notices     : List Notice
  lost        : Nat
  attention   : Bool
  held        : Bool
  deriving DecidableEq, Repr

/-! ### The part -/

/-- The whole part. `nextToken` is the claim-token counter (R50); `scrubbing` the scrubber's page in progress
(R132); `pointer` the arbiter's rotation pointer and `path` the transfer that holds the access path (R136); `frst`
says that FRST_N is asserted (R169). `freeIndex` is the model's own: it numbers the free values used so far
(assumption 5). `pending` is the model's queue of commands. -/
structure State where
  ports      : Vector PortRecord 4
  tasks      : Vector (Option Task) 64
  nextToken  : Half
  locks      : Vector Lock 32
  pages      : Vector Page 1024
  scrubQueue : List PageNo
  scrubbing  : Option PageNo
  pointer    : Claimant
  path       : Option Claimant
  mem        : Memory
  frst       : Bool
  freeIndex  : Nat
  pending    : List Instr
  deriving DecidableEq, Repr

/-- Why the machine stops with a fault. The spec gives the part no event at which it stops, and every internal
address the model forms is in range by its type, so there is no constructor: no command faults. -/
inductive Fault where
  deriving DecidableEq, Repr

/-- Why the model gives a command no meaning. -/
inductive Refusal where
  /-- Raised by exec's arm of a command that has no meaning yet; safe, since the machine stops. No arm is so. -/
  | notModelled (mnemonic : String)
  deriving DecidableEq, Repr

/-! ### Reset values -/

/-- No rights. -/
def Rights.none : Rights := { define := false, evict := false, grant := false }

/-- All three rights. -/
def Rights.all : Rights := { define := true, evict := true, grant := true }

/-- A port record after full reset with the given rights (Table 9-1). -/
def PortRecord.reset (rights : Rights) : PortRecord :=
  { session := .offline, rights := rights, requests := [], linkAnswers := [], unanswered := 0, waiting := none,
    sending := none, notices := [], lost := 0, attention := false, held := false }

/-- An UNALLOCATED lock (R116). -/
def Lock.unallocated : Lock := { state := .unallocated, holder := none, waiters := [], lastHolder := none }

/-- A page after full reset (R140). -/
def Page.reset : Page := { state := .scrubbing, owner := none, role := none, stale := false, poisoned := false }

/-- The part right after full reset (R23, R116, R138, R140, R152, R169): every port OFFLINE, port 0 with all rights,
all tasks EMPTY, next token 1, all locks UNALLOCATED, all pages SCRUBBING and queued in ascending order, the
scrubber idle and the arbiter's pointer on it. The reset lines rest deasserted (assumption 6), and context memory,
whose contents are unknown then, lists nothing (assumption 4). -/
def State.reset : State :=
  { ports := #v[.reset .all, .reset .none, .reset .none, .reset .none]
    tasks := Vector.replicate 64 none
    nextToken := 1
    locks := Vector.replicate 32 .unallocated
    pages := Vector.replicate 1024 .reset
    scrubQueue := List.finRange 1024
    scrubbing := none
    pointer := .scrubber
    path := none
    mem := []
    frst := false
    freeIndex := 0
    pending := [] }

end Sys2Proof.Machine
end

