-- ==== Sys2Proof/Machine/Flags.lean ====
section
/-! DEFINITION. The flags: the attention line of a port (R149), the stale and poisoned marks of a page
(R130, R132, R135), and the notes of a response (R157). -/

namespace Sys2Proof.Machine

/-- The attention line follows the queue: asserted exactly when the port is ONLINE and its notice queue is
non-empty (R149). -/
def PortRecord.driveLine (r : PortRecord) : PortRecord :=
  { r with attention := (r.session == .online) && !r.notices.isEmpty }

/-- The stale mark set (R130). -/
def Page.markStale (g : Page) : Page := { g with stale := true }

/-- The stale mark cleared (R130). -/
def Page.clearStale (g : Page) : Page := { g with stale := false }

/-- The poison mark set at the completion of a read reported uncorrectable (R135). -/
def Page.markPoisoned (g : Page) : Page := { g with poisoned := true }

/-- The poison mark cleared at the completion of a write of the whole page (R135). -/
def Page.clearPoison (g : Page) : Page := { g with poisoned := false }

/-- The outcome of a scrub completion, by the page's record and whether it has a queue entry (Table 7-3): poison is
cleared in every row; a SCRUBBING page without an entry becomes FREE; a stale page without an entry loses its
mark. -/
def Page.afterScrub (g : Page) (queued : Bool) : Page :=
  match g.state, queued with
  | .scrubbing, false => { g.clearPoison with state := .free }
  | .reserved, false => g.clearPoison.clearStale
  | _, _ => g.clearPoison

/-- No note. -/
def Notes.none : Notes := { alreadyHeld := false, waitWithdrawn := false }

/-- The note "already held" (R102, R103). -/
def Notes.held : Notes := { alreadyHeld := true, waitWithdrawn := false }

/-- The note "wait withdrawn" where a wait was withdrawn (R35, R66). -/
def Notes.withdrawn (b : Bool) : Notes := { alreadyHeld := false, waitWithdrawn := b }

end Sys2Proof.Machine
end

