-- ==== Sys2Proof/Machine/Operands.lean ====
section
/-! DEFINITION. The operands of requests: which right a request needs and whether it is token-bearing (Table 10-1),
the operand check of every request (step 4 of Table 10-2, Table 10-3), and the parameter record (Table 9-6).
These read the request alone and none of the part's records (R172). -/

namespace Sys2Proof

/-- The ten token-bearing requests (R51, Table 10-1). -/
def RequestCode.tokenBearing : RequestCode → Bool
  | .release | .suspend | .renew | .peekFrame | .dataRead | .dataWrite | .take | .takeWait | .withdraw | .give => true
  | .hello | .goodbye | .grantRights | .fetchNotice | .define | .discard | .retune | .queryTask | .salvage | .claim
  | .evict | .lockNew | .lockReturn | .queryLock | .queryMemory => false

/-- The token field of a response to a request that issues none: the request's token for a token-bearing request,
0 for every other and for a code that names no request (R157, R170). -/
def Request.echoToken (q : Request) : Half :=
  if (RequestCode.ofByte q.code).any RequestCode.tokenBearing then q.ops.token else 0

/-! ### Fields of the request -/

/-- The task a task field names, or none where it is out of range (R1). -/
def taskOf (b : Byte) : Option TaskNo := if h : b.toNat < 64 then some ⟨b.toNat, h⟩ else none

/-- The lock an argument word names, or none where it is out of range (R174). -/
def lockOf (w : Word) : Option LockNo := if h : w.toNat < 32 then some ⟨w.toNat, h⟩ else none

/-- The task operand of DEFINE that means "any task" (R1). -/
def anyTask : Byte := 0xFF

/-- The force-restore flag of CLAIM (R156). -/
def Operands.force (o : Operands) : Bool := o.flags.getLsbD 0

/-- The offset operand of DATA-READ and DATA-WRITE (R118). -/
def Operands.offset (o : Operands) : Nat := (lowHalf o.arg).toNat

/-- The length operand of DATA-READ (R118). -/
def Operands.readLength (o : Operands) : Nat := (highHalf o.arg).toNat

/-- The target port of GRANT-RIGHTS (R168). -/
def Operands.grantTarget (o : Operands) : Byte := o.arg.extractLsb' 0 8

/-- The rights byte of GRANT-RIGHTS (R168). -/
def Operands.grantByte (o : Operands) : Byte := o.arg.extractLsb' 8 8

/-- No flag set and no payload, the form of most requests (Table 10-3). -/
def Operands.bare (o : Operands) : Bool := o.flags == 0 && o.payload.isEmpty

/-- The task field is 0 to 63. -/
def Operands.namesTask (o : Operands) : Bool := (taskOf o.task).isSome

/-- The argument word is 0 to 31. -/
def Operands.namesLock (o : Operands) : Bool := (lockOf o.arg).isSome

end Sys2Proof

namespace Sys2Proof.Machine

/-! ### Table 10-1: rights and tokens -/

/-- The rights a port may hold (R167). -/
inductive Right where
  | define | evict | grant
  deriving DecidableEq, Repr

/-- Whether a rights set holds a right. -/
def Rights.has (x : Rights) : Right → Bool
  | .define => x.define
  | .evict => x.evict
  | .grant => x.grant

/-- The right a request needs, if any (R167, Table 10-1). -/
def neededRight : RequestCode → Option Right
  | .grantRights => some .grant
  | .define | .discard | .retune | .salvage | .lockNew | .lockReturn => some .define
  | .evict => some .evict
  | .hello | .goodbye | .fetchNotice | .queryTask | .claim | .release | .suspend | .renew | .peekFrame | .dataRead
  | .dataWrite | .take | .takeWait | .withdraw | .give | .queryLock | .queryMemory => none

/-- Whether a rights set passes the right check of a request (R167). -/
def Rights.allow (x : Rights) (c : RequestCode) : Bool := (neededRight c).all x.has

/-! ### Rights bytes (Table 9-4) -/

/-- A rights byte as a rights set: DEFINE bit 0, EVICT bit 1, GRANT bit 2 (Table 9-4). -/
def Rights.ofByte (b : Byte) : Rights :=
  { define := b.getLsbD 0, evict := b.getLsbD 1, grant := b.getLsbD 2 }

/-- A rights set as its byte (Table 9-4). -/
def Rights.toByte (x : Rights) : Byte :=
  BitVec.ofNat 8 ((if x.define then 1 else 0) + (if x.evict then 2 else 0) + (if x.grant then 4 else 0))

/-! ### The parameter record (R159, Table 9-6) -/

/-- The parameter record of DEFINE and RETUNE. -/
structure Params where
  frameLimit  : Nat
  framePages  : Nat
  dataPages   : Nat
  resumeMode  : ResumeMode
  affinity    : PortSet
  watch       : PortSet
  leasePeriod : Nat
  entryWord   : Word
  deriving DecidableEq, Repr

/-- Reads a 16-byte parameter record; none where the payload has another length, the resume mode is neither RESTORE
nor NOTIFY, the affinity is empty or names a port outside 0-3, the watch set names one, the lease period exceeds
60000, or a zero byte is not zero (R11, R19). The geometry is left to the two requests. -/
def readParams : List Byte → Option Params
  | [limit, pages, data, mode, aff, watch, l0, l1, e0, e1, e2, e3, z0, z1, z2, z3] =>
    let lease := (word16 l0 l1).toNat
    if mode.toNat ≤ 1 ∧ aff.toNat ≠ 0 ∧ aff.toNat < 16 ∧ watch.toNat < 16 ∧ lease ≤ Config.leaseMax
        ∧ z0 = 0 ∧ z1 = 0 ∧ z2 = 0 ∧ z3 = 0 then
      some { frameLimit := limit.toNat, framePages := pages.toNat, dataPages := data.toNat,
             resumeMode := if mode = 0 then .restore else .notify,
             affinity := aff.truncate 4, watch := watch.truncate 4, leasePeriod := lease,
             entryWord := word32 e0 e1 e2 e3 }
    else none
  | _ => none

/-- The geometry of a DEFINE is in range: frame limit 1-8, frame pages 1-8, data pages 0-16 (R11). -/
def Params.geometryInRange (k : Params) : Bool :=
  (1 ≤ k.frameLimit && k.frameLimit ≤ 8) && (1 ≤ k.framePages && k.framePages ≤ 8) && k.dataPages ≤ 16

/-- The geometry of a RETUNE is zero (R19). -/
def Params.geometryZero (k : Params) : Bool := k.frameLimit == 0 && k.framePages == 0 && k.dataPages == 0

/-- The parameter record of a DEFINE, where it passes R11. -/
def defineParams (o : Operands) : Option Params := (readParams o.payload).filter (·.geometryInRange)

/-- The parameter record of a RETUNE, where it passes R19. -/
def retuneParams (o : Operands) : Option Params := (readParams o.payload).filter (·.geometryZero)

/-! ### The operand check (step 4 of Table 10-2) -/

/-- A length a payload or data read may have: 4 to 8192, a multiple of 4 (R34, R118). -/
def lengthOk (n : Nat) : Bool := 0 < n && n ≤ Config.payloadMax && n % 4 == 0

/-- The operand check of every request (R173 and the rules it gathers: R11, R19, R21, R34, R41, R53, R65, R66, R75,
R88, R99, R100, R101, R108, R118, R139, R146, R163, R164, R168). -/
def operandsOk (o : Operands) : RequestCode → Bool
  | .hello | .goodbye | .fetchNotice | .lockNew | .queryMemory => o.bare
  | .grantRights =>
    o.bare && o.grantTarget.toNat ≤ 3 && o.grantByte.toNat ≤ 7 && highHalf o.arg == 0
  | .define => o.flags == 0 && (o.namesTask || o.task == anyTask) && (defineParams o).isSome
  | .retune => o.flags == 0 && o.namesTask && (retuneParams o).isSome
  | .discard | .queryTask | .salvage | .release | .evict | .withdraw => o.bare && o.namesTask
  | .claim => o.namesTask && o.flags.toNat ≤ 1 && o.payload.isEmpty
  | .suspend => o.namesTask && o.flags == 0 && lengthOk o.payload.length
  | .renew => o.namesTask && o.payload.isEmpty
  | .peekFrame => o.bare && o.namesTask && o.arg.toNat ≤ 7
  | .dataRead =>
    o.bare && o.namesTask && o.offset % 4 == 0 && lengthOk o.readLength
      && o.offset + o.readLength ≤ Config.dataAreaMax
  | .dataWrite =>
    o.namesTask && o.flags == 0 && highHalf o.arg == 0 && o.offset % 4 == 0 && lengthOk o.payload.length
      && o.offset + o.payload.length ≤ Config.dataAreaMax
  | .lockReturn | .queryLock => o.bare && o.namesLock
  | .take | .takeWait | .give => o.bare && o.namesTask && o.namesLock

end Sys2Proof.Machine
end

