-- ==== Sys2Proof/Machine/Ops.lean ====
section
/-! DEFINITION. The named operations every meaning is built from: context memory, access to the tables, the response
line of a port (R161, R162), the posting of notices (R143), the lock pool's give-up, move and withdrawal (R96-R98),
the page map's stale marks and scrub queue (R130, R131, R133), and the lease timer (R71-R73). -/

namespace Sys2Proof.Machine

/-! ### Context memory -/

/-- The byte at an address; an unlisted address reads as zero (assumption 4). -/
def Memory.read : Memory → Nat → Byte
  | [], _ => 0
  | c :: rest, a => if c.1 = a then c.2 else Memory.read rest a

/-- The non-zero bytes of a run from an address on, as cells. -/
def Memory.cells : Nat → List Byte → Memory
  | _, [] => []
  | a, b :: bs => if b = 0 then Memory.cells (a + 1) bs else (a, b) :: Memory.cells (a + 1) bs

/-- Replaces the `len` bytes from `base` on by the given bytes, followed by zeros where they are fewer. -/
def Memory.writeRange (m : Memory) (base len : Nat) (bytes : List Byte) : Memory :=
  m.filter (fun c => c.1 < base) ++ Memory.cells base (bytes.take len) ++ m.filter (fun c => base + len ≤ c.1)

/-- The `len` bytes from `base` on. -/
def Memory.readRange (m : Memory) (base len : Nat) : List Byte :=
  (List.range len).map (fun i => Memory.read m (base + i))

/-- The canonical form: addresses of the 1024 pages, strictly rising, and no listed byte zero. -/
abbrev Memory.wf (m : Memory) : Prop :=
  m.Pairwise (fun x y => x.1 < y.1) ∧ ∀ c ∈ m, c.2 ≠ 0 ∧ c.1 < 1024 * Config.pageBytes

/-- The first address of a page. -/
def pageBase (n : PageNo) : Nat := n.val * Config.pageBytes

/-! ### The tables -/

/-- Port p's record. -/
def State.port (s : State) (p : Port) : PortRecord := s.ports[p]

/-- Replaces port p's record. -/
def State.setPort (s : State) (p : Port) (r : PortRecord) : State := { s with ports := s.ports.set p r }

/-- Changes port p's record. -/
def State.onPort (s : State) (p : Port) (f : PortRecord → PortRecord) : State := s.setPort p (f (s.port p))

/-- Task t's record; none where it is EMPTY. -/
def State.task (s : State) (t : TaskNo) : Option Task := s.tasks[t]

/-- Replaces task t's record. -/
def State.setTask (s : State) (t : TaskNo) (k : Option Task) : State := { s with tasks := s.tasks.set t k }

/-- Changes task t's record where it exists. -/
def State.onTask (s : State) (t : TaskNo) (f : Task → Task) : State := s.setTask t ((s.task t).map f)

/-- Lock l's record. -/
def State.lock (s : State) (l : LockNo) : Lock := s.locks[l]

/-- Replaces lock l's record. -/
def State.setLock (s : State) (l : LockNo) (k : Lock) : State := { s with locks := s.locks.set l k }

/-- Page n's record. -/
def State.page (s : State) (n : PageNo) : Page := s.pages[n]

/-- Replaces page n's record. -/
def State.setPage (s : State) (n : PageNo) (g : Page) : State := { s with pages := s.pages.set n g }

/-- Changes page n's record. -/
def State.onPage (s : State) (n : PageNo) (f : Page → Page) : State := s.setPage n (f (s.page n))

/-- Port p takes nothing: its reset line or the full-reset line is asserted (R165, R169). -/
def State.deaf (s : State) (p : Port) : Bool := s.frst || (s.port p).held

/-! ### The response line (R161, R162) -/

/-- A link answer as it begins to be sent: the unanswered count in the high half of its result word (R161). -/
def LinkAnswer.response (a : LinkAnswer) (unanswered : Nat) : Response :=
  { status := if a.overrun then .overrun else .linkError, tag := a.tag, task := a.task, notes := .none, token := 0,
    result := halves a.low unanswered, record := .none, bytes := [] }

/-- Starts what SDOn sends next, if it is free: the oldest link answer, which takes the unanswered count with it,
and otherwise the waiting response (R161). -/
def PortRecord.startSending (r : PortRecord) : PortRecord :=
  match r.sending with
  | some _ => r
  | none =>
    match r.linkAnswers with
    | a :: rest =>
      { r with sending := some (.link (a.response r.unanswered)), linkAnswers := rest, unanswered := 0 }
    | [] =>
      match r.waiting with
      | some resp => { r with sending := some (.answer resp), waiting := none }
      | none => r

/-- The head request has its response, which is sent as soon as SDOn is free of link answers (R162). -/
def PortRecord.respond (r : PortRecord) (resp : Response) : PortRecord :=
  { r with waiting := some resp }.startSending

/-- A message needs a link answer: it joins the list, or with four waiting the message stays unanswered and the
count rises, saturating at 255 (R161). -/
def PortRecord.addLinkAnswer (r : PortRecord) (a : LinkAnswer) : PortRecord :=
  if r.linkAnswers.length < Config.linkAnswerMax then { r with linkAnswers := r.linkAnswers ++ [a] }.startSending
  else { r with unanswered := min Config.countMax (r.unanswered + 1) }

/-- Sends a response to port p's head request. -/
def State.respond (s : State) (p : Port) (resp : Response) : State := s.onPort p (·.respond resp)

/-- The response to a request with a status, with nothing in its result word, notes, record and payload; its tag and
task field are the request's (R157, R178). -/
def reply (q : Request) (st : Status) : Response :=
  { status := st, tag := q.ops.tag, task := q.ops.task, notes := .none, token := q.echoToken, result := 0,
    record := .none, bytes := [] }

/-- Refuses a request: nothing changes but that it is answered (R178). -/
def State.refuse (s : State) (p : Port) (q : Request) (st : Status) : State := s.respond p (reply q st)

/-- Sends a response to port p's head request, which the function is given; nothing where the queue is empty. -/
def State.respondHead (s : State) (p : Port) (f : Request → Response) : State :=
  match (s.port p).requests with
  | [] => s
  | q :: _ => s.respond p (f q)

/-! ### Notices (R143) -/

/-- A post as the port's record decides it: not posted while OFFLINE, queued while the queue holds fewer than 16, and
otherwise counted as lost, up to 255 (R143). -/
def PortRecord.post (r : PortRecord) (n : Notice) : PortRecord :=
  if r.session = .online then
    if r.notices.length < Config.noticeMax then { r with notices := r.notices ++ [n] }.driveLine
    else { r with lost := min Config.countMax (r.lost + 1) }
  else r

/-- Posts a notice to one port. -/
def State.post (s : State) (p : Port) (n : Notice) : State := s.onPort p (·.post n)

/-- Posts a notice to each port of a list. -/
def State.postAll (s : State) (ps : List Port) (n : Notice) : State := ps.foldl (fun s p => s.post p n) s

/-- The members of a port set, less those left out. -/
def PortSet.members (w : PortSet) (except : Option Port) : List Port :=
  (List.finRange 4).filter (fun p => w.getLsbD p.val && except ≠ some p)

/-! ### Tasks, slots and the frame stack -/

/-- The number of frames on the stack (R32). -/
def Task.depth (k : Task) : Nat := k.stack.length

/-- READY at depth 0, otherwise SUSPENDED: the state of a task whose claim has ended (R3). -/
def Task.restState (k : Task) : TaskState := if k.stack.isEmpty then .ready else .suspended

/-- The frame record in a slot. -/
def Task.frameIn (k : Task) (slot : Nat) : Option FrameRecord := (k.slots[slot]?).bind (·.frame)

/-- The top slot and its frame record (R33). -/
def Task.top (k : Task) : Option (Nat × FrameRecord) :=
  k.stack.getLast?.bind (fun i => (k.frameIn i).map (fun f => (i, f)))

/-- The size of a slot in bytes (R9). -/
def Task.slotSize (k : Task) : Nat := k.framePages * Config.pageBytes

/-- The size of the data area in bytes (R117). -/
def Task.areaSize (k : Task) : Nat := k.dataPages * Config.pageBytes

/-- The page of part `part` of a slot (R10). -/
def Task.slotPage (k : Task) (slot part : Nat) : Option PageNo := (k.slotPages[slot]?).bind (·[part]?)

/-- The page of a data part (R10). -/
def Task.dataPage (k : Task) (part : Nat) : Option PageNo := k.dataAreaPages[part]?

/-- The lowest-numbered EMPTY slot; with none, a number past the last slot (R35, R36). -/
def Task.emptySlot (k : Task) : Nat := k.slots.findIdx (fun x => x.status = .empty)

/-- A slot given a status and a frame record. -/
def Task.withSlot (k : Task) (slot : Nat) (x : Slot) : Task := { k with slots := k.slots.set slot x }

/-- The claim removed with any operation, and the task at rest by its depth (R3, R46). -/
def Task.endClaim (k : Task) : Task := { k with claim := none, op := none, state := k.restState }

/-- The kind of an in-flight operation. -/
def Op.kind : Op → OpKind
  | .delivery .. => .delivery
  | .fill .. => .fill
  | .peek .. => .peek
  | .dataRead .. => .dataRead
  | .dataWrite .. => .dataWrite

/-! ### The lease timer (R8, R71-R73) -/

/-- The lease remaining that a start or restart loads: the lease period, or absent where it is 0 (R8). -/
def Task.leaseLoad (k : Task) : Option Nat := if k.leasePeriod = 0 then none else some k.leasePeriod

/-- The claim with its timer stopped (R72). -/
def Claim.stopLease (c : Claim) : Claim := { c with lease := none, expiryDue := false }

/-- The claim with its timer loaded (R71). -/
def Claim.loadLease (c : Claim) (load : Option Nat) : Claim := { c with lease := load, expiryDue := false }

/-- The task's claim's timer stopped: a token-bearing request has arrived (R72). -/
def Task.stopLease (k : Task) : Task := { k with claim := k.claim.map (·.stopLease) }

/-- The task's claim's timer loaded: a token-bearing request has completed, or the claim has become ACTIVE
(R73). -/
def Task.loadLease (k : Task) : Task := { k with claim := k.claim.map (·.loadLease k.leaseLoad) }

/-! ### The lock pool (R96-R98) -/

/-- The holding task of a holder (R93). -/
def Holder.task : Holder → TaskNo
  | .claim t _ => t
  | .frame t _ => t

/-- The locks a holder holds, ascending. -/
def State.heldBy (s : State) (h : Holder) : LockSet := (List.finRange 32).filter (fun l => (s.lock l).holder = some h)

/-- The lock on which a claim waits, if any (R94). -/
def State.waitOf (s : State) (w : Waiter) : Option LockNo :=
  (List.finRange 32).find? (fun l => w ∈ (s.lock l).waiters)

/-- The withdrawal procedure: the claim's entry leaves the waiter list it stands in (R98). -/
def State.withdraw (s : State) (w : Waiter) : State :=
  match s.waitOf w with
  | none => s
  | some l => s.setLock l { s.lock l with waiters := (s.lock l).waiters.erase w }

/-- LOCK-GRANTED to the port of the claim that received the lock (R115). -/
def State.postGrant (s : State) (t : TaskNo) (l : LockNo) : State :=
  match (s.task t).bind (·.claim) with
  | none => s
  | some c => s.post c.port (.lockGranted t l)

/-- The give-up procedure on a HELD lock: the holding task becomes its last holder task; it passes to its oldest
waiter, who is told, or becomes FREE (R96). -/
def State.giveUp (s : State) (l : LockNo) : State :=
  match (s.lock l).holder with
  | none => s
  | some h =>
    match (s.lock l).waiters with
    | [] => s.setLock l { state := .free, holder := none, waiters := [], lastHolder := some h.task }
    | w :: rest =>
      (s.setLock l { state := .held, holder := some (.claim w.task w.token), waiters := rest,
                     lastHolder := some h.task }).postGrant w.task l

/-- The give-up procedure on several locks, in the order listed (R96). -/
def State.giveUpAll (s : State) (ls : LockSet) : State := ls.foldl State.giveUp s

/-- The move procedure on one lock: from one holder to another of the same task, if that one holds it (R97). -/
def State.move (s : State) (l : LockNo) (h h' : Holder) : State :=
  if (s.lock l).holder = some h then s.setLock l { s.lock l with holder := some h' } else s

/-- The move procedure on several locks. -/
def State.moveAll (s : State) (ls : LockSet) (h h' : Holder) : State := ls.foldl (fun s l => s.move l h h') s

/-! ### The page map (R127-R133) -/

/-- The pages whose record meets a condition, ascending. -/
def State.pagesWhere (s : State) (f : Page → Bool) : List PageNo :=
  ((List.finRange 1024).zip s.pages.toList).filterMap (fun x => if f x.2 then some x.1 else none)

/-- How many pages meet a condition. -/
def State.countPages (s : State) (f : Page → Bool) : Nat := s.pages.toList.countP f

/-- The number of FREE pages. -/
def State.freeCount (s : State) : Nat := s.countPages (·.state == .free)

/-- The number of SCRUBBING pages. -/
def State.scrubbingCount (s : State) : Nat := s.countPages (·.state == .scrubbing)

/-- A page joins the tail of the scrub queue; a page has at most one entry (R131, assumption 15). -/
def State.joinQueue (s : State) (n : PageNo) : State :=
  if n ∈ s.scrubQueue then s else { s with scrubQueue := s.scrubQueue ++ [n] }

/-- Pages marked stale and appended to the scrub queue, in the order listed (R130). -/
def State.markStale (s : State) (ns : List PageNo) : State :=
  ns.foldl (fun s n => (s.onPage n Page.markStale).joinQueue n) s

/-- A slot becomes EMPTY: its frame record goes, and its pages become stale in part order (R27). -/
def State.emptySlot (s : State) (t : TaskNo) (slot : Nat) : State :=
  match s.task t with
  | none => s
  | some k =>
    (s.setTask t (some (k.withSlot slot { status := .empty, frame := none }))).markStale
      ((k.slotPages[slot]?).getD [])

/-- A fill's start: the slot's pages leave the scrub queue and lose their stale marks (R133). -/
def State.withdrawPages (s : State) (ns : List PageNo) : State :=
  ns.foldl (fun s n => s.onPage n Page.clearStale)
    { s with scrubQueue := s.scrubQueue.filter (fun n => n ∉ ns) }

/-- The bytes of a range of page n. -/
def State.readPage (s : State) (n : PageNo) (off len : Nat) : List Byte := s.mem.readRange (pageBase n + off) len

/-- Replaces a range of page n. -/
def State.writePage (s : State) (n : PageNo) (off len : Nat) (bytes : List Byte) : State :=
  { s with mem := s.mem.writeRange (pageBase n + off) len bytes }

/-! ### The arbiter's path (R136) -/

/-- The task on whose behalf port p's head request has an operation in flight, its record, claim and operation. -/
def State.opOf (s : State) (p : Port) : Option (TaskNo × Task × Claim × Op) :=
  match (s.port p).requests with
  | [] => none
  | q :: _ =>
    match taskOf q.ops.task with
    | none => none
    | some t =>
      match s.task t with
      | none => none
      | some k =>
        match k.claim, k.op with
        | some c, some o => if c.port = p then some (t, k, c, o) else none
        | _, _ => none

/-- A transfer's end or abandonment frees the path (R136). -/
def State.freePath (s : State) : State := { s with path := none }

/-- The operation of port p is aborted: its transfer, if it holds the path, is abandoned (R136). -/
def State.abandon (s : State) (p : Port) : State := if s.path = some (.port p) then s.freePath else s

end Sys2Proof.Machine
end

