-- ==== Sys2Proof/Machine/ClaimEnds.lean ====
section
/-! DEFINITION. The ends a claim meets without its host: the abnormal end with its five steps (R77-R83), the abort of
an operation in flight (R78, R39), reinstatement (R81, R112), the teardown of a port (R84, R166), and damage found
in delivery (R86). -/

namespace Sys2Proof.Machine

/-! ### Step 1: the abort of an operation -/

/-- The bytes of one part of a frame: those from part × 1024 on, at most 1024 of them (R31, R37). -/
def framePart (bytes : List Byte) (part : Nat) : List Byte :=
  (bytes.drop (part * Config.pageBytes)).take Config.pageBytes

/-- A page with an abandoned write partly in it: byte i is new where the free value says so (R39, assumption 5). -/
def partlyWritten (index : Nat) (old new : List Byte) : List Byte :=
  (List.range Config.pageBytes).map
    (fun i => if Config.partialWrite index i then new.getD i 0 else old.getD i 0)

/-- The write of a fill's part is abandoned under way and stays partly in its page (R39, R79). -/
def State.abandonFill (s : State) (k : Task) (slot part : Nat) (bytes : List Byte) : State :=
  match k.slotPage slot part with
  | none => s
  | some n =>
    { s.writePage n 0 Config.pageBytes
        (partlyWritten s.freeIndex (s.readPage n 0 Config.pageBytes) (framePart bytes part)) with
      freeIndex := s.freeIndex + 1 }

/-- What an abort does to slots and pages: an aborted fill's slot becomes EMPTY (R39); no other operation leaves a
change (Table 4-3). -/
def State.abortEffect (s : State) (t : TaskNo) (k : Task) (c : Claim) : Op → State
  | .fill slot next _ bytes _ =>
    (if s.path = some (.port c.port) then s.abandonFill k slot next bytes else s).emptySlot t slot
  | .delivery .. | .peek .. | .dataRead .. | .dataWrite .. => s

/-- Step 1 of the abnormal end: the operation in flight, if any, is aborted (R78), and a transfer of its own frees
the path (R136). -/
def State.abortOp (s : State) (t : TaskNo) : State :=
  match s.task t with
  | none => s
  | some k =>
    match k.claim, k.op with
    | some c, some o => ((s.abortEffect t k c o).onTask t (fun k => { k with op := none })).abandon c.port
    | _, _ => s

/-- The result word of an ABORTED answer: the pages a data write completed, otherwise 0 (Table 4-3). -/
def Op.abortResult : Op → Word
  | .dataWrite offset _ next _ => halves (next - offset / Config.pageBytes) 0
  | .delivery .. | .fill .. | .peek .. | .dataRead .. => 0

/-- The notes of an ABORTED answer: "wait withdrawn" where a fill's start withdrew a wait (Table 4-3). -/
def Op.abortNotes : Op → Notes
  | .fill _ _ _ _ withdrew => .withdrawn withdrew
  | .delivery .. | .peek .. | .dataRead .. | .dataWrite .. => .none

/-- The ABORTED answer to the request whose operation is aborted, with the claim's token (R60, R78). -/
def abortedReply (c : Claim) (o : Op) (q : Request) : Response :=
  { reply q .aborted with token := c.token, result := o.abortResult, notes := o.abortNotes }

/-! ### Step 3: locks and the retained frame -/

/-- A frame reconciled with the locks its claim held: it carries those of its own that the claim still held, and has
lost locks where one is missing (R81). -/
def FrameRecord.reconcile (f : FrameRecord) (held : LockSet) : FrameRecord :=
  { f with carried := held.filter (fun l => l ∈ f.carried)
           locksLost := f.locksLost || f.carried.any (fun l => l ∉ held) }

/-- Reinstatement: the retained slot returns FILLED to the top of the stack; the locks both hold move to the frame,
and the claim's others are given up in ascending number (R81, R112). -/
def State.reinstate (s : State) (t : TaskNo) (token : Half) (slot : Nat) : State :=
  match s.task t with
  | none => s
  | some k =>
    match k.frameIn slot with
    | none => s
    | some f =>
      let held := s.heldBy (.claim t token)
      let k' := { k.withSlot slot { status := .filled, frame := some (f.reconcile held) } with
                  stack := k.stack ++ [slot] }
      ((s.setTask t (some k')).moveAll (f.reconcile held).carried (.claim t token) (.frame t slot)).giveUpAll
        (held.filter (fun l => l ∉ f.carried))

/-- Step 3 of the abnormal end: an OPENING claim skips it, a retained frame is reinstated, and otherwise every lock
the claim holds is given up (R81, R82). -/
def State.endLocks (s : State) (t : TaskNo) (c : Claim) : State :=
  match c.phase, c.retained with
  | .opening, _ => s
  | .active, some slot => s.reinstate t c.token slot
  | .active, none => s.giveUpAll (s.heldBy (.claim t c.token))

/-- The locks that the abnormal end of task t's claim gives up, as they stand before it. -/
def State.endLosses (s : State) (t : TaskNo) : LockSet :=
  match s.task t with
  | none => []
  | some k =>
    match k.claim with
    | none => []
    | some c =>
      match c.phase, c.retained with
      | .opening, _ => []
      | .active, none => s.heldBy (.claim t c.token)
      | .active, some slot =>
        (s.heldBy (.claim t c.token)).filter (fun l => (k.frameIn slot).any (fun f => l ∉ f.carried))

/-! ### Step 5: notices -/

/-- The detail of CLAIM-LOST: 1 for EVICTED, 2 for LAPSED (R83); a PORT-DOWN end posts none. -/
def EndCause.detail : EndCause → Nat
  | .evicted => 1
  | .lapsed => 2
  | .portDown => 0

/-- Step 5 of the abnormal end: CLAIM-LOST to the claim's port unless it is torn down, then TASK-FREED to the ONLINE
watchers, the torn-down port left out (R83, Table 4-4). -/
def State.endNotices (s : State) (t : TaskNo) (watch : PortSet) (owner : Port) (cause : EndCause) (depth : Nat) : State :=
  match cause with
  | .portDown => s.postAll (PortSet.members watch (some owner)) (.taskFreed t depth)
  | .evicted | .lapsed =>
    (s.post owner (.claimLost t cause.detail)).postAll (PortSet.members watch none) (.taskFreed t depth)

/-- The depth of a task, 0 where it is EMPTY. -/
def State.depthOf (s : State) (t : TaskNo) : Nat := ((s.task t).map Task.depth).getD 0

/-! ### The abnormal end -/

/-- The ABORTED answer of an abnormal end, after its notices: to the owner's request in flight, unless the port is
torn down (R78, R83, Table 4-4). -/
def State.answerAborted (s : State) (c : Claim) (op : Option Op) (cause : EndCause) : State :=
  match cause, op with
  | .evicted, some o | .lapsed, some o => s.respondHead c.port (abortedReply c o)
  | .evicted, none | .lapsed, none | .portDown, _ => s

/-- The abnormal end of task t's claim: abort, withdrawal of its wait, locks and retained frame, removal of the claim,
notices, in one step (R77-R83). -/
def State.abnormalEnd (s : State) (t : TaskNo) (cause : EndCause) : State :=
  match s.task t with
  | none => s
  | some k =>
    match k.claim with
    | none => s
    | some c =>
      let s3 := ((s.abortOp t).withdraw ⟨t, c.token⟩).endLocks t c
      let s4 := s3.onTask t Task.endClaim
      (s4.endNotices t k.watch c.port cause (s4.depthOf t)).answerAborted c k.op cause

/-! ### Teardown (R84, R166) -/

/-- The tasks whose claim belongs to a port, ascending. -/
def State.claimsOf (s : State) (p : Port) : List TaskNo :=
  (List.finRange 64).filter (fun t => ((s.task t).bind (·.claim)).any (fun c => c.port == p))

/-- The lock wait of task t's claim is withdrawn. -/
def State.withdrawClaim (s : State) (t : TaskNo) : State :=
  match (s.task t).bind (·.claim) with
  | none => s
  | some c => s.withdraw ⟨t, c.token⟩

/-- The session ends: notice queue emptied, lost count 0, OFFLINE, the attention line deasserted (R151). -/
def PortRecord.close (r : PortRecord) : PortRecord :=
  { r with session := .offline, notices := [], lost := 0 }.driveLine

/-- The other ports, ascending. -/
def otherPorts (p : Port) : List Port := (List.finRange 4).filter (· ≠ p)

/-- Teardown of an ONLINE port: all its claims' waits withdrawn, its claims ended in ascending task number with cause
PORT-DOWN, its session closed, and PORT-DOWN with the number of claims ended posted to every other port (R84,
R166). An OFFLINE port is not torn down again. -/
def State.teardown (s : State) (p : Port) : State :=
  if (s.port p).session = .online then
    let ts := s.claimsOf p
    let ended := ts.foldl (fun s t => s.abnormalEnd t .portDown) (ts.foldl State.withdrawClaim s)
    (ended.onPort p PortRecord.close).postAll (otherPorts p) (.portDown p ts.length)
  else s

/-! ### Damage found in delivery (R86) -/

/-- The claim ends on damage and the task faults, the frame staying on top (R86). -/
def Task.fault (k : Task) : Task := { k with claim := none, op := none, state := .faulted }

/-- The DAMAGED answer: page in the low half, part in the high half (R43, R86, R120, R122). -/
def damagedReply (n : PageNo) (part : Nat) (q : Request) : Response :=
  { reply q .damaged with result := halves n.val part }

/-- Damage found in delivery on page n, part `part`: the page is marked poisoned, the claim ends, the task becomes
FAULTED, TASK-FAULTED goes to the ONLINE watchers, and the CLAIM is answered DAMAGED with its token (R86). -/
def State.damageInDelivery (s : State) (t : TaskNo) (k : Task) (c : Claim) (n : PageNo) (part : Nat) : State :=
  (((s.onPage n Page.markPoisoned).setTask t (some k.fault)).postAll (PortSet.members k.watch none)
      (.taskFaulted t k.depth)).respondHead c.port
    (fun q => { damagedReply n part q with token := c.token })

end Sys2Proof.Machine
end

