-- ==== Sys2Proof/Machine/Reads.lean ====
section
/-! DEFINITION. The long operations part by part, shared by the requests that start them and the transfers that carry
them on: delivery (R59, R61), fill (R35, R37, R38), peek (R42, R43), data read (R119, R120) and data write
(R121, R122). -/

namespace Sys2Proof.Machine

/-! ### Parts of frames -/

/-- The number of parts that hold the bytes of a frame of the given length (R31). -/
def partCount (length : Nat) : Nat := (length - 1) / Config.pageBytes + 1

/-- The number of frame bytes in one part of a frame of the given length. -/
def partLength (length part : Nat) : Nat := min Config.pageBytes (length - part * Config.pageBytes)

/-- The page of a slot part, where it is poisoned: a read of it learns so at once (R135). -/
def State.poisonedPart (s : State) (k : Task) (slot part : Nat) : Option PageNo :=
  (k.slotPage slot part).filter (fun n => (s.page n).poisoned)

/-! ### Delivery -/

/-- Delivery completion: the slot leaves the top of the stack RETAINED, its carried locks move to the claim, the claim
becomes ACTIVE with its timer loaded, and the CLAIM is answered OK (R61, R62, R110, Table 3-3). -/
def State.completeDelivery (s : State) (t : TaskNo) (k : Task) (c : Claim) (slot : Nat) (f : FrameRecord)
    (buffer : List Byte) : State :=
  let c' := { c with phase := .active, retained := some slot }
  let k' := { k.withSlot slot { status := .retained, frame := some f } with
              stack := k.stack.dropLast, op := none, claim := some (c'.loadLease k.leaseLoad) }
  ((s.setTask t (some k')).moveAll f.carried (.frame t slot) (.claim t c.token)).respondHead c.port
    (fun q =>
      { reply q .ok with
        token := c.token, result := f.tagWord, bytes := buffer
        record := .claim { startKind := .restored, level := f.origin, depth := k'.depth, entryWord := none,
                           tagWord := some f.tagWord, frameLength := some f.length, origin := some f.origin,
                           slot := some slot, locksLost := some f.locksLost, pushedBy := some f.pushedBy,
                           heldLocks := some f.carried } })

/-- The delivery reaches a part: damage where its page is poisoned (R135), completion where there is no such part, and
otherwise the part's transfer comes next (R61). -/
def State.reachDeliveryPart (s : State) (t : TaskNo) (k : Task) (c : Claim) (slot : Nat) (f : FrameRecord)
    (part : Nat) (buffer : List Byte) : State :=
  if part < partCount f.length then
    match s.poisonedPart k slot part with
    | some n => s.damageInDelivery t k c n part
    | none => s.setTask t (some { k with op := some (.delivery slot part buffer) })
  else s.completeDelivery t k c slot f buffer

/-! ### Peek -/

/-- Peek completion: the mark is removed, the lease restarts, and the request is answered OK with the frame's record
and bytes (R42, Table 2-5). -/
def State.completePeek (s : State) (t : TaskNo) (k : Task) (c : Claim) (position slot : Nat) (f : FrameRecord)
    (buffer : List Byte) : State :=
  (s.setTask t (some { k with op := none }.loadLease)).respondHead c.port
    (fun q =>
      { reply q .ok with
        bytes := buffer
        record := .peek { position := position, slot := slot, length := f.length, tagWord := f.tagWord,
                          origin := f.origin, carried := f.carried, locksLost := f.locksLost,
                          pushedBy := f.pushedBy } })

/-- A read finds page n damaged without ending the claim: the page is poisoned, the mark is removed, the lease
restarts, and the request is answered DAMAGED (R43, R120, R122). -/
def State.damageInRead (s : State) (t : TaskNo) (k : Task) (c : Claim) (n : PageNo) (part : Nat) : State :=
  ((s.onPage n Page.markPoisoned).setTask t (some { k with op := none }.loadLease)).respondHead c.port
    (damagedReply n part)

/-- The peek reaches a part: damage where its page is poisoned, completion where there is no such part, and otherwise
the part's transfer comes next (R42, R43, R135). -/
def State.reachPeekPart (s : State) (t : TaskNo) (k : Task) (c : Claim) (position slot : Nat) (f : FrameRecord)
    (part : Nat) (buffer : List Byte) : State :=
  if part < partCount f.length then
    match s.poisonedPart k slot part with
    | some n => s.damageInRead t k c n part
    | none => s.setTask t (some { k with op := some (.peek position slot part buffer) })
  else s.completePeek t k c position slot f buffer

/-! ### Fill -/

/-- TASK-FREED at a normal end: to the ONLINE watchers other than the port whose claim ended (R69). -/
def State.postFreed (s : State) (t : TaskNo) (k : Task) (owner : Port) (depth : Nat) : State :=
  s.postAll (PortSet.members k.watch (some owner)) (.taskFreed t depth)

/-- The retained slot of a claim that ends normally becomes EMPTY, its pages stale (R38, R66). -/
def State.dropRetained (s : State) (t : TaskNo) (c : Claim) : State :=
  match c.retained with
  | none => s
  | some slot => s.emptySlot t slot

/-- Fill completion: the claim's locks move to the new frame, the slot is FILLED and pushed, a retained slot empties,
the claim ends normally, TASK-FREED is posted, and the SUSPEND is answered OK (R38, R68, R109). -/
def State.completeFill (s : State) (t : TaskNo) (k : Task) (c : Claim) (slot : Nat) (tagWord : Word)
    (bytes : List Byte) (withdrew : Bool) : State :=
  let held := s.heldBy (.claim t c.token)
  let f : FrameRecord := { length := bytes.length, tagWord := tagWord, origin := c.level, carried := held,
                           locksLost := false, pushedBy := c.port }
  let k' := { k.withSlot slot { status := .filled, frame := some f } with stack := k.stack ++ [slot] }
  let s1 := (s.setTask t (some k')).moveAll held (.claim t c.token) (.frame t slot)
  let s2 := (s1.dropRetained t c).onTask t Task.endClaim
  (s2.postFreed t k c.port k'.depth).respondHead c.port
    (fun q => { reply q .ok with result := halves k'.depth slot, notes := .withdrawn withdrew })

/-! ### Data parts (R119) -/

/-- The first covered data part. -/
def firstPart (offset : Nat) : Nat := offset / Config.pageBytes

/-- The last covered data part. -/
def lastPart (offset length : Nat) : Nat := (offset + length - 1) / Config.pageBytes

/-- The covered data parts, ascending. -/
def coveredParts (offset length : Nat) : List Nat :=
  (List.range (lastPart offset length - firstPart offset + 1)).map (fun i => firstPart offset + i)

/-- The first byte of the area that a request covers in a part. -/
def partFrom (offset part : Nat) : Nat := max offset (part * Config.pageBytes)

/-- The byte after the last that a request covers in a part. -/
def partTo (offset length part : Nat) : Nat := min (offset + length) ((part + 1) * Config.pageBytes)

/-- The part is covered in full: the request's bytes include all 1024 bytes of it (R119). -/
def coveredFull (offset length part : Nat) : Bool :=
  partFrom offset part == part * Config.pageBytes && partTo offset length part == (part + 1) * Config.pageBytes

/-- The lowest-numbered of some data parts whose page is poisoned, with its page (R120, R121). -/
def State.poisonedData (s : State) (k : Task) (parts : List Nat) : Option (Nat × PageNo) :=
  parts.findSome? (fun part => ((k.dataPage part).filter (fun n => (s.page n).poisoned)).map (fun n => (part, n)))

/-- Data read completion: the mark is removed, the lease restarts, and the request is answered OK with the bytes
(R120). -/
def State.completeDataRead (s : State) (t : TaskNo) (k : Task) (c : Claim) (offset length : Nat)
    (buffer : List Byte) : State :=
  (s.setTask t (some { k with op := none }.loadLease)).respondHead c.port
    (fun q => { reply q .ok with
                result := halves (lastPart offset length - firstPart offset + 1) 0, bytes := buffer })

/-- Data write completion: the mark is removed, the lease restarts, and the request is answered OK with the parts
written and the poison marks cleared (R122). -/
def State.completeDataWrite (s : State) (t : TaskNo) (k : Task) (c : Claim) (offset length cleared : Nat) : State :=
  (s.setTask t (some { k with op := none }.loadLease)).respondHead c.port
    (fun q => { reply q .ok with result := halves (lastPart offset length - firstPart offset + 1) cleared })

end Sys2Proof.Machine
end

