-- ==== Sys2Proof/Machine/Session.lean ====
section
/-! DEFINITION. The requests a port engine carries out itself: HELLO, GOODBYE, GRANT-RIGHTS, FETCH-NOTICE (Chapters 8
and 9), and a code that names no request (R170). Each `take…` is the taking of a request at the head of its
port's queue once it has passed steps 2 to 4 of Table 10-2. -/

namespace Sys2Proof.Machine

/-- A port comes ONLINE: empty notice queue, lost count 0, attention line deasserted, its rights as before (R163). -/
def PortRecord.openSession (r : PortRecord) : PortRecord :=
  { r with session := .online, notices := [], lost := 0 }.driveLine

/-- HELLO: brings an OFFLINE port ONLINE and changes nothing on an ONLINE one; answered with the port, its rights, the
capacities and the FREE page count (R163, Table 9-8). -/
def takeHello (p : Port) (q : Request) (s : State) : State :=
  (if (s.port p).session = .online then s else s.onPort p PortRecord.openSession).respond p
    { reply q .ok with
      result := halves s.freeCount Config.partCode.toNat
      record := .hello { port := p, rights := (s.port p).rights, partCode := Config.partCode, taskCapacity := 64,
                         lockCapacity := 32, pageCapacity := 1024, freePages := s.freeCount } }

/-- GOODBYE: answered OK with the number of claims held; the teardown follows when that response has been sent
(R164). -/
def takeGoodbye (p : Port) (q : Request) (s : State) : State :=
  s.respond p { reply q .ok with result := halves (s.claimsOf p).length 0 }

/-- A port record with another rights set. -/
def PortRecord.withRights (r : PortRecord) (x : Rights) : PortRecord := { r with rights := x }

/-- Some port of the four holds the GRANT right. -/
def State.someGrant (s : State) : Bool := (List.finRange 4).any (fun p => (s.port p).rights.grant)

/-- GRANT-RIGHTS: replaces the target's rights set, unless no port would then hold GRANT (R168). -/
def takeGrantRights (p : Port) (q : Request) (s : State) : State :=
  let target : Port := Fin.ofNat 4 q.ops.grantTarget.toNat
  let x := Rights.ofByte q.ops.grantByte
  let s' := s.onPort target (·.withRights x)
  if s'.someGrant then
    s'.respond p { reply q .ok with
                   result := halves (s.port target).rights.toByte.toNat x.toByte.toNat }
  else s.refuse p q .lastGrant

/-- The queue after a fetch: the head removed and, where the lost count is not 0, NOTICES-LOST appended and the count
cleared (R147). -/
def PortRecord.fetch (r : PortRecord) : PortRecord :=
  (if r.lost = 0 then { r with notices := r.notices.tail }
   else { r with notices := r.notices.tail ++ [Notice.noticesLost r.lost], lost := 0 }).driveLine

/-- FETCH-NOTICE: the head notice, or NONE where the queue is empty; its task field is FFh (R147). -/
def takeFetchNotice (p : Port) (q : Request) (s : State) : State :=
  match (s.port p).notices with
  | [] => s.respond p { reply q .none with task := 0xFF }
  | n :: _ =>
    (s.onPort p PortRecord.fetch).respond p
      { reply q .ok with
        task := 0xFF, result := halves (s.port p).fetch.notices.length 0, record := .notice n }

/-- A code that names no request, taken on an ONLINE port: BAD-PARAM, and no effect (R170). -/
def takeUnknownCode (p : Port) (q : Request) (s : State) : State := s.refuse p q .badParam

end Sys2Proof.Machine
end

