-- ==== Sys2Proof/Machine/TaskRequests.lean ====
section
/-! DEFINITION. The requests that manage tasks as objects: DEFINE, DISCARD, RETUNE, QUERY-TASK (Chapter 1) and
SALVAGE (R88), with the page map's reservation and release (R128, R129). -/

namespace Sys2Proof.Machine

/-- Steps 5 of a request that names a task: refused NO-TASK where it is EMPTY, otherwise decided by the record
(R175). -/
def State.withTask (s : State) (p : Port) (q : Request) (f : TaskNo → Task → State) : State :=
  match taskOf q.ops.task with
  | none => s.refuse p q .badParam
  | some t =>
    match s.task t with
    | none => s.refuse p q .noTask
    | some k => f t k

/-! ### DEFINE -/

/-- The page count of a task (R9). -/
def Params.pageCount (x : Params) : Nat := (x.frameLimit + 1) * x.framePages + x.dataPages

/-- The role of the i-th page of a reservation, counting from 0 (R10). -/
def Params.roleOf (x : Params) (i : Nat) : Role :=
  if i < (x.frameLimit + 1) * x.framePages then .slotPart (i / x.framePages) (i % x.framePages)
  else .dataPart (i - (x.frameLimit + 1) * x.framePages)

/-- A new task: READY, with its page lists cut from the reservation, all slots EMPTY, no frame, claim or operation
(R10, R14). -/
def Params.newTask (x : Params) (pages : List PageNo) : Task :=
  { state := .ready, frameLimit := x.frameLimit, framePages := x.framePages, dataPages := x.dataPages,
    resumeMode := x.resumeMode, affinity := x.affinity, watch := x.watch, leasePeriod := x.leasePeriod,
    entryWord := x.entryWord
    slotPages := (List.range (x.frameLimit + 1)).map (fun i => (pages.drop (i * x.framePages)).take x.framePages)
    dataAreaPages := pages.drop ((x.frameLimit + 1) * x.framePages)
    slots := List.replicate (x.frameLimit + 1) { status := .empty, frame := none }
    stack := [], claim := none, op := none }

/-- The pages of a reservation become RESERVED with their owner and roles, neither stale nor poisoned (R128). -/
def State.reserve (s : State) (t : TaskNo) (x : Params) (pages : List PageNo) : State :=
  pages.zipIdx.foldl
    (fun s a => s.setPage a.1 { state := .reserved, owner := some t, role := some (x.roleOf a.2),
                                stale := false, poisoned := false }) s

/-- The record a DEFINE takes: the one named, if it is EMPTY, or the lowest EMPTY one for "any task" (R12). -/
def State.chooseRecord (s : State) (b : Byte) : Except Status TaskNo :=
  match taskOf b with
  | some t => if (s.task t).isNone then .ok t else .error .exists_
  | none =>
    match (List.finRange 64).find? (fun t => (s.task t).isNone) with
    | some t => .ok t
    | none => .error .tableFull

/-- DEFINE: chooses an EMPTY record, reserves the lowest FREE pages and makes the task READY (R11-R14). -/
def takeDefine (p : Port) (q : Request) (s : State) : State :=
  match defineParams q.ops, s.chooseRecord q.ops.task with
  | none, _ => s.refuse p q .badParam
  | some _, .error st => s.refuse p q st
  | some x, .ok t =>
    let free := s.pagesWhere (·.state == .free)
    if free.length < x.pageCount then
      s.respond p { reply q .noPages with result := halves x.pageCount s.scrubbingCount }
    else
      let pages := free.take x.pageCount
      ((s.reserve t x pages).setTask t (some (x.newTask pages))).respond p
        { reply q .ok with task := BitVec.ofNat 8 t.val
                           result := halves x.pageCount (free.length - x.pageCount) }

/-! ### DISCARD -/

/-- The locks the task's FILLED frames carry, ascending (R16). -/
def Task.carriedLocks (k : Task) : LockSet :=
  (List.finRange 32).filter (fun l =>
    k.slots.any (fun x => x.status == .filled && x.frame.any (fun f => l ∈ f.carried)))

/-- A page released by DISCARD becomes SCRUBBING with its poison as it was (R129). -/
def Page.release (g : Page) : Page := { g with state := .scrubbing, owner := none, role := none, stale := false }

/-- The queue at a release: a queued page keeps its entry, the page in progress is not queued, any other is appended
(R129). -/
def State.queueReleased (s : State) (n : PageNo) : State :=
  if n ∈ s.scrubQueue then s else if s.scrubbing = some n then s else { s with scrubQueue := s.scrubQueue ++ [n] }

/-- The release of pages by DISCARD (R17, R129). -/
def State.releasePages (s : State) (ns : List PageNo) : State :=
  ns.foldl (fun s n => (s.onPage n Page.release).queueReleased n) s

/-- The pages a task owns, ascending (R126). -/
def State.pagesOf (s : State) (t : TaskNo) : List PageNo := s.pagesWhere (fun g => g.owner == some t)

/-- DISCARD: gives up the frames' carried locks, sends the task's pages to SCRUBBING and empties the record; a RUNNING
task is BUSY (R15-R18). -/
def takeDiscard (p : Port) (q : Request) (s : State) : State :=
  s.withTask p q fun t k =>
    if k.state = .running then s.refuse p q .busy
    else
      let s1 := s.giveUpAll k.carriedLocks
      ((s1.releasePages (s1.pagesOf t)).setTask t none).respond p
        { reply q .ok with result := halves (s1.pagesOf t).length k.carriedLocks.length }

/-! ### RETUNE -/

/-- A task with its retunable parameters replaced (R20). -/
def Task.retuned (k : Task) (x : Params) : Task :=
  { k with resumeMode := x.resumeMode, affinity := x.affinity, watch := x.watch, leasePeriod := x.leasePeriod,
           entryWord := x.entryWord }

/-- RETUNE: replaces the retunable parameters of a task that has no operation in flight (R19, R20). -/
def takeRetune (p : Port) (q : Request) (s : State) : State :=
  match retuneParams q.ops with
  | none => s.refuse p q .badParam
  | some x =>
    s.withTask p q fun t k =>
      if k.op.isSome then s.refuse p q .conflict
      else (s.setTask t (some (k.retuned x))).respond p (reply q .ok)

/-! ### QUERY-TASK -/

/-- The result record of QUERY-TASK (Table 1-6). -/
def Task.report (k : Task) : TaskRecord :=
  { state := k.state, depth := k.depth, frameLimit := k.frameLimit, framePages := k.framePages,
    dataPages := k.dataPages, resumeMode := k.resumeMode, affinity := k.affinity, watch := k.watch,
    leasePeriod := k.leasePeriod, entryWord := k.entryWord
    claimPort := k.claim.map (·.port), claimLevel := k.claim.map (·.level), claimPhase := k.claim.map (·.phase)
    claimStart := k.claim.map (·.startKind), leaseRemaining := k.claim.bind (·.lease)
    inFlight := k.op.map Op.kind
    topTagWord := k.top.map (·.2.tagWord), topOrigin := k.top.map (·.2.origin) }

/-- QUERY-TASK: the record as it stands at the taking; nothing changes (R21, R22). -/
def takeQueryTask (p : Port) (q : Request) (s : State) : State :=
  s.withTask p q fun _ k => s.respond p { reply q .ok with record := .task k.report }

/-! ### SALVAGE -/

/-- The top slot leaves the stack, and the task is at rest by its new depth (R88). -/
def Task.popToRest (k : Task) : Task :=
  let k' := { k with stack := k.stack.dropLast }
  { k' with state := k'.restState }

/-- SALVAGE: gives up the damaged top frame's carried locks, drops the frame and frees the task; refused NOT-FAULTED
unless the task is FAULTED (R88). -/
def takeSalvage (p : Port) (q : Request) (s : State) : State :=
  s.withTask p q fun t k =>
    match k.state, k.top with
    | .faulted, some (slot, f) =>
      let s1 := ((s.giveUpAll f.carried).emptySlot t slot).onTask t Task.popToRest
      (s1.postAll (PortSet.members k.watch none) (.taskFreed t (s1.depthOf t))).respond p
        { reply q .ok with result := halves (s1.depthOf t) f.carried.length }
    | _, _ => s.refuse p q .notFaulted

end Sys2Proof.Machine
end

