-- ==== Sys2Proof/Machine/ClaimRequests.lean ====
section
/-! DEFINITION. The requests that open, keep and end claims: CLAIM with its decision table (R53-R60), RELEASE (R66),
SUSPEND and its fill's start (R34-R36), RENEW (R65) and EVICT (R75, R76). -/

namespace Sys2Proof.Machine

/-! ### The token check -/

/-- The claim a request is made for: its task is RUNNING under a claim of the requesting port with the token given
(R51). -/
def State.claimFor (s : State) (p : Port) (q : Request) (t : TaskNo) : Option (Task × Claim) :=
  (s.task t).bind fun k => k.claim.bind fun c =>
    if k.state = .running ∧ c.port = p ∧ c.token = q.ops.token then some (k, c) else none

/-- Steps 5 and 6 of a token-bearing request of the task table (R175, R176). -/
def State.withClaim (s : State) (p : Port) (q : Request) (f : TaskNo → Task → Claim → State) : State :=
  s.withTask p q fun t _ =>
    match s.claimFor p q t with
    | none => s.refuse p q .stale
    | some (k, c) => f t k c

/-- A request refused after its token check: the timer restarts at the answer (R72, R73, R176). -/
def State.refuseClaim (s : State) (p : Port) (q : Request) (t : TaskNo) (st : Status) : State :=
  (s.onTask t Task.loadLease).refuse p q st

/-! ### CLAIM -/

/-- The claim decision table: start kind and level of a claim, by the task's state, its resume mode, its top frame's
origin and the force-restore flag (Table 3-2). -/
def startKindOf (state : TaskState) (mode : ResumeMode) (top : Option Origin) (force : Bool) : StartKind × Origin :=
  match state, top with
  | .ready, _ => (.fresh, .primary)
  | _, none => (.fresh, .primary)
  | _, some o =>
    match mode, o, force with
    | .restore, o, _ => (.restored, o)
    | .notify, .handler, _ => (.restored, .handler)
    | .notify, .primary, true => (.restored, .primary)
    | .notify, .primary, false => (.notified, .handler)

/-- The start kind and level a CLAIM of task k would have. -/
def Task.startFor (k : Task) (force : Bool) : StartKind × Origin :=
  startKindOf k.state k.resumeMode (k.top.map (·.2.origin)) force

/-- The matter-specific checks of CLAIM, in order (R54). -/
def Task.claimRefusal (k : Task) (p : Port) (force : Bool) : Option Status :=
  if k.affinity.getLsbD p.val = false then some .denied
  else if k.state = .faulted then some .faulted
  else if k.state = .running then some .busy
  else if (k.startFor force).1 = .notified ∧ k.depth = k.frameLimit then some .noRoom
  else none

/-- The counter after a token is issued: after 65535 it advances to 1, so 0 is never issued (R50). -/
def tokenAfter (n : Half) : Half := if n = 0xFFFF then 1 else n + 1

/-- The claim record at acceptance (Table 3-1). -/
def newClaim (p : Port) (token : Half) (kind : StartKind) (level : Origin) : Claim :=
  { port := p, token := token, phase := if kind = .restored then .opening else .active, level := level,
    startKind := kind, retained := none, lease := none, expiryDue := false }

/-- The task at a CLAIM's acceptance: RUNNING under the new claim (R56). -/
def Task.claimed (k : Task) (c : Claim) : Task := { k with state := .running, claim := some c }

/-- The result record of a claim answered at once (Table 3-3, FRESH and NOTIFIED). -/
def Task.startReport (k : Task) (kind : StartKind) (level : Origin) : ClaimRecord :=
  { startKind := kind, level := level, depth := k.depth, entryWord := some k.entryWord
    tagWord := if kind = .notified then k.top.map (·.2.tagWord) else none
    frameLength := if kind = .notified then k.top.map (·.2.length) else none
    origin := if kind = .notified then k.top.map (·.2.origin) else none
    slot := none, locksLost := none, pushedBy := none, heldLocks := none }

/-- An accepted CLAIM: the token is issued; a FRESH or NOTIFIED claim is answered at once with its timer loaded, and a
RESTORED claim starts the delivery of the top frame (R50, R56-R60). -/
def State.acceptClaim (s : State) (p : Port) (q : Request) (t : TaskNo) (k : Task) : State :=
  let kind := (k.startFor q.ops.force).1
  let level := (k.startFor q.ops.force).2
  let c := newClaim p s.nextToken kind level
  let s' := { s with nextToken := tokenAfter s.nextToken }
  match kind, k.top with
  | .restored, some (slot, f) =>
    (s'.setTask t (some (k.claimed c))).reachDeliveryPart t (k.claimed c) c slot f 0 []
  | _, _ =>
    (s'.setTask t (some (k.claimed c).loadLease)).respond p
      { reply q .ok with token := c.token, result := k.entryWord, record := .claim (k.startReport kind level) }

/-- CLAIM: checked in the order of R54 and accepted (R53-R60). -/
def takeClaim (p : Port) (q : Request) (s : State) : State :=
  s.withTask p q fun t k =>
    match k.claimRefusal p q.ops.force with
    | some st => s.refuse p q st
    | none => s.acceptClaim p q t k

/-! ### RELEASE -/

/-- RELEASE: withdraws the claim's wait, gives up its locks, empties its retained slot, ends the claim and posts
TASK-FREED (R66, R69, R111). -/
def takeRelease (p : Port) (q : Request) (s : State) : State :=
  s.withClaim p q fun t k c =>
    let held := s.heldBy (.claim t c.token)
    let s1 := ((s.withdraw ⟨t, c.token⟩).giveUpAll held).dropRetained t c
    let s2 := s1.onTask t Task.endClaim
    (s2.postFreed t k c.port k.depth).respond p
      { reply q .ok with
        result := halves k.depth held.length, notes := .withdrawn (s.waitOf ⟨t, c.token⟩).isSome }

/-! ### SUSPEND -/

/-- A task at its fill's start: the slot FILLING, the operation FILL, the claim's timer stopped (R35, R72). -/
def Task.startFill (k : Task) (tagWord : Word) (bytes : List Byte) (withdrew : Bool) : Task :=
  { (k.withSlot k.emptySlot { status := .filling, frame := none }).stopLease with
    op := some (.fill k.emptySlot 0 tagWord bytes withdrew) }

/-- SUSPEND: starts a fill in the lowest EMPTY slot, withdrawing the claim's lock wait and the slot's scrub entries; a
frame larger than the slot is BAD-PARAM (R34, R35, R133). -/
def takeSuspend (p : Port) (q : Request) (s : State) : State :=
  s.withClaim p q fun t k c =>
    if q.ops.payload.length > k.slotSize then s.refuseClaim p q t .badParam
    else
      let w : Waiter := ⟨t, c.token⟩
      ((s.withdraw w).setTask t (some (k.startFill q.ops.arg q.ops.payload (s.waitOf w).isSome))).withdrawPages
        ((k.slotPages[k.emptySlot]?).getD [])

/-! ### RENEW -/

/-- RENEW: restarts the claim's lease timer and answers with the lease period loaded (R65). -/
def takeRenew (p : Port) (q : Request) (s : State) : State :=
  s.withClaim p q fun t k _ =>
    (s.onTask t Task.loadLease).respond p { reply q .ok with result := halves (k.leaseLoad.getD 0) 0 }

/-! ### EVICT -/

/-- EVICT: the abnormal end of the task's claim with cause EVICTED, answered with the depth after it and the number of
locks given up; NOT-RUNNING where the task has no claim (R75, R76). -/
def takeEvict (p : Port) (q : Request) (s : State) : State :=
  s.withTask p q fun t k =>
    if k.state = .running then
      let s' := s.abnormalEnd t .evicted
      s'.respond p { reply q .ok with result := halves (s'.depthOf t) (s.endLosses t).length }
    else s.refuse p q .notRunning

end Sys2Proof.Machine
end

