-- ==== Sys2Proof/Machine/DataRequests.lean ====
section
/-! DEFINITION. The requests that read and write a running task's frames and data area: PEEK-FRAME (R41, R42),
DATA-READ (R118-R120) and DATA-WRITE (R118, R119, R121); and QUERY-MEMORY (R139). -/

namespace Sys2Proof.Machine

/-- PEEK-FRAME: starts a peek of the frame at the given stack position; a position not below the depth is BAD-PARAM
(R41, R42). -/
def takePeekFrame (p : Port) (q : Request) (s : State) : State :=
  s.withClaim p q fun t k c =>
    match k.stack[q.ops.arg.toNat]? with
    | none => s.refuseClaim p q t .badParam
    | some slot =>
      match k.frameIn slot with
      | none => s.refuseClaim p q t .badParam
      | some f =>
        (s.setTask t (some k.stopLease)).reachPeekPart t k.stopLease c.stopLease q.ops.arg.toNat slot f 0 []

/-- The poison check of a data request refuses it DAMAGED, naming page and part; the lease restarts (R120, R121,
R176). -/
def State.refuseDamaged (s : State) (p : Port) (q : Request) (t : TaskNo) (part : Nat) (n : PageNo) : State :=
  (s.onTask t Task.loadLease).respond p (damagedReply n part q)

/-- DATA-READ: the bound check, the poison check of the covered parts, and the read's start (R118-R120). -/
def takeDataRead (p : Port) (q : Request) (s : State) : State :=
  s.withClaim p q fun t k _ =>
    let offset := q.ops.offset
    let length := q.ops.readLength
    if offset + length > k.areaSize then s.refuseClaim p q t .badParam
    else
      match s.poisonedData k (coveredParts offset length) with
      | some (part, n) => s.refuseDamaged p q t part n
      | none => s.setTask t (some { k.stopLease with op := some (.dataRead offset length (firstPart offset) []) })

/-- DATA-WRITE: the bound check, the poison check of the partly covered parts, and the write's start (R118, R119,
R121). -/
def takeDataWrite (p : Port) (q : Request) (s : State) : State :=
  s.withClaim p q fun t k _ =>
    let offset := q.ops.offset
    let length := q.ops.payload.length
    if offset + length > k.areaSize then s.refuseClaim p q t .badParam
    else
      match s.poisonedData k ((coveredParts offset length).filter (fun part => !coveredFull offset length part)) with
      | some (part, n) => s.refuseDamaged p q t part n
      | none =>
        s.setTask t (some { k.stopLease with op := some (.dataWrite offset q.ops.payload (firstPart offset) 0) })

/-- QUERY-MEMORY: the page map's counts; nothing changes (R139). -/
def takeQueryMemory (p : Port) (q : Request) (s : State) : State :=
  s.respond p
    { reply q .ok with
      result := halves s.freeCount s.scrubbingCount
      record := .memory { free := s.freeCount, reserved := s.countPages (·.state == .reserved),
                          scrubbing := s.scrubbingCount, queueLength := s.scrubQueue.length,
                          inProgress := s.scrubbing, poisoned := s.countPages (·.poisoned) } }

end Sys2Proof.Machine
end

