-- ==== Sys2Proof/Machine/LockRequests.lean ====
section
/-! DEFINITION. The seven lock requests: LOCK-NEW, LOCK-RETURN, TAKE, TAKE-WAIT, WITHDRAW, GIVE and QUERY-LOCK
(Chapter 5). -/

namespace Sys2Proof.Machine

/-- Step 5 of a request that names a lock: refused NO-LOCK where it is UNALLOCATED (R175). -/
def State.withLock (s : State) (p : Port) (q : Request) (f : LockNo → State) : State :=
  match lockOf q.ops.arg with
  | none => s.refuse p q .badParam
  | some l => if (s.lock l).state = .unallocated then s.refuse p q .noLock else f l

/-- Steps 5 and 6 of TAKE, TAKE-WAIT and GIVE: the task first, then the lock, then the token (R101, R175). -/
def State.withClaimLock (s : State) (p : Port) (q : Request) (f : TaskNo → Claim → LockNo → State) : State :=
  s.withTask p q fun t _ =>
    s.withLock p q fun l =>
      match s.claimFor p q t with
      | none => s.refuse p q .stale
      | some (_, c) => f t c l

/-- The answer to a lock request that passed its token check: the timer restarts with it (R101). -/
def State.answerClaim (s : State) (p : Port) (t : TaskNo) (resp : Response) : State :=
  (s.onTask t Task.loadLease).respond p resp

/-- The locks still UNALLOCATED. -/
def State.unallocatedCount (s : State) : Nat :=
  ((List.finRange 32).filter (fun l => (s.lock l).state = .unallocated)).length

/-- LOCK-NEW: the lowest UNALLOCATED lock becomes FREE; LOCKS-EXHAUSTED where there is none (R99). -/
def takeLockNew (p : Port) (q : Request) (s : State) : State :=
  match (List.finRange 32).find? (fun l => (s.lock l).state = .unallocated) with
  | none => s.refuse p q .locksExhausted
  | some l =>
    let s' := s.setLock l { state := .free, holder := none, waiters := [], lastHolder := none }
    s'.respond p { reply q .ok with result := halves l.val s'.unallocatedCount }

/-- LOCK-RETURN: a FREE lock becomes UNALLOCATED; a HELD one is refused HELD (R100). -/
def takeLockReturn (p : Port) (q : Request) (s : State) : State :=
  s.withLock p q fun l =>
    if (s.lock l).state = .held then s.refuse p q .held
    else
      let s' := s.setLock l .unallocated
      s'.respond p { reply q .ok with result := halves l.val s'.unallocatedCount }

/-- A FREE lock taken by a claim (Table 5-4): its last holder task stays. -/
def Lock.takenBy (k : Lock) (h : Holder) : Lock :=
  { state := .held, holder := some h, waiters := [], lastHolder := k.lastHolder }

/-- What TAKE and TAKE-WAIT do with a lock by its holder, the case of a lock held elsewhere left to each (Table 5-4,
cases 1 to 3 of R103). -/
def State.takeLock (s : State) (p : Port) (q : Request) (t : TaskNo) (c : Claim) (l : LockNo)
    (elsewhere : State) : State :=
  if (s.lock l).state = .free then
    (s.setLock l ((s.lock l).takenBy (.claim t c.token))).answerClaim p t
      { reply q .ok with result := halves l.val 0 }
  else if (s.lock l).holder = some (.claim t c.token) then
    s.answerClaim p t { reply q .ok with result := halves l.val 0, notes := .held }
  else
    match (s.lock l).holder with
    | some (.frame t' _) => if t' = t then s.answerClaim p t (reply q .ownFrame) else elsewhere
    | some (.claim _ _) | none => elsewhere

/-- TAKE: takes a lock without waiting; HELD where it is held elsewhere (R102). -/
def takeTake (p : Port) (q : Request) (s : State) : State :=
  s.withClaimLock p q fun t c l => s.takeLock p q t c l (s.answerClaim p t (reply q .held))

/-- TAKE-WAIT: takes a FREE lock, or queues the claim at the tail of the waiter list of one held elsewhere (R103). -/
def takeTakeWait (p : Port) (q : Request) (s : State) : State :=
  s.withClaimLock p q fun t c l =>
    s.takeLock p q t c l
      (if (s.waitOf ⟨t, c.token⟩).isSome then s.answerClaim p t (reply q .alreadyWaiting)
       else if (s.lock l).waiters.length ≥ Config.waiterMax then s.answerClaim p t (reply q .waitFull)
       else
         (s.setLock l { s.lock l with waiters := (s.lock l).waiters ++ [⟨t, c.token⟩] }).answerClaim p t
           { reply q .queued with result := halves l.val ((s.lock l).waiters.length + 1) })

/-- WITHDRAW: removes the claim's entry from the waiter list it stands in; NOT-WAITING where it waits on no lock
(R105). -/
def takeWithdraw (p : Port) (q : Request) (s : State) : State :=
  s.withClaim p q fun t _ c =>
    match s.waitOf ⟨t, c.token⟩ with
    | none => s.answerClaim p t (reply q .notWaiting)
    | some l => (s.withdraw ⟨t, c.token⟩).answerClaim p t { reply q .ok with result := halves l.val 0 }

/-- The high half of GIVE's result word: the new holder's task, or FFFFh where the lock became FREE (R107). -/
def Lock.nextTask (k : Lock) : Nat := (k.waiters.head?.map (fun w => w.task.val)).getD 0xFFFF

/-- GIVE: the give-up procedure on a lock the claim holds; NOT-HOLDER for any other (R107). -/
def takeGive (p : Port) (q : Request) (s : State) : State :=
  s.withClaimLock p q fun t c l =>
    if (s.lock l).holder = some (.claim t c.token) then
      (s.giveUp l).answerClaim p t { reply q .ok with result := halves l.val (s.lock l).nextTask }
    else s.answerClaim p t (reply q .notHolder)

/-- The kind of a holder (Table 9-4). -/
def Holder.kind : Holder → HolderKind
  | .claim _ _ => .claim
  | .frame _ _ => .frame

/-- The slot of a frame that holds a lock; none for a claim (Table 5-5). -/
def Holder.slot : Holder → Option Nat
  | .claim _ _ => none
  | .frame _ slot => some slot

/-- The port of the claim that holds a lock; none for a frame (Table 5-5). -/
def State.holderPort (s : State) : Holder → Option Port
  | .claim t _ => ((s.task t).bind (·.claim)).map (·.port)
  | .frame _ _ => none

/-- The result record of QUERY-LOCK (Table 5-5). -/
def State.lockReport (s : State) (l : LockNo) : LockRecord :=
  let k := s.lock l
  { held := k.state == .held, holderKind := k.holder.map Holder.kind, holderTask := k.holder.map Holder.task,
    holderPort := k.holder.bind s.holderPort, holderSlot := k.holder.bind Holder.slot,
    waiters := k.waiters.length, lastHolder := k.lastHolder }

/-- QUERY-LOCK: a lock's record; nothing changes (R108). -/
def takeQueryLock (p : Port) (q : Request) (s : State) : State :=
  s.withLock p q fun l => s.respond p { reply q .ok with record := .lock (s.lockReport l) }

end Sys2Proof.Machine
end

