-- ==== Sys2Proof/Machine/Requests.lean ====
section
/-! DEFINITION. How a port takes requests: the checks of steps 2 to 4 (R163, R167, R173), the dispatch of a request to
the block that carries it out (R162), its arrival at the request queue (R161), and the meanings of the 26 request
commands. A request command is the arrival of that request's message, its link check passed (assumption 1). -/

namespace Sys2Proof.Machine

/-- The carrying out of a request that has passed steps 2 to 4, by its code (R162). -/
def carryOut (p : Port) (q : Request) (s : State) : RequestCode → State
  | .hello => takeHello p q s
  | .goodbye => takeGoodbye p q s
  | .grantRights => takeGrantRights p q s
  | .fetchNotice => takeFetchNotice p q s
  | .define => takeDefine p q s
  | .discard => takeDiscard p q s
  | .retune => takeRetune p q s
  | .queryTask => takeQueryTask p q s
  | .salvage => takeSalvage p q s
  | .claim => takeClaim p q s
  | .release => takeRelease p q s
  | .suspend => takeSuspend p q s
  | .renew => takeRenew p q s
  | .evict => takeEvict p q s
  | .peekFrame => takePeekFrame p q s
  | .dataRead => takeDataRead p q s
  | .dataWrite => takeDataWrite p q s
  | .lockNew => takeLockNew p q s
  | .lockReturn => takeLockReturn p q s
  | .take => takeTake p q s
  | .takeWait => takeTakeWait p q s
  | .withdraw => takeWithdraw p q s
  | .give => takeGive p q s
  | .queryLock => takeQueryLock p q s
  | .queryMemory => takeQueryMemory p q s

/-- The taking of the head request: the session check, the right check and the operand check, and then the request
itself (R162, R163, R167, R170, R171). -/
def takeRequest (p : Port) (q : Request) (s : State) : State :=
  match RequestCode.ofByte q.code with
  | none => if (s.port p).session = .online then takeUnknownCode p q s else s.refuse p q .notOnline
  | some c =>
    if (s.port p).session = .offline ∧ c ≠ .hello then s.refuse p q .notOnline
    else if !(s.port p).rights.allow c then s.refuse p q .noRight
    else if !operandsOk q.ops c then s.refuse p q .badParam
    else carryOut p q s c

/-- The OVERRUN answer to a request (R161). -/
def overrunAnswer (q : Request) : LinkAnswer := { overrun := true, tag := q.ops.tag, task := q.ops.task, low := 4 }

/-- A port record with a request joined at the tail of its queue. -/
def PortRecord.queueRequest (r : PortRecord) (q : Request) : PortRecord := { r with requests := r.requests ++ [q] }

/-- A request that passed the link check arrives: it joins the queue, and is taken at once where the queue was empty;
with four requests queued it is answered OVERRUN and discarded (R161, R162). A port held in reset takes nothing
(R165, R169). -/
def arrive (p : Port) (q : Request) (s : State) : State :=
  if s.deaf p then s
  else if (s.port p).requests.length < Config.requestQueueMax then
    if (s.port p).requests.isEmpty then takeRequest p q (s.onPort p (·.queueRequest q))
    else s.onPort p (·.queueRequest q)
  else s.onPort p (·.addLinkAnswer (overrunAnswer q))

/-- The outcome of a command of the part: always a next state. -/
abbrev Result := Host.Outcome State Fault Refusal

/-! ### The request commands -/

/-- HELLO arrives on port p (R163). -/
def execHello (p : Port) (o : Operands) (s : State) : Result := .next (arrive p ⟨RequestCode.hello.byte, o⟩ s)

/-- GOODBYE arrives on port p (R164). -/
def execGoodbye (p : Port) (o : Operands) (s : State) : Result := .next (arrive p ⟨RequestCode.goodbye.byte, o⟩ s)

/-- GRANT-RIGHTS arrives on port p (R168). -/
def execGrantRights (p : Port) (o : Operands) (s : State) : Result :=
  .next (arrive p ⟨RequestCode.grantRights.byte, o⟩ s)

/-- FETCH-NOTICE arrives on port p (R147). -/
def execFetchNotice (p : Port) (o : Operands) (s : State) : Result :=
  .next (arrive p ⟨RequestCode.fetchNotice.byte, o⟩ s)

/-- DEFINE arrives on port p (R14). -/
def execDefine (p : Port) (o : Operands) (s : State) : Result := .next (arrive p ⟨RequestCode.define.byte, o⟩ s)

/-- DISCARD arrives on port p (R18). -/
def execDiscard (p : Port) (o : Operands) (s : State) : Result := .next (arrive p ⟨RequestCode.discard.byte, o⟩ s)

/-- RETUNE arrives on port p (R20). -/
def execRetune (p : Port) (o : Operands) (s : State) : Result := .next (arrive p ⟨RequestCode.retune.byte, o⟩ s)

/-- QUERY-TASK arrives on port p (R21). -/
def execQueryTask (p : Port) (o : Operands) (s : State) : Result := .next (arrive p ⟨RequestCode.queryTask.byte, o⟩ s)

/-- SALVAGE arrives on port p (R88). -/
def execSalvage (p : Port) (o : Operands) (s : State) : Result := .next (arrive p ⟨RequestCode.salvage.byte, o⟩ s)

/-- CLAIM arrives on port p (R56). -/
def execClaim (p : Port) (o : Operands) (s : State) : Result := .next (arrive p ⟨RequestCode.claim.byte, o⟩ s)

/-- RELEASE arrives on port p (R66). -/
def execRelease (p : Port) (o : Operands) (s : State) : Result := .next (arrive p ⟨RequestCode.release.byte, o⟩ s)

/-- SUSPEND arrives on port p (R35). -/
def execSuspend (p : Port) (o : Operands) (s : State) : Result := .next (arrive p ⟨RequestCode.suspend.byte, o⟩ s)

/-- RENEW arrives on port p (R65). -/
def execRenew (p : Port) (o : Operands) (s : State) : Result := .next (arrive p ⟨RequestCode.renew.byte, o⟩ s)

/-- EVICT arrives on port p (R76). -/
def execEvict (p : Port) (o : Operands) (s : State) : Result := .next (arrive p ⟨RequestCode.evict.byte, o⟩ s)

/-- PEEK-FRAME arrives on port p (R42). -/
def execPeekFrame (p : Port) (o : Operands) (s : State) : Result := .next (arrive p ⟨RequestCode.peekFrame.byte, o⟩ s)

/-- DATA-READ arrives on port p (R120). -/
def execDataRead (p : Port) (o : Operands) (s : State) : Result := .next (arrive p ⟨RequestCode.dataRead.byte, o⟩ s)

/-- DATA-WRITE arrives on port p (R121). -/
def execDataWrite (p : Port) (o : Operands) (s : State) : Result := .next (arrive p ⟨RequestCode.dataWrite.byte, o⟩ s)

/-- LOCK-NEW arrives on port p (R99). -/
def execLockNew (p : Port) (o : Operands) (s : State) : Result := .next (arrive p ⟨RequestCode.lockNew.byte, o⟩ s)

/-- LOCK-RETURN arrives on port p (R100). -/
def execLockReturn (p : Port) (o : Operands) (s : State) : Result :=
  .next (arrive p ⟨RequestCode.lockReturn.byte, o⟩ s)

/-- TAKE arrives on port p (R102). -/
def execTake (p : Port) (o : Operands) (s : State) : Result := .next (arrive p ⟨RequestCode.take.byte, o⟩ s)

/-- TAKE-WAIT arrives on port p (R103). -/
def execTakeWait (p : Port) (o : Operands) (s : State) : Result := .next (arrive p ⟨RequestCode.takeWait.byte, o⟩ s)

/-- WITHDRAW arrives on port p (R105). -/
def execWithdraw (p : Port) (o : Operands) (s : State) : Result := .next (arrive p ⟨RequestCode.withdraw.byte, o⟩ s)

/-- GIVE arrives on port p (R107). -/
def execGive (p : Port) (o : Operands) (s : State) : Result := .next (arrive p ⟨RequestCode.give.byte, o⟩ s)

/-- QUERY-LOCK arrives on port p (R108). -/
def execQueryLock (p : Port) (o : Operands) (s : State) : Result := .next (arrive p ⟨RequestCode.queryLock.byte, o⟩ s)

/-- QUERY-MEMORY arrives on port p (R139). -/
def execQueryMemory (p : Port) (o : Operands) (s : State) : Result :=
  .next (arrive p ⟨RequestCode.queryMemory.byte, o⟩ s)

/-- A request whose code names no request arrives on port p (R170). -/
def execUnknownCode (p : Port) (code : Byte) (o : Operands) (s : State) : Result := .next (arrive p ⟨code, o⟩ s)

end Sys2Proof.Machine
end

