-- ==== Sys2Proof/Machine/Link.lean ====
section
/-! DEFINITION. The events on a port's link: the end of a message on SDIn with its link check (R160, R161) and the
departure of the last byte on SDOn (R161, R162, R164); and the response messages as they stand on the wire (R155,
R157, R158, R159). -/

namespace Sys2Proof.Machine

/-! ### MESSAGE_END -/

/-- The LINK-ERROR answer to a message: bytes 1 and 2 as received, or FFh, and the number of bytes received, held at
FFFFh (R160). -/
def linkErrorAnswer (m : LineMessage) : LinkAnswer :=
  { overrun := false, tag := m.bytes.getD 1 0xFF, task := m.bytes.getD 2 0xFF, low := min 0xFFFF m.bytes.length }

/-- MESSAGE_END: the message is link-checked, and the request in it arrives or the message is answered LINK-ERROR; a
port held in reset takes nothing (R160, R161, R165). -/
def execMessageEnd (p : Port) (m : LineMessage) (s : State) : Result :=
  .next (match linkCheck m with
    | .ok q => arrive p q s
    | .error _ => if s.deaf p then s else s.onPort p (·.addLinkAnswer (linkErrorAnswer m)))

/-! ### RESPONSE_SENT -/

/-- The response just sent is the OK of a GOODBYE, which the teardown follows (R164). -/
def PortRecord.closing (r : PortRecord) (resp : Response) : Bool :=
  r.requests.head?.any (fun q => q.code == RequestCode.goodbye.byte) && resp.status == .ok

/-- The head request's response has left: the head is removed (R162). -/
def PortRecord.dropHead (r : PortRecord) : PortRecord := { r with sending := none, requests := r.requests.tail }

/-- The next request, if any, is the head and is taken (R162). -/
def State.takeNext (s : State) (p : Port) : State :=
  match (s.port p).requests with
  | [] => s
  | q :: _ => takeRequest p q s

/-- RESPONSE_SENT: after a link answer the next message starts; after a response the head is removed, a GOODBYE's
teardown is carried out, and the next request is taken. Nothing is sent where SDOn is idle (R161, R162, R164). -/
def execResponseSent (p : Port) (s : State) : Result :=
  .next (match (s.port p).sending with
    | none => s
    | some (.link _) => s.onPort p (fun r => { r with sending := none }.startSending)
    | some (.answer resp) =>
      let s1 := s.onPort p PortRecord.dropHead
      let s2 := if (s.port p).closing resp then s1.teardown p else s1
      (s2.takeNext p).onPort p PortRecord.startSending)

/-! ### Responses on the wire -/

/-- The value of a status code (Table 10-6). -/
def Status.byte : Status → Byte
  | .ok => 0x00 | .queued => 0x01 | .none => 0x02
  | .linkError => 0x10 | .overrun => 0x11
  | .notOnline => 0x20 | .noRight => 0x21 | .badParam => 0x22
  | .noTask => 0x30 | .noLock => 0x31 | .exists_ => 0x32 | .tableFull => 0x33 | .noPages => 0x34
  | .locksExhausted => 0x35
  | .busy => 0x40 | .notRunning => 0x41 | .conflict => 0x42 | .stale => 0x43 | .denied => 0x44 | .noRoom => 0x45
  | .faulted => 0x46 | .notFaulted => 0x47 | .lastGrant => 0x48
  | .damaged => 0x50 | .aborted => 0x51
  | .held => 0x60 | .ownFrame => 0x61 | .notHolder => 0x62 | .waitFull => 0x63 | .alreadyWaiting => 0x64
  | .notWaiting => 0x65

/-- The notes field (Table 9-3). -/
def Notes.byte (x : Notes) : Byte := BitVec.ofNat 8 ((if x.alreadyHeld then 1 else 0) + (if x.waitWithdrawn then 2 else 0))

/-- A one-byte number. -/
def wire8 (n : Nat) : List Byte := [BitVec.ofNat 8 n]

/-- A two-byte number, low byte first. -/
def wire16 (n : Nat) : List Byte := bytes16 (BitVec.ofNat 16 n)

/-- An optional field of `width` bytes: FFh in each byte where it is absent (R158). -/
def wireOpt {α : Type} (width : Nat) (f : α → List Byte) : Option α → List Byte
  | some a => f a
  | none => List.replicate width 0xFF

/-- A set of locks: lock n is bit n (R158). -/
def wireLocks (ls : LockSet) : List Byte :=
  bytes32 ((List.finRange 32).foldr (fun l w => if l ∈ ls then w ||| (1#32 <<< l.val) else w) 0#32)

/-- A set of ports: port n is bit n (R158). -/
def wirePorts (w : PortSet) : List Byte := [w.zeroExtend 8]

/-- Yes is 1 and no is 0 (R158). -/
def wireBool (b : Bool) : List Byte := wire8 (if b then 1 else 0)

/-- Enumeration values (Table 9-4). -/
def TaskState.wire : TaskState → List Byte
  | .ready => wire8 0 | .suspended => wire8 1 | .running => wire8 2 | .faulted => wire8 3

/-- Enumeration values (Table 9-4). -/
def ResumeMode.wire : ResumeMode → List Byte
  | .restore => wire8 0 | .notify => wire8 1

/-- Enumeration values (Table 9-4). -/
def Origin.wire : Origin → List Byte
  | .primary => wire8 0 | .handler => wire8 1

/-- Enumeration values (Table 9-4). -/
def Phase.wire : Phase → List Byte
  | .opening => wire8 0 | .active => wire8 1

/-- Enumeration values (Table 9-4). -/
def StartKind.wire : StartKind → List Byte
  | .fresh => wire8 0 | .restored => wire8 1 | .notified => wire8 2

/-- Enumeration values (Table 9-4). -/
def OpKind.wire : OpKind → List Byte
  | .delivery => wire8 0 | .fill => wire8 1 | .peek => wire8 2 | .dataRead => wire8 3 | .dataWrite => wire8 4

/-- Enumeration values (Table 9-4). -/
def HolderKind.wire : HolderKind → List Byte
  | .claim => wire8 0 | .frame => wire8 1

/-- The notice record (Tables 8-2 and 9-7): kind, task, lock, port, detail. -/
def Notice.wire : Notice → List Byte
  | .lockGranted t l => wire8 1 ++ wire8 t.val ++ wire8 l.val ++ wire8 0xFF ++ wire16 0xFFFF
  | .claimLost t d => wire8 2 ++ wire8 t.val ++ wire8 0xFF ++ wire8 0xFF ++ wire16 d
  | .taskFreed t d => wire8 3 ++ wire8 t.val ++ wire8 0xFF ++ wire8 0xFF ++ wire16 d
  | .taskFaulted t d => wire8 4 ++ wire8 t.val ++ wire8 0xFF ++ wire8 0xFF ++ wire16 d
  | .portDown p d => wire8 5 ++ wire8 0xFF ++ wire8 0xFF ++ wire8 p.val ++ wire16 d
  | .noticesLost d => wire8 6 ++ wire8 0xFF ++ wire8 0xFF ++ wire8 0xFF ++ wire16 d

/-- The HELLO record (Table 9-8), 10 bytes. -/
def HelloRecord.wire (r : HelloRecord) : List Byte :=
  wire8 r.port.val ++ [r.rights.toByte] ++ bytes16 r.partCode ++ wire8 r.taskCapacity ++ wire8 r.lockCapacity
    ++ wire16 r.pageCapacity ++ wire16 r.freePages

/-- The QUERY-TASK record (Table 1-6), 26 bytes. -/
def TaskRecord.wire (r : TaskRecord) : List Byte :=
  r.state.wire ++ wire8 r.depth ++ wire8 r.frameLimit ++ wire8 r.framePages ++ wire8 r.dataPages ++ r.resumeMode.wire
    ++ wirePorts r.affinity ++ wirePorts r.watch ++ wire16 r.leasePeriod ++ bytes32 r.entryWord
    ++ wireOpt 1 (fun p => wire8 p.val) r.claimPort ++ wireOpt 1 Origin.wire r.claimLevel
    ++ wireOpt 1 Phase.wire r.claimPhase ++ wireOpt 1 StartKind.wire r.claimStart
    ++ wireOpt 2 wire16 r.leaseRemaining ++ wireOpt 1 OpKind.wire r.inFlight ++ wireOpt 4 bytes32 r.topTagWord
    ++ wireOpt 1 Origin.wire r.topOrigin

/-- The CLAIM record (Table 3-3), 21 bytes. -/
def ClaimRecord.wire (r : ClaimRecord) : List Byte :=
  r.startKind.wire ++ r.level.wire ++ wire8 r.depth ++ wireOpt 4 bytes32 r.entryWord ++ wireOpt 4 bytes32 r.tagWord
    ++ wireOpt 2 wire16 r.frameLength ++ wireOpt 1 Origin.wire r.origin ++ wireOpt 1 wire8 r.slot
    ++ wireOpt 1 wireBool r.locksLost ++ wireOpt 1 (fun p => wire8 p.val) r.pushedBy
    ++ wireOpt 4 wireLocks r.heldLocks

/-- The PEEK-FRAME record (Table 2-5), 15 bytes. -/
def PeekRecord.wire (r : PeekRecord) : List Byte :=
  wire8 r.position ++ wire8 r.slot ++ wire16 r.length ++ bytes32 r.tagWord ++ r.origin.wire ++ wireLocks r.carried
    ++ wireBool r.locksLost ++ wire8 r.pushedBy.val

/-- The QUERY-LOCK record (Table 5-5), 7 bytes: lock state FREE 1, HELD 2. -/
def LockRecord.wire (r : LockRecord) : List Byte :=
  wire8 (if r.held then 2 else 1) ++ wireOpt 1 HolderKind.wire r.holderKind
    ++ wireOpt 1 (fun t => wire8 t.val) r.holderTask ++ wireOpt 1 (fun p => wire8 p.val) r.holderPort
    ++ wireOpt 1 wire8 r.holderSlot ++ wire8 r.waiters ++ wireOpt 1 (fun t => wire8 t.val) r.lastHolder

/-- The QUERY-MEMORY record (Table 7-5), 12 bytes. -/
def MemoryRecord.wire (r : MemoryRecord) : List Byte :=
  wire16 r.free ++ wire16 r.reserved ++ wire16 r.scrubbing ++ wire16 r.queueLength
    ++ wireOpt 2 (fun n => wire16 n.val) r.inProgress ++ wire16 r.poisoned

/-- The record section: the records of CLAIM and PEEK-FRAME (R155, Table 9-5). -/
def ResultRecord.section_ : ResultRecord → List Byte
  | .claim r => r.wire
  | .peek r => r.wire
  | .none | .hello _ | .task _ | .lock _ | .memory _ | .notice _ => []

/-- The record that stands in the payload (Table 9-5). -/
def ResultRecord.inPayload : ResultRecord → List Byte
  | .hello r => r.wire
  | .task r => r.wire
  | .lock r => r.wire
  | .memory r => r.wire
  | .notice n => n.wire
  | .none | .claim _ | .peek _ => []

/-- The payload of a response: its record, where the payload holds it, or its frame or data bytes. -/
def Response.payload (r : Response) : List Byte := r.record.inPayload ++ r.bytes

/-- The twelve header bytes of a response (Table 9-3). -/
def Response.header (r : Response) : List Byte :=
  [r.status.byte, r.tag, r.task, r.notes.byte] ++ bytes16 r.token ++ wire16 r.payload.length ++ bytes32 r.result

/-- A response or link answer as the part sends it: header, record section, payload, CRC trailer (R155). -/
def Response.wire (r : Response) : List Byte := withTrailer (r.header ++ r.record.section_ ++ r.payload)

/-- The response an outgoing message carries. -/
def Outgoing.response : Outgoing → Response
  | .answer r => r
  | .link r => r

/-- The link bytes of a message the part sends, each with the periods of 1 the part leaves after it: R154 allows at most
nine and does not say how many, so their number is the free value `Config.sendGap` (assumption 24). -/
def sendRun (bytes : List Byte) : List (Byte × Nat) :=
  bytes.zipIdx.map (fun x => (x.1, (Config.sendGap bytes x.2).val))

/-- The bits of the message on SDOn, its bytes spaced as `sendRun` has them; at rest the line is 1 (R154). -/
def PortRecord.sdo (r : PortRecord) : List Bool :=
  match r.sending with
  | none => [true]
  | some x => runBits (sendRun x.response.wire)

end Sys2Proof.Machine
end

