-- ==== Sys2Proof/Machine/Transfers.lean ====
section
/-! DEFINITION. The memory arbiter (R136), the completion of each kind of transfer (R37, R42, R61, R120, R122), and the
scrubber (R132). A completion that no granted transfer of its kind stands for has nothing to complete and changes
nothing (assumption 8). -/

namespace Sys2Proof.Machine

/-! ### The arbiter -/

/-- Port p's operation has its next part ready to move; a fill's page that the scrubber is zeroing is not ready until
the scrub has completed (R133, R136). -/
def State.portReady (s : State) (p : Port) : Bool :=
  match s.opOf p with
  | none => false
  | some (_, k, _, .fill slot next _ _ _) => (k.slotPage slot next).all (fun n => s.scrubbing ≠ some n)
  | some _ => true

/-- A claimant waits when it has a transfer ready (R136). -/
def State.waits (s : State) : Claimant → Bool
  | .port p => s.portReady p
  | .scrubber => s.scrubbing.isSome

/-- The cyclic order of the claimants that starts after the given one and ends with it (R136). -/
def rotationAfter : Claimant → List Claimant
  | .port 0 => [.port 1, .port 2, .port 3, .scrubber, .port 0]
  | .port 1 => [.port 2, .port 3, .scrubber, .port 0, .port 1]
  | .port 2 => [.port 3, .scrubber, .port 0, .port 1, .port 2]
  | .port 3 => [.scrubber, .port 0, .port 1, .port 2, .port 3]
  | .scrubber => [.port 0, .port 1, .port 2, .port 3, .scrubber]

/-- The claimant a free path goes to: the first waiting one after the pointer (R136). -/
def State.nextGrant (s : State) : Option Claimant := (rotationAfter s.pointer).find? s.waits

/-- ARBITER_GRANT: a free path goes to the next waiting claimant in rotation, which the pointer then names (R136).
While FRST_N is asserted nothing is granted (R169). -/
def execArbiterGrant (s : State) : Result :=
  .next (if s.frst = true ∨ s.path ≠ none then s
    else match s.nextGrant with
      | none => s
      | some x => { s with pointer := x, path := some x })

/-! ### Reads of frames -/

/-- The frame bytes of one part, as a sound or corrected read delivers them (R31, R134). -/
def State.readFramePart (s : State) (n : PageNo) (length part : Nat) : List Byte := s.readPage n 0 (partLength length part)

/-- DELIVERY_PART_TRANSFER: a delivery's read of one part completes: damage where it is uncorrectable, and otherwise the
bytes join the buffer and the delivery goes on to its next part or completes (R61, R86). -/
def execDeliveryPartTransfer (e : ReadOutcome) (s : State) : Result :=
  .next (match s.path with
    | some (.port p) =>
      match s.opOf p with
      | some (t, k, c, .delivery slot next buffer) =>
        match k.frameIn slot, k.slotPage slot next with
        | some f, some n =>
          if e = .uncorrectable then s.freePath.damageInDelivery t k c n next
          else s.freePath.reachDeliveryPart t k c slot f (next + 1) (buffer ++ s.readFramePart n f.length next)
        | _, _ => s
      | _ => s
    | _ => s)

/-- PEEK_PART_TRANSFER: a peek's read of one part completes (R42, R43). -/
def execPeekPartTransfer (e : ReadOutcome) (s : State) : Result :=
  .next (match s.path with
    | some (.port p) =>
      match s.opOf p with
      | some (t, k, c, .peek position slot next buffer) =>
        match k.frameIn slot, k.slotPage slot next with
        | some f, some n =>
          if e = .uncorrectable then s.freePath.damageInRead t k c n next
          else s.freePath.reachPeekPart t k c position slot f (next + 1)
            (buffer ++ s.readFramePart n f.length next)
        | _, _ => s
      | _ => s
    | _ => s)

/-! ### Fill -/

/-- FILL_PAGE_WRITE: a fill's write of one part completes: the page holds the frame bytes of the part followed by zeros
and loses its poison; after the last part of the slot the fill completes (R37, R38). -/
def execFillPageWrite (s : State) : Result :=
  .next (match s.path with
    | some (.port p) =>
      match s.opOf p with
      | some (t, k, c, .fill slot next tagWord bytes withdrew) =>
        match k.slotPage slot next with
        | some n =>
          let s1 := (s.freePath.writePage n 0 Config.pageBytes (framePart bytes next)).onPage n Page.clearPoison
          if next + 1 < k.framePages then
            s1.setTask t (some { k with op := some (.fill slot (next + 1) tagWord bytes withdrew) })
          else s1.completeFill t { k with op := none } c slot tagWord bytes withdrew
        | none => s
      | _ => s
    | _ => s)

/-! ### Data area -/

/-- The bytes of a covered part that a request covers, as its page holds them. -/
def State.readDataPart (s : State) (n : PageNo) (offset length part : Nat) : List Byte :=
  s.readPage n (partFrom offset part - part * Config.pageBytes) (partTo offset length part - partFrom offset part)

/-- DATA_READ_PART_TRANSFER: a data read's read of one covered page completes: damage where it is uncorrectable, and
otherwise the covered bytes join the buffer and the read goes on or completes (R120). -/
def execDataReadPartTransfer (e : ReadOutcome) (s : State) : Result :=
  .next (match s.path with
    | some (.port p) =>
      match s.opOf p with
      | some (t, k, c, .dataRead offset length next buffer) =>
        match k.dataPage next with
        | some n =>
          if e = .uncorrectable then s.freePath.damageInRead t k c n next
          else if next < lastPart offset length then
            s.freePath.setTask t
              (some { k with op := some (.dataRead offset length (next + 1)
                                          (buffer ++ s.readDataPart n offset length next)) })
          else s.freePath.completeDataRead t k c offset length (buffer ++ s.readDataPart n offset length next)
        | none => s
      | _ => s
    | _ => s)

/-- The bytes a data write puts into one covered part. -/
def writePart (offset : Nat) (bytes : List Byte) (part : Nat) : List Byte :=
  (bytes.drop (partFrom offset part - offset)).take (partTo offset bytes.length part - partFrom offset part)

/-- One covered page of a data write takes effect: the covered bytes are replaced, and a part covered in full clears
the page's poison (R122). -/
def State.writeDataPart (s : State) (n : PageNo) (offset : Nat) (bytes : List Byte) (part : Nat) : State :=
  let s1 := s.writePage n (partFrom offset part - part * Config.pageBytes)
    (partTo offset bytes.length part - partFrom offset part) (writePart offset bytes part)
  if coveredFull offset bytes.length part then s1.onPage n Page.clearPoison else s1

/-- DATA_WRITE_PAGE_TRANSFER: a data write's transfer of one covered page completes, the page's write taking effect
whole; a partly covered page found uncorrectable stops the write, the page poisoned and not written (R122). -/
def execDataWritePageTransfer (e : ReadOutcome) (s : State) : Result :=
  .next (match s.path with
    | some (.port p) =>
      match s.opOf p with
      | some (t, k, c, .dataWrite offset bytes next cleared) =>
        match k.dataPage next with
        | some n =>
          if e = .uncorrectable ∧ coveredFull offset bytes.length next = false then
            s.freePath.damageInRead t k c n next
          else
            let cleared' := if coveredFull offset bytes.length next && (s.page n).poisoned then cleared + 1 else cleared
            let s1 := s.freePath.writeDataPart n offset bytes next
            if next < lastPart offset bytes.length then
              s1.setTask t (some { k with op := some (.dataWrite offset bytes (next + 1) cleared') })
            else s1.completeDataWrite t k c offset bytes.length cleared'
        | none => s
      | _ => s
    | _ => s)

/-! ### The scrubber -/

/-- SCRUBBER_TAKE_PAGE: the idle scrubber takes the head of a non-empty scrub queue as its page in progress (R132).
While FRST_N is asserted it takes none (R169). -/
def execScrubberTakePage (s : State) : Result :=
  .next (if s.frst = true ∨ s.scrubbing ≠ none then s
    else match s.scrubQueue with
      | [] => s
      | n :: rest => { s with scrubQueue := rest, scrubbing := some n })

/-- SCRUB_COMPLETION: the scrubber's zero-write completes: the page is zero, its record is settled by Table 7-3, and
the scrubber is idle (R132). -/
def execScrubCompletion (s : State) : Result :=
  .next (match s.path, s.scrubbing with
    | some .scrubber, some n =>
      { (s.freePath.writePage n 0 Config.pageBytes []).onPage n (·.afterScrub (n ∈ s.scrubQueue)) with
        scrubbing := none }
    | _, _ => s)

end Sys2Proof.Machine
end

