-- ==== Sys2Proof/Machine/Resets.lean ====
section
/-! DEFINITION. The lease timers' events (R71, R74), the port reset line (R165) and full reset (R169). -/

namespace Sys2Proof.Machine

/-! ### Lease timers -/

/-- One millisecond on a claim's timer: a running timer falls by one; one that would fall below 1 is due to expire
(R71, assumption 7). -/
def Claim.tick (c : Claim) : Claim :=
  match c.lease with
  | none => c
  | some n => if 2 ≤ n then { c with lease := some (n - 1) } else { c with expiryDue := true }

/-- LEASE_TIMER_MILLISECOND: each running lease timer falls by one (R71). -/
def execLeaseTimerMillisecond (s : State) : Result :=
  .next ((List.finRange 64).foldl
    (fun s t => s.onTask t (fun k => { k with claim := k.claim.map Claim.tick })) s)

/-- The expiry of task t's claim can be taken: its timer is running and would have fallen below 1 (R71). -/
def State.expiryDue (s : State) (t : TaskNo) : Bool :=
  ((s.task t).bind (·.claim)).any (fun c => c.lease.isSome && c.expiryDue)

/-- LEASE_EXPIRY: a timer that would fall below 1 expires, and the claim ends abnormally with cause LAPSED; a timer that
is stopped or has time remaining does not expire (R71, R74). -/
def execLeaseExpiry (t : TaskNo) (s : State) : Result :=
  .next (if s.expiryDue t then s.abnormalEnd t .lapsed else s)

/-! ### The port reset line -/

/-- The link side of an asserted port reset: messages cut off, queues emptied, the unanswered count 0 (R165). -/
def PortRecord.cutOff (r : PortRecord) : PortRecord :=
  { r with held := true, requests := [], linkAnswers := [], unanswered := 0, waiting := none, sending := none }

/-- PORT_RESET: PRSTn_N is asserted: the port's messages and queues are dropped, and an ONLINE port is torn down
(R165, R166). -/
def execPortReset (p : Port) (s : State) : Result := .next ((s.onPort p PortRecord.cutOff).teardown p)

/-- A port as the release of its reset line leaves it: OFFLINE with every queue empty and its rights kept (R165). -/
def PortRecord.restart (r : PortRecord) : PortRecord := .reset r.rights

/-- PORT_RESET_RELEASE: PRSTn_N is released and the port starts from OFFLINE with every queue empty; nothing happens
where the line was not asserted (R165). -/
def execPortResetRelease (p : Port) (s : State) : Result :=
  .next (if (s.port p).held then s.onPort p PortRecord.restart else s)

/-! ### Full reset -/

/-- Every block at its full-reset values, with the port reset lines as they stand, the given context memory and state
of FRST_N; the model's own fields stay (R169). -/
def State.fullyReset (s : State) (mem : Memory) (frst : Bool) : State :=
  { State.reset with
    ports := Vector.ofFn (fun p => { State.reset.port p with held := (s.port p).held })
    mem := mem, frst := frst, freeIndex := s.freeIndex, pending := s.pending }

/-- FULL_RESET: FRST_N is asserted, or the supply comes up: every operation, scrub and message ends without completion,
no notice is posted, and every block goes to its reset values. The contents of context memory stay at an assertion
of FRST_N and are unknown after power-on (R138, R169; assumptions 4 and 9). -/
def execFullReset (cause : ResetCause) (s : State) : Result :=
  .next (s.fullyReset (match cause with | .line => s.mem | .powerOn => []) true)

/-- FULL_RESET_RELEASE: FRST_N is released: every block holds its reset values and the start-up sweep begins; nothing
happens where the line was not asserted (R138, R169). -/
def execFullResetRelease (s : State) : Result :=
  .next (if s.frst then s.fullyReset s.mem false else s)

end Sys2Proof.Machine
end

