-- ==== Sys2Proof/Machine/Dispatch.lean ====
section
/-! DEFINITION. The dispatch: one arm per command, each one direct call of its meaning. -/

namespace Sys2Proof.Machine

/-- A command's effect on everything but the queue of commands. -/
def exec (i : Instr) (s : State) : Host.Outcome State Fault Refusal :=
  match i with
  | .messageEnd p m => Sys2Proof.Machine.execMessageEnd p m s
  | .responseSent p => Sys2Proof.Machine.execResponseSent p s
  | .hello p o => Sys2Proof.Machine.execHello p o s
  | .goodbye p o => Sys2Proof.Machine.execGoodbye p o s
  | .grantRights p o => Sys2Proof.Machine.execGrantRights p o s
  | .fetchNotice p o => Sys2Proof.Machine.execFetchNotice p o s
  | .define p o => Sys2Proof.Machine.execDefine p o s
  | .discard p o => Sys2Proof.Machine.execDiscard p o s
  | .retune p o => Sys2Proof.Machine.execRetune p o s
  | .queryTask p o => Sys2Proof.Machine.execQueryTask p o s
  | .salvage p o => Sys2Proof.Machine.execSalvage p o s
  | .claim p o => Sys2Proof.Machine.execClaim p o s
  | .release p o => Sys2Proof.Machine.execRelease p o s
  | .suspend p o => Sys2Proof.Machine.execSuspend p o s
  | .renew p o => Sys2Proof.Machine.execRenew p o s
  | .evict p o => Sys2Proof.Machine.execEvict p o s
  | .peekFrame p o => Sys2Proof.Machine.execPeekFrame p o s
  | .dataRead p o => Sys2Proof.Machine.execDataRead p o s
  | .dataWrite p o => Sys2Proof.Machine.execDataWrite p o s
  | .lockNew p o => Sys2Proof.Machine.execLockNew p o s
  | .lockReturn p o => Sys2Proof.Machine.execLockReturn p o s
  | .take p o => Sys2Proof.Machine.execTake p o s
  | .takeWait p o => Sys2Proof.Machine.execTakeWait p o s
  | .withdraw p o => Sys2Proof.Machine.execWithdraw p o s
  | .give p o => Sys2Proof.Machine.execGive p o s
  | .queryLock p o => Sys2Proof.Machine.execQueryLock p o s
  | .queryMemory p o => Sys2Proof.Machine.execQueryMemory p o s
  | .unknownCode p code o => Sys2Proof.Machine.execUnknownCode p code o s
  | .arbiterGrant => Sys2Proof.Machine.execArbiterGrant s
  | .deliveryPartTransfer e => Sys2Proof.Machine.execDeliveryPartTransfer e s
  | .fillPageWrite => Sys2Proof.Machine.execFillPageWrite s
  | .peekPartTransfer e => Sys2Proof.Machine.execPeekPartTransfer e s
  | .dataReadPartTransfer e => Sys2Proof.Machine.execDataReadPartTransfer e s
  | .dataWritePageTransfer e => Sys2Proof.Machine.execDataWritePageTransfer e s
  | .scrubberTakePage => Sys2Proof.Machine.execScrubberTakePage s
  | .scrubCompletion => Sys2Proof.Machine.execScrubCompletion s
  | .leaseExpiry t => Sys2Proof.Machine.execLeaseExpiry t s
  | .portReset p => Sys2Proof.Machine.execPortReset p s
  | .portResetRelease p => Sys2Proof.Machine.execPortResetRelease p s
  | .fullReset cause => Sys2Proof.Machine.execFullReset cause s
  | .fullResetRelease => Sys2Proof.Machine.execFullResetRelease s
  | .leaseTimerMillisecond => Sys2Proof.Machine.execLeaseTimerMillisecond s

end Sys2Proof.Machine
end

