-- ==== Sys2Proof/Safety.lean ====
section
/-! DEFINITION. What counts as a safe run, in the terms the statements use: what the records must be in every state
(`State.Inv`: each record by itself, from Tables 1-2, 3-1, 5-2 and 9-1 and R149, R168; a task's geometry and the slots
against the stack, R9, R10, R25, R32, R48; the ports against the claims, R162; the page map, R126, R127, R131; the lock
pool against the claims and the frames, R93, R94, R114), that a command is answered with a next state, and when a port
takes a request at once. -/

namespace Sys2Proof.Machine

/-! ### Records that agree with themselves -/

/-- A port record: its queues within their lengths and its counts within their ranges (R141, R161), a lost count only
at a full notice queue (R145), nothing kept for an OFFLINE port (R151, R152), the attention line as its queue has it
(R149), and nothing queued while its reset line is asserted (R165). -/
abbrev PortRecord.Ok (r : PortRecord) : Prop :=
  r.requests.length ≤ 4 ∧ r.linkAnswers.length ≤ 4 ∧ r.unanswered ≤ 255
    ∧ r.notices.length ≤ 16 ∧ r.lost ≤ 255
    ∧ (r.lost ≠ 0 → r.notices.length = 16)
    ∧ (r.session = .offline → r.notices = [] ∧ r.lost = 0)
    ∧ r.attention = ((r.session == .online) && !r.notices.isEmpty)
    ∧ (r.held = true → r.requests = [] ∧ r.linkAnswers = [] ∧ r.unanswered = 0)

/-- A claim record: a token that is not 0 (R50), a lease of 1 to 60000 ms where its timer runs (R8), OPENING only
for a RESTORED claim (R47), a retained slot exactly for an ACTIVE RESTORED claim (R48), and the level that its
start kind fixes (R49). -/
abbrev Claim.Ok (c : Claim) : Prop :=
  c.token ≠ 0
    ∧ (∀ n ∈ c.lease, 1 ≤ n ∧ n ≤ Config.leaseMax)
    ∧ (c.phase = .opening → c.startKind = .restored)
    ∧ (c.retained.isSome = true ↔ c.phase = .active ∧ c.startKind = .restored)
    ∧ (c.startKind = .fresh → c.level = .primary)
    ∧ (c.startKind = .notified → c.level = .handler)

/-- A task record: a claim exactly when RUNNING, no operation without a claim, READY only at depth 0 and SUSPENDED
or FAULTED only above it (R3, R4), and a delivery only on an OPENING claim over a frame (R47, R59). -/
abbrev Task.Ok (k : Task) : Prop :=
  (k.state = .running ↔ k.claim.isSome = true)
    ∧ (k.op.isSome = true → k.claim.isSome = true)
    ∧ (k.state = .ready → k.stack = [])
    ∧ (k.state = .suspended ∨ k.state = .faulted → k.stack ≠ [])
    ∧ (∀ c ∈ k.claim, c.Ok)
    ∧ (k.op.map Op.kind = some .delivery → k.stack ≠ [] ∧ k.claim.map (·.phase) = some .opening)
    ∧ k.leasePeriod ≤ Config.leaseMax

/-- A lock record: its state agrees with its other fields, and at most 8 claims wait on it (R92, R94). -/
abbrev Lock.Ok (k : Lock) : Prop :=
  match k.state with
  | .unallocated => k.holder = none ∧ k.waiters = [] ∧ k.lastHolder = none
  | .free => k.holder = none ∧ k.waiters = []
  | .held => k.holder.isSome = true ∧ k.waiters.length ≤ 8

/-- Every record of the part agrees with itself, some port holds the GRANT right (R168), the next token is not 0 (R50), a
page has at most one entry in the scrub queue (R131), and context memory has its canonical form. -/
structure State.RecordsOk (s : State) : Prop where
  ports  : ∀ p, (s.port p).Ok
  grant  : ∃ p, (s.port p).rights.grant = true
  tasks  : ∀ t, ∀ k ∈ s.task t, k.Ok
  locks  : ∀ l, (s.lock l).Ok
  token  : s.nextToken ≠ 0
  queue  : s.scrubQueue.Nodup
  memory : s.mem.wf

/-! ### Slots against the stack, the claim and the operation -/

/-- A task's geometry is within its ranges (R11), and its page lists have the lengths it gives: one list of F pages for
each of the L + 1 slots, and D data area pages (R9, R10). -/
abbrev Task.LayoutOk (k : Task) : Prop :=
  (1 ≤ k.frameLimit ∧ k.frameLimit ≤ 8) ∧ (1 ≤ k.framePages ∧ k.framePages ≤ 8) ∧ k.dataPages ≤ 16
    ∧ k.slotPages.length = k.frameLimit + 1 ∧ (∀ ns ∈ k.slotPages, ns.length = k.framePages)
    ∧ k.dataAreaPages.length = k.dataPages

/-- The status of slot i of a task. -/
def Task.slotStatus (k : Task) (i : Nat) : Option SlotStatus := (k.slots[i]?).map (·.status)

/-- The slot that a fill in flight fills. -/
def Op.fillSlot : Op → Option Nat
  | .fill slot .. => some slot
  | .delivery .. | .peek .. | .dataRead .. | .dataWrite .. => none

/-- The slot whose frame a delivery in flight delivers. -/
def Op.deliverySlot : Op → Option Nat
  | .delivery slot .. => some slot
  | .fill .. | .peek .. | .dataRead .. | .dataWrite .. => none

/-- The slots of a task agree with its geometry, its stack, its claim and its operation in flight. There are L + 1 of
them (R9, R25); the FILLED ones are those on the stack, each once (R32); the RETAINED one is the claim's (R48); the
FILLING one is the fill's (R25, R35); a frame record stands in the FILLED and RETAINED ones alone (R25). The depth is at
most L, and below L under an ACTIVE claim, so that its fill finds an EMPTY slot (R25, R36). A claim is OPENING exactly
while its delivery is in flight, which delivers the top frame (R47, R59). -/
structure Task.SlotsOk (k : Task) : Prop where
  layout    : k.LayoutOk
  count     : k.slots.length = k.frameLimit + 1
  once      : k.stack.Nodup
  depth     : k.stack.length ≤ k.frameLimit
  room      : k.claim.map (·.phase) = some .active → k.stack.length < k.frameLimit
  filled    : ∀ i, k.slotStatus i = some .filled ↔ i ∈ k.stack
  retained  : ∀ i, k.slotStatus i = some .retained ↔ k.claim.bind (·.retained) = some i
  filling   : ∀ i, k.slotStatus i = some .filling ↔ k.op.bind Op.fillSlot = some i
  frames    : ∀ i, (k.frameIn i).isSome = true ↔ k.slotStatus i = some .filled ∨ k.slotStatus i = some .retained
  opening   : k.claim.map (·.phase) = some .opening ↔ (k.op.bind Op.deliverySlot).isSome = true
  delivered : ∀ i, k.op.bind Op.deliverySlot = some i → k.stack.getLast? = some i

/-! ### Requests in progress -/

/-- The head request of a port has not been answered: no answer waits for its line and none is on it. -/
abbrev PortRecord.Unanswered (r : PortRecord) : Prop := r.waiting = none ∧ ∀ x, r.sending ≠ some (.answer x)

/-- The ports agree with the claims: a port whose reset line is asserted is OFFLINE (R165); an answer in progress is that
of a head request, and the only one (R162); a claim belongs to an ONLINE port (R84); and an operation in flight is that
of the head request of the claim's port, which names the task and is unanswered (R4, R162). -/
structure State.Linked (s : State) : Prop where
  held   : ∀ p, (s.port p).held = true → (s.port p).session = .offline
  empty  : ∀ p, (s.port p).requests = [] → (s.port p).Unanswered
  one    : ∀ p x, (s.port p).sending = some (.answer x) → (s.port p).waiting = none
  online : ∀ t k c, s.task t = some k → k.claim = some c → (s.port c.port).session = .online
  head   : ∀ t k c, s.task t = some k → k.claim = some c → k.op.isSome = true →
    (s.port c.port).Unanswered ∧ ∃ q, (s.port c.port).requests.head? = some q ∧ taskOf q.ops.task = some t

/-! ### The page map -/

/-- The page that stands at a place of a task's page lists (R10). -/
def Task.pageAt (k : Task) : Role → Option PageNo
  | .slotPart slot part => k.slotPage slot part
  | .dataPart part => k.dataPage part

/-- A page record: owner and role exactly while RESERVED, stale only as a slot part, and never FREE and poisoned
(R126, R127). -/
abbrev Page.Ok (g : Page) : Prop :=
  (g.state = .reserved ↔ g.owner.isSome = true) ∧ (g.state = .reserved ↔ g.role.isSome = true)
    ∧ (g.stale = true → ∃ slot part, g.role = some (.slotPart slot part))
    ∧ (g.poisoned = true → g.state ≠ .free)

/-- The page map agrees with the tasks, the scrub queue and context memory. A page's owner and role are its place in a
task's page lists, and the other way round (R10, R126); a queued page is SCRUBBING or stale, and such a page is queued
or in progress (R131); the page in progress is not FREE; and a FREE page holds zeros (R127). -/
structure State.PagesOk (s : State) : Prop where
  records : ∀ n, (s.page n).Ok
  places  : ∀ n t r, (s.page n).owner = some t ∧ (s.page n).role = some r ↔ ∃ k, s.task t = some k ∧ k.pageAt r = some n
  queued  : ∀ n ∈ s.scrubQueue, (s.page n).state = .scrubbing ∨ (s.page n).stale = true
  waiting : ∀ n, (s.page n).state = .scrubbing ∨ (s.page n).stale = true → n ∈ s.scrubQueue ∨ s.scrubbing = some n
  taken   : ∀ n, s.scrubbing = some n → (s.page n).state ≠ .free
  zero    : ∀ n, (s.page n).state = .free → ∀ i < 1024, Memory.read s.mem (1024 * n.val + i) = 0

/-! ### The lock pool -/

/-- The token of a task's ACTIVE claim: the claim that may hold locks (R93). -/
def Task.activeToken (k : Task) : Option Half := (k.claim.filter (·.phase = .active)).map (·.token)

/-- The token of a task's ACTIVE claim with no fill in flight: the claim that may wait on a lock, since a fill's start
withdraws its wait (R35, R94). -/
def Task.waitToken (k : Task) : Option Half := if (k.op.bind Op.fillSlot).isSome then none else k.activeToken

/-- The FILLED frame in slot i carries lock l (R30, R93). -/
def Task.carries (k : Task) (i : Nat) (l : LockNo) : Prop :=
  k.slotStatus i = some .filled ∧ ∃ f, k.frameIn i = some f ∧ l ∈ f.carried

/-- The lock pool agrees with the claims and the frames. A claim that holds a lock is the ACTIVE claim of its task, and
a frame that holds one is a FILLED frame that carries it, as every lock that a FILLED frame carries is held by that
frame (R93). A waiter is the ACTIVE claim of a task other than the holding task, without a fill in flight, and stands in
one list, once (R35, R94, R114). A carried set is in ascending lock number. -/
structure State.PoolOk (s : State) : Prop where
  claims  : ∀ l t x, (s.lock l).holder = some (.claim t x) → (s.task t).bind Task.activeToken = some x
  frames  : ∀ l t i, (s.lock l).holder = some (.frame t i) ↔ ∃ k, s.task t = some k ∧ k.carries i l
  waiters : ∀ l, ∀ w ∈ (s.lock l).waiters, (s.task w.task).bind Task.waitToken = some w.token
    ∧ (s.lock l).holder.map Holder.task ≠ some w.task
  once    : ∀ l, (s.lock l).waiters.Nodup
  single  : ∀ l m, ∀ w ∈ (s.lock l).waiters, w ∈ (s.lock m).waiters → l = m
  sets    : ∀ t k i f, s.task t = some k → k.frameIn i = some f → f.carried.Pairwise (· < ·)

/-! ### The invariant -/

/-- The invariant of the part: its records agree with themselves, the slots with the stack, the ports with the claims,
the page map with the tasks and with context memory, and the lock pool with the claims and the frames. -/
structure State.Inv (s : State) : Prop where
  records : s.RecordsOk
  slots   : ∀ t, ∀ k ∈ s.task t, k.SlotsOk
  links   : s.Linked
  pages   : s.PagesOk
  pool    : s.PoolOk

/-! ### Answers -/

/-- A command is answered: neither a fault nor a refusal stops the part. -/
def Answered (x : Host.Outcome State Fault Refusal) : Prop := ∃ t, x = .next t

/-! ### When a port takes a request -/

/-- A request that arrives on port p now is taken at once: no reset line holds the port and its queue is empty
(R161, R165, R169). -/
abbrev State.takesAtOnce (s : State) (p : Port) : Prop :=
  s.frst = false ∧ (s.port p).held = false ∧ (s.port p).requests = []

/-- Port p is ONLINE, holds the right that the request needs, and takes it at once (R163, R167). -/
abbrev State.admits (s : State) (p : Port) (c : RequestCode) : Prop :=
  s.takesAtOnce p ∧ (s.port p).session = .online ∧ (s.port p).rights.allow c = true

/-- Port p's claim of task t with the token of a request is live: the token check of R51 is passed. -/
abbrev State.liveClaim (s : State) (p : Port) (t : TaskNo) (k : Task) (c : Claim) (token : Half) : Prop :=
  s.task t = some k ∧ k.state = .running ∧ k.claim = some c ∧ c.port = p ∧ c.token = token

/-- The part after a request has joined port p's empty queue. -/
def State.arrived (s : State) (p : Port) (q : Request) : State := s.onPort p (·.queueRequest q)

/-- The answer to a request with operands o: its tag and task field echoed, and the rest as given (R157). -/
def answerTo (o : Operands) (status : Status) (token : Half) (result : Word) (record : ResultRecord := .none)
    (notes : Notes := { alreadyHeld := false, waitWithdrawn := false }) (bytes : List Byte := []) : Response :=
  { status := status, tag := o.tag, task := o.task, notes := notes, token := token, result := result,
    record := record, bytes := bytes }

/-- A transfer of port p's operation holds the access path: the port's head request names task t, whose claim c is the
port's and whose operation in flight is o (R136, R162). -/
abbrev State.moving (s : State) (p : Port) (q : Request) (t : TaskNo) (k : Task) (c : Claim) (o : Op) : Prop :=
  s.path = some (.port p) ∧ (s.port p).requests.head? = some q ∧ taskOf q.ops.task = some t
    ∧ s.task t = some k ∧ k.claim = some c ∧ c.port = p ∧ k.op = some o

/-- The place of a claimant in the cyclic order port 0, port 1, port 2, port 3, scrubber (R136). -/
def Claimant.place : Claimant → Nat
  | .port p => p.val
  | .scrubber => 4

/-- How many claimants stand between the pointer x and y in the cyclic order, so 0 for the next after x and 4 for x
itself (R136). -/
def Claimant.turnsAfter (x y : Claimant) : Nat := (y.place + 4 - x.place) % 5

/-- The claim of task t, if it has one. -/
def State.claimOf (s : State) (t : TaskNo) : Option Claim := (s.task t).bind (·.claim)

/-- The statuses that say a request was refused at one of the steps 2 to 7 (R178, R180): every status but OK, QUEUED
and NONE, the two link answers, and DAMAGED and ABORTED. -/
def Status.refusal : Status → Bool
  | .ok | .queued | .none | .linkError | .overrun | .damaged | .aborted => false
  | .notOnline | .noRight | .badParam | .noTask | .noLock | .exists_ | .tableFull | .noPages | .locksExhausted
  | .busy | .notRunning | .conflict | .stale | .denied | .noRoom | .faulted | .notFaulted | .lastGrant | .held
  | .ownFrame | .notHolder | .waitFull | .alreadyWaiting | .notWaiting => true

end Sys2Proof.Machine
end

