-- ==== Sys2Proof/Certificates/Slice0/Obligations.lean ====
section
/-! DEFINITION. The statements for the provers. Each says in its title's words what the part does; the rules it rests on
stand in its docstring. `exec c s = .next t` with t written out says both what changes and that nothing else does. -/

open Sys2Proof Sys2Proof.Machine

/-! ### The machine as a whole -/

/-- O1. One step carries out the command at the front of the queue, on the state with the queue's rest; on an empty
queue the block idles. The command queue and the idling are the model's own (assumption 3). -/
def Obligations.StepRunsTheFrontCommand : Prop :=
  (∀ (c : Instr) (s : State) (rest : List Instr),
      step { s with pending := c :: rest } = exec c { s with pending := rest })
    ∧ ∀ s : State, s.pending = [] → step s = .next s

/-- O2. Every command is answered with a next state in every state: none faults and none is refused, a completion that no
transfer stands for included (the model's choice, assumption 8). The command queue, which is the model's own
(assumption 3), stays as it was, and FRST_N changes only by the two full-reset events (R169, R171). -/
def Obligations.EveryCommandIsCarriedOut : Prop :=
  ∀ (i : Instr) (s : State), ∃ t, exec i s = .next t ∧ t.pending = s.pending
    ∧ ((∀ cause, i ≠ .fullReset cause) → i ≠ .fullResetRelease → t.frst = s.frst)

/-- O3. The invariant of Safety.lean is kept by every step from every state that meets it: every record agrees with itself
(Tables 1-2, 3-1, 5-2 and 9-1; R149, R168); a task's parameters are in their ranges and its page lists as long as they
say (R9, R10, R11), its slots agree with its stack, claim and operation (R25, R32, R35, R48), and so do the ports with
the claims and the requests in progress (R84, R162, R165), the page map with the tasks, the scrub queue and context
memory, a FREE page being zero and not poisoned (R10, R126, R127, R131), and the lock pool with the claims and the
frames: who holds a lock, who waits on it, what a FILLED frame carries (R35, R93, R94, R114). The form of the memory
list, the one queue entry of a page, the field of a waiting answer and those of an operation's progress are the model's
(assumptions 4, 15, 17 and 21). -/
def Obligations.EveryStepKeepsTheInvariant : Prop :=
  ∀ s t : State, s.Inv → step s = .next t → t.Inv

/-- O4. The part after full reset (R23, R116, R138, R140, R152, R169), with the reset lines and the memory list as the
model has them then (assumptions 4 and 6), meets the invariant. -/
def Obligations.ResetMeetsTheInvariant : Prop := State.reset.Inv

/-- O5. Context memory changes only through the access path: a byte that a command other than power-on changes lies in
the page in progress, while the scrubber holds the path, or in a page of a task that the port holding the path
has claimed (R10, R132, R136). -/
def Obligations.MemoryChangesOnlyThroughThePath : Prop :=
  ∀ (i : Instr) (s t : State) (a : Nat), i ≠ .fullReset .powerOn → exec i s = .next t →
    Memory.read t.mem a ≠ Memory.read s.mem a →
      ∃ n : PageNo, 1024 * n.val ≤ a ∧ a < 1024 * n.val + 1024
        ∧ (s.path = some .scrubber ∧ s.scrubbing = some n
          ∨ ∃ p u k c, s.path = some (.port p) ∧ s.task u = some k ∧ k.claim = some c ∧ c.port = p
              ∧ (n ∈ k.slotPages.flatten ∨ n ∈ k.dataAreaPages))

/-- O6. A port's rights set changes only by full reset and by GRANT-RIGHTS: where a command changes one, it is a
full-reset event, or it brings a GRANT-RIGHTS or, as the departure of a response, takes one that waited next in the
queue, and the port that sends it is ONLINE and holds the GRANT right (R167, R168). -/
def Obligations.RightsChangeOnlyByGrantAndFullReset : Prop :=
  ∀ (i : Instr) (s t : State) (p : Port), exec i s = .next t → (t.port p).rights ≠ (s.port p).rights →
    (∃ cause, i = .fullReset cause) ∨ i = .fullResetRelease
    ∨ ∃ r q, q.code = 0x03 ∧ (s.port r).session = .online ∧ (s.port r).rights.grant = true
        ∧ (i.request = some (r, q) ∨ (∃ m, i = .messageEnd r m ∧ linkCheck m = .ok q)
          ∨ i = .responseSent r ∧ (s.port r).requests.tail.head? = some q)

/-- O7. A task's geometry and page lists are fixed while it exists (R2, R9, R10): a command leaves them as they were or
leaves no task of that number. -/
def Obligations.GeometryAndPagesAreFixed : Prop :=
  ∀ (i : Instr) (s t : State) (u : TaskNo) (k k' : Machine.Task), exec i s = .next t →
    s.task u = some k → t.task u = some k' →
      k'.frameLimit = k.frameLimit ∧ k'.framePages = k.framePages ∧ k'.dataPages = k.dataPages
        ∧ k'.slotPages = k.slotPages ∧ k'.dataAreaPages = k.dataAreaPages

/-! ### Messages and links -/

/-- O8. The codes are those of Table 10-1. The message of every well-formed request command is 14 bytes and its payload
long, the check over the whole of it, trailer included, ends at 0, and it decodes to that command (R155, R156, R160,
R170). -/
def Obligations.RequestMessagesDecodeToTheirCommands : Prop :=
  (∀ x ∈ [(RequestCode.hello, 0x01#8), (.goodbye, 0x02#8), (.grantRights, 0x03#8), (.fetchNotice, 0x04#8),
      (.define, 0x10#8), (.discard, 0x11#8), (.retune, 0x12#8), (.queryTask, 0x13#8), (.salvage, 0x14#8),
      (.claim, 0x20#8), (.release, 0x21#8), (.suspend, 0x22#8), (.renew, 0x23#8), (.evict, 0x24#8),
      (.peekFrame, 0x30#8), (.dataRead, 0x31#8), (.dataWrite, 0x32#8), (.lockNew, 0x40#8), (.lockReturn, 0x41#8),
      (.take, 0x42#8), (.takeWait, 0x43#8), (.withdraw, 0x44#8), (.give, 0x45#8), (.queryLock, 0x46#8),
      (.queryMemory, 0x50#8)], x.1.byte = x.2)
  ∧ ∀ (i : Instr) (p : Port) (q : Request), i.request = some (p, q) → WellFormed i →
    ∃ bytes, encode i = some bytes ∧ bytes.length = 14 + q.ops.payload.length ∧ crc bytes = 0
      ∧ decodeMessage p { bytes := bytes, framingFault := false } = .ok i

/-- O9. A run of bytes on a line at rest, each followed by at most nine periods of 1 before the next, is received as
those bytes, whatever follows the ten periods of 1 that end the message (R154). -/
def Obligations.LineBitsGiveTheirBytes : Prop :=
  ∀ (rest : Nat) (run : List (Byte × Nat)) (after : List Bool), run ≠ [] → (∀ x ∈ run, x.2 ≤ 9) →
    LineMessage.ofLine (List.replicate rest true ++ runBits run ++ after)
      = some { bytes := run.map (·.1), framingFault := false }

/-- O10. A message passes the link check exactly when no framing fault was found in it, it has at least 14 bytes, its
payload length field is at most 8192, its length is 14 and that many, and its CRC is right (R160). That this holds of
a header of all ones too, whose field is FFFFh, though R170 speaks of such a header that passes its CRC, is the model's
reading of the two rules (R171; assumption 23). -/
def Obligations.LinkCheckPassesExactlySoundMessages : Prop :=
  ∀ m : LineMessage,
    let n := (word16 (m.bytes.getD 6 0) (m.bytes.getD 7 0)).toNat
    (∃ q, linkCheck m = .ok q) ↔
      m.framingFault = false ∧ 14 ≤ m.bytes.length ∧ n ≤ 8192 ∧ m.bytes.length = 14 + n ∧ crc m.bytes = 0

/-- O11. MESSAGE_END carries out the command that the message decodes to; a message that fails its link check is
answered LINK-ERROR with bytes 1 and 2 and the number of bytes received, and nothing else of it reaches the
part; a port held in reset takes nothing, by its own line or by FRST_N (R160, R161, R165, R169). That a request
command stands for the arrival of its message is the model's choice (assumption 1). -/
def Obligations.MessageEndBringsItsRequestOrLinkError : Prop :=
  ∀ (p : Port) (m : LineMessage) (s : State),
    (∀ i, decodeMessage p m = .ok i → ∃ t, exec i s = .next t ∧ exec (.messageEnd p m) s = .next t)
    ∧ (∀ f, decodeMessage p m = .error f → s.frst = false → (s.port p).held = false →
        exec (.messageEnd p m) s = .next (s.onPort p (·.addLinkAnswer
          { overrun := false, tag := m.bytes.getD 1 0xFF, task := m.bytes.getD 2 0xFF,
            low := min 65535 m.bytes.length })))
    ∧ (s.frst = true ∨ (s.port p).held = true → exec (.messageEnd p m) s = .next s)

/-- O12. A request that arrives joins a queue of 1 to 3 at its tail; a queue of 4 answers it OVERRUN with its tag and
task and a low half of 4; an empty queue takes it at once; a port held in reset takes nothing. A request command
is this arrival (assumption 1; R161, R165, R169). -/
def Obligations.ArrivalJoinsTheQueueOrOverruns : Prop :=
  ∀ (i : Instr) (p : Port) (q : Request) (s : State), i.request = some (p, q) →
    (s.frst = true ∨ (s.port p).held = true → exec i s = .next s)
    ∧ (s.frst = false → (s.port p).held = false →
        ((s.port p).requests = [] → exec i s = .next (takeRequest p q (s.arrived p q)))
        ∧ (1 ≤ (s.port p).requests.length → (s.port p).requests.length ≤ 3 →
            exec i s = .next (s.onPort p (fun r => { r with requests := r.requests ++ [q] })))
        ∧ (4 ≤ (s.port p).requests.length →
            exec i s = .next (s.onPort p (·.addLinkAnswer
              { overrun := true, tag := q.ops.tag, task := q.ops.task, low := 4 }))))

/-- O13. A link answer joins a list of fewer than 4; the oldest leaves it as soon as nothing is being sent, taking the
unanswered count in the high half of its result word, and the count clears; at 4 the message stays unanswered
and the count rises, up to 255. A waiting response is sent once no link answer waits (R161, R162). -/
def Obligations.LinkAnswersGoOldestFirst : Prop :=
  ∀ (r : PortRecord) (a : LinkAnswer),
    (4 ≤ r.linkAnswers.length → r.addLinkAnswer a = { r with unanswered := min 255 (r.unanswered + 1) })
    ∧ (∀ m, r.sending = some m → r.linkAnswers.length < 4 →
        r.addLinkAnswer a = { r with linkAnswers := r.linkAnswers ++ [a] })
    ∧ (∀ b rest, r.sending = none → r.linkAnswers ++ [a] = b :: rest → r.linkAnswers.length < 4 →
        r.addLinkAnswer a =
          { r with linkAnswers := rest, unanswered := 0
                   sending := some (.link { status := if b.overrun then .overrun else .linkError, tag := b.tag,
                                            task := b.task, notes := ⟨false, false⟩, token := 0,
                                            result := halves b.low r.unanswered, record := .none, bytes := [] }) })
    ∧ (∀ x, r.sending = none → r.linkAnswers = [] →
        r.respond x = { r with sending := some (.answer x), waiting := none })
    ∧ (∀ m x, r.sending = some m → r.respond x = { r with waiting := some x })

/-- O28. What the part sends. A message is the header of Table 9-3, the record section, the payload and the CRC, low byte
first, so that the check over the whole ends at 0. The status bytes are those of Table 10-6. The records have the fields
of Tables 9-8, 1-6, 3-3, 2-5, 5-5, 7-5 and 9-7 in their order and widths with the values of Table 9-4, FFh in each
byte of an absent field, a set of locks with lock n as bit n; those of CLAIM and PEEK-FRAME are the record section and
every other stands in the payload. SDOn carries the message so that a receiver by R154 finds its bytes, however the
part spaces them (assumption 24), and rests at 1 when nothing is sent (R142, R154, R155, R157 to R159, R179). -/
def Obligations.ResponsesGoOutByTheirTables : Prop :=
  let one := fun n : Nat => [BitVec.ofNat 8 n]
  let two := fun n : Nat => [BitVec.ofNat 8 n, BitVec.ofNat 8 (n / 256)]
  let four := fun w : Word => two (w.toNat % 65536) ++ two (w.toNat / 65536)
  let opt1 := fun x : Option Nat => (x.map one).getD [0xFF]
  let opt2 := fun x : Option Nat => (x.map two).getD [0xFF, 0xFF]
  let opt4 := fun x : Option Word => (x.map four).getD [0xFF, 0xFF, 0xFF, 0xFF]
  let bit := fun (b : Bool) (n : Nat) => if b then n else 0
  let level : Origin → Nat := fun | .primary => 0 | .handler => 1
  let start : StartKind → Nat := fun | .fresh => 0 | .restored => 1 | .notified => 2
  (∀ r : Response,
    let payload := r.record.inPayload ++ r.bytes
    let body := [r.status.byte, r.tag, r.task]
      ++ one (bit r.notes.alreadyHeld 1 + bit r.notes.waitWithdrawn 2) ++ two r.token.toNat ++ two payload.length
      ++ four r.result ++ r.record.section_ ++ payload
    r.wire = body ++ two (crc body).toNat ∧ crc r.wire = 0)
  ∧ (∀ x ∈ [(Status.ok, 0x00#8), (.queued, 0x01#8), (.none, 0x02#8), (.linkError, 0x10#8), (.overrun, 0x11#8),
      (.notOnline, 0x20#8), (.noRight, 0x21#8), (.badParam, 0x22#8), (.noTask, 0x30#8), (.noLock, 0x31#8),
      (.exists_, 0x32#8), (.tableFull, 0x33#8), (.noPages, 0x34#8), (.locksExhausted, 0x35#8), (.busy, 0x40#8),
      (.notRunning, 0x41#8), (.conflict, 0x42#8), (.stale, 0x43#8), (.denied, 0x44#8), (.noRoom, 0x45#8),
      (.faulted, 0x46#8), (.notFaulted, 0x47#8), (.lastGrant, 0x48#8), (.damaged, 0x50#8), (.aborted, 0x51#8),
      (.held, 0x60#8), (.ownFrame, 0x61#8), (.notHolder, 0x62#8), (.waitFull, 0x63#8), (.alreadyWaiting, 0x64#8),
      (.notWaiting, 0x65#8)], x.1.byte = x.2)
  ∧ (∀ ls : LockSet, ∃ w : Word, wireLocks ls = four w ∧ ∀ l : LockNo, w.getLsbD l.val = decide (l ∈ ls))
  ∧ (∀ x : ResultRecord, x.section_ = [] ∨ x.inPayload = [])
  ∧ (∀ x : HelloRecord, (ResultRecord.hello x).inPayload =
      one x.port.val ++ one (bit x.rights.define 1 + bit x.rights.evict 2 + bit x.rights.grant 4)
        ++ two x.partCode.toNat ++ one x.taskCapacity ++ one x.lockCapacity ++ two x.pageCapacity ++ two x.freePages)
  ∧ (∀ x : TaskRecord,
      let state : TaskState → Nat := fun | .ready => 0 | .suspended => 1 | .running => 2 | .faulted => 3
      let mode : ResumeMode → Nat := fun | .restore => 0 | .notify => 1
      let phase : Phase → Nat := fun | .opening => 0 | .active => 1
      let op : OpKind → Nat := fun | .delivery => 0 | .fill => 1 | .peek => 2 | .dataRead => 3 | .dataWrite => 4
      (ResultRecord.task x).inPayload =
        one (state x.state) ++ one x.depth ++ one x.frameLimit ++ one x.framePages ++ one x.dataPages
          ++ one (mode x.resumeMode) ++ one x.affinity.toNat ++ one x.watch.toNat ++ two x.leasePeriod
          ++ four x.entryWord ++ opt1 (x.claimPort.map (·.val)) ++ opt1 (x.claimLevel.map level)
          ++ opt1 (x.claimPhase.map phase) ++ opt1 (x.claimStart.map start) ++ opt2 x.leaseRemaining
          ++ opt1 (x.inFlight.map op) ++ opt4 x.topTagWord ++ opt1 (x.topOrigin.map level))
  ∧ (∀ x : ClaimRecord, (ResultRecord.claim x).section_ =
      one (start x.startKind) ++ one (level x.level) ++ one x.depth ++ opt4 x.entryWord ++ opt4 x.tagWord
        ++ opt2 x.frameLength ++ opt1 (x.origin.map level) ++ opt1 x.slot ++ opt1 (x.locksLost.map (bit · 1))
        ++ opt1 (x.pushedBy.map (·.val)) ++ (x.heldLocks.map wireLocks).getD (opt4 none))
  ∧ (∀ x : PeekRecord, (ResultRecord.peek x).section_ =
      one x.position ++ one x.slot ++ two x.length ++ four x.tagWord ++ one (level x.origin) ++ wireLocks x.carried
        ++ one (bit x.locksLost 1) ++ one x.pushedBy.val)
  ∧ (∀ x : LockRecord,
      let kind : HolderKind → Nat := fun | .claim => 0 | .frame => 1
      (ResultRecord.lock x).inPayload =
        one (if x.held then 2 else 1) ++ opt1 (x.holderKind.map kind) ++ opt1 (x.holderTask.map (·.val))
          ++ opt1 (x.holderPort.map (·.val)) ++ opt1 x.holderSlot ++ one x.waiters ++ opt1 (x.lastHolder.map (·.val)))
  ∧ (∀ x : MemoryRecord, (ResultRecord.memory x).inPayload =
      two x.free ++ two x.reserved ++ two x.scrubbing ++ two x.queueLength ++ opt2 (x.inProgress.map (·.val))
        ++ two x.poisoned)
  ∧ (∀ n : Notice, (ResultRecord.notice n).inPayload = match n with
      | .lockGranted t l => one 1 ++ one t.val ++ one l.val ++ [0xFF, 0xFF, 0xFF]
      | .claimLost t d => one 2 ++ one t.val ++ [0xFF, 0xFF] ++ two d
      | .taskFreed t d => one 3 ++ one t.val ++ [0xFF, 0xFF] ++ two d
      | .taskFaulted t d => one 4 ++ one t.val ++ [0xFF, 0xFF] ++ two d
      | .portDown p d => one 5 ++ [0xFF, 0xFF] ++ one p.val ++ two d
      | .noticesLost d => one 6 ++ [0xFF, 0xFF, 0xFF] ++ two d)
  ∧ ∀ r : PortRecord, (r.sending = none → r.sdo = [true])
      ∧ ∀ x, r.sending = some x →
          LineMessage.ofLine r.sdo = some { bytes := x.response.wire, framingFault := false }

/-- O14. RESPONSE_SENT: after a link answer SDOn starts what waits next; after a response the head request leaves the
queue and the next, if any, is taken (R161, R162). That nothing happens with nothing in progress is the model's
choice (assumption 8). -/
def Obligations.ResponseSentTakesTheNextRequest : Prop :=
  ∀ (p : Port) (s : State),
    ((s.port p).sending = none → exec (.responseSent p) s = .next s)
    ∧ (∀ x, (s.port p).sending = some (.link x) →
        exec (.responseSent p) s = .next (s.onPort p (fun r => { r with sending := none }.startSending)))
    ∧ (∀ x q rest, (s.port p).sending = some (.answer x) → (s.port p).requests = q :: rest →
        (q.code ≠ 0x02 ∨ x.status ≠ .ok) →
        let s1 := s.onPort p (fun r => { r with sending := none, requests := rest })
        exec (.responseSent p) s = .next ((match rest with
          | [] => s1
          | q' :: _ => takeRequest p q' s1).onPort p PortRecord.startSending))

/-! ### The checks of a request -/

/-- O15. Steps 2 to 4 decide in this order, for every request of Table 10-1: NOT-ONLINE on an OFFLINE port for all but
HELLO, NO-RIGHT where the port lacks the right that Table 10-1 names, and BAD-PARAM where the operand check fails;
each changes nothing but that it is answered, its tag, task and token echoed. The rights are those of the table's
column: DEFINE for six requests, EVICT for one, GRANT for one and none for seventeen (R163, R167, R171, R173, R178). -/
def Obligations.StepsTwoToFourRefuseInOrder : Prop :=
  (∀ x : Rights,
    (∀ c ∈ [RequestCode.define, .discard, .retune, .salvage, .lockNew, .lockReturn], x.allow c = x.define)
      ∧ x.allow .evict = x.evict ∧ x.allow .grantRights = x.grant
      ∧ ∀ c ∈ [RequestCode.hello, .goodbye, .fetchNotice, .queryTask, .claim, .release, .suspend, .renew, .peekFrame,
          .dataRead, .dataWrite, .take, .takeWait, .withdraw, .give, .queryLock, .queryMemory], x.allow c = true)
  ∧ ∀ (i : Instr) (p : Port) (q : Request) (c : RequestCode) (s : State),
    i.request = some (p, q) → q.code = c.byte → s.takesAtOnce p →
      let answered := fun st =>
        (s.arrived p q).respond p (answerTo q.ops st (if c.tokenBearing then q.ops.token else 0) 0)
      ((s.port p).session = .offline → c ≠ .hello → exec i s = .next (answered .notOnline))
      ∧ ((s.port p).session = .online → (s.port p).rights.allow c = false → exec i s = .next (answered .noRight))
      ∧ ((s.port p).session = .online ∨ c = .hello → (s.port p).rights.allow c = true → operandsOk q.ops c = false →
          exec i s = .next (answered .badParam))

/-- O16. The operand check of every request, field by field as Table 10-3 has it, and what the parameter record of a
DEFINE and of a RETUNE must hold and is read as (R1, R11, R19, R34, R41, R53, R65, R66, R100, R101, R108, R118, R159,
R168, R173, R174, Tables 9-6 and 10-3). -/
def Obligations.OperandChecksReadTheTableFields : Prop :=
  ∀ o : Operands,
    let bare := o.flags = 0 ∧ o.payload = []
    let task := o.task.toNat ≤ 63
    let lock := o.arg.toNat ≤ 31
    let low := o.arg.toNat % 65536
    let high := o.arg.toNat / 65536
    let length := fun n => 4 ≤ n ∧ n ≤ 8192 ∧ n % 4 = 0
    let b := fun i => (o.payload.getD i 0).toNat
    let reads := fun x : Params =>
      o.payload.length = 16 ∧ x.frameLimit = b 0 ∧ x.framePages = b 1 ∧ x.dataPages = b 2
        ∧ (b 3 = 0 ∧ x.resumeMode = .restore ∨ b 3 = 1 ∧ x.resumeMode = .notify)
        ∧ x.affinity.toNat = b 4 ∧ 1 ≤ b 4 ∧ b 4 ≤ 15 ∧ x.watch.toNat = b 5 ∧ b 5 ≤ 15
        ∧ x.leasePeriod = b 6 + 256 * b 7 ∧ x.leasePeriod ≤ 60000
        ∧ x.entryWord.toNat = b 8 + 256 * b 9 + 65536 * b 10 + 16777216 * b 11
        ∧ b 12 = 0 ∧ b 13 = 0 ∧ b 14 = 0 ∧ b 15 = 0
    (∀ c ∈ [RequestCode.hello, .goodbye, .fetchNotice, .lockNew, .queryMemory], operandsOk o c = true ↔ bare)
    ∧ (∀ c ∈ [RequestCode.discard, .queryTask, .salvage, .release, .evict, .withdraw],
        operandsOk o c = true ↔ task ∧ bare)
    ∧ (∀ c ∈ [RequestCode.take, .takeWait, .give], operandsOk o c = true ↔ task ∧ bare ∧ lock)
    ∧ (∀ c ∈ [RequestCode.lockReturn, .queryLock], operandsOk o c = true ↔ bare ∧ lock)
    ∧ (operandsOk o .grantRights = true ↔ bare ∧ o.arg.toNat % 256 ≤ 3 ∧ o.arg.toNat / 256 ≤ 7)
    ∧ (operandsOk o .claim = true ↔ task ∧ (o.flags = 0 ∨ o.flags = 1) ∧ o.payload = [])
    ∧ (operandsOk o .suspend = true ↔ task ∧ o.flags = 0 ∧ length o.payload.length)
    ∧ (operandsOk o .renew = true ↔ task ∧ o.payload = [])
    ∧ (operandsOk o .peekFrame = true ↔ task ∧ bare ∧ o.arg.toNat ≤ 7)
    ∧ (operandsOk o .dataRead = true ↔ task ∧ bare ∧ low % 4 = 0 ∧ length high ∧ low + high ≤ 16384)
    ∧ (operandsOk o .dataWrite = true ↔ task ∧ o.flags = 0 ∧ high = 0 ∧ low % 4 = 0 ∧ length o.payload.length
        ∧ low + o.payload.length ≤ 16384)
    ∧ (operandsOk o .define = true ↔ (task ∨ o.task = 0xFF) ∧ o.flags = 0 ∧ ∃ x, defineParams o = some x)
    ∧ (operandsOk o .retune = true ↔ task ∧ o.flags = 0 ∧ ∃ x, retuneParams o = some x)
    ∧ (∀ x, defineParams o = some x ↔ reads x ∧ 1 ≤ x.frameLimit ∧ x.frameLimit ≤ 8 ∧ 1 ≤ x.framePages
        ∧ x.framePages ≤ 8 ∧ x.dataPages ≤ 16)
    ∧ (∀ x, retuneParams o = some x ↔ reads x ∧ x.frameLimit = 0 ∧ x.framePages = 0 ∧ x.dataPages = 0)

/-- O17. Steps 5 and 6. NO-TASK where the task a request names is EMPTY, and otherwise NO-LOCK where the lock it names is
UNALLOCATED; then, for the ten token-bearing requests, which are those of Table 10-1, STALE unless the task is RUNNING
under a claim of the requesting port with the token given. None touches a lease (R15, R51, R175, R176). -/
def Obligations.StepsFiveAndSixRefuseInOrder : Prop :=
  (∀ c : RequestCode, c.tokenBearing = true ↔
    c ∈ [RequestCode.release, .suspend, .renew, .peekFrame, .dataRead, .dataWrite, .take, .takeWait, .withdraw, .give])
  ∧ ∀ (i : Instr) (p : Port) (q : Request) (c : RequestCode) (s : State),
    i.request = some (p, q) → q.code = c.byte → s.admits p c → operandsOk q.ops c = true →
      let answered := fun st =>
        (s.arrived p q).respond p (answerTo q.ops st (if c.tokenBearing then q.ops.token else 0) 0)
      let namesLock := c ∈ [RequestCode.take, .takeWait, .give]
      (∀ t, taskOf q.ops.task = some t → s.task t = none →
        (c.tokenBearing = true ∨ c ∈ [RequestCode.discard, .retune, .queryTask, .salvage, .claim, .evict]) →
        exec i s = .next (answered .noTask))
      ∧ (∀ l, lockOf q.ops.arg = some l → (s.lock l).state = .unallocated →
        (c ∈ [RequestCode.lockReturn, .queryLock]
          ∨ namesLock ∧ ∃ t, taskOf q.ops.task = some t ∧ s.task t ≠ none) →
        exec i s = .next (answered .noLock))
      ∧ (∀ t k, c.tokenBearing = true → taskOf q.ops.task = some t → s.task t = some k →
        (∀ l, lockOf q.ops.arg = some l → namesLock → (s.lock l).state ≠ .unallocated) →
        (k.state ≠ .running ∨ ∀ x, k.claim = some x → x.port ≠ p ∨ x.token ≠ q.ops.token) →
        exec i s = .next (answered .stale))

/-- O18. A request refused at steps 2 to 7 changes no record of the part: it is answered, and at step 7 of a
token-bearing request the lease timer of its claim restarts (R176, R178). The answer is the one on the response
line of a port that had none. -/
def Obligations.RefusalsChangeOnlyAnswerAndLease : Prop :=
  ∀ (i : Instr) (p : Port) (q : Request) (s t : State) (x : Response),
    i.request = some (p, q) → s.takesAtOnce p → (s.port p).waiting = none →
    (∀ y, (s.port p).sending ≠ some (.answer y)) →
    exec i s = .next t → ((t.port p).waiting = some x ∨ (t.port p).sending = some (.answer x)) →
    x.status.refusal = true →
      x.tag = q.ops.tag ∧ x.task = q.ops.task ∧ x.notes = ⟨false, false⟩ ∧ x.record = .none ∧ x.bytes = []
        ∧ (t = (s.arrived p q).respond p x
          ∨ ∃ u k c, taskOf q.ops.task = some u ∧ s.liveClaim p u k c q.ops.token
              ∧ t = ((s.arrived p q).onTask u Machine.Task.loadLease).respond p x)

/-- O19. A code that names no request, 00h and FFh among them: NOT-ONLINE on an OFFLINE port and BAD-PARAM on an ONLINE
one, with tag and task echoed and token, notes and result word 0, and nothing else changed, whatever its header holds
(R170). A message with a header of all zeros that passes its CRC comes to this by MESSAGE_END; that one with a header
of all ones fails the link check first, for its payload length field of FFFFh, whatever its CRC, is the model's reading
of R160, R170 and R171 (assumption 23). -/
def Obligations.UnknownCodesHaveNoEffect : Prop :=
  RequestCode.ofByte 0x00 = none ∧ RequestCode.ofByte 0xFF = none
  ∧ (∀ (p : Port) (rest : List Byte), rest.length = 2 → crc (List.replicate 12 0x00 ++ rest) = 0 →
      decodeMessage p { bytes := List.replicate 12 0x00 ++ rest, framingFault := false }
        = .ok (.unknownCode p 0x00 { tag := 0, task := 0, flags := 0, token := 0, arg := 0, payload := [] }))
  ∧ (∀ (p : Port) (rest : List Byte), 2 ≤ rest.length →
      decodeMessage p { bytes := List.replicate 12 0xFF ++ rest, framingFault := false } = .error .payloadTooLong)
  ∧ ∀ (p : Port) (code : Byte) (o : Operands) (s : State), s.takesAtOnce p → RequestCode.ofByte code = none →
    ((s.port p).session = .offline →
      exec (.unknownCode p code o) s = .next ((s.arrived p ⟨code, o⟩).respond p (answerTo o .notOnline 0 0)))
    ∧ ((s.port p).session = .online →
      exec (.unknownCode p code o) s = .next ((s.arrived p ⟨code, o⟩).respond p (answerTo o .badParam 0 0)))

/-! ### Sessions, rights and notices -/

/-- O20. HELLO brings an OFFLINE port ONLINE with an empty notice queue, lost count 0 and its line deasserted, and
changes nothing on an ONLINE one; it reports the port, its rights, the capacities and the FREE pages (R163,
Table 9-8). -/
def Obligations.HelloOpensASession : Prop :=
  ∀ (p : Port) (o : Operands) (s : State), s.takesAtOnce p → o.flags = 0 → o.payload = [] →
    let s1 := s.arrived p ⟨0x01, o⟩
    let s2 := if (s.port p).session = .online then s1
      else s1.onPort p (fun r => { r with session := .online, notices := [], lost := 0, attention := false })
    exec (.hello p o) s = .next (s2.respond p (answerTo o .ok 0 (halves s.freeCount 0x0440)
      (.hello { port := p, rights := (s.port p).rights, partCode := 0x0440, taskCapacity := 64, lockCapacity := 32,
                pageCapacity := 1024, freePages := s.freeCount })))

/-- O21. GOODBYE is answered OK with the number of claims the port holds, and changes nothing before that response has
been sent; RESPONSE_SENT then takes it from the queue, tears the port down, and goes on to the requests behind it
(R164, R166). -/
def Obligations.GoodbyeIsAnsweredThenTearsDown : Prop :=
  (∀ (p : Port) (o : Operands) (s : State), s.admits p .goodbye → o.flags = 0 → o.payload = [] →
    let n := ((List.finRange 64).filter (fun t => (s.claimOf t).map (·.port) = some p)).length
    exec (.goodbye p o) s = .next ((s.arrived p ⟨0x02, o⟩).respond p (answerTo o .ok 0 (halves n 0))))
  ∧ ∀ (p : Port) (s : State) (x : Response) (q : Request) (rest : List Request),
    (s.port p).sending = some (.answer x) → (s.port p).requests = q :: rest → q.code = 0x02 → x.status = .ok →
      exec (.responseSent p) s = .next (State.onPort
        (State.takeNext ((s.onPort p (fun r => { r with sending := none, requests := rest })).teardown p) p)
        p PortRecord.startSending)

/-- O22. GRANT-RIGHTS replaces the rights set of the target in the low byte of its argument word by the set in the next
byte, and reports the set before and after; LAST-GRANT where no port would then hold GRANT (R168). -/
def Obligations.GrantRightsReplacesOneSet : Prop :=
  ∀ (p target : Port) (b : Fin 8) (o : Operands) (s : State), s.admits p .grantRights → o.flags = 0 → o.payload = [] →
    o.arg = BitVec.ofNat 32 (target.val + 256 * b.val) →
    let x : Rights := { define := b.val.testBit 0, evict := b.val.testBit 1, grant := b.val.testBit 2 }
    let s1 := s.arrived p ⟨0x03, o⟩
    ((∃ r, (if r = target then x else (s.port r).rights).grant = true) →
      exec (.grantRights p o) s = .next ((s1.onPort target (fun r => { r with rights := x })).respond p
        (answerTo o .ok 0 (halves (s.port target).rights.toByte.toNat b.val))))
    ∧ ((∀ r, (if r = target then x else (s.port r).rights).grant = false) →
      exec (.grantRights p o) s = .next (s1.respond p (answerTo o .lastGrant 0 0)))

/-- O23. FETCH-NOTICE: NONE on an empty queue; otherwise the head leaves the queue and is answered with the number of
notices left, and a lost count other than 0 becomes a NOTICES-LOST at the tail and clears; task field FFh, in the
NONE answer as the model reads R147 and R157 (assumption 11), and token 0 (R147, R149). -/
def Obligations.FetchNoticeTakesTheHead : Prop :=
  ∀ (p : Port) (o : Operands) (s : State), s.admits p .fetchNotice → o.flags = 0 → o.payload = [] →
    let s1 := s.arrived p ⟨0x04, o⟩
    let answer := fun st n record => { answerTo o st 0 (halves n 0) record with task := 0xFF }
    ((s.port p).notices = [] → exec (.fetchNotice p o) s = .next (s1.respond p (answer .none 0 .none)))
    ∧ (∀ x rest, (s.port p).notices = x :: rest → (s.port p).lost = 0 →
        exec (.fetchNotice p o) s = .next ((s1.onPort p (fun r =>
            { r with notices := rest, attention := !rest.isEmpty })).respond p (answer .ok rest.length (.notice x))))
    ∧ (∀ x rest, (s.port p).notices = x :: rest → (s.port p).lost ≠ 0 →
        exec (.fetchNotice p o) s = .next ((s1.onPort p (fun r =>
            { r with notices := rest ++ [.noticesLost (s.port p).lost], lost := 0, attention := true })).respond p
              (answer .ok (rest.length + 1) (.notice x))))

/-- O24. A post reads the port's session and queue: not posted while OFFLINE; at the tail while the queue holds fewer
than 16; discarded and counted, up to 255, while it holds 16 (R143). A post to several ports posts to each of them and
to no other; the members of a port set are the ports whose bit is set, less the one left out, each once. -/
def Obligations.PostsHaveThreeOutcomes : Prop :=
  ∀ (s : State) (p : Port) (n : Notice),
    ((s.port p).session = .offline → s.post p n = s)
    ∧ ((s.port p).session = .online → (s.port p).notices.length < 16 →
        s.post p n = s.onPort p (fun r => { r with notices := r.notices ++ [n], attention := true }))
    ∧ ((s.port p).session = .online → 16 ≤ (s.port p).notices.length →
        s.post p n = s.onPort p (fun r => { r with lost := min 255 (r.lost + 1) }))
    ∧ (∀ ps : List Port, ps.Nodup → s.postAll ps n =
        { s with ports := Vector.ofFn (fun r => if r ∈ ps then (s.post r n).port r else s.port r) })
    ∧ ∀ (w : PortSet) (except : Option Port), (PortSet.members w except).Nodup
        ∧ ∀ r : Port, r ∈ PortSet.members w except ↔ w.getLsbD r.val = true ∧ except ≠ some r

/-- O25. A port's notice queue holds at most 16 notices, and its attention line is asserted exactly when the port is
ONLINE and its queue is non-empty (R149): so after full reset, and every command keeps it so. -/
def Obligations.AttentionFollowsTheQueue : Prop :=
  let follows := fun (s : State) => ∀ p, (s.port p).notices.length ≤ 16
    ∧ ((s.port p).attention = true ↔ (s.port p).session = .online ∧ (s.port p).notices ≠ [])
  follows State.reset ∧ ∀ (i : Instr) (s t : State), follows s → exec i s = .next t → follows t

/-- O26. The teardown of an ONLINE port: the waits of all its claims are withdrawn, its claims then end abnormally with
cause PORT-DOWN in ascending task number, it goes OFFLINE with an empty notice queue, lost count 0 and its line
deasserted, and PORT-DOWN with the number of claims ended is posted to the other ports, behind the notices of the
ends. So its rights and message queues stay, the tasks it had claimed are READY or SUSPENDED by depth without a claim,
every other task is untouched, no other port's session, rights or requests change, and the last notice of each other
ONLINE port is the PORT-DOWN, where its queue had room. On an OFFLINE port nothing changes (R84, R151, R166). -/
def Obligations.TeardownLeavesThePortOffline : Prop :=
  ∀ (s : State) (p : Port),
    ((s.port p).session = .offline → s.teardown p = s)
    ∧ ((s.port p).session = .online →
        let ts := (List.finRange 64).filter (fun t => (s.claimOf t).map (·.port) = some p)
        let waitless := ts.foldl (fun u t => match s.claimOf t with
          | none => u
          | some c => u.withdraw ⟨t, c.token⟩) s
        let ended := ts.foldl (fun u t => u.abnormalEnd t .portDown) waitless
        let closed := ended.onPort p
          (fun r => { r with session := .offline, notices := [], lost := 0, attention := false })
        s.teardown p = closed.postAll (([0, 1, 2, 3] : List Port).filter (· ≠ p)) (.portDown p ts.length)
        ∧ (s.teardown p).port p = { s.port p with session := .offline, notices := [], lost := 0, attention := false }
        ∧ (∀ r ≠ p, ((s.teardown p).port r).session = (s.port r).session
            ∧ ((s.teardown p).port r).rights = (s.port r).rights
            ∧ ((s.teardown p).port r).requests = (s.port r).requests
            ∧ ((s.port r).session = .online →
                ((s.teardown p).port r).notices.getLast? = some (.portDown p ts.length)
                ∨ 16 ≤ ((s.teardown p).port r).notices.length ∧ ((s.teardown p).port r).lost ≠ 0))
        ∧ (∀ t, t ∉ ts → (s.teardown p).task t = s.task t)
        ∧ (∀ t ∈ ts, ∃ k, (s.teardown p).task t = some k ∧ k.claim = none ∧ k.op = none
            ∧ k.state = (if k.stack = [] then .ready else .suspended))
        ∧ (s.teardown p).nextToken = s.nextToken)

/-! ### Tasks -/

/-- O27. DEFINE makes the lowest EMPTY record, or the EMPTY one named, a READY task with its parameters, L + 1 EMPTY
slots, depth 0 and no claim or operation, over the lowest FREE pages: page i of the reservation is part i mod
frame pages of slot i ÷ frame pages, and the pages after the slots are the data area's. It is refused EXISTS for a
record in use, TABLE-FULL where none is EMPTY, and then NO-PAGES with the count needed and the pages SCRUBBING where
too few pages are FREE (R10, R12 to R14). O16 says what the parameters are read from. -/
def Obligations.DefineMakesAReadyTaskOrRefuses : Prop :=
  (∀ (p : Port) (o : Operands) (s : State) (x : Params) (t : TaskNo), s.admits p .define → o.flags = 0 →
      defineParams o = some x →
      (taskOf o.task = some t ∧ s.task t = none
        ∨ o.task = 0xFF ∧ s.task t = none ∧ ∀ u < t, s.task u ≠ none) →
      let free := s.pagesWhere (·.state == .free)
      let slotTotal := (x.frameLimit + 1) * x.framePages
      let count := slotTotal + x.dataPages
      count ≤ free.length →
      let pages := free.take count
      let k : Machine.Task :=
        { state := .ready, frameLimit := x.frameLimit, framePages := x.framePages, dataPages := x.dataPages,
          resumeMode := x.resumeMode, affinity := x.affinity, watch := x.watch, leasePeriod := x.leasePeriod,
          entryWord := x.entryWord
          slotPages := (List.range (x.frameLimit + 1)).map
            (fun i => (pages.drop (i * x.framePages)).take x.framePages)
          dataAreaPages := pages.drop slotTotal
          slots := List.replicate (x.frameLimit + 1) { status := .empty, frame := none }
          stack := [], claim := none, op := none }
      let map : Vector Page 1024 := Vector.ofFn (fun n =>
        match pages.idxOf? n with
        | none => s.page n
        | some i =>
          { state := .reserved, owner := some t, stale := false, poisoned := false
            role := some (if i < slotTotal then .slotPart (i / x.framePages) (i % x.framePages)
                          else .dataPart (i - slotTotal)) })
      exec (.define p o) s = .next (({ s.arrived p ⟨0x10, o⟩ with pages := map }.setTask t (some k)).respond p
        { answerTo o .ok 0 (halves count (free.length - count)) with task := BitVec.ofNat 8 t.val }))
  ∧ ∀ (p : Port) (o : Operands) (s : State) (x : Params), s.admits p .define → o.flags = 0 → defineParams o = some x →
      let s1 := s.arrived p ⟨0x10, o⟩
      let count := (x.frameLimit + 1) * x.framePages + x.dataPages
      (∀ t, taskOf o.task = some t → s.task t ≠ none →
        exec (.define p o) s = .next (s1.respond p (answerTo o .exists_ 0 0)))
      ∧ (o.task = 0xFF → (∀ t, s.task t ≠ none) →
        exec (.define p o) s = .next (s1.respond p (answerTo o .tableFull 0 0)))
      ∧ ((∃ t, (taskOf o.task = some t ∨ o.task = 0xFF) ∧ s.task t = none) →
        s.countPages (·.state == .free) < count →
        exec (.define p o) s = .next (s1.respond p
          (answerTo o .noPages 0 (halves count (s.countPages (·.state == .scrubbing))))))

/-- O29. DISCARD of a task at rest gives up the locks its FILLED frames carry in ascending number, releases its pages in
ascending number and empties its record; a RUNNING task is BUSY (R15 to R18). -/
def Obligations.DiscardEmptiesTheRecord : Prop :=
  ∀ (p : Port) (o : Operands) (s : State) (t : TaskNo) (k : Machine.Task), s.admits p .discard → o.flags = 0 →
    o.payload = [] → taskOf o.task = some t → s.task t = some k →
    let s1 := s.arrived p ⟨0x11, o⟩
    let carried := (List.finRange 32).filter (fun l => ∃ x ∈ k.slots, x.status = .filled ∧ ∃ f ∈ x.frame, l ∈ f.carried)
    let pages := s.pagesWhere (fun g => g.owner == some t)
    (k.state ≠ .running → exec (.discard p o) s = .next
      ((((s1.giveUpAll carried).releasePages pages).setTask t none).respond p
        (answerTo o .ok 0 (halves pages.length carried.length))))
    ∧ (k.state = .running → exec (.discard p o) s = .next (s1.respond p (answerTo o .busy 0 0)))

/-- O30. RETUNE replaces the five retunable parameters and nothing else; a task with an operation in flight is CONFLICT
(R19, R20). -/
def Obligations.RetuneReplacesTheParameters : Prop :=
  ∀ (p : Port) (o : Operands) (s : State) (x : Params) (t : TaskNo) (k : Machine.Task), s.admits p .retune →
    o.flags = 0 → retuneParams o = some x → taskOf o.task = some t → s.task t = some k →
    let s1 := s.arrived p ⟨0x12, o⟩
    (k.op = none → exec (.retune p o) s = .next
      ((s1.setTask t (some { k with resumeMode := x.resumeMode, affinity := x.affinity, watch := x.watch,
                                    leasePeriod := x.leasePeriod, entryWord := x.entryWord })).respond p
        (answerTo o .ok 0 0)))
    ∧ (k.op ≠ none → exec (.retune p o) s = .next (s1.respond p (answerTo o .conflict 0 0)))

/-- O31. QUERY-TASK answers with the fields of Table 1-6 as the record has them, each optional field absent where its
condition does not hold, token 0, and changes nothing (R21, R22). -/
def Obligations.QueryTaskReportsTheRecord : Prop :=
  ∀ (p : Port) (o : Operands) (s : State) (t : TaskNo) (k : Machine.Task), s.admits p .queryTask → o.flags = 0 →
    o.payload = [] → taskOf o.task = some t → s.task t = some k →
    exec (.queryTask p o) s = .next ((s.arrived p ⟨0x13, o⟩).respond p (answerTo o .ok 0 0
      (.task { state := k.state, depth := k.stack.length, frameLimit := k.frameLimit, framePages := k.framePages,
               dataPages := k.dataPages, resumeMode := k.resumeMode, affinity := k.affinity, watch := k.watch,
               leasePeriod := k.leasePeriod, entryWord := k.entryWord
               claimPort := k.claim.map (·.port), claimLevel := k.claim.map (·.level)
               claimPhase := k.claim.map (·.phase), claimStart := k.claim.map (·.startKind)
               leaseRemaining := k.claim.bind (·.lease), inFlight := k.op.map Op.kind
               topTagWord := (k.stack.getLast?.bind k.frameIn).map (·.tagWord)
               topOrigin := (k.stack.getLast?.bind k.frameIn).map (·.origin) })))

/-- O32. SALVAGE of a FAULTED task gives up the locks of its top frame, drops the frame, its slot's pages going stale,
leaves the task READY or SUSPENDED by depth and posts TASK-FREED to the watchers; any other task is NOT-FAULTED
(R88). -/
def Obligations.SalvageDropsTheDamagedFrame : Prop :=
  ∀ (p : Port) (o : Operands) (s : State) (t : TaskNo) (k : Machine.Task), s.admits p .salvage → o.flags = 0 →
    o.payload = [] → taskOf o.task = some t → s.task t = some k →
    let s1 := s.arrived p ⟨0x14, o⟩
    (∀ below slot f, k.state = .faulted → k.stack = below ++ [slot] → k.frameIn slot = some f →
      exec (.salvage p o) s = .next
        ((State.postAll
          (((s1.giveUpAll f.carried).emptySlot t slot).onTask t (fun k =>
            { k with stack := below, state := if below = [] then .ready else .suspended }))
          (PortSet.members k.watch none) (.taskFreed t below.length)).respond p
          (answerTo o .ok 0 (halves below.length f.carried.length))))
    ∧ (k.state ≠ .faulted → exec (.salvage p o) s = .next (s1.respond p (answerTo o .notFaulted 0 0)))

/-! ### Claims -/

/-- O33. A CLAIM is refused DENIED outside the affinity, then FAULTED, then BUSY, and takes no token. One that does not
restore is answered at once: the task is RUNNING under an ACTIVE claim with the next token, its lease timer loaded,
and the counter advances, 65535 being followed by 1. READY starts FRESH at level PRIMARY; a NOTIFY task over a
PRIMARY frame, without force-restore, is NOTIFIED at level HANDLER, told the frame's tag word and length, its stack
left as it is, and refused NO-ROOM at the frame limit (R5, R50, R53 to R58, R60, Table 3-2). -/
def Obligations.ClaimsAreRefusedOrAnsweredAtOnce : Prop :=
  ∀ (p : Port) (o : Operands) (s : State) (t : TaskNo) (k : Machine.Task), s.admits p .claim →
    (o.flags = 0 ∨ o.flags = 1) → o.payload = [] → taskOf o.task = some t → s.task t = some k →
    let s1 := s.arrived p ⟨0x20, o⟩
    let admitted := k.affinity.getLsbD p.val = true
    let lease := if k.leasePeriod = 0 then none else some k.leasePeriod
    let claimed := fun (kind : StartKind) (level : Origin) (x : ClaimRecord) =>
      State.respond (State.setTask { s1 with nextToken := if s.nextToken = 65535 then 1 else s.nextToken + 1 } t
          (some { k with
            state := .running
            claim := some { port := p, token := s.nextToken, phase := .active, level := level, startKind := kind,
                            retained := none, lease := lease, expiryDue := false } })) p
        (answerTo o .ok s.nextToken k.entryWord (.claim x))
    (¬ admitted → exec (.claim p o) s = .next (s1.respond p (answerTo o .denied 0 0)))
    ∧ (admitted → k.state = .faulted → exec (.claim p o) s = .next (s1.respond p (answerTo o .faulted 0 0)))
    ∧ (admitted → k.state = .running → exec (.claim p o) s = .next (s1.respond p (answerTo o .busy 0 0)))
    ∧ (admitted → k.state = .ready → exec (.claim p o) s = .next (claimed .fresh .primary
      { startKind := .fresh, level := .primary, depth := k.stack.length, entryWord := some k.entryWord,
        tagWord := none, frameLength := none, origin := none, slot := none, locksLost := none, pushedBy := none,
        heldLocks := none }))
    ∧ (∀ below slot f, o.flags = 0 → admitted → k.state = .suspended → k.resumeMode = .notify →
        k.stack = below ++ [slot] →
        k.frameIn slot = some f → f.origin = .primary →
        (k.stack.length = k.frameLimit → exec (.claim p o) s = .next (s1.respond p (answerTo o .noRoom 0 0)))
        ∧ (k.stack.length ≠ k.frameLimit → exec (.claim p o) s = .next (claimed .notified .handler
          { startKind := .notified, level := .handler, depth := k.stack.length, entryWord := some k.entryWord,
            tagWord := some f.tagWord, frameLength := some f.length, origin := some f.origin, slot := none,
            locksLost := none, pushedBy := none, heldLocks := none })))

/-- O34. An accepted CLAIM that restores takes the next token and starts the delivery of the top frame, unanswered, its
claim OPENING with no timer running; where the page of part 0 is poisoned the claim ends on damage at once (R56,
R59, R86, R135). -/
def Obligations.ClaimRestoringStartsADelivery : Prop :=
  ∀ (p : Port) (o : Operands) (s : State) (t : TaskNo) (k : Machine.Task) (below : List Nat) (slot : Nat)
    (f : FrameRecord) (n : PageNo), s.admits p .claim →
    (o.flags = 0 ∨ o.flags = 1) → o.payload = [] → taskOf o.task = some t → s.task t = some k →
    k.affinity.getLsbD p.val = true → k.state = .suspended → k.stack = below ++ [slot] → k.frameIn slot = some f →
    (k.resumeMode = .restore ∨ f.origin = .handler ∨ o.flags = 1) → k.slotPage slot 0 = some n →
    let s1 := { s.arrived p ⟨0x20, o⟩ with nextToken := if s.nextToken = 65535 then 1 else s.nextToken + 1 }
    ((s.page n).poisoned = false → exec (.claim p o) s = .next (s1.setTask t
      (some { k with
        state := .running, op := some (.delivery slot 0 [])
        claim := some { port := p, token := s.nextToken, phase := .opening, level := f.origin, startKind := .restored,
                        retained := none, lease := none, expiryDue := false } })))
    ∧ ((s.page n).poisoned = true → exec (.claim p o) s = .next
      ((State.postAll ((s1.onPage n (fun g => { g with poisoned := true })).setTask t
          (some { k with state := .faulted, claim := none, op := none }))
        (PortSet.members k.watch none) (.taskFaulted t k.stack.length)).respond p
        (answerTo o .damaged s.nextToken (halves n.val 0))))

/-- O35. RELEASE in one step withdraws the claim's wait, gives up its locks in ascending number, empties its retained
slot, ends the claim, posts TASK-FREED to the ONLINE watchers other than its own port, and is answered OK with the
depth and the locks given up (R66, R69, R111). -/
def Obligations.ReleaseEndsTheClaim : Prop :=
  ∀ (p : Port) (o : Operands) (s : State) (t : TaskNo) (k : Machine.Task) (c : Claim), s.admits p .release →
    o.flags = 0 → o.payload = [] → taskOf o.task = some t → s.liveClaim p t k c o.token →
    let held := s.heldBy (.claim t c.token)
    let s1 := ((s.arrived p ⟨0x21, o⟩).withdraw ⟨t, c.token⟩).giveUpAll held
    let s2 := match c.retained with
      | none => s1
      | some slot => s1.emptySlot t slot
    let s3 := s2.onTask t (fun k =>
      { k with claim := none, op := none, state := if k.stack = [] then .ready else .suspended })
    exec (.release p o) s = .next ((s3.postAll (PortSet.members k.watch (some p)) (.taskFreed t k.stack.length)).respond p
      (answerTo o .ok c.token (halves k.stack.length held.length) .none ⟨false, (s.waitOf ⟨t, c.token⟩).isSome⟩))

/-- O36. SUSPEND starts a fill of the lowest EMPTY slot: the slot FILLING, the claim's wait withdrawn, its timer stopped,
the slot's pages out of the scrub queue and no longer stale; a frame longer than the slot is BAD-PARAM with the
timer restarted (R34, R35, R133). -/
def Obligations.SuspendStartsAFill : Prop :=
  ∀ (p : Port) (o : Operands) (s : State) (t : TaskNo) (k : Machine.Task) (c : Claim), s.admits p .suspend →
    o.flags = 0 → 4 ≤ o.payload.length → o.payload.length ≤ 8192 → o.payload.length % 4 = 0 →
    taskOf o.task = some t → s.liveClaim p t k c o.token →
    let s1 := s.arrived p ⟨0x22, o⟩
    (o.payload.length > k.framePages * 1024 →
      exec (.suspend p o) s = .next ((s1.onTask t Machine.Task.loadLease).respond p (answerTo o .badParam c.token 0)))
    ∧ (∀ slot x pages, o.payload.length ≤ k.framePages * 1024 → k.slots[slot]? = some x → x.status = .empty →
        (∀ j < slot, ∀ y, k.slots[j]? = some y → y.status ≠ .empty) → k.slotPages[slot]? = some pages →
        exec (.suspend p o) s = .next (State.withdrawPages ((s1.withdraw ⟨t, c.token⟩).setTask t
          (some { k with
            slots := k.slots.set slot { status := .filling, frame := none }
            claim := some { c with lease := none, expiryDue := false }
            op := some (.fill slot 0 o.arg o.payload (s.waitOf ⟨t, c.token⟩).isSome) })) pages))

/-- O37. RENEW restarts the claim's timer at the lease period the record then holds, or leaves it stopped where that is
0, and is answered OK with that period; its flags and argument word are not examined (R8, R65, R73). -/
def Obligations.RenewReloadsTheLease : Prop :=
  ∀ (p : Port) (o : Operands) (s : State) (t : TaskNo) (k : Machine.Task) (c : Claim), s.admits p .renew →
    o.payload = [] → taskOf o.task = some t → s.liveClaim p t k c o.token →
    let c' := { c with lease := if k.leasePeriod = 0 then none else some k.leasePeriod, expiryDue := false }
    exec (.renew p o) s = .next (((s.arrived p ⟨0x23, o⟩).setTask t (some { k with claim := some c' })).respond p
      (answerTo o .ok c.token (halves k.leasePeriod 0)))

/-- O38. EVICT ends the claim of a RUNNING task abnormally with cause EVICTED and is answered OK with the depth after the
end and the number of locks given up, the answer after every effect of the end; any other task is NOT-RUNNING
(R75, R76). -/
def Obligations.EvictEndsTheClaim : Prop :=
  ∀ (p : Port) (o : Operands) (s : State) (t : TaskNo) (k : Machine.Task), s.admits p .evict → o.flags = 0 →
    o.payload = [] → taskOf o.task = some t → s.task t = some k →
    let s1 := s.arrived p ⟨0x24, o⟩
    (k.state ≠ .running → exec (.evict p o) s = .next (s1.respond p (answerTo o .notRunning 0 0)))
    ∧ (∀ c, k.state = .running → k.claim = some c → c.phase = .opening → exec (.evict p o) s = .next
        ((s1.abnormalEnd t .evicted).respond p (answerTo o .ok 0 (halves k.stack.length 0))))
    ∧ (∀ c, k.state = .running → k.claim = some c → c.phase = .active → c.retained = none →
        exec (.evict p o) s = .next ((s1.abnormalEnd t .evicted).respond p
          (answerTo o .ok 0 (halves k.stack.length (s.heldBy (.claim t c.token)).length))))
    ∧ (∀ c slot f, k.state = .running → k.claim = some c → c.phase = .active → c.retained = some slot →
        k.frameIn slot = some f → (∀ a b w bytes x, k.op = some (.fill a b w bytes x) → a ≠ slot) →
        exec (.evict p o) s = .next ((s1.abnormalEnd t .evicted).respond p
          (answerTo o .ok 0 (halves (k.stack.length + 1)
            ((s.heldBy (.claim t c.token)).filter (fun l => l ∉ f.carried)).length))))

/-- O39. The abnormal end of a claim in its steps: the operation in flight aborted; the wait withdrawn; an OPENING claim's
locks and stack left alone, for a FRESH or NOTIFIED claim every lock it holds given up, for a RESTORED one the
retained frame reinstated; the claim removed and the task at rest by depth; then CLAIM-LOST to the claim's port and
TASK-FREED to the watchers, or after a teardown TASK-FREED to the watchers other than that port. Behind the notices,
except after a teardown, the request whose operation was aborted is answered ABORTED with the claim's token, "wait
withdrawn" where a fill's start withdrew a wait, and the pages that a data write completed (R60, R77, R78, R80 to R83,
Tables 4-3 and 4-4). O40 says what the abort leaves and O41 what the reinstatement does. -/
def Obligations.AbnormalEndsInSteps : Prop :=
  ∀ (s : State) (t : TaskNo) (k : Machine.Task) (c : Claim) (q : Request) (cause : EndCause),
    s.task t = some k → k.claim = some c → (k.op ≠ none → (s.port c.port).requests.head? = some q) →
    let s1 := (s.abortOp t).withdraw ⟨t, c.token⟩
    let rest := fun k : Machine.Task =>
      { k with claim := none, op := none, state := if k.stack = [] then .ready else .suspended }
    let aborted := fun (notes : Notes) (pages : Nat) =>
      answerTo q.ops .aborted c.token (halves pages 0) .none notes
    let answered := fun u : State => match k.op, cause with
      | none, _ | some _, .portDown => u
      | some (.fill _ _ _ _ withdrew), _ => u.respond c.port (aborted ⟨false, withdrew⟩ 0)
      | some (.dataWrite offset _ next _), _ => u.respond c.port (aborted ⟨false, false⟩ (next - offset / 1024))
      | some _, _ => u.respond c.port (aborted ⟨false, false⟩ 0)
    let notices := fun (u : State) (depth : Nat) => match cause with
      | .evicted => State.postAll (u.post c.port (.claimLost t 1)) (PortSet.members k.watch none) (.taskFreed t depth)
      | .lapsed => State.postAll (u.post c.port (.claimLost t 2)) (PortSet.members k.watch none) (.taskFreed t depth)
      | .portDown => u.postAll (PortSet.members k.watch (some c.port)) (.taskFreed t depth)
    (c.phase = .opening → s.abnormalEnd t cause = answered (notices (s1.onTask t rest) k.stack.length))
    ∧ (c.phase = .active → c.retained = none → s.abnormalEnd t cause =
        answered (notices ((s1.giveUpAll (s.heldBy (.claim t c.token))).onTask t rest) k.stack.length))
    ∧ (∀ slot f, c.phase = .active → c.retained = some slot → k.frameIn slot = some f →
        (∀ a b w bytes x, k.op = some (.fill a b w bytes x) → a ≠ slot) → s.abnormalEnd t cause =
          answered (notices ((s1.reinstate t c.token slot).onTask t rest) (k.stack.length + 1)))

/-- O40. What step 1 of the abnormal end leaves of the operation in flight: its mark goes and its transfer frees the path.
An aborted fill's slot becomes EMPTY without a record, its pages stale and appended in part order to the scrub queue;
where a write of its was under way, the page of the part it had reached holds old and new bytes, which of them the
model leaves open (assumption 5), and no other byte of context memory changes. No other operation leaves a change but
its mark (R27, R39, R78, R79, R130, R136, Table 4-3). That a page with an entry in the scrub queue gets no second one is
read from R131 and is the model's (assumption 15). -/
def Obligations.AbortsLeaveWhatTheTableSays : Prop :=
  ∀ (s : State) (t : TaskNo) (k : Machine.Task) (c : Claim) (o : Op), s.task t = some k → k.claim = some c →
    k.op = some o →
    let u := s.abortOp t
    let path := if s.path = some (.port c.port) then none else s.path
    (o.kind ≠ .fill → u = { s.setTask t (some { k with op := none }) with path := path })
    ∧ ∀ slot next w bytes x, o = .fill slot next w bytes x →
        let pages := (k.slotPages[slot]?).getD []
        (u = { s.setTask t (some { k with op := none, slots := k.slots.set slot { status := .empty, frame := none } })
                with pages := u.pages, scrubQueue := u.scrubQueue, mem := u.mem, freeIndex := u.freeIndex, path := path })
        ∧ (∀ n, u.page n = if n ∈ pages then { s.page n with stale := true } else s.page n)
        ∧ (pages.Nodup → u.scrubQueue = s.scrubQueue ++ pages.filter (fun n => n ∉ s.scrubQueue))
        ∧ (s.path ≠ some (.port c.port) → u.mem = s.mem ∧ u.freeIndex = s.freeIndex)
        ∧ (k.slotPage slot next = none → u.mem = s.mem ∧ u.freeIndex = s.freeIndex)
        ∧ (∀ n, s.path = some (.port c.port) → k.slotPage slot next = some n →
            u.freeIndex = s.freeIndex + 1
            ∧ (∀ a, a < 1024 * n.val ∨ 1024 * n.val + 1024 ≤ a → Memory.read u.mem a = Memory.read s.mem a)
            ∧ ∀ i < 1024, Memory.read u.mem (1024 * n.val + i) = Memory.read s.mem (1024 * n.val + i)
                ∨ Memory.read u.mem (1024 * n.val + i) = bytes.getD (1024 * next + i) 0)

/-- O41. Reinstatement: the retained frame is FILLED on top of the stack again; each lock both the claim and the frame
hold moves to the frame, each other lock of the claim is given up, its new holder told in ascending lock number, and
the frame has lost locks where one of its own was gone. Nothing else changes (R81, R112, R115). -/
def Obligations.ReinstatementReconcilesTheLocks : Prop :=
  ∀ (s : State) (t : TaskNo) (k : Machine.Task) (token : Half) (slot : Nat) (f : FrameRecord),
    s.task t = some k → k.frameIn slot = some f →
    let held := s.heldBy (.claim t token)
    let u := s.reinstate t token slot
    let f' := { f with carried := held.filter (fun l => l ∈ f.carried)
                       locksLost := f.locksLost || f.carried.any (fun l => l ∉ held) }
    let grants := (held.filter (fun l => l ∉ f.carried)).filterMap (fun l => match (s.lock l).waiters with
      | [] => none
      | w :: _ => (s.claimOf w.task).map (fun c => (c.port, Notice.lockGranted w.task l)))
    u = { s.setTask t (some { k with stack := k.stack ++ [slot]
                                     slots := k.slots.set slot { status := .filled, frame := some f' } }) with
          locks := u.locks, ports := (grants.foldl (fun v x => v.post x.1 x.2) s).ports }
    ∧ ∀ l, (l ∉ held → u.lock l = s.lock l)
        ∧ (l ∈ held → l ∈ f.carried → u.lock l = { s.lock l with holder := some (.frame t slot) })
        ∧ (l ∈ held → l ∉ f.carried → u.lock l = match (s.lock l).waiters with
            | [] => { state := .free, holder := none, waiters := [], lastHolder := some t }
            | w :: rest => { state := .held, holder := some (.claim w.task w.token), waiters := rest,
                             lastHolder := some t })

/-! ### Peeks and data areas -/

/-- O42. PEEK-FRAME stops the claim's timer and starts a peek of the frame at its stack position; a position at or beyond
the depth is BAD-PARAM and a poisoned page of part 0 is DAMAGED, both with the timer restarted (R41 to R43, R72,
R135). -/
def Obligations.PeekFrameStartsAPeek : Prop :=
  ∀ (p : Port) (o : Operands) (s : State) (t : TaskNo) (k : Machine.Task) (c : Claim), s.admits p .peekFrame →
    o.flags = 0 → o.payload = [] → o.arg.toNat ≤ 7 → taskOf o.task = some t → s.liveClaim p t k c o.token →
    let s1 := s.arrived p ⟨0x30, o⟩
    (k.stack.length ≤ o.arg.toNat →
      exec (.peekFrame p o) s = .next ((s1.onTask t Machine.Task.loadLease).respond p (answerTo o .badParam c.token 0)))
    ∧ (∀ slot f n, k.stack[o.arg.toNat]? = some slot → k.frameIn slot = some f → k.slotPage slot 0 = some n →
        (s.page n).poisoned = false →
        let c' := { c with lease := none, expiryDue := false }
        exec (.peekFrame p o) s = .next (s1.setTask t
          (some { k with claim := some c', op := some (.peek o.arg.toNat slot 0 []) })))
    ∧ (∀ slot f n, k.stack[o.arg.toNat]? = some slot → k.frameIn slot = some f → k.slotPage slot 0 = some n →
        (s.page n).poisoned = true → k.op = none →
        exec (.peekFrame p o) s = .next (((s1.onPage n (fun g => { g with poisoned := true })).onTask t
          Machine.Task.loadLease).respond p (answerTo o .damaged c.token (halves n.val 0))))

/-- O43. DATA-READ within the data area, no page it covers poisoned, stops the claim's timer and starts a read at the
first covered part; beyond the area it is BAD-PARAM, and the lowest covered part with a poisoned page makes it
DAMAGED, both with the timer restarted (R118, R119, R120). -/
def Obligations.DataReadStartsARead : Prop :=
  ∀ (p : Port) (o : Operands) (s : State) (t : TaskNo) (k : Machine.Task) (c : Claim), s.admits p .dataRead →
    operandsOk o .dataRead = true → taskOf o.task = some t → s.liveClaim p t k c o.token →
    let s1 := s.arrived p ⟨0x31, o⟩
    let offset := o.arg.toNat % 65536
    let length := o.arg.toNat / 65536
    let covered := fun part => offset / 1024 ≤ part ∧ part ≤ (offset + length - 1) / 1024
    let poisoned := fun part => ∃ n, k.dataPage part = some n ∧ (s.page n).poisoned = true
    (offset + length > k.dataPages * 1024 →
      exec (.dataRead p o) s = .next ((s1.onTask t Machine.Task.loadLease).respond p (answerTo o .badParam c.token 0)))
    ∧ (offset + length ≤ k.dataPages * 1024 → (∀ part, covered part → ¬ poisoned part) →
        let c' := { c with lease := none, expiryDue := false }
        exec (.dataRead p o) s = .next (s1.setTask t
          (some { k with claim := some c', op := some (.dataRead offset length (offset / 1024) []) })))
    ∧ (∀ part n, offset + length ≤ k.dataPages * 1024 → covered part → k.dataPage part = some n →
        (s.page n).poisoned = true → (∀ j < part, covered j → ¬ poisoned j) →
        exec (.dataRead p o) s = .next ((s1.onTask t Machine.Task.loadLease).respond p
          (answerTo o .damaged c.token (halves n.val part))))

/-- O44. DATA-WRITE within the data area, no page it covers partly poisoned, stops the claim's timer and starts a write at
the first covered part, nothing written yet; beyond the area it is BAD-PARAM, and the lower partly covered part
with a poisoned page makes it DAMAGED, both with the timer restarted (R118, R119, R121). -/
def Obligations.DataWriteStartsAWrite : Prop :=
  ∀ (p : Port) (o : Operands) (s : State) (t : TaskNo) (k : Machine.Task) (c : Claim), s.admits p .dataWrite →
    operandsOk o .dataWrite = true → taskOf o.task = some t → s.liveClaim p t k c o.token →
    let s1 := s.arrived p ⟨0x32, o⟩
    let offset := o.arg.toNat
    let length := o.payload.length
    let partly := fun part => offset / 1024 ≤ part ∧ part ≤ (offset + length - 1) / 1024
      ∧ ¬ (offset ≤ 1024 * part ∧ 1024 * part + 1024 ≤ offset + length)
    let poisoned := fun part => ∃ n, k.dataPage part = some n ∧ (s.page n).poisoned = true
    (offset + length > k.dataPages * 1024 →
      exec (.dataWrite p o) s = .next ((s1.onTask t Machine.Task.loadLease).respond p (answerTo o .badParam c.token 0)))
    ∧ (offset + length ≤ k.dataPages * 1024 → (∀ part, partly part → ¬ poisoned part) →
        let c' := { c with lease := none, expiryDue := false }
        exec (.dataWrite p o) s = .next (s1.setTask t
          (some { k with claim := some c', op := some (.dataWrite offset o.payload (offset / 1024) 0) })))
    ∧ (∀ part n, offset + length ≤ k.dataPages * 1024 → partly part → k.dataPage part = some n →
        (s.page n).poisoned = true → (∀ j < part, partly j → ¬ poisoned j) →
        exec (.dataWrite p o) s = .next ((s1.onTask t Machine.Task.loadLease).respond p
          (answerTo o .damaged c.token (halves n.val part))))

/-! ### Locks -/

/-- O45. LOCK-NEW makes the lowest UNALLOCATED lock FREE with no holder, waiter or last holder, and reports it with the
number still UNALLOCATED; with none it is LOCKS-EXHAUSTED. LOCK-RETURN makes a FREE lock UNALLOCATED again and
reports it likewise; a HELD one is HELD (R99, R100). -/
def Obligations.LocksAreAllocatedAndReturned : Prop :=
  ∀ (p : Port) (o : Operands) (s : State), o.flags = 0 → o.payload = [] →
    let count := ((List.finRange 32).filter (fun l => (s.lock l).state = .unallocated)).length
    (∀ l, s.admits p .lockNew → (s.lock l).state = .unallocated → (∀ j < l, (s.lock j).state ≠ .unallocated) →
      exec (.lockNew p o) s = .next
        (((s.arrived p ⟨0x40, o⟩).setLock l { state := .free, holder := none, waiters := [], lastHolder := none }).respond
          p (answerTo o .ok 0 (halves l.val (count - 1)))))
    ∧ (s.admits p .lockNew → (∀ l, (s.lock l).state ≠ .unallocated) →
      exec (.lockNew p o) s = .next ((s.arrived p ⟨0x40, o⟩).respond p (answerTo o .locksExhausted 0 0)))
    ∧ (∀ l, s.admits p .lockReturn → lockOf o.arg = some l → (s.lock l).state = .free →
      exec (.lockReturn p o) s = .next
        (((s.arrived p ⟨0x41, o⟩).setLock l
          { state := .unallocated, holder := none, waiters := [], lastHolder := none }).respond
          p (answerTo o .ok 0 (halves l.val (count + 1)))))
    ∧ (∀ l, s.admits p .lockReturn → lockOf o.arg = some l → (s.lock l).state = .held →
      exec (.lockReturn p o) s = .next ((s.arrived p ⟨0x41, o⟩).respond p (answerTo o .held 0 0)))

/-- O46. TAKE and TAKE-WAIT by the lock's holder (Table 5-4, R103). A FREE lock is taken, its last holder task kept; the
claim's own is "already held"; a frame of the task has OWN-FRAME. Held elsewhere, TAKE is HELD, and TAKE-WAIT is
ALREADY-WAITING for a claim that waits on any lock, WAIT-FULL at 8 waiters, and otherwise QUEUED at the tail with
its place. Each answer restarts the claim's timer (R101 to R103). -/
def Obligations.TakesFollowTheHolder : Prop :=
  ∀ (p : Port) (o : Operands) (s : State) (t : TaskNo) (k : Machine.Task) (c : Claim) (l : LockNo),
    s.admits p .take → o.flags = 0 → o.payload = [] → taskOf o.task = some t → lockOf o.arg = some l →
    s.liveClaim p t k c o.token →
    let elsewhere := (s.lock l).state = .held ∧ ∃ h, (s.lock l).holder = some h ∧ h.task ≠ t
    let waiting := ∃ j, (⟨t, c.token⟩ : Waiter) ∈ (s.lock j).waiters
    let taken : Lock := { state := .held, holder := some (.claim t c.token), waiters := []
                          lastHolder := (s.lock l).lastHolder }
    let joined : Lock := { s.lock l with waiters := (s.lock l).waiters ++ [⟨t, c.token⟩] }
    let done := answerTo o .ok c.token (halves l.val 0)
    (∀ i code, (i, code) ∈ [(Instr.take p o, (0x42 : Byte)), (.takeWait p o, 0x43)] →
      let s1 := (s.arrived p ⟨code, o⟩).onTask t Machine.Task.loadLease
      ((s.lock l).state = .free → exec i s = .next ((s1.setLock l taken).respond p done))
      ∧ ((s.lock l).state = .held → (s.lock l).holder = some (.claim t c.token) →
          exec i s = .next (s1.respond p { done with notes := ⟨true, false⟩ }))
      ∧ (∀ slot, (s.lock l).state = .held → (s.lock l).holder = some (.frame t slot) →
          exec i s = .next (s1.respond p (answerTo o .ownFrame c.token 0))))
    ∧ (let s1 := (s.arrived p ⟨0x42, o⟩).onTask t Machine.Task.loadLease
       elsewhere → exec (.take p o) s = .next (s1.respond p (answerTo o .held c.token 0)))
    ∧ (let s1 := (s.arrived p ⟨0x43, o⟩).onTask t Machine.Task.loadLease
       (elsewhere → waiting → exec (.takeWait p o) s = .next (s1.respond p (answerTo o .alreadyWaiting c.token 0)))
       ∧ (elsewhere → ¬ waiting → 8 ≤ (s.lock l).waiters.length →
          exec (.takeWait p o) s = .next (s1.respond p (answerTo o .waitFull c.token 0)))
       ∧ (elsewhere → ¬ waiting → (s.lock l).waiters.length < 8 →
          exec (.takeWait p o) s = .next ((s1.setLock l joined).respond p
            (answerTo o .queued c.token (halves l.val ((s.lock l).waiters.length + 1))))))

/-- O47. WITHDRAW takes the claim's entry out of the waiter list it stands in, the others keeping their order, and
reports the lock; NOT-WAITING for a claim that waits on none. GIVE runs the give-up procedure on a lock the claim
holds and reports the new holder's task, or FFFFh; NOT-HOLDER for any other. Each restarts the claim's timer
(R98, R101, R105, R107). -/
def Obligations.WithdrawAndGive : Prop :=
  ∀ (p : Port) (o : Operands) (s : State) (t : TaskNo) (k : Machine.Task) (c : Claim), o.flags = 0 → o.payload = [] →
    taskOf o.task = some t → s.liveClaim p t k c o.token →
    let w : Waiter := ⟨t, c.token⟩
    let s1 := (s.arrived p ⟨0x44, o⟩).onTask t Machine.Task.loadLease
    let s2 := s.arrived p ⟨0x45, o⟩
    (s.admits p .withdraw → (∀ l, w ∉ (s.lock l).waiters) →
      exec (.withdraw p o) s = .next (s1.respond p (answerTo o .notWaiting c.token 0)))
    ∧ (∀ l, s.admits p .withdraw → w ∈ (s.lock l).waiters → (∀ j < l, w ∉ (s.lock j).waiters) →
        exec (.withdraw p o) s = .next
          ((s1.setLock l { s.lock l with waiters := (s.lock l).waiters.erase w }).respond p
            (answerTo o .ok c.token (halves l.val 0))))
    ∧ (∀ l, s.admits p .give → lockOf o.arg = some l → (s.lock l).state = .held →
        (s.lock l).holder = some (.claim t c.token) →
        exec (.give p o) s = .next (((s2.giveUp l).onTask t Machine.Task.loadLease).respond p
          (answerTo o .ok c.token (halves l.val (match (s.lock l).waiters with
            | [] => 0xFFFF
            | x :: _ => x.task.val)))))
    ∧ (∀ l, s.admits p .give → lockOf o.arg = some l → (s.lock l).state ≠ .unallocated →
        (s.lock l).holder ≠ some (.claim t c.token) →
        exec (.give p o) s = .next ((s2.onTask t Machine.Task.loadLease).respond p
          (answerTo o .notHolder c.token 0)))

/-- O48. QUERY-LOCK reports a lock as its record stands by the fields of Table 5-5, a claim holder by task and port and a
frame holder by task and slot; the report has no field for a token, and the answer's token field is 0. QUERY-MEMORY
reports the page map's counts; neither changes anything (R108, R139). -/
def Obligations.QueriesOfLocksAndMemory : Prop :=
  ∀ (p : Port) (o : Operands) (s : State), o.flags = 0 → o.payload = [] →
    (∀ l, s.admits p .queryLock → lockOf o.arg = some l → (s.lock l).state ≠ .unallocated →
      exec (.queryLock p o) s = .next ((s.arrived p ⟨0x46, o⟩).respond p (answerTo o .ok 0 0
        (.lock (match (s.lock l).holder with
          | none =>
            { held := (s.lock l).state == .held, holderKind := none, holderTask := none, holderPort := none,
              holderSlot := none, waiters := (s.lock l).waiters.length, lastHolder := (s.lock l).lastHolder }
          | some (.claim t _) =>
            { held := (s.lock l).state == .held, holderKind := some .claim, holderTask := some t
              holderPort := (s.claimOf t).map (·.port), holderSlot := none
              waiters := (s.lock l).waiters.length, lastHolder := (s.lock l).lastHolder }
          | some (.frame t slot) =>
            { held := (s.lock l).state == .held, holderKind := some .frame, holderTask := some t, holderPort := none,
              holderSlot := some slot, waiters := (s.lock l).waiters.length
              lastHolder := (s.lock l).lastHolder })))))
    ∧ (s.admits p .queryMemory →
      let count := fun f => s.pages.toList.countP f
      exec (.queryMemory p o) s = .next ((s.arrived p ⟨0x50, o⟩).respond p (answerTo o .ok 0
        (halves (count (·.state == .free)) (count (·.state == .scrubbing)))
        (.memory { free := count (·.state == .free), reserved := count (·.state == .reserved)
                   scrubbing := count (·.state == .scrubbing), queueLength := s.scrubQueue.length
                   inProgress := s.scrubbing, poisoned := count (·.poisoned) }))))

/-- O49. The give-up procedure on several locks: each HELD one passes to its oldest waiter, the rest of the list in order,
or becomes FREE, its last holder task being the task that gave it up; no other lock changes, and each grant posts
LOCK-GRANTED to the port of the claim that received it, in the order of the list (R96, R115). -/
def Obligations.GiveUpPassesLocksOn : Prop :=
  ∀ (s : State) (ls : LockSet), ls.Nodup →
    let grants := ls.filterMap (fun l => match (s.lock l).holder, (s.lock l).waiters with
      | some _, w :: _ => (s.claimOf w.task).map (fun c => (c.port, Notice.lockGranted w.task l))
      | _, _ => none)
    s.giveUpAll ls = grants.foldl (fun u x => u.post x.1 x.2) { s with locks := Vector.ofFn (fun l =>
      if l ∈ ls then match (s.lock l).holder, (s.lock l).waiters with
        | none, _ => s.lock l
        | some h, [] => { state := .free, holder := none, waiters := [], lastHolder := some h.task }
        | some h, w :: rest => { state := .held, holder := some (.claim w.task w.token), waiters := rest
                                 lastHolder := some h.task }
      else s.lock l) }

/-- O50. Where a claim's WITHDRAW and a move of the lock on which it waits reach the same lock, the outcome is the same in
either order: the claim waits on the same lock before and after the move, its entry goes from that lock's waiter list
and the others keep their order, no other list changes, the holder is the one moved to, and no notice is posted
(R97, R98, R181). -/
def Obligations.MoveAndWithdrawCommute : Prop :=
  ∀ (s : State) (w : Waiter) (ls : LockSet) (h h' : Holder), h.task = h'.task →
    let u := (s.moveAll ls h h').withdraw w
    (s.moveAll ls h h').waitOf w = s.waitOf w
    ∧ u = (s.withdraw w).moveAll ls h h'
    ∧ u = { s with locks := u.locks }
    ∧ ∀ l, (u.lock l).waiters =
          (if s.waitOf w = some l then (s.lock l).waiters.erase w else (s.lock l).waiters)
        ∧ (u.lock l).holder = (if l ∈ ls ∧ (s.lock l).holder = some h then some h' else (s.lock l).holder)
        ∧ (u.lock l).state = (s.lock l).state ∧ (u.lock l).lastHolder = (s.lock l).lastHolder

/-! ### The page map, the arbiter and transfers -/

/-- O51. The page map's three procedures on pages listed once, and the emptying of a slot. The first marks the pages
stale and appends those without an entry to the scrub queue; a fill's start takes their entries out of it and clears the
marks; DISCARD makes them SCRUBBING with no owner, role or stale mark, and appends those neither queued nor in
progress. Poison and every other page stay. The slot that empties is EMPTY without a frame record and its pages go
through the first, in part order (R27, R129 to R131, R133; one entry per page, assumption 15). -/
def Obligations.PagesAreMarkedQueuedAndReleased : Prop :=
  ∀ (s : State) (ns : List PageNo), ns.Nodup →
    let stale : State := { s with
      pages := Vector.ofFn (fun n => if n ∈ ns then { s.page n with stale := true } else s.page n)
      scrubQueue := s.scrubQueue ++ ns.filter (fun n => n ∉ s.scrubQueue) }
    (s.markStale ns = stale)
    ∧ (s.withdrawPages ns = { s with
      pages := Vector.ofFn (fun n => if n ∈ ns then { s.page n with stale := false } else s.page n)
      scrubQueue := s.scrubQueue.filter (fun n => n ∉ ns) })
    ∧ (s.releasePages ns = { s with
      pages := Vector.ofFn (fun n =>
        if n ∈ ns then { s.page n with state := .scrubbing, owner := none, role := none, stale := false } else s.page n)
      scrubQueue := s.scrubQueue ++ ns.filter (fun n => n ∉ s.scrubQueue ∧ s.scrubbing ≠ some n) })
    ∧ ∀ t k slot, s.task t = some k → k.slotPages[slot]? = some ns →
        s.emptySlot t slot =
          stale.setTask t (some { k with slots := k.slots.set slot { status := .empty, frame := none } })

/-- O52. ARBITER_GRANT gives a free path to the first waiting claimant after the one the pointer names, in the order port
0, 1, 2, 3, scrubber, and the pointer then names it (R136). That the command changes nothing while the path is held or
nobody waits is the model's choice (assumption 8), and while FRST_N is asserted the model's reading (R169,
assumption 9). -/
def Obligations.ArbiterGrantsInRotation : Prop :=
  ∀ s : State,
    (s.path ≠ none ∨ s.frst = true ∨ (∀ x, s.waits x = false) → exec .arbiterGrant s = .next s)
    ∧ (∀ x, s.path = none → s.frst = false → s.waits x = true →
        (∀ y, s.waits y = true → s.pointer.turnsAfter x ≤ s.pointer.turnsAfter y) →
        exec .arbiterGrant s = .next { s with pointer := x, path := some x })
    ∧ (s.waits .scrubber = true ↔ s.scrubbing ≠ none)
    ∧ (∀ p, s.waits (.port p) = true ↔ ∃ q t k c o, (s.port p).requests.head? = some q ∧ taskOf q.ops.task = some t
        ∧ s.task t = some k ∧ k.claim = some c ∧ c.port = p ∧ k.op = some o
        ∧ ∀ slot next w bytes x n, o = .fill slot next w bytes x → k.slotPage slot next = some n → s.scrubbing ≠ some n)

/-- O53. DELIVERY_PART_TRANSFER frees the path. A sound read adds the part's frame bytes, and the delivery goes on to its
next part, or after the last completes: the slot RETAINED and off the stack, the carried locks the claim's, the
claim ACTIVE with its timer loaded, and the CLAIM answered OK with the frame. An uncorrectable read, or a poisoned
next part, ends the claim on damage with the task FAULTED; what a read reports is the command's operand, assumption
10 (R59, R61, R62, R86, R110, R134, R135, Table 3-3). -/
def Obligations.DeliveryMovesOnePartAtATime : Prop :=
  ∀ (s : State) (e : ReadOutcome) (p : Port) (q : Request) (t : TaskNo) (k : Machine.Task) (c : Claim)
    (slot next : Nat) (buffer : List Byte) (f : FrameRecord) (n : PageNo),
    s.moving p q t k c (.delivery slot next buffer) → k.frameIn slot = some f → k.slotPage slot next = some n →
    next ≤ (f.length - 1) / 1024 →
    let s1 := { s with path := none }
    let bytes := buffer ++ s.mem.readRange (1024 * n.val) (min 1024 (f.length - 1024 * next))
    let damaged := fun (g : PageNo) (part : Nat) => State.respond
      (State.postAll ((s1.onPage g (fun x => { x with poisoned := true })).setTask t
        (some { k with state := .faulted, claim := none, op := none }))
        (PortSet.members k.watch none) (.taskFaulted t k.stack.length)) p
      (answerTo q.ops .damaged c.token (halves g.val part))
    (e = .uncorrectable → exec (.deliveryPartTransfer e) s = .next (damaged n next))
    ∧ (∀ g, e ≠ .uncorrectable → next < (f.length - 1) / 1024 → k.slotPage slot (next + 1) = some g →
        exec (.deliveryPartTransfer e) s = .next (if (s.page g).poisoned = true then damaged g (next + 1)
          else s1.setTask t (some { k with op := some (.delivery slot (next + 1) bytes) })))
    ∧ (∀ below, e ≠ .uncorrectable → next = (f.length - 1) / 1024 → k.stack = below ++ [slot] →
        let c' := { c with phase := .active, retained := some slot, expiryDue := false
                           lease := if k.leasePeriod = 0 then none else some k.leasePeriod }
        let k' := { k with slots := k.slots.set slot { status := .retained, frame := some f }, stack := below
                           op := none, claim := some c' }
        exec (.deliveryPartTransfer e) s = .next
          (((s1.setTask t (some k')).moveAll f.carried (.frame t slot) (.claim t c.token)).respond p
            (answerTo q.ops .ok c.token f.tagWord
              (.claim { startKind := .restored, level := f.origin, depth := below.length, entryWord := none,
                        tagWord := some f.tagWord, frameLength := some f.length, origin := some f.origin,
                        slot := some slot, locksLost := some f.locksLost, pushedBy := some f.pushedBy,
                        heldLocks := some f.carried }) ⟨false, false⟩ bytes)))

/-- O54. FILL_PAGE_WRITE frees the path; the part's page holds the frame bytes of the part followed by zeros and loses
its poison. Before the last part of the slot the fill goes on; after it, it completes: the claim's locks move to
the new frame, which is FILLED on top with the claim's level, the retained slot empties, the claim ends, the
watchers other than its port are told, and the SUSPEND is answered OK (R31, R37, R38, R68, R69, R109). -/
def Obligations.FillWritesOnePageAtATime : Prop :=
  ∀ (s : State) (p : Port) (q : Request) (t : TaskNo) (k : Machine.Task) (c : Claim) (slot next : Nat) (w : Word)
    (bytes : List Byte) (waited : Bool) (n : PageNo),
    s.moving p q t k c (.fill slot next w bytes waited) → q.code = RequestCode.suspend.byte →
    k.slotPage slot next = some n →
    let part := (bytes.drop (1024 * next)).take 1024
    let s1 := { s with path := none, mem := s.mem.writeRange (1024 * n.val) 1024 part }.onPage n
      (fun g => { g with poisoned := false })
    (next + 1 < k.framePages → exec .fillPageWrite s = .next
      (s1.setTask t (some { k with op := some (.fill slot (next + 1) w bytes waited) })))
    ∧ (k.framePages ≤ next + 1 →
        let held := s.heldBy (.claim t c.token)
        let f : FrameRecord := { length := bytes.length, tagWord := w, origin := c.level, carried := held,
                                 locksLost := false, pushedBy := p }
        let k' := { k with slots := k.slots.set slot { status := .filled, frame := some f }, stack := k.stack ++ [slot]
                           op := none }
        let s2 := (s1.setTask t (some k')).moveAll held (.claim t c.token) (.frame t slot)
        let s3 := match c.retained with
          | none => s2
          | some old => s2.emptySlot t old
        exec .fillPageWrite s = .next (((s3.onTask t (fun k => { k with claim := none, state := .suspended })).postAll
            (PortSet.members k.watch (some p)) (.taskFreed t (k.stack.length + 1))).respond p
          (answerTo q.ops .ok q.ops.token (halves (k.stack.length + 1) slot) .none ⟨false, waited⟩)))

/-- O55. PEEK_PART_TRANSFER frees the path. A sound read adds the part's frame bytes, and the peek goes on, or after the
last part is answered OK with the frame's record and bytes, the timer restarted and the operation removed. An
uncorrectable read, or a poisoned next part, is answered DAMAGED with page and part, the page poisoned, the claim
kept and its timer restarted (R42, R43, R73, R134, R135, Table 2-5). -/
def Obligations.PeekMovesOnePartAtATime : Prop :=
  ∀ (s : State) (e : ReadOutcome) (p : Port) (q : Request) (t : TaskNo) (k : Machine.Task) (c : Claim)
    (position slot next : Nat) (buffer : List Byte) (f : FrameRecord) (n : PageNo),
    s.moving p q t k c (.peek position slot next buffer) → q.code = RequestCode.peekFrame.byte →
    k.frameIn slot = some f → k.slotPage slot next = some n → next ≤ (f.length - 1) / 1024 →
    let s1 := { s with path := none }
    let bytes := buffer ++ s.mem.readRange (1024 * n.val) (min 1024 (f.length - 1024 * next))
    let ended := Machine.Task.loadLease { k with op := none }
    let damaged := fun (g : PageNo) (part : Nat) => State.respond
      ((s1.onPage g (fun x => { x with poisoned := true })).setTask t (some ended)) p
      (answerTo q.ops .damaged q.ops.token (halves g.val part))
    (e = .uncorrectable → exec (.peekPartTransfer e) s = .next (damaged n next))
    ∧ (∀ g, e ≠ .uncorrectable → next < (f.length - 1) / 1024 → k.slotPage slot (next + 1) = some g →
        exec (.peekPartTransfer e) s = .next (if (s.page g).poisoned = true then damaged g (next + 1)
          else s1.setTask t (some { k with op := some (.peek position slot (next + 1) bytes) })))
    ∧ (e ≠ .uncorrectable → next = (f.length - 1) / 1024 →
        exec (.peekPartTransfer e) s = .next ((s1.setTask t (some ended)).respond p
          (answerTo q.ops .ok q.ops.token 0
            (.peek { position := position, slot := slot, length := f.length, tagWord := f.tagWord, origin := f.origin,
                     carried := f.carried, locksLost := f.locksLost, pushedBy := f.pushedBy }) ⟨false, false⟩ bytes)))

/-- O56. DATA_READ_PART_TRANSFER frees the path. A sound read adds the bytes of the part that the request covers, and the
read goes on, or after the last covered part is answered OK with the bytes and the parts read. An uncorrectable read
is answered DAMAGED with page and part, the page poisoned. Both answers restart the timer (R73, R119, R120, R134). -/
def Obligations.DataReadMovesOnePartAtATime : Prop :=
  ∀ (s : State) (e : ReadOutcome) (p : Port) (q : Request) (t : TaskNo) (k : Machine.Task) (c : Claim)
    (offset length next : Nat) (buffer : List Byte) (n : PageNo),
    s.moving p q t k c (.dataRead offset length next buffer) → q.code = RequestCode.dataRead.byte →
    k.dataPage next = some n → 1 ≤ length → offset / 1024 ≤ next → next ≤ (offset + length - 1) / 1024 →
    let s1 := { s with path := none }
    let lo := max offset (1024 * next)
    let hi := min (offset + length) (1024 * next + 1024)
    let bytes := buffer ++ s.mem.readRange (1024 * n.val + (lo - 1024 * next)) (hi - lo)
    let ended := Machine.Task.loadLease { k with op := none }
    (e = .uncorrectable → exec (.dataReadPartTransfer e) s = .next
      (State.respond ((s1.onPage n (fun x => { x with poisoned := true })).setTask t (some ended)) p
        (answerTo q.ops .damaged q.ops.token (halves n.val next))))
    ∧ (e ≠ .uncorrectable → next < (offset + length - 1) / 1024 → exec (.dataReadPartTransfer e) s = .next
        (s1.setTask t (some { k with op := some (.dataRead offset length (next + 1) bytes) })))
    ∧ (e ≠ .uncorrectable → next = (offset + length - 1) / 1024 → exec (.dataReadPartTransfer e) s = .next
        ((s1.setTask t (some ended)).respond p (answerTo q.ops .ok q.ops.token
          (halves ((offset + length - 1) / 1024 - offset / 1024 + 1) 0) .none ⟨false, false⟩ bytes)))

/-- O57. DATA_WRITE_PAGE_TRANSFER frees the path; the covered bytes of the part's page become the payload's, and a page
covered in full loses its poison, counted in the answer. The write goes on, or after the last covered part is
answered OK with the parts written and the marks cleared. A partly covered page found uncorrectable is poisoned
and not written, and the request is answered DAMAGED. Both answers restart the timer (R73, R119, R122, R134). -/
def Obligations.DataWriteMovesOnePageAtATime : Prop :=
  ∀ (s : State) (e : ReadOutcome) (p : Port) (q : Request) (t : TaskNo) (k : Machine.Task) (c : Claim)
    (offset next cleared : Nat) (bytes : List Byte) (n : PageNo),
    s.moving p q t k c (.dataWrite offset bytes next cleared) → q.code = RequestCode.dataWrite.byte →
    k.dataPage next = some n → 1 ≤ bytes.length → offset / 1024 ≤ next → next ≤ (offset + bytes.length - 1) / 1024 →
    let last := (offset + bytes.length - 1) / 1024
    let lo := max offset (1024 * next)
    let hi := min (offset + bytes.length) (1024 * next + 1024)
    let full := lo = 1024 * next ∧ hi = 1024 * next + 1024
    let written := { s with
      path := none
      mem := s.mem.writeRange (1024 * n.val + (lo - 1024 * next)) (hi - lo)
        ((bytes.drop (lo - offset)).take (hi - lo)) }
    let s1 := if full then written.onPage n (fun g => { g with poisoned := false }) else written
    let cleared' := if full ∧ (s.page n).poisoned = true then cleared + 1 else cleared
    let ended := Machine.Task.loadLease { k with op := none }
    (e = .uncorrectable → ¬ full → exec (.dataWritePageTransfer e) s = .next
      (State.respond (({ s with path := none }.onPage n (fun x => { x with poisoned := true })).setTask t (some ended)) p
        (answerTo q.ops .damaged q.ops.token (halves n.val next))))
    ∧ (e ≠ .uncorrectable ∨ full → next < last → exec (.dataWritePageTransfer e) s = .next
        (s1.setTask t (some { k with op := some (.dataWrite offset bytes (next + 1) cleared') })))
    ∧ (e ≠ .uncorrectable ∨ full → next = last → exec (.dataWritePageTransfer e) s = .next
        ((s1.setTask t (some ended)).respond p (answerTo q.ops .ok q.ops.token
          (halves (last - offset / 1024 + 1) cleared'))))

/-- O58. SCRUBBER_TAKE_PAGE: the idle scrubber takes the head of the scrub queue. SCRUB_COMPLETION: the page in progress
is zero and loses its poison; without a queue entry a SCRUBBING page becomes FREE and a RESERVED one loses its stale
mark (Table 7-3); the path is free and the scrubber idle (R132). That SCRUBBER_TAKE_PAGE changes nothing with a page in
progress or an empty queue is the model's choice (assumption 8), and while FRST_N is asserted the model's reading
(R169, assumption 9). -/
def Obligations.ScrubberTakesAndSettlesPages : Prop :=
  ∀ s : State,
    (∀ n rest, s.frst = false → s.scrubbing = none → s.scrubQueue = n :: rest →
      exec .scrubberTakePage s = .next { s with scrubQueue := rest, scrubbing := some n })
    ∧ (s.frst = true ∨ s.scrubbing ≠ none ∨ s.scrubQueue = [] → exec .scrubberTakePage s = .next s)
    ∧ (∀ n, s.path = some .scrubber → s.scrubbing = some n →
        let g := s.page n
        let settled : Page := match g.state, decide (n ∈ s.scrubQueue) with
          | .scrubbing, false => { g with state := .free, poisoned := false }
          | .reserved, false => { g with stale := false, poisoned := false }
          | _, _ => { g with poisoned := false }
        exec .scrubCompletion s = .next
          (State.setPage { s with path := none, scrubbing := none, mem := s.mem.writeRange (1024 * n.val) 1024 [] }
            n settled))

/-- O59. LEASE_TIMER_MILLISECOND: each running timer of 2 or more falls by one, one that would fall below 1 becomes due,
and no stopped one changes. LEASE_EXPIRY: a due claim ends abnormally with cause LAPSED, and any other stays (R71,
R74; the due mark is the model's, assumption 7). -/
def Obligations.LeasesFallAndExpire : Prop :=
  ∀ s : State,
    (∃ u, exec .leaseTimerMillisecond s = .next u ∧ u = { s with tasks := u.tasks }
      ∧ ∀ t, u.task t = (s.task t).map (fun k => match k.claim with
        | none => k
        | some c => { k with claim := some (match c.lease with
          | none => c
          | some n => if 2 ≤ n then { c with lease := some (n - 1) } else { c with expiryDue := true }) }))
    ∧ (∀ t c n, s.claimOf t = some c → c.lease = some n → c.expiryDue = true →
        exec (.leaseExpiry t) s = .next (s.abnormalEnd t .lapsed))
    ∧ (∀ t, (∀ c, s.claimOf t = some c → c.lease = none ∨ c.expiryDue = false) →
        exec (.leaseExpiry t) s = .next s)

/-! ### Resets -/

/-- O60. PORT_RESET cuts off the port's messages, empties its queues and tears an ONLINE port down; at its release the
port is OFFLINE with every queue empty and its rights kept. FULL_RESET puts every block at its reset values and
ends everything in progress, without a notice; the port reset lines stay as they are, and context memory keeps its
contents unless the supply has failed. At its release every block holds those values (R23, R70, R116, R138, R140,
R152, R165, R166, R169). The model's own: every record goes to its values at the assertion and again at the release
(assumption 9), power-on empties the list of bytes of context memory (assumption 4), and a release of a line that is
not asserted changes nothing (assumption 19). -/
def Obligations.ResetsLeaveTheirValues : Prop :=
  ∀ (s : State) (p : Port),
    (exec (.portReset p) s = .next ((s.onPort p (fun r =>
      { r with held := true, requests := [], linkAnswers := [], unanswered := 0, waiting := none,
               sending := none })).teardown p))
    ∧ ((s.port p).held = true → exec (.portResetRelease p) s = .next (s.onPort p (fun r =>
        { session := .offline, rights := r.rights, requests := [], linkAnswers := [], unanswered := 0, waiting := none,
          sending := none, notices := [], lost := 0, attention := false, held := false })))
    ∧ ((s.port p).held = false → exec (.portResetRelease p) s = .next s)
    ∧ (let clean := fun (mem : Memory) (frst : Bool) =>
        ({ ports := Vector.ofFn (fun r : Port =>
             { session := .offline, rights := if r = 0 then ⟨true, true, true⟩ else ⟨false, false, false⟩,
               requests := [], linkAnswers := [], unanswered := 0, waiting := none, sending := none, notices := [],
               lost := 0, attention := false, held := (s.port r).held })
           tasks := Vector.replicate 64 none, nextToken := 1
           locks := Vector.replicate 32 { state := .unallocated, holder := none, waiters := [], lastHolder := none }
           pages := Vector.replicate 1024
             { state := .scrubbing, owner := none, role := none, stale := false, poisoned := false }
           scrubQueue := List.finRange 1024, scrubbing := none, pointer := .scrubber, path := none, mem := mem
           frst := frst, freeIndex := s.freeIndex, pending := s.pending } : State)
      exec (.fullReset .line) s = .next (clean s.mem true)
      ∧ exec (.fullReset .powerOn) s = .next (clean [] true)
      ∧ (s.frst = true → exec .fullResetRelease s = .next (clean s.mem false))
      ∧ (s.frst = false → exec .fullResetRelease s = .next s))
end

