-- ==== Sys2Proof/Laws/State.lean ====
section
/-! SUPPORT. What each update of State leaves: one lemma per field per update, and what each table reads after a write
to it. -/

namespace Sys2Proof.Machine

/-! ### Reads after writes -/

/-- A port reads as written, and every other port as before. -/
theorem port_setPort (s : State) (q p : Port) (r : PortRecord) :
    (s.setPort q r).port p = if p = q then r else s.port p := by
  simp only [State.port, State.setPort]
  by_cases h : p = q
  · subst h; simp
  · have : q.val ≠ p.val := fun e => h (Fin.ext e.symm)
    simp [h, this]

/-- A task reads as written, and every other task as before. -/
theorem task_setTask (s : State) (t u : TaskNo) (k : Option Task) :
    (s.setTask t k).task u = if u = t then k else s.task u := by
  simp only [State.task, State.setTask]
  by_cases h : u = t
  · subst h; simp
  · have : t.val ≠ u.val := fun e => h (Fin.ext e.symm)
    simp [h, this]

/-- A lock reads as written, and every other lock as before. -/
theorem lock_setLock (s : State) (l m : LockNo) (k : Lock) :
    (s.setLock l k).lock m = if m = l then k else s.lock m := by
  simp only [State.lock, State.setLock]
  by_cases h : m = l
  · subst h; simp
  · have : l.val ≠ m.val := fun e => h (Fin.ext e.symm)
    simp [h, this]

/-- A page record reads as written, and every other page record as before. -/
theorem page_setPage (s : State) (n g : PageNo) (x : Page) :
    (s.setPage n x).page g = if g = n then x else s.page g := by
  simp only [State.page, State.setPage]
  by_cases h : g = n
  · subst h; simp
  · have : n.val ≠ g.val := fun e => h (Fin.ext e.symm)
    simp [h, this]

@[simp] theorem port_setPort_same (s : State) (p : Port) (r : PortRecord) : (s.setPort p r).port p = r := by
  simp [port_setPort]

@[simp] theorem task_setTask_same (s : State) (t : TaskNo) (k : Option Task) : (s.setTask t k).task t = k := by
  simp [task_setTask]

@[simp] theorem lock_setLock_same (s : State) (l : LockNo) (k : Lock) : (s.setLock l k).lock l = k := by
  simp [lock_setLock]

@[simp] theorem page_setPage_same (s : State) (n : PageNo) (x : Page) : (s.setPage n x).page n = x := by
  simp [page_setPage]

/-! ### Fields an update leaves alone -/

@[simp] theorem setPort_tasks (s : State) (q : Port) (r : PortRecord) : (s.setPort q r).tasks = s.tasks := rfl
@[simp] theorem setPort_nextToken (s : State) (q : Port) (r : PortRecord) :
    (s.setPort q r).nextToken = s.nextToken := rfl
@[simp] theorem setPort_locks (s : State) (q : Port) (r : PortRecord) : (s.setPort q r).locks = s.locks := rfl
@[simp] theorem setPort_pages (s : State) (q : Port) (r : PortRecord) : (s.setPort q r).pages = s.pages := rfl
@[simp] theorem setPort_scrubQueue (s : State) (q : Port) (r : PortRecord) :
    (s.setPort q r).scrubQueue = s.scrubQueue := rfl
@[simp] theorem setPort_scrubbing (s : State) (q : Port) (r : PortRecord) :
    (s.setPort q r).scrubbing = s.scrubbing := rfl
@[simp] theorem setPort_pointer (s : State) (q : Port) (r : PortRecord) : (s.setPort q r).pointer = s.pointer := rfl
@[simp] theorem setPort_path (s : State) (q : Port) (r : PortRecord) : (s.setPort q r).path = s.path := rfl
@[simp] theorem setPort_mem (s : State) (q : Port) (r : PortRecord) : (s.setPort q r).mem = s.mem := rfl
@[simp] theorem setPort_frst (s : State) (q : Port) (r : PortRecord) : (s.setPort q r).frst = s.frst := rfl
@[simp] theorem setPort_freeIndex (s : State) (q : Port) (r : PortRecord) :
    (s.setPort q r).freeIndex = s.freeIndex := rfl
@[simp] theorem setPort_pending (s : State) (q : Port) (r : PortRecord) : (s.setPort q r).pending = s.pending := rfl
@[simp] theorem setPort_task (s : State) (q : Port) (r : PortRecord) (u : TaskNo) :
    (s.setPort q r).task u = s.task u := rfl
@[simp] theorem setPort_lock (s : State) (q : Port) (r : PortRecord) (m : LockNo) :
    (s.setPort q r).lock m = s.lock m := rfl
@[simp] theorem setPort_page (s : State) (q : Port) (r : PortRecord) (g : PageNo) :
    (s.setPort q r).page g = s.page g := rfl

@[simp] theorem setTask_ports (s : State) (t : TaskNo) (k : Option Task) : (s.setTask t k).ports = s.ports := rfl
@[simp] theorem setTask_nextToken (s : State) (t : TaskNo) (k : Option Task) :
    (s.setTask t k).nextToken = s.nextToken := rfl
@[simp] theorem setTask_locks (s : State) (t : TaskNo) (k : Option Task) : (s.setTask t k).locks = s.locks := rfl
@[simp] theorem setTask_pages (s : State) (t : TaskNo) (k : Option Task) : (s.setTask t k).pages = s.pages := rfl
@[simp] theorem setTask_scrubQueue (s : State) (t : TaskNo) (k : Option Task) :
    (s.setTask t k).scrubQueue = s.scrubQueue := rfl
@[simp] theorem setTask_scrubbing (s : State) (t : TaskNo) (k : Option Task) :
    (s.setTask t k).scrubbing = s.scrubbing := rfl
@[simp] theorem setTask_pointer (s : State) (t : TaskNo) (k : Option Task) : (s.setTask t k).pointer = s.pointer := rfl
@[simp] theorem setTask_path (s : State) (t : TaskNo) (k : Option Task) : (s.setTask t k).path = s.path := rfl
@[simp] theorem setTask_mem (s : State) (t : TaskNo) (k : Option Task) : (s.setTask t k).mem = s.mem := rfl
@[simp] theorem setTask_frst (s : State) (t : TaskNo) (k : Option Task) : (s.setTask t k).frst = s.frst := rfl
@[simp] theorem setTask_freeIndex (s : State) (t : TaskNo) (k : Option Task) :
    (s.setTask t k).freeIndex = s.freeIndex := rfl
@[simp] theorem setTask_pending (s : State) (t : TaskNo) (k : Option Task) : (s.setTask t k).pending = s.pending := rfl
@[simp] theorem setTask_port (s : State) (t : TaskNo) (k : Option Task) (p : Port) :
    (s.setTask t k).port p = s.port p := rfl
@[simp] theorem setTask_lock (s : State) (t : TaskNo) (k : Option Task) (m : LockNo) :
    (s.setTask t k).lock m = s.lock m := rfl
@[simp] theorem setTask_page (s : State) (t : TaskNo) (k : Option Task) (g : PageNo) :
    (s.setTask t k).page g = s.page g := rfl

@[simp] theorem setLock_ports (s : State) (l : LockNo) (k : Lock) : (s.setLock l k).ports = s.ports := rfl
@[simp] theorem setLock_tasks (s : State) (l : LockNo) (k : Lock) : (s.setLock l k).tasks = s.tasks := rfl
@[simp] theorem setLock_nextToken (s : State) (l : LockNo) (k : Lock) : (s.setLock l k).nextToken = s.nextToken := rfl
@[simp] theorem setLock_pages (s : State) (l : LockNo) (k : Lock) : (s.setLock l k).pages = s.pages := rfl
@[simp] theorem setLock_scrubQueue (s : State) (l : LockNo) (k : Lock) :
    (s.setLock l k).scrubQueue = s.scrubQueue := rfl
@[simp] theorem setLock_scrubbing (s : State) (l : LockNo) (k : Lock) : (s.setLock l k).scrubbing = s.scrubbing := rfl
@[simp] theorem setLock_pointer (s : State) (l : LockNo) (k : Lock) : (s.setLock l k).pointer = s.pointer := rfl
@[simp] theorem setLock_path (s : State) (l : LockNo) (k : Lock) : (s.setLock l k).path = s.path := rfl
@[simp] theorem setLock_mem (s : State) (l : LockNo) (k : Lock) : (s.setLock l k).mem = s.mem := rfl
@[simp] theorem setLock_frst (s : State) (l : LockNo) (k : Lock) : (s.setLock l k).frst = s.frst := rfl
@[simp] theorem setLock_freeIndex (s : State) (l : LockNo) (k : Lock) : (s.setLock l k).freeIndex = s.freeIndex := rfl
@[simp] theorem setLock_pending (s : State) (l : LockNo) (k : Lock) : (s.setLock l k).pending = s.pending := rfl
@[simp] theorem setLock_port (s : State) (l : LockNo) (k : Lock) (p : Port) : (s.setLock l k).port p = s.port p := rfl
@[simp] theorem setLock_task (s : State) (l : LockNo) (k : Lock) (u : TaskNo) : (s.setLock l k).task u = s.task u := rfl
@[simp] theorem setLock_page (s : State) (l : LockNo) (k : Lock) (g : PageNo) : (s.setLock l k).page g = s.page g := rfl

@[simp] theorem setPage_ports (s : State) (n : PageNo) (x : Page) : (s.setPage n x).ports = s.ports := rfl
@[simp] theorem setPage_tasks (s : State) (n : PageNo) (x : Page) : (s.setPage n x).tasks = s.tasks := rfl
@[simp] theorem setPage_nextToken (s : State) (n : PageNo) (x : Page) : (s.setPage n x).nextToken = s.nextToken := rfl
@[simp] theorem setPage_locks (s : State) (n : PageNo) (x : Page) : (s.setPage n x).locks = s.locks := rfl
@[simp] theorem setPage_scrubQueue (s : State) (n : PageNo) (x : Page) :
    (s.setPage n x).scrubQueue = s.scrubQueue := rfl
@[simp] theorem setPage_scrubbing (s : State) (n : PageNo) (x : Page) : (s.setPage n x).scrubbing = s.scrubbing := rfl
@[simp] theorem setPage_pointer (s : State) (n : PageNo) (x : Page) : (s.setPage n x).pointer = s.pointer := rfl
@[simp] theorem setPage_path (s : State) (n : PageNo) (x : Page) : (s.setPage n x).path = s.path := rfl
@[simp] theorem setPage_mem (s : State) (n : PageNo) (x : Page) : (s.setPage n x).mem = s.mem := rfl
@[simp] theorem setPage_frst (s : State) (n : PageNo) (x : Page) : (s.setPage n x).frst = s.frst := rfl
@[simp] theorem setPage_freeIndex (s : State) (n : PageNo) (x : Page) : (s.setPage n x).freeIndex = s.freeIndex := rfl
@[simp] theorem setPage_pending (s : State) (n : PageNo) (x : Page) : (s.setPage n x).pending = s.pending := rfl
@[simp] theorem setPage_port (s : State) (n : PageNo) (x : Page) (p : Port) : (s.setPage n x).port p = s.port p := rfl
@[simp] theorem setPage_task (s : State) (n : PageNo) (x : Page) (u : TaskNo) : (s.setPage n x).task u = s.task u := rfl
@[simp] theorem setPage_lock (s : State) (n : PageNo) (x : Page) (m : LockNo) : (s.setPage n x).lock m = s.lock m := rfl

@[simp] theorem freePath_ports (s : State) : (s.freePath).ports = s.ports := rfl
@[simp] theorem freePath_tasks (s : State) : (s.freePath).tasks = s.tasks := rfl
@[simp] theorem freePath_nextToken (s : State) : (s.freePath).nextToken = s.nextToken := rfl
@[simp] theorem freePath_locks (s : State) : (s.freePath).locks = s.locks := rfl
@[simp] theorem freePath_pages (s : State) : (s.freePath).pages = s.pages := rfl
@[simp] theorem freePath_scrubQueue (s : State) : (s.freePath).scrubQueue = s.scrubQueue := rfl
@[simp] theorem freePath_scrubbing (s : State) : (s.freePath).scrubbing = s.scrubbing := rfl
@[simp] theorem freePath_pointer (s : State) : (s.freePath).pointer = s.pointer := rfl
@[simp] theorem freePath_mem (s : State) : (s.freePath).mem = s.mem := rfl
@[simp] theorem freePath_frst (s : State) : (s.freePath).frst = s.frst := rfl
@[simp] theorem freePath_freeIndex (s : State) : (s.freePath).freeIndex = s.freeIndex := rfl
@[simp] theorem freePath_pending (s : State) : (s.freePath).pending = s.pending := rfl
@[simp] theorem freePath_port (s : State) (p : Port) : (s.freePath).port p = s.port p := rfl
@[simp] theorem freePath_task (s : State) (u : TaskNo) : (s.freePath).task u = s.task u := rfl
@[simp] theorem freePath_lock (s : State) (m : LockNo) : (s.freePath).lock m = s.lock m := rfl
@[simp] theorem freePath_page (s : State) (g : PageNo) : (s.freePath).page g = s.page g := rfl

@[simp] theorem writePage_ports (s : State) (n : PageNo) (off len : Nat) (bytes : List Byte) :
    (s.writePage n off len bytes).ports = s.ports := rfl
@[simp] theorem writePage_tasks (s : State) (n : PageNo) (off len : Nat) (bytes : List Byte) :
    (s.writePage n off len bytes).tasks = s.tasks := rfl
@[simp] theorem writePage_nextToken (s : State) (n : PageNo) (off len : Nat) (bytes : List Byte) :
    (s.writePage n off len bytes).nextToken = s.nextToken := rfl
@[simp] theorem writePage_locks (s : State) (n : PageNo) (off len : Nat) (bytes : List Byte) :
    (s.writePage n off len bytes).locks = s.locks := rfl
@[simp] theorem writePage_pages (s : State) (n : PageNo) (off len : Nat) (bytes : List Byte) :
    (s.writePage n off len bytes).pages = s.pages := rfl
@[simp] theorem writePage_scrubQueue (s : State) (n : PageNo) (off len : Nat) (bytes : List Byte) :
    (s.writePage n off len bytes).scrubQueue = s.scrubQueue := rfl
@[simp] theorem writePage_scrubbing (s : State) (n : PageNo) (off len : Nat) (bytes : List Byte) :
    (s.writePage n off len bytes).scrubbing = s.scrubbing := rfl
@[simp] theorem writePage_pointer (s : State) (n : PageNo) (off len : Nat) (bytes : List Byte) :
    (s.writePage n off len bytes).pointer = s.pointer := rfl
@[simp] theorem writePage_path (s : State) (n : PageNo) (off len : Nat) (bytes : List Byte) :
    (s.writePage n off len bytes).path = s.path := rfl
@[simp] theorem writePage_frst (s : State) (n : PageNo) (off len : Nat) (bytes : List Byte) :
    (s.writePage n off len bytes).frst = s.frst := rfl
@[simp] theorem writePage_freeIndex (s : State) (n : PageNo) (off len : Nat) (bytes : List Byte) :
    (s.writePage n off len bytes).freeIndex = s.freeIndex := rfl
@[simp] theorem writePage_pending (s : State) (n : PageNo) (off len : Nat) (bytes : List Byte) :
    (s.writePage n off len bytes).pending = s.pending := rfl
@[simp] theorem writePage_port (s : State) (n : PageNo) (off len : Nat) (bytes : List Byte) (p : Port) :
    (s.writePage n off len bytes).port p = s.port p := rfl
@[simp] theorem writePage_task (s : State) (n : PageNo) (off len : Nat) (bytes : List Byte) (u : TaskNo) :
    (s.writePage n off len bytes).task u = s.task u := rfl
@[simp] theorem writePage_lock (s : State) (n : PageNo) (off len : Nat) (bytes : List Byte) (m : LockNo) :
    (s.writePage n off len bytes).lock m = s.lock m := rfl
@[simp] theorem writePage_page (s : State) (n : PageNo) (off len : Nat) (bytes : List Byte) (g : PageNo) :
    (s.writePage n off len bytes).page g = s.page g := rfl

@[simp] theorem freePath_path (s : State) : s.freePath.path = none := rfl

end Sys2Proof.Machine
end

