-- ==== Sys2Proof/Laws/Memory.lean ====
section
/-! SUPPORT. Context memory: the canonical form is kept by a write, a read after a write gives what was written, and
every other byte reads as before. -/

namespace Sys2Proof.Laws

open Sys2Proof Sys2Proof.Machine

/-- The cells of a run lie in it and hold no zero. -/
theorem mem_cells {a : Nat} {bs : List Byte} {c : Host.Cell} (h : c ∈ Memory.cells a bs) :
    c.2 ≠ 0 ∧ a ≤ c.1 ∧ c.1 < a + bs.length := by
  induction bs generalizing a with
  | nil => simp [Memory.cells] at h
  | cons b bs ih =>
    simp only [Memory.cells] at h
    split at h
    · obtain ⟨h1, h2, h3⟩ := ih h
      exact ⟨h1, by omega, by simp; omega⟩
    · rcases List.mem_cons.1 h with rfl | h
      · exact ⟨‹_›, le_refl _, by simp⟩
      · obtain ⟨h1, h2, h3⟩ := ih h
        exact ⟨h1, by omega, by simp; omega⟩

/-- The cells of a run stand in rising order. -/
theorem cells_pairwise (a : Nat) (bs : List Byte) : (Memory.cells a bs).Pairwise (fun x y => x.1 < y.1) := by
  induction bs generalizing a with
  | nil => simp [Memory.cells]
  | cons b bs ih =>
    simp only [Memory.cells]
    split
    · exact ih _
    · refine List.pairwise_cons.2 ⟨fun c hc => ?_, ih _⟩
      have := (mem_cells hc).2.1
      simp only
      omega

/-- A write keeps the canonical form, when the bytes written lie in context memory. -/
theorem writeRange_wf {m : Memory} (base len : Nat) (bytes : List Byte) (hm : m.wf)
    (h : bytes.take len = [] ∨ base + len ≤ 1024 * Config.pageBytes) : (m.writeRange base len bytes).wf := by
  obtain ⟨hp, hv⟩ := hm
  refine ⟨?_, fun c hc => ?_⟩
  · simp only [Memory.writeRange]
    refine List.pairwise_append.2 ⟨List.pairwise_append.2 ⟨hp.filter _, cells_pairwise _ _, ?_⟩, hp.filter _, ?_⟩
    · intro x hx y hy
      have h1 := (mem_cells hy).2.1
      have h2 := (List.mem_filter.1 hx).2
      simp only [decide_eq_true_eq] at h2
      omega
    · intro x hx y hy
      have h2 := (List.mem_filter.1 hy).2
      simp only [decide_eq_true_eq] at h2
      rcases List.mem_append.1 hx with hx | hx
      · have h3 := (List.mem_filter.1 hx).2
        simp only [decide_eq_true_eq] at h3
        omega
      · have h3 := (mem_cells hx).2.2
        have : (bytes.take len).length ≤ len := by simp
        omega
  · simp only [Memory.writeRange] at hc
    rcases List.mem_append.1 hc with hc | hc
    · rcases List.mem_append.1 hc with hc | hc
      · exact hv c (List.mem_filter.1 hc).1
      · obtain ⟨h1, h2, h3⟩ := mem_cells hc
        refine ⟨h1, ?_⟩
        rcases h with h | h
        · simp [h, Memory.cells] at hc
        · have : (bytes.take len).length ≤ len := by simp
          omega
    · exact hv c (List.mem_filter.1 hc).1

/-- Reading through a concatenation: the first part where it lists the address, and the second otherwise. -/
theorem read_append (m n : Memory) (a : Nat) :
    Memory.read (m ++ n) a = if ∃ c ∈ m, c.1 = a then Memory.read m a else Memory.read n a := by
  induction m with
  | nil => simp
  | cons c m ih =>
    by_cases h : c.1 = a
    · simp [Memory.read, h]
    · simp [Memory.read, h, ih]

/-- An address no cell lists reads as zero. -/
theorem read_unlisted {m : Memory} {a : Nat} (h : ∀ c ∈ m, c.1 ≠ a) : Memory.read m a = 0 := by
  induction m with
  | nil => rfl
  | cons c m ih =>
    simp only [Memory.read, h c (by simp), if_false]
    exact ih fun d hd => h d (by simp [hd])

/-- What the cells of a run read as. -/
theorem read_cells (a : Nat) (bs : List Byte) (x : Nat) :
    Memory.read (Memory.cells a bs) x = if a ≤ x then bs.getD (x - a) 0 else 0 := by
  induction bs generalizing a with
  | nil => simp [Memory.cells, Memory.read]
  | cons b bs ih =>
    have tail : ∀ y, x ≠ a → (if a + 1 ≤ x then bs.getD (x - (a + 1)) 0 else 0) = y →
        (if a ≤ x then (b :: bs).getD (x - a) 0 else 0) = y := by
      rintro y hne rfl
      by_cases h : a + 1 ≤ x
      · have : x - a = (x - (a + 1)) + 1 := by omega
        simp [h, (by omega : a ≤ x), this]
      · have : ¬ a ≤ x := by omega
        rw [if_neg h, if_neg this]
    simp only [Memory.cells]
    split
    · next hb =>
      subst hb
      by_cases hx : x = a
      · subst hx; rw [ih]; simp
      · rw [ih]; exact (tail _ hx rfl).symm
    · simp only [Memory.read]
      split
      · next h => subst h; simp
      · next h => rw [ih]; exact (tail _ (fun e => h e.symm) rfl).symm

/-- A filter that keeps every cell of an address does not change what the address reads as. -/
theorem read_filter {m : Memory} (f : Host.Cell → Bool) (a : Nat) (h : ∀ c : Host.Cell, c.1 = a → f c = true) :
    Memory.read (m.filter f) a = Memory.read m a := by
  induction m with
  | nil => rfl
  | cons c m ih =>
    by_cases hc : c.1 = a
    · simp [Memory.read, h c hc, hc]
    · by_cases hf : f c = true
      · simp [Memory.read, hf, hc, ih]
      · simp [Memory.read, hf, hc, ih]

/-- A byte outside the range written reads as before. -/
theorem read_writeRange_outside (m : Memory) (base len : Nat) (bytes : List Byte) (a : Nat)
    (h : a < base ∨ base + len ≤ a) : Memory.read (m.writeRange base len bytes) a = Memory.read m a := by
  have hl : (bytes.take len).length ≤ len := by simp
  simp only [Memory.writeRange, read_append]
  rcases h with h | h
  · by_cases hm : ∃ c ∈ m, c.1 = a
    · obtain ⟨c, hc, e⟩ := hm
      have : ∃ c ∈ m.filter (fun c => decide (c.1 < base)) ++ Memory.cells base (bytes.take len), c.1 = a :=
        ⟨c, by simp [hc]; left; omega, e⟩
      rw [if_pos this, if_pos ⟨c, by simp [hc]; omega, e⟩]
      exact read_filter _ _ fun c hc => by simp; omega
    · have hno : ∀ c ∈ m, c.1 ≠ a := fun c hc e => hm ⟨c, hc, e⟩
      rw [read_unlisted hno, if_neg]
      · exact read_unlisted fun c hc => hno c (List.mem_filter.1 hc).1
      · rintro ⟨c, hc, e⟩
        rcases List.mem_append.1 hc with hc | hc
        · exact hno c (List.mem_filter.1 hc).1 e
        · have := (mem_cells hc).2.1; omega
  · rw [if_neg]
    · exact read_filter _ _ fun c hc => by simp; omega
    · rintro ⟨c, hc, e⟩
      rcases List.mem_append.1 hc with hc | hc
      · have := (List.mem_filter.1 hc).2; simp only [decide_eq_true_eq] at this; omega
      · have := (mem_cells hc).2.2; omega

/-- A byte inside the range written reads as written; past the bytes given, as zero. -/
theorem read_writeRange_inside (m : Memory) (base len : Nat) (bytes : List Byte) (i : Nat) (h : i < len) :
    Memory.read (m.writeRange base len bytes) (base + i) = bytes.getD i 0 := by
  have hl : (bytes.take len).length ≤ len := by simp
  have left : ¬ ∃ c ∈ m.filter (fun c => decide (c.1 < base)), c.1 = base + i := by
    rintro ⟨c, hc, e⟩
    have := (List.mem_filter.1 hc).2; simp only [decide_eq_true_eq] at this; omega
  have hget : (bytes.take len).getD i 0 = bytes.getD i 0 := by simp [List.getD, h]
  simp only [Memory.writeRange, read_append]
  split
  · rw [read_cells, if_pos (Nat.le_add_right ..), Nat.add_sub_cancel_left, hget]
  · next hno =>
    have hz : Memory.read (Memory.cells base (bytes.take len)) (base + i) = 0 :=
      read_unlisted fun c hc e => hno ⟨c, by simp [hc], e⟩
    rw [read_cells] at hz
    simp only [Nat.le_add_right, if_true, Nat.add_sub_cancel_left, hget] at hz
    rw [hz]
    exact read_unlisted fun c hc e => by
      have := (List.mem_filter.1 hc).2; simp only [decide_eq_true_eq] at this; omega

/-- A write into one page keeps the canonical form. -/
theorem writePage_wf (s : State) (n : PageNo) (off len : Nat) (bytes : List Byte)
    (h : bytes.take len = [] ∨ off + len ≤ Config.pageBytes) (hm : s.mem.wf) :
    (s.writePage n off len bytes).mem.wf := by
  refine writeRange_wf _ _ _ hm ?_
  rcases h with h | h
  · exact .inl h
  · right
    have := n.isLt
    simp only [pageBase, Config.pageBytes] at *
    omega

end Sys2Proof.Laws
end

