-- ==== Sys2Proof/Laws/Ops.lean ====
section
/-! SUPPORT. What each shared operation can do, said once: the record it writes and the tables it leaves alone. A proof
cites these and does not unfold the operation. -/

namespace Sys2Proof.Laws

open Sys2Proof Sys2Proof.Machine

/-- A field that each step of a fold leaves alone is left alone by the fold. -/
theorem foldl_frame {α β : Type} (g : State → β) (f : State → α → State) (hf : ∀ s a, g (f s a) = g s) (l : List α)
    (s : State) : g (l.foldl f s) = g s := by
  induction l generalizing s with
  | nil => rfl
  | cons a l ih => simp [ih, hf]

/-! ### The response line -/

/-- Starting SDOn changes the response line only: nothing while a message is being sent, else the oldest link answer
with the unanswered count, else the waiting response. -/
theorem startSending_cases (r : PortRecord) :
    ((∃ m, r.sending = some m) ∧ r.startSending = r)
    ∨ (∃ a rest, r.sending = none ∧ r.linkAnswers = a :: rest ∧ r.startSending =
        { r with sending := some (.link (a.response r.unanswered)), linkAnswers := rest, unanswered := 0 })
    ∨ (∃ x, r.sending = none ∧ r.linkAnswers = [] ∧ r.waiting = some x ∧
        r.startSending = { r with sending := some (.answer x), waiting := none })
    ∨ (r.sending = none ∧ r.linkAnswers = [] ∧ r.waiting = none ∧ r.startSending = r) := by
  unfold PortRecord.startSending
  split
  · next m h => exact .inl ⟨⟨m, h⟩, rfl⟩
  · next h =>
    split
    · next a rest h2 => exact .inr (.inl ⟨a, rest, h, h2, rfl⟩)
    · next h2 =>
      split
      · next x h3 => exact .inr (.inr (.inl ⟨x, h, h2, h3, rfl⟩))
      · next h3 => exact .inr (.inr (.inr ⟨h, h2, h3, rfl⟩))

/-- A response to the head request of a port that has one. -/
theorem respondHead_of_head {s : State} {p : Port} {q : Request} (h : (s.port p).requests.head? = some q)
    (f : Request → Response) : s.respondHead p f = s.respond p (f q) := by
  cases hr : (s.port p).requests with
  | nil => simp [hr] at h
  | cons a l =>
    obtain rfl : a = q := by simpa [hr] using h
    simp [State.respondHead, hr]

/-! ### Task records -/

@[simp] theorem onPort_task (s : State) (p : Port) (f : PortRecord → PortRecord) (t : TaskNo) :
    (s.onPort p f).task t = s.task t := rfl

@[simp] theorem onPage_task (s : State) (n : PageNo) (f : Page → Page) (t : TaskNo) :
    (s.onPage n f).task t = s.task t := rfl

@[simp] theorem post_task (s : State) (p : Port) (n : Notice) (t : TaskNo) : (s.post p n).task t = s.task t := rfl

@[simp] theorem respond_task (s : State) (p : Port) (x : Response) (t : TaskNo) :
    (s.respond p x).task t = s.task t := rfl

@[simp] theorem respondHead_task (s : State) (p : Port) (f : Request → Response) (t : TaskNo) :
    (s.respondHead p f).task t = s.task t := by
  simp only [State.respondHead]; split <;> rfl

@[simp] theorem postAll_task (s : State) (ps : List Port) (n : Notice) (t : TaskNo) :
    (s.postAll ps n).task t = s.task t :=
  foldl_frame (fun s => s.task t) (fun s p => s.post p n) (fun _ _ => rfl) ps s

@[simp] theorem withdraw_task (s : State) (w : Waiter) (t : TaskNo) : (s.withdraw w).task t = s.task t := by
  simp only [State.withdraw]; split <;> rfl

@[simp] theorem postGrant_task (s : State) (u : TaskNo) (l : LockNo) (t : TaskNo) :
    (s.postGrant u l).task t = s.task t := by
  simp only [State.postGrant]; split <;> rfl

@[simp] theorem giveUp_task (s : State) (l : LockNo) (t : TaskNo) : (s.giveUp l).task t = s.task t := by
  simp only [State.giveUp]
  split
  · rfl
  · split <;> simp

@[simp] theorem giveUpAll_task (s : State) (ls : LockSet) (t : TaskNo) : (s.giveUpAll ls).task t = s.task t :=
  foldl_frame (fun s => s.task t) _ (fun _ _ => by simp) ls s

@[simp] theorem move_task (s : State) (l : LockNo) (h h' : Holder) (t : TaskNo) :
    (s.move l h h').task t = s.task t := by
  simp only [State.move]; split <;> rfl

@[simp] theorem moveAll_task (s : State) (ls : LockSet) (h h' : Holder) (t : TaskNo) :
    (s.moveAll ls h h').task t = s.task t :=
  foldl_frame (fun s => s.task t) _ (fun _ _ => by simp) ls s

@[simp] theorem joinQueue_task (s : State) (n : PageNo) (t : TaskNo) : (s.joinQueue n).task t = s.task t := by
  simp only [State.joinQueue]; split <;> rfl

@[simp] theorem markStale_task (s : State) (ns : List PageNo) (t : TaskNo) : (s.markStale ns).task t = s.task t :=
  foldl_frame (fun s => s.task t) _ (fun _ _ => by simp) ns s

@[simp] theorem withdrawPages_task (s : State) (ns : List PageNo) (t : TaskNo) :
    (s.withdrawPages ns).task t = s.task t :=
  (foldl_frame (fun s => s.task t) _ (fun _ _ => by simp) ns _).trans rfl

@[simp] theorem abandon_task (s : State) (p : Port) (t : TaskNo) : (s.abandon p).task t = s.task t := by
  simp only [State.abandon]; split <;> rfl

/-- A change of one task's record. -/
theorem onTask_task (s : State) (t u : TaskNo) (f : Task → Task) :
    (s.onTask t f).task u = if u = t then (s.task t).map f else s.task u := task_setTask ..

/-- The emptying of a slot empties it in its task's record and leaves every other record. -/
theorem emptySlot_task (s : State) (t u : TaskNo) (slot : Nat) :
    (s.emptySlot t slot).task u =
      if u = t then (s.task t).map (·.withSlot slot { status := .empty, frame := none }) else s.task u := by
  simp only [State.emptySlot]
  split
  · next h =>
    split
    · next e => simp [e, h]
    · rfl
  · next h => simp [task_setTask, h]

/-! ### Locks -/

/-- What the give-up procedure makes of a lock record (R96). -/
def gaveUp (k : Lock) : Lock :=
  match k.holder, k.waiters with
  | none, _ => k
  | some h, [] => { state := .free, holder := none, waiters := [], lastHolder := some h.task }
  | some h, w :: rest =>
    { state := .held, holder := some (.claim w.task w.token), waiters := rest, lastHolder := some h.task }

/-- The give-up procedure on one lock: it passes to its oldest waiter or becomes FREE, and no other lock changes. -/
theorem giveUp_lock (s : State) (l m : LockNo) :
    (s.giveUp l).lock m = if m = l then gaveUp (s.lock l) else s.lock m := by
  have post : ∀ (s : State) (t : TaskNo) (j : LockNo), (s.postGrant t j).lock m = s.lock m := by
    intro s t j
    simp only [State.postGrant]; split <;> rfl
  simp only [State.giveUp]
  split
  · next h => simp only [gaveUp, h]; split <;> simp_all
  · next hh =>
    split
    · next hw => simp only [gaveUp, hh, hw, lock_setLock]
    · next hw => simp only [gaveUp, hh, hw, post, lock_setLock]

/-- The move procedure on one lock: its holder changes where the expected holder has it, and nothing else. -/
theorem move_lock (s : State) (l m : LockNo) (h h' : Holder) :
    (s.move l h h').lock m =
      if m = l ∧ (s.lock l).holder = some h then { s.lock l with holder := some h' } else s.lock m := by
  simp only [State.move]
  split
  · next e => simp [lock_setLock, e]
  · next e => simp [e]

/-- A move posts no notice and touches no waiter list. -/
theorem moveAll_waiters (s : State) (ls : LockSet) (h h' : Holder) (m : LockNo) :
    ((s.moveAll ls h h').lock m).waiters = (s.lock m).waiters := by
  simp only [State.moveAll]
  induction ls generalizing s with
  | nil => rfl
  | cons l ls ih =>
    simp only [List.foldl_cons, ih, move_lock]
    split
    · next e => simp [e.1]
    · rfl

/-- The withdrawal procedure takes the claim's entry out of the list it stands in. -/
theorem withdraw_lock (s : State) (w : Waiter) (m : LockNo) :
    (s.withdraw w).lock m =
      if s.waitOf w = some m then { s.lock m with waiters := (s.lock m).waiters.erase w } else s.lock m := by
  simp only [State.withdraw]
  split
  · next h => simp [h]
  · next l h =>
    simp only [lock_setLock, h, Option.some.injEq]
    by_cases e : m = l
    · simp [e]
    · simp [e, Ne.symm e]

/-! ### Port records -/

/-- A post leaves every field of every port record but the notice queue, the lost count and the line. -/
theorem post_port (s : State) (p r : Port) (n : Notice) :
    (s.post p n).port r =
      { s.port r with
        notices := ((s.post p n).port r).notices, lost := ((s.post p n).port r).lost
        attention := ((s.post p n).port r).attention } := by
  simp only [State.post, State.onPort, port_setPort]
  split
  · next e =>
    subst e
    simp only [PortRecord.post, PortRecord.driveLine]
    repeat' split
    all_goals rfl
  · rfl

/-- Posts leave the request queue of every port. -/
theorem postAll_requests (s : State) (ps : List Port) (n : Notice) (r : Port) :
    ((s.postAll ps n).port r).requests = (s.port r).requests :=
  foldl_frame (fun s => (s.port r).requests) (fun s p => s.post p n) (fun s p => by rw [post_port]) ps s

/-! ### Operations in flight -/

/-- What the operation of a port's head request belongs to. -/
theorem opOf_spec {s : State} {p : Port} {t : TaskNo} {k : Task} {c : Claim} {o : Op}
    (h : s.opOf p = some (t, k, c, o)) :
    s.task t = some k ∧ k.claim = some c ∧ k.op = some o ∧ c.port = p := by
  simp only [State.opOf] at h
  split at h
  · simp at h
  · split at h
    · simp at h
    · split at h
      · simp at h
      · next hk =>
        split at h
        · next hc ho =>
          split at h
          · next hp =>
            simp only [Option.some.injEq, Prod.mk.injEq] at h
            obtain ⟨rfl, rfl, rfl, rfl⟩ := h
            exact ⟨hk, hc, ho, hp⟩
          · simp at h
        · simp at h

/-- The operation whose transfer holds the path. -/
theorem opOf_moving {s : State} {p : Port} {q : Request} {t : TaskNo} {k : Task} {c : Claim} {o : Op}
    (h : s.moving p q t k c o) : s.opOf p = some (t, k, c, o) := by
  obtain ⟨_, h2, h3, h4, h5, h6, h7⟩ := h
  cases hr : (s.port p).requests with
  | nil => simp [hr] at h2
  | cons a l =>
    obtain rfl : a = q := by simpa [hr] using h2
    simp [State.opOf, hr, h3, h4, h5, h6, h7]

/-- The claim that passes the token check. -/
theorem claimFor_spec {s : State} {p : Port} {q : Request} {t : TaskNo} {k : Task} {c : Claim}
    (h : s.claimFor p q t = some (k, c)) : s.liveClaim p t k c q.ops.token := by
  simp only [State.claimFor, Option.bind_eq_some_iff] at h
  obtain ⟨k', hk, c', hc, h⟩ := h
  split at h
  · next hh =>
    obtain ⟨rfl, rfl⟩ := Prod.mk.inj (Option.some.inj h)
    exact ⟨hk, hh.1, hc, hh.2⟩
  · simp at h

end Sys2Proof.Laws
end

