-- ==== Sys2Proof/Laws/Effects.lean ====
section
/-! SUPPORT. What each shared operation over a table leaves in it, and which tables it leaves alone: the lock pool's
procedures, posts and answers, the page map's procedures, and the abort of an operation. -/

namespace Sys2Proof.Laws

open Sys2Proof Sys2Proof.Machine

/-! ### Operations on ports and locks alone -/

/-- From s to t only port and lock records change. -/
structure PortsLocks (s t : State) : Prop where
  frame : t = { s with ports := t.ports, locks := t.locks }

/-- From s to t only locks, notice queues, lost counts and attention lines change. -/
structure Told (s t : State) : Prop extends PortsLocks s t where
  lines : ∀ p, (t.port p).session = (s.port p).session ∧ (t.port p).rights = (s.port p).rights
    ∧ (t.port p).requests = (s.port p).requests ∧ (t.port p).waiting = (s.port p).waiting
    ∧ (t.port p).sending = (s.port p).sending ∧ (t.port p).held = (s.port p).held

theorem PortsLocks.refl (s : State) : PortsLocks s s := ⟨rfl⟩

theorem PortsLocks.trans {s t u : State} (a : PortsLocks s t) (b : PortsLocks t u) : PortsLocks s u :=
  ⟨by rw [b.frame, a.frame]⟩

theorem PortsLocks.foldl {α : Type} (f : State → α → State) (hf : ∀ s a, PortsLocks s (f s a)) (l : List α) (s : State) :
    PortsLocks s (l.foldl f s) := by
  induction l generalizing s with
  | nil => exact .refl s
  | cons a l ih => exact (hf s a).trans (ih _)

theorem PortsLocks.task {s t : State} (h : PortsLocks s t) (u : TaskNo) : t.task u = s.task u := by rw [h.frame]; rfl

theorem PortsLocks.page {s t : State} (h : PortsLocks s t) (n : PageNo) : t.page n = s.page n := by rw [h.frame]; rfl

theorem Told.refl (s : State) : Told s s := ⟨.refl s, fun _ => ⟨rfl, rfl, rfl, rfl, rfl, rfl⟩⟩

theorem Told.trans {s t u : State} (a : Told s t) (b : Told t u) : Told s u :=
  ⟨a.toPortsLocks.trans b.toPortsLocks, fun p => by
    obtain ⟨a1, a2, a3, a4, a5, a6⟩ := a.lines p
    obtain ⟨b1, b2, b3, b4, b5, b6⟩ := b.lines p
    exact ⟨b1.trans a1, b2.trans a2, b3.trans a3, b4.trans a4, b5.trans a5, b6.trans a6⟩⟩

theorem Told.foldl {α : Type} (f : State → α → State) (hf : ∀ s a, Told s (f s a)) (l : List α) (s : State) :
    Told s (l.foldl f s) := by
  induction l generalizing s with
  | nil => exact .refl s
  | cons a l ih => exact (hf s a).trans (ih _)

theorem portsLocks_onPort (s : State) (p : Port) (f : PortRecord → PortRecord) : PortsLocks s (s.onPort p f) := ⟨rfl⟩

theorem portsLocks_respond (s : State) (p : Port) (x : Response) : PortsLocks s (s.respond p x) := ⟨rfl⟩

theorem portsLocks_respondHead (s : State) (p : Port) (f : Request → Response) : PortsLocks s (s.respondHead p f) := by
  simp only [State.respondHead]
  split
  · exact .refl s
  · exact portsLocks_respond ..

theorem told_setLock (s : State) (l : LockNo) (k : Lock) : Told s (s.setLock l k) :=
  ⟨⟨rfl⟩, fun _ => ⟨rfl, rfl, rfl, rfl, rfl, rfl⟩⟩

theorem told_post (s : State) (p : Port) (n : Notice) : Told s (s.post p n) :=
  ⟨⟨rfl⟩, fun r => by rw [post_port]; exact ⟨rfl, rfl, rfl, rfl, rfl, rfl⟩⟩

theorem told_postAll (s : State) (ps : List Port) (n : Notice) : Told s (s.postAll ps n) :=
  .foldl _ (fun s p => told_post s p n) ps s

theorem told_withdraw (s : State) (w : Waiter) : Told s (s.withdraw w) := by
  simp only [State.withdraw]
  split
  · exact .refl s
  · exact told_setLock ..

theorem told_postGrant (s : State) (t : TaskNo) (l : LockNo) : Told s (s.postGrant t l) := by
  simp only [State.postGrant]
  split
  · exact .refl s
  · exact told_post ..

theorem told_giveUp (s : State) (l : LockNo) : Told s (s.giveUp l) := by
  simp only [State.giveUp]
  split
  · exact .refl s
  · split
    · exact told_setLock ..
    · exact (told_setLock ..).trans (told_postGrant ..)

theorem told_giveUpAll (s : State) (ls : LockSet) : Told s (s.giveUpAll ls) := .foldl _ told_giveUp ls s

theorem told_move (s : State) (l : LockNo) (h h' : Holder) : Told s (s.move l h h') := by
  simp only [State.move]
  split
  · exact told_setLock ..
  · exact .refl s

theorem told_moveAll (s : State) (ls : LockSet) (h h' : Holder) : Told s (s.moveAll ls h h') :=
  .foldl _ (fun s l => told_move s l h h') ls s

theorem told_withdrawClaim (s : State) (t : TaskNo) : Told s (s.withdrawClaim t) := by
  simp only [State.withdrawClaim]
  split
  · exact .refl s
  · exact told_withdraw ..

theorem told_postFreed (s : State) (t : TaskNo) (k : Task) (p : Port) (d : Nat) : Told s (s.postFreed t k p d) :=
  told_postAll ..

theorem told_endNotices (s : State) (t : TaskNo) (w : PortSet) (p : Port) (c : EndCause) (d : Nat) :
    Told s (s.endNotices t w p c d) := by
  cases c <;> simp only [State.endNotices]
  · exact (told_post ..).trans (told_postAll ..)
  · exact (told_post ..).trans (told_postAll ..)
  · exact told_postAll ..

/-! ### Several locks at once -/

/-- The locks a holder holds are those whose record names it. -/
theorem mem_heldBy {s : State} {h : Holder} {l : LockNo} : l ∈ s.heldBy h ↔ (s.lock l).holder = some h := by
  simp [State.heldBy]

theorem heldBy_nodup (s : State) (h : Holder) : (s.heldBy h).Nodup := (List.nodup_finRange 32).filter _

/-- The move procedure on several locks: those of them that the holder holds change their holder, and nothing else. -/
theorem moveAll_lock (s : State) (ls : LockSet) (h h' : Holder) (m : LockNo) :
    (s.moveAll ls h h').lock m =
      if m ∈ ls ∧ (s.lock m).holder = some h then { s.lock m with holder := some h' } else s.lock m := by
  simp only [State.moveAll]
  induction ls generalizing s with
  | nil => simp
  | cons l ls ih =>
    rw [List.foldl_cons, ih, move_lock]
    by_cases e : m = l
    · subst e
      by_cases g : (s.lock m).holder = some h <;> simp [g]
    · simp [e]

/-- The give-up procedure on several locks: each of them is given up once, and no other changes. -/
theorem giveUpAll_lock (s : State) (ls : LockSet) (nd : ls.Nodup) (m : LockNo) :
    (s.giveUpAll ls).lock m = if m ∈ ls then gaveUp (s.lock m) else s.lock m := by
  simp only [State.giveUpAll]
  induction ls generalizing s with
  | nil => simp
  | cons l ls ih =>
    obtain ⟨h1, h2⟩ := List.nodup_cons.1 nd
    rw [List.foldl_cons, ih _ h2, giveUp_lock]
    by_cases e : m = l
    · subst e; simp [h1]
    · simp [e]

/-! ### The page map -/

/-- A change of one page's record. -/
theorem onPage_page (s : State) (n m : PageNo) (f : Page → Page) :
    (s.onPage n f).page m = if m = n then f (s.page n) else s.page m := by
  simp [State.onPage, page_setPage]

@[simp] theorem joinQueue_page (s : State) (n m : PageNo) : (s.joinQueue n).page m = s.page m := by
  simp only [State.joinQueue]; split <;> rfl

theorem joinQueue_queue (s : State) (n : PageNo) :
    (s.joinQueue n).scrubQueue = if n ∈ s.scrubQueue then s.scrubQueue else s.scrubQueue ++ [n] := by
  simp only [State.joinQueue]; split <;> rfl

/-- Marking pages stale changes page records and the scrub queue alone. -/
theorem markStale_frame (s : State) (ns : List PageNo) :
    s.markStale ns = { s with pages := (s.markStale ns).pages, scrubQueue := (s.markStale ns).scrubQueue } := by
  simp only [State.markStale]
  induction ns generalizing s with
  | nil => rfl
  | cons n ns ih => rw [List.foldl_cons, ih]; simp only [State.joinQueue]; split <;> rfl

/-- The pages listed are stale, and no other record changes. -/
theorem markStale_page (s : State) (ns : List PageNo) (n : PageNo) :
    (s.markStale ns).page n = if n ∈ ns then { s.page n with stale := true } else s.page n := by
  simp only [State.markStale]
  induction ns generalizing s with
  | nil => simp
  | cons m ns ih =>
    rw [List.foldl_cons, ih, joinQueue_page, onPage_page]
    by_cases e : n = m
    · subst e; simp [Page.markStale]
    · simp [e]

/-- The pages listed that have no entry join the scrub queue at its tail, in their order. -/
theorem markStale_queue (s : State) (ns : List PageNo) (nd : ns.Nodup) :
    (s.markStale ns).scrubQueue = s.scrubQueue ++ ns.filter (fun n => n ∉ s.scrubQueue) := by
  simp only [State.markStale]
  induction ns generalizing s with
  | nil => simp
  | cons m ns ih =>
    obtain ⟨h1, h2⟩ := List.nodup_cons.1 nd
    rw [List.foldl_cons, ih _ h2, joinQueue_queue, show (s.onPage m Page.markStale).scrubQueue = s.scrubQueue from rfl]
    by_cases e : m ∈ s.scrubQueue
    · simp [e]
    · simp only [e, if_false, List.append_assoc, List.filter_cons, not_false_eq_true, decide_true, if_true,
        List.singleton_append]
      congr 2
      apply List.filter_congr
      intro x hx
      have : x ≠ m := fun h => h1 (h ▸ hx)
      simp [this]

/-- The queue after pages have been marked stale, as a set. -/
theorem mem_markStale_queue (s : State) (ns : List PageNo) (n : PageNo) :
    n ∈ (s.markStale ns).scrubQueue ↔ n ∈ s.scrubQueue ∨ n ∈ ns := by
  simp only [State.markStale]
  induction ns generalizing s with
  | nil => simp
  | cons m ns ih =>
    rw [List.foldl_cons, ih, joinQueue_queue, show (s.onPage m Page.markStale).scrubQueue = s.scrubQueue from rfl]
    by_cases e : m ∈ s.scrubQueue
    · rw [if_pos e]
      by_cases g : n = m <;> simp_all
    · simp [e, or_assoc]

/-- A fill's start clears the marks of the pages listed, and takes their entries out of the queue. -/
theorem withdrawPages_page (s : State) (ns : List PageNo) (n : PageNo) :
    (s.withdrawPages ns).page n = if n ∈ ns then { s.page n with stale := false } else s.page n := by
  have h : ∀ (l : List PageNo) (u : State), (l.foldl (fun s n => s.onPage n Page.clearStale) u).page n =
      if n ∈ l then { u.page n with stale := false } else u.page n := by
    intro l
    induction l with
    | nil => simp
    | cons m l ih =>
      intro u
      rw [List.foldl_cons, ih, onPage_page]
      by_cases e : n = m
      · subst e; simp [Page.clearStale]
      · simp [e]
  exact h ns _

/-- A fill's start changes page records and the scrub queue alone. -/
theorem withdrawPages_frame (s : State) (ns : List PageNo) :
    s.withdrawPages ns =
      { s with pages := (s.withdrawPages ns).pages, scrubQueue := s.scrubQueue.filter (fun n => n ∉ ns) } := by
  have h : ∀ (l : List PageNo) (u : State), l.foldl (fun s n => s.onPage n Page.clearStale) u =
      { u with pages := (l.foldl (fun s n => s.onPage n Page.clearStale) u).pages } := by
    intro l
    induction l with
    | nil => intro u; rfl
    | cons m l ih => intro u; rw [List.foldl_cons, ih]; rfl
  simp only [State.withdrawPages]
  rw [h]

@[simp] theorem queueReleased_page (s : State) (n m : PageNo) : (s.queueReleased n).page m = s.page m := by
  simp only [State.queueReleased]; split; rfl; split <;> rfl

theorem queueReleased_queue (s : State) (n : PageNo) :
    (s.queueReleased n).scrubQueue =
      if n ∈ s.scrubQueue ∨ s.scrubbing = some n then s.scrubQueue else s.scrubQueue ++ [n] := by
  simp only [State.queueReleased]; split; simp [*]; split <;> simp [*]

/-- A release changes page records and the scrub queue alone. -/
theorem releasePages_frame (s : State) (ns : List PageNo) :
    s.releasePages ns = { s with pages := (s.releasePages ns).pages, scrubQueue := (s.releasePages ns).scrubQueue } := by
  simp only [State.releasePages]
  induction ns generalizing s with
  | nil => rfl
  | cons n ns ih => rw [List.foldl_cons, ih]; simp only [State.queueReleased]; split; rfl; split <;> rfl

@[simp] theorem releasePages_task (s : State) (ns : List PageNo) (t : TaskNo) :
    (s.releasePages ns).task t = s.task t :=
  foldl_frame (fun s => s.task t) (fun s n => (s.onPage n Page.release).queueReleased n)
    (fun s n => by simp only [State.queueReleased]; split; rfl; split <;> rfl) ns s

@[simp] theorem reserve_task (s : State) (t : TaskNo) (x : Params) (ns : List PageNo) (u : TaskNo) :
    (s.reserve t x ns).task u = s.task u :=
  foldl_frame (fun s => s.task u) (fun s (a : PageNo × Nat) => s.setPage a.1 _) (fun _ _ => rfl) ns.zipIdx s

/-- The pages released are SCRUBBING with no owner, role or stale mark, and no other record changes. -/
theorem releasePages_page (s : State) (ns : List PageNo) (n : PageNo) :
    (s.releasePages ns).page n =
      if n ∈ ns then { s.page n with state := .scrubbing, owner := none, role := none, stale := false } else s.page n := by
  simp only [State.releasePages]
  induction ns generalizing s with
  | nil => simp
  | cons m ns ih =>
    rw [List.foldl_cons, ih, queueReleased_page, onPage_page]
    by_cases e : n = m
    · subst e; simp [Page.release]
    · simp [e]

/-- The queue after a release, as a set. -/
theorem mem_releasePages_queue (s : State) (ns : List PageNo) (n : PageNo) :
    n ∈ (s.releasePages ns).scrubQueue ↔ n ∈ s.scrubQueue ∨ n ∈ ns ∧ s.scrubbing ≠ some n := by
  simp only [State.releasePages]
  induction ns generalizing s with
  | nil => simp
  | cons m ns ih =>
    rw [List.foldl_cons, ih, queueReleased_queue,
      show ((s.onPage m Page.release).queueReleased m).scrubbing = s.scrubbing by
        simp only [State.queueReleased]; split; rfl; split <;> rfl,
      show (s.onPage m Page.release).scrubQueue = s.scrubQueue from rfl,
      show (s.onPage m Page.release).scrubbing = s.scrubbing from rfl]
    by_cases e : m ∈ s.scrubQueue ∨ s.scrubbing = some m
    · rw [if_pos e]
      by_cases g : n = m
      · subst g
        simp only [List.mem_cons, true_or, true_and]
        constructor
        · rintro (h | h)
          · exact .inl h
          · exact .inr h.2
        · rintro (h | h)
          · exact .inl h
          · exact e.elim .inl fun x => absurd x h
      · simp [g]
    · rw [if_neg e]
      obtain ⟨e1, e2⟩ := not_or.1 e
      by_cases g : n = m
      · subst g; simp [e2]
      · simp [g]

/-- The pages whose record meets a condition. -/
theorem mem_pagesWhere {s : State} {f : Page → Bool} {n : PageNo} : n ∈ s.pagesWhere f ↔ f (s.page n) = true := by
  simp only [State.pagesWhere, List.mem_filterMap, Option.ite_none_right_eq_some, Option.some.injEq]
  constructor
  · rintro ⟨⟨m, g⟩, hm, hf, rfl⟩
    obtain ⟨i, hi, he⟩ := List.getElem_of_mem hm
    simp only [List.getElem_zip, List.getElem_finRange, Prod.mk.injEq] at he
    obtain ⟨rfl, rfl⟩ := he
    exact hf
  · intro hf
    refine ⟨(n, s.page n), ?_, hf, rfl⟩
    refine List.mem_iff_getElem.2 ⟨n.val, by simp, ?_⟩
    simp [State.page]

/-- They are listed in ascending order, each once. -/
theorem pagesWhere_sorted (s : State) (f : Page → Bool) : (s.pagesWhere f).Pairwise (· < ·) := by
  have h : ∀ (l : List PageNo) (g : List Page), l.Pairwise (· < ·) →
      ((l.zip g).filterMap (fun x => if f x.2 then some x.1 else none)).Pairwise (· < ·) ∧
      ∀ n ∈ (l.zip g).filterMap (fun x => if f x.2 then some x.1 else none), n ∈ l := by
    intro l
    induction l with
    | nil => simp
    | cons a l ih =>
      intro g hl
      cases g with
      | nil => simp
      | cons b g =>
        obtain ⟨h1, h2⟩ := List.pairwise_cons.1 hl
        obtain ⟨i1, i2⟩ := ih g h2
        simp only [List.zip_cons_cons, List.filterMap_cons]
        split
        · exact ⟨i1, fun n hn => .tail _ (i2 n hn)⟩
        · next e =>
          obtain rfl : a = _ := by simpa using (Option.ite_none_right_eq_some.1 e).2
          exact ⟨List.pairwise_cons.2 ⟨fun n hn => h1 n (i2 n hn), i1⟩, fun n hn => by
            rcases List.mem_cons.1 hn with rfl | hn
            · simp
            · exact .tail _ (i2 n hn)⟩
  exact (h _ _ (List.pairwise_lt_finRange 1024)).1

/-! ### Slots and aborts -/

/-- The emptying of a task's slot: its record, and the stale marks of its pages. -/
theorem emptySlot_eq {s : State} {t : TaskNo} {k : Task} (slot : Nat) (h : s.task t = some k) :
    s.emptySlot t slot = (s.setTask t (some (k.withSlot slot { status := .empty, frame := none }))).markStale
      ((k.slotPages[slot]?).getD []) := by
  simp only [State.emptySlot, h]

/-- The abandoned write of a fill reaches context memory alone. -/
theorem abandonFill_frame (s : State) (k : Task) (slot part : Nat) (b : List Byte) :
    s.abandonFill k slot part b =
      { s with mem := (s.abandonFill k slot part b).mem, freeIndex := (s.abandonFill k slot part b).freeIndex } := by
  simp only [State.abandonFill]; split <;> rfl

/-- A task's record written twice. -/
theorem setTask_setTask (s : State) (t : TaskNo) (k k' : Option Task) : (s.setTask t k).setTask t k' = s.setTask t k' := by
  simp [State.setTask]

/-- Page n begins at address 1024 n. -/
theorem pageBase_eq (n : PageNo) : pageBase n = 1024 * n.val := by simp [pageBase, Config.pageBytes, Nat.mul_comm]

end Sys2Proof.Laws
end

