-- ==== Sys2Proof/Laws/Keeps.lean ====
section
/-! SUPPORT. `Keeps s t`: going from s to t keeps the records sound (`State.RecordsOk`) and leaves
the queue of commands and the full-reset line alone. One lemma for each shared operation. -/

namespace Sys2Proof.Laws

open Sys2Proof Sys2Proof.Machine

/-- The invariant looks past the queue of commands. -/
theorem inv_pending {s : State} (h : s.Inv) (cs : List Instr) : State.Inv { s with pending := cs } := by
  obtain ⟨⟨a1, a2, a3, a4, a5, a6, a7⟩, b, ⟨c1, c2, c3, c4, c5⟩, ⟨d1, d2, d3, d4, d5, d6⟩, ⟨e1, e2, e3, e4, e5, e6⟩⟩ := h
  exact ⟨⟨a1, a2, a3, a4, a5, a6, a7⟩, b, ⟨c1, c2, c3, c4, c5⟩, ⟨d1, d2, d3, d4, d5, d6⟩,
    ⟨e1, e2, e3, e4, e5, e6⟩⟩

/-- From s to t sound records stay sound, and the command queue and FRST_N stay as they were. -/
structure Keeps (s t : State) : Prop where
  records : s.RecordsOk → t.RecordsOk
  pending : t.pending = s.pending
  frst    : t.frst = s.frst

theorem Keeps.refl (s : State) : Keeps s s := ⟨id, rfl, rfl⟩

theorem Keeps.trans {s t u : State} (a : Keeps s t) (b : Keeps t u) : Keeps s u :=
  ⟨b.records ∘ a.records, b.pending.trans a.pending, b.frst.trans a.frst⟩

/-- A run of steps over a list keeps what each step keeps. -/
theorem Keeps.foldl {α : Type} (f : State → α → State) (hf : ∀ s a, Keeps s (f s a)) (l : List α) (s : State) :
    Keeps s (l.foldl f s) := by
  induction l generalizing s with
  | nil => exact .refl s
  | cons a l ih => exact (hf s a).trans (ih _)

/-! ### Atomic updates -/

theorem keeps_setPort (s : State) (p : Port) (r : PortRecord) (h : (s.port p).Ok → r.Ok)
    (hg : (s.port p).rights.grant = true → r.rights.grant = true) : Keeps s (s.setPort p r) := by
  refine ⟨fun i => ⟨fun q => ?_, ?_, i.tasks, i.locks, i.token, i.queue, i.memory⟩, rfl, rfl⟩
  · rw [port_setPort]; split
    · exact h (i.ports p)
    · exact i.ports q
  · obtain ⟨q, hq⟩ := i.grant
    refine ⟨q, ?_⟩
    rw [port_setPort]; split
    · next e => subst e; exact hg hq
    · exact hq

theorem keeps_onPort (s : State) (p : Port) (f : PortRecord → PortRecord) (h : ∀ r, r.Ok → (f r).Ok)
    (hg : ∀ r, (f r).rights = r.rights) : Keeps s (s.onPort p f) :=
  keeps_setPort s p _ (h _) (by rw [hg]; exact id)

theorem keeps_setTask (s : State) (t : TaskNo) (k : Option Task)
    (h : (∀ k' ∈ s.task t, k'.Ok) → s.nextToken ≠ 0 → ∀ k' ∈ k, k'.Ok) : Keeps s (s.setTask t k) := by
  refine ⟨fun i => ⟨i.ports, i.grant, fun u => ?_, i.locks, i.token, i.queue, i.memory⟩, rfl, rfl⟩
  rw [task_setTask]; split
  · exact h (i.tasks t) i.token
  · exact i.tasks u

theorem keeps_onTask (s : State) (t : TaskNo) (f : Task → Task) (h : ∀ k, k.Ok → (f k).Ok) :
    Keeps s (s.onTask t f) := by
  refine keeps_setTask s t _ fun ok _ k' hk' => ?_
  obtain ⟨k, hk, rfl⟩ := Option.mem_map.1 hk'
  exact h k (ok k hk)

theorem keeps_setLock (s : State) (l : LockNo) (k : Lock) (h : (s.lock l).Ok → k.Ok) : Keeps s (s.setLock l k) := by
  refine ⟨fun i => ⟨i.ports, i.grant, i.tasks, fun m => ?_, i.token, i.queue, i.memory⟩, rfl, rfl⟩
  rw [lock_setLock]; split
  · exact h (i.locks l)
  · exact i.locks m

theorem keeps_setPage (s : State) (n : PageNo) (x : Page) : Keeps s (s.setPage n x) :=
  ⟨fun i => ⟨i.ports, i.grant, i.tasks, i.locks, i.token, i.queue, i.memory⟩, rfl, rfl⟩

theorem keeps_onPage (s : State) (n : PageNo) (f : Page → Page) : Keeps s (s.onPage n f) := keeps_setPage _ _ _

theorem keeps_freePath (s : State) : Keeps s s.freePath :=
  ⟨fun i => ⟨i.ports, i.grant, i.tasks, i.locks, i.token, i.queue, i.memory⟩, rfl, rfl⟩

theorem keeps_queue (s : State) (q : List PageNo) (h : s.scrubQueue.Nodup → q.Nodup) :
    Keeps s { s with scrubQueue := q } :=
  ⟨fun i => ⟨i.ports, i.grant, i.tasks, i.locks, i.token, h i.queue, i.memory⟩, rfl, rfl⟩

theorem keeps_mem (s : State) (m : Memory) (h : s.mem.wf → m.wf) : Keeps s { s with mem := m } :=
  ⟨fun i => ⟨i.ports, i.grant, i.tasks, i.locks, i.token, i.queue, h i.memory⟩, rfl, rfl⟩

/-! ### The response line and notices -/

theorem startSending_ok (r : PortRecord) (h : r.Ok) : r.startSending.Ok := by
  simp only [PortRecord.startSending]
  split
  · exact h
  · split
    · next e =>
      obtain ⟨h1, h2, h3, h4, h5, h6, h7, h8, h9⟩ := h
      rw [e] at h2 h9
      simp only [List.length_cons] at h2
      refine ⟨h1, by simp only; omega, by simp, h4, h5, h6, h7, h8, fun hh => ?_⟩
      simpa using h9 hh
    · split <;> exact h

@[simp] theorem startSending_rights (r : PortRecord) : r.startSending.rights = r.rights := by
  simp only [PortRecord.startSending]; repeat' split
  all_goals rfl

@[simp] theorem respond_rights (r : PortRecord) (x : Response) : (r.respond x).rights = r.rights := by
  simp [PortRecord.respond]

theorem respond_ok (r : PortRecord) (x : Response) (h : r.Ok) : (r.respond x).Ok := startSending_ok _ h

theorem keeps_respond (s : State) (p : Port) (x : Response) : Keeps s (s.respond p x) :=
  keeps_onPort s p _ (fun r => respond_ok r x) (fun r => respond_rights r x)

theorem keeps_refuse (s : State) (p : Port) (q : Request) (st : Status) :
    Keeps s (s.refuse p q st) := keeps_respond _ _ _

theorem keeps_respondHead (s : State) (p : Port) (f : Request → Response) : Keeps s (s.respondHead p f) := by
  simp only [State.respondHead]
  split
  · exact .refl s
  · exact keeps_respond _ _ _

theorem post_ok (r : PortRecord) (n : Notice) (h : r.Ok) : (r.post n).Ok := by
  obtain ⟨h1, h2, h3, h4, h5, h6, h7, h8, h9⟩ := h
  simp only [PortRecord.post]
  split
  · next on =>
    split
    · next hl =>
      simp only [Config.noticeMax] at hl
      refine ⟨h1, h2, h3, ?_, h5, fun hc => absurd (h6 hc) (by omega), ?_, rfl, h9⟩
      · simp [PortRecord.driveLine]; omega
      · simp [PortRecord.driveLine, on]
    · next hl =>
      simp only [Config.noticeMax, Nat.not_lt] at hl
      exact ⟨h1, h2, h3, h4, by simp [Config.countMax], fun _ => by simp only; omega, by simp [on], h8, h9⟩
  · exact ⟨h1, h2, h3, h4, h5, h6, h7, h8, h9⟩

@[simp] theorem post_rights (r : PortRecord) (n : Notice) : (r.post n).rights = r.rights := by
  simp only [PortRecord.post, PortRecord.driveLine]; repeat' split
  all_goals rfl

theorem keeps_post (s : State) (p : Port) (n : Notice) : Keeps s (s.post p n) :=
  keeps_onPort s p _ (fun r => post_ok r n) (fun r => post_rights r n)

theorem keeps_postAll (s : State) (ps : List Port) (n : Notice) : Keeps s (s.postAll ps n) :=
  .foldl _ (fun s p => keeps_post s p n) ps s

/-! ### The lock pool -/

theorem keeps_withdraw (s : State) (w : Waiter) : Keeps s (s.withdraw w) := by
  simp only [State.withdraw]
  split
  · exact .refl s
  · next l _ =>
    refine keeps_setLock s l _ fun h => ?_
    have hl := List.length_erase_le (a := w) (l := (s.lock l).waiters)
    revert h
    simp only [Lock.Ok]
    cases (s.lock l).state
    · rintro ⟨a, b, c⟩; simp [a, b, c]
    · rintro ⟨a, b⟩; simp [a, b]
    · rintro ⟨a, b⟩; exact ⟨a, by omega⟩

theorem keeps_postGrant (s : State) (t : TaskNo) (l : LockNo) : Keeps s (s.postGrant t l) := by
  simp only [State.postGrant]
  split
  · exact .refl s
  · exact keeps_post _ _ _

theorem keeps_giveUp (s : State) (l : LockNo) : Keeps s (s.giveUp l) := by
  simp only [State.giveUp]
  split
  · exact .refl s
  · split
    · exact keeps_setLock _ _ _ fun _ => by simp [Lock.Ok]
    · next e =>
      refine (keeps_setLock _ _ _ fun h => ?_).trans (keeps_postGrant _ _ _)
      revert h
      simp only [Lock.Ok, e]
      cases (s.lock l).state <;> simp
      omega

theorem keeps_giveUpAll (s : State) (ls : LockSet) : Keeps s (s.giveUpAll ls) := .foldl _ keeps_giveUp ls s

theorem keeps_move (s : State) (l : LockNo) (h h' : Holder) : Keeps s (s.move l h h') := by
  simp only [State.move]
  split
  · next e =>
    refine keeps_setLock _ _ _ fun ok => ?_
    revert ok
    simp only [Lock.Ok, e]
    cases (s.lock l).state <;> simp
  · exact .refl s

theorem keeps_moveAll (s : State) (ls : LockSet) (h h' : Holder) : Keeps s (s.moveAll ls h h') :=
  .foldl _ (fun s l => keeps_move s l h h') ls s

/-! ### The page map -/

theorem keeps_joinQueue (s : State) (n : PageNo) : Keeps s (s.joinQueue n) := by
  simp only [State.joinQueue]
  split
  · exact .refl s
  · next h => exact keeps_queue s _ fun nd => List.nodup_append'.2 ⟨nd, by simp, by simpa using h⟩

theorem keeps_markStale (s : State) (ns : List PageNo) : Keeps s (s.markStale ns) :=
  .foldl _ (fun s n => (keeps_onPage s n _).trans (keeps_joinQueue _ n)) ns s

theorem keeps_withdrawPages (s : State) (ns : List PageNo) : Keeps s (s.withdrawPages ns) :=
  (keeps_queue s _ fun nd => nd.filter _).trans (.foldl _ (fun s n => keeps_onPage s n _) ns _)

theorem withSlot_ok (k : Task) (slot : Nat) (x : Slot) (h : k.Ok) : (k.withSlot slot x).Ok := h

theorem keeps_emptySlot (s : State) (t : TaskNo) (slot : Nat) : Keeps s (s.emptySlot t slot) := by
  simp only [State.emptySlot]
  split
  · exact .refl s
  · next k hk =>
    refine (keeps_setTask _ _ _ fun ok _ k' hk' => ?_).trans (keeps_markStale _ _)
    obtain rfl := Option.mem_some.1 hk'
    exact withSlot_ok k slot _ (ok k hk)

theorem keeps_abandon (s : State) (p : Port) : Keeps s (s.abandon p) := by
  simp only [State.abandon]
  split
  · exact keeps_freePath s
  · exact .refl s

theorem keeps_writePage (s : State) (n : PageNo) (off len : Nat) (bytes : List Byte)
    (h : bytes.take len = [] ∨ off + len ≤ Config.pageBytes) : Keeps s (s.writePage n off len bytes) :=
  keeps_mem s _ (writePage_wf s n off len bytes h)

/-! ### Claims and tasks -/

theorem leaseLoad_range (k : Task) (h : k.leasePeriod ≤ Config.leaseMax) :
    ∀ n ∈ k.leaseLoad, 1 ≤ n ∧ n ≤ Config.leaseMax := by
  intro n hn
  simp only [Task.leaseLoad] at hn
  split at hn
  · simp at hn
  · obtain rfl := Option.mem_some.1 hn
    exact ⟨by omega, h⟩

theorem loadLease_ok (k : Task) (h : k.Ok) : k.loadLease.Ok := by
  obtain ⟨h1, h2, h3, h4, h5, h6, h7⟩ := h
  refine ⟨by simpa [Task.loadLease] using h1, by simpa [Task.loadLease] using h2, h3, h4, ?_, ?_, h7⟩
  · intro c hc
    obtain ⟨c0, hc0, rfl⟩ := Option.mem_map.1 hc
    obtain ⟨a, b, d, e, f, g⟩ := h5 c0 hc0
    exact ⟨a, leaseLoad_range k h7, d, e, f, g⟩
  · intro ho
    obtain ⟨a, b⟩ := h6 ho
    exact ⟨a, by simpa [Task.loadLease, Claim.loadLease] using b⟩

theorem stopLease_ok (k : Task) (h : k.Ok) : k.stopLease.Ok := by
  obtain ⟨h1, h2, h3, h4, h5, h6, h7⟩ := h
  refine ⟨by simpa [Task.stopLease] using h1, by simpa [Task.stopLease] using h2, h3, h4, ?_, ?_, h7⟩
  · intro c hc
    obtain ⟨c0, hc0, rfl⟩ := Option.mem_map.1 hc
    obtain ⟨a, b, d, e, f, g⟩ := h5 c0 hc0
    exact ⟨a, by simp [Claim.stopLease], d, e, f, g⟩
  · intro ho
    obtain ⟨a, b⟩ := h6 ho
    exact ⟨a, by simpa [Task.stopLease, Claim.stopLease] using b⟩

theorem clearOp_ok (k : Task) (h : k.Ok) : Task.Ok { k with op := none } := by
  obtain ⟨h1, h2, h3, h4, h5, h6, h7⟩ := h
  exact ⟨h1, by simp, h3, h4, h5, by simp, h7⟩

theorem endClaim_ok (k : Task) (h : k.Ok) : k.endClaim.Ok := by
  obtain ⟨h1, h2, h3, h4, h5, h6, h7⟩ := h
  simp only [Task.Ok, Task.endClaim, Task.restState]
  cases hk : k.stack <;> simp [h7]

end Sys2Proof.Laws
end

