-- ==== Sys2Proof/Laws/KeepsClaims.lean ====
section
/-! SUPPORT. The keeps-lemmas of the ends of claims and of the completions of moves: an operation that rests on its
task's condition is kept under that condition. -/

namespace Sys2Proof.Laws

open Sys2Proof Sys2Proof.Machine

/-- A keeps-lemma whose side condition comes from sound records. -/
theorem Keeps.of_records {s t : State} (h : s.RecordsOk → Keeps s t) (hp : t.pending = s.pending) (hf : t.frst = s.frst) :
    Keeps s t := ⟨fun i => (h i).records i, hp, hf⟩

theorem keeps_abandonFill (s : State) (k : Task) (slot part : Nat) (b : List Byte) :
    Keeps s (s.abandonFill k slot part b) := by
  simp only [State.abandonFill]
  split
  · exact .refl s
  · exact (keeps_writePage s _ 0 _ _ (.inr (by simp))).trans
      ⟨fun i => ⟨i.ports, i.grant, i.tasks, i.locks, i.token, i.queue, i.memory⟩, rfl, rfl⟩

theorem keeps_abortEffect (s : State) (t) (k) (c) (o) : Keeps s (s.abortEffect t k c o) := by
  cases o <;> simp only [State.abortEffect] <;> try exact .refl s
  split
  · exact (keeps_abandonFill ..).trans (keeps_emptySlot ..)
  · exact (keeps_emptySlot ..)

theorem keeps_abortOp (s : State) (t) : Keeps s (s.abortOp t) := by
  simp only [State.abortOp]
  split
  · exact .refl s
  · split
    · exact ((keeps_abortEffect ..).trans (keeps_onTask _ _ _ clearOp_ok)).trans (keeps_abandon ..)
    · exact .refl s

/-- Abandoning a fill leaves the task records alone. -/
theorem abandonFill_task (s : State) (k : Task) (slot part : Nat) (b : List Byte) (t : TaskNo) :
    (s.abandonFill k slot part b).task t = s.task t := by
  simp only [State.abandonFill]; split <;> rfl

/-- An abort leaves the task's claim, condition, stack and watch set as they were. -/
theorem abortOp_task (s : State) (t : TaskNo) (k : Task) (h : s.task t = some k) :
    ∃ k', (s.abortOp t).task t = some k' ∧ k'.claim = k.claim ∧ k'.state = k.state ∧ k'.stack = k.stack
      ∧ k'.watch = k.watch := by
  simp only [State.abortOp, h]
  split
  · next c o hc ho =>
    cases o <;> simp [State.abortEffect, onTask_task, h, hc]
    simp [emptySlot_task]
    split <;> simp [h, Task.withSlot, hc, abandonFill_task]
  · simp [h]

theorem keeps_reinstate (s : State) (t tok slot) (h : s.RecordsOk → ∀ k ∈ s.task t, k.state = .running) :
    Keeps s (s.reinstate t tok slot) := by
  simp only [State.reinstate]
  split
  · exact .refl s
  · next k hk =>
    split
    · exact .refl s
    · refine .of_records (fun i => ?_) ?_ ?_
      · refine ((keeps_setTask _ _ _ fun ok _ k' hk' => ?_).trans (keeps_moveAll ..)).trans (keeps_giveUpAll ..)
        obtain rfl := Option.mem_some.1 hk'
        obtain ⟨h1, h2, h3, h4, h5, h6, h7⟩ := ok k hk
        have hr := h i k hk
        refine ⟨h1, h2, by simp [Task.withSlot, hr], by simp, h5, ?_, h7⟩
        intro ho; exact ⟨by simp, (h6 ho).2⟩
      · rw [(keeps_giveUpAll ..).pending, (keeps_moveAll ..).pending]; rfl
      · rw [(keeps_giveUpAll ..).frst, (keeps_moveAll ..).frst]; rfl

theorem keeps_endLocks (s : State) (t c) (h : s.RecordsOk → ∀ k ∈ s.task t, k.state = .running) :
    Keeps s (s.endLocks t c) := by
  simp only [State.endLocks]
  split
  · exact .refl s
  · exact keeps_reinstate _ _ _ _ h
  · exact keeps_giveUpAll ..

theorem keeps_endNotices (s : State) (t w o c d) : Keeps s (s.endNotices t w o c d) := by
  cases c <;> simp only [State.endNotices]
  · exact (keeps_post ..).trans (keeps_postAll ..)
  · exact (keeps_post ..).trans (keeps_postAll ..)
  · exact keeps_postAll ..

theorem keeps_answerAborted (s : State) (c o x) : Keeps s (s.answerAborted c o x) := by
  cases x <;> cases o <;> simp only [State.answerAborted] <;> first | exact .refl s | exact keeps_respondHead ..

theorem keeps_abnormalEnd (s : State) (t x) : Keeps s (s.abnormalEnd t x) := by
  simp only [State.abnormalEnd]
  split
  · exact .refl s
  · next k hk =>
    split
    · exact .refl s
    · next c hc =>
      refine Keeps.trans (t := (s.abortOp t).withdraw ⟨t, c.token⟩) ((keeps_abortOp ..).trans (keeps_withdraw ..)) ?_
      refine (keeps_endLocks _ t c fun i k' hk' => ?_).trans ((keeps_onTask _ t _ endClaim_ok).trans
        ((keeps_endNotices ..).trans (keeps_answerAborted ..)))
      obtain ⟨k2, e, e1, e2, _⟩ := abortOp_task s t k hk
      have := (i.tasks t k' hk').1.2
      rw [withdraw_task, e] at hk'
      obtain rfl := Option.some.inj hk'
      exact this (by simp [e1, hc])

theorem keeps_withdrawClaim (s : State) (t) : Keeps s (s.withdrawClaim t) := by
  simp only [State.withdrawClaim]
  split
  · exact .refl s
  · exact keeps_withdraw ..

theorem close_ok (r : PortRecord) (h : r.Ok) : r.close.Ok := by
  obtain ⟨h1, h2, h3, h4, h5, h6, h7, h8, h9⟩ := h
  refine ⟨h1, h2, h3, ?_, ?_, ?_, ?_, rfl, h9⟩ <;> simp [PortRecord.close, PortRecord.driveLine]

theorem keeps_teardown (s : State) (p) : Keeps s (s.teardown p) := by
  simp only [State.teardown]
  split
  · refine (((Keeps.foldl _ ?_ _ _).trans (Keeps.foldl _ ?_ _ _)).trans
      (keeps_onPort _ _ _ close_ok fun _ => rfl)).trans (keeps_postAll ..)
    · exact fun s a => keeps_withdrawClaim s a
    · exact fun s a => keeps_abnormalEnd s a _
  · exact .refl s

theorem keeps_cutOff (s : State) (p : Port) : Keeps s (s.onPort p PortRecord.cutOff) := by
  refine keeps_onPort s p PortRecord.cutOff ?_ fun _ => rfl
  rintro r ⟨h1, h2, h3, h4, h5, h6, h7, h8, h9⟩
  exact ⟨by simp [PortRecord.cutOff], by simp [PortRecord.cutOff], by simp [PortRecord.cutOff], h4, h5, h6, h7, h8,
    by simp [PortRecord.cutOff]⟩

/-- A task record written whole: it need only be sound where the records are sound. -/
theorem keeps_record (s : State) (t : TaskNo) (k : Option Task) (h : s.RecordsOk → ∀ k' ∈ k, k'.Ok) :
    Keeps s (s.setTask t k) :=
  .of_records (fun i => keeps_setTask s t k fun _ _ => h i) rfl rfl

/-- The same for a task that exists. -/
theorem keeps_someRecord (s : State) (t : TaskNo) (k : Task) (h : s.RecordsOk → k.Ok) : Keeps s (s.setTask t (some k)) :=
  keeps_record s t _ fun i k' hk' => by obtain rfl := Option.mem_some.1 hk'; exact h i

theorem fault_ok (k : Task) (h : k.Ok) (hs : k.stack ≠ []) : k.fault.Ok := by
  obtain ⟨h1, h2, h3, h4, h5, h6, h7⟩ := h
  simp [Task.Ok, Task.fault, hs, h7]

/-- A page's record plays no part in it. -/
theorem onPage_records {s : State} {n : PageNo} {f : Page → Page} : (s.onPage n f).RecordsOk → s.RecordsOk := fun i =>
  ⟨i.ports, i.grant, i.tasks, i.locks, i.token, i.queue, i.memory⟩

theorem keeps_damageInDelivery (s : State) (t k c n part) (h : s.RecordsOk → k.Ok ∧ k.stack ≠ []) :
    Keeps s (s.damageInDelivery t k c n part) := by
  simp only [State.damageInDelivery]
  refine (((keeps_onPage ..).trans (keeps_someRecord _ _ _ fun i => ?_)).trans (keeps_postAll ..)).trans
    (keeps_respondHead ..)
  obtain ⟨a, b⟩ := h (onPage_records i)
  exact fault_ok k a b

theorem keeps_completeDelivery (s : State) (t k c slot f b) (h : s.RecordsOk → k.Ok ∧ k.claim = some c ∧ c.phase = .opening) :
    Keeps s (s.completeDelivery t k c slot f b) := by
  simp only [State.completeDelivery]
  refine ((keeps_someRecord _ _ _ fun i => ?_).trans (keeps_moveAll ..)).trans (keeps_respondHead ..)
  obtain ⟨⟨h1, h2, h3, h4, h5, h6, h7⟩, hc, hp⟩ := h i
  have hr := h1.2 (by simp [hc])
  obtain ⟨c1, c2, c3, c4, c5, c6⟩ := h5 c hc
  have hrs := c3 hp
  refine ⟨by simp [Task.withSlot, hr], by simp, by simp [Task.withSlot, hr], by simp [Task.withSlot, hr], ?_, by simp,
    h7⟩
  intro c' hc'
  obtain rfl := Option.mem_some.1 hc'
  refine ⟨c1, leaseLoad_range k h7, by simp [Claim.loadLease], by simp [Claim.loadLease, hrs], ?_, ?_⟩ <;>
    simp [Claim.loadLease, hrs]

theorem keeps_reachDelivery (s : State) (t k c slot f part b)
    (h : s.RecordsOk → k.Ok ∧ k.claim = some c ∧ c.phase = .opening ∧ k.stack ≠ []) :
    Keeps s (s.reachDeliveryPart t k c slot f part b) := by
  simp only [State.reachDeliveryPart]
  split
  · split
    · exact keeps_damageInDelivery _ _ _ _ _ _ fun i => ⟨(h i).1, (h i).2.2.2⟩
    · refine keeps_someRecord _ _ _ fun i => ?_
      obtain ⟨⟨h1, h2, h3, h4, h5, h6, h7⟩, hc, hp, hs⟩ := h i
      refine ⟨h1, by simp [hc], h3, h4, h5, ?_, h7⟩
      simp [hs, hc, hp]
  · exact keeps_completeDelivery _ _ _ _ _ _ _ fun i => ⟨(h i).1, (h i).2.1, (h i).2.2.1⟩

theorem setOp_ok (k : Task) (h : k.Ok) (o : Op) (ho : o.kind ≠ .delivery) (hc : k.claim.isSome = true) :
    Task.Ok { k with op := some o } := by
  obtain ⟨h1, h2, h3, h4, h5, h6, h7⟩ := h
  exact ⟨h1, fun _ => hc, h3, h4, h5, by simp [ho], h7⟩

theorem keeps_damageInRead (s : State) (t k c n part) (h : s.RecordsOk → k.Ok) :
    Keeps s (s.damageInRead t k c n part) := by
  simp only [State.damageInRead]
  exact ((keeps_onPage ..).trans (keeps_someRecord _ _ _ fun i =>
    loadLease_ok _ (clearOp_ok _ (h (onPage_records i))))).trans (keeps_respondHead ..)

theorem keeps_completePeek (s : State) (t k c po slot f b) (h : s.RecordsOk → k.Ok) :
    Keeps s (s.completePeek t k c po slot f b) := by
  simp only [State.completePeek]
  exact (keeps_someRecord _ _ _ fun i => loadLease_ok _ (clearOp_ok _ (h i))).trans (keeps_respondHead ..)

theorem keeps_reachPeek (s : State) (t k c po slot f part b) (h : s.RecordsOk → k.Ok ∧ k.claim.isSome = true) :
    Keeps s (s.reachPeekPart t k c po slot f part b) := by
  simp only [State.reachPeekPart]
  split
  · split
    · exact keeps_damageInRead _ _ _ _ _ _ fun i => (h i).1
    · exact keeps_someRecord _ _ _ fun i => setOp_ok k (h i).1 _ (by simp [Op.kind]) (h i).2
  · exact keeps_completePeek _ _ _ _ _ _ _ _ fun i => (h i).1

theorem keeps_completeDataRead (s : State) (t k c a b d) (h : s.RecordsOk → k.Ok) :
    Keeps s (s.completeDataRead t k c a b d) :=
  (keeps_someRecord _ _ _ fun i => loadLease_ok _ (clearOp_ok _ (h i))).trans (keeps_respondHead ..)

theorem keeps_completeDataWrite (s : State) (t k c a b d) (h : s.RecordsOk → k.Ok) :
    Keeps s (s.completeDataWrite t k c a b d) :=
  (keeps_someRecord _ _ _ fun i => loadLease_ok _ (clearOp_ok _ (h i))).trans (keeps_respondHead ..)

theorem keeps_dropRetained (s : State) (t c) : Keeps s (s.dropRetained t c) := by
  simp only [State.dropRetained]; split
  · exact .refl s
  · exact keeps_emptySlot ..

theorem keeps_completeFill (s : State) (t k c slot w b d) (h : s.RecordsOk → k.Ok ∧ k.claim.isSome = true ∧ k.op = none) :
    Keeps s (s.completeFill t k c slot w b d) := by
  simp only [State.completeFill]
  refine ((((keeps_someRecord _ _ _ fun i => ?_).trans (keeps_moveAll ..)).trans ((keeps_dropRetained ..).trans
    (keeps_onTask _ _ _ endClaim_ok))).trans (keeps_postAll ..)).trans (keeps_respondHead ..)
  obtain ⟨⟨h1, h2, h3, h4, h5, h6, h7⟩, hc, ho⟩ := h i
  have hr := h1.2 hc
  exact ⟨h1, h2, by simp [Task.withSlot, hr], by simp [Task.withSlot, hr], h5, by simp [Task.withSlot, ho], h7⟩

end Sys2Proof.Laws
end

