-- ==== Sys2Proof/Laws/Requests.lean ====
section
/-! SUPPORT. From a request command to the procedure that carries it out: the arrival at an empty queue, the checks it
passes, and the records it finds. -/

namespace Sys2Proof.Laws

open Sys2Proof Sys2Proof.Machine

/-- A request's code names the request. -/
@[simp] theorem ofByte_byte (c : RequestCode) : RequestCode.ofByte c.byte = some c := by cases c <;> rfl

/-- The code that names a request is that request's. -/
theorem byte_of_ofByte {b : Byte} {c : RequestCode} (h : RequestCode.ofByte b = some c) : c.byte = b := by
  simpa using List.find?_some h

/-- The token field of an answer to a request of the table. -/
theorem echoToken_of_code {q : Request} {c : RequestCode} (h : q.code = c.byte) :
    q.echoToken = if c.tokenBearing then q.ops.token else 0 := by
  simp [Request.echoToken, h]

/-- The command for a request stands for that request. -/
theorem ofRequest_request (p : Port) (q : Request) : (Instr.ofRequest p q).request = some (p, q) := by
  obtain ⟨b, o⟩ := q
  simp only [Instr.ofRequest]
  split <;> first | (rename_i h; simp [Instr.request, byte_of_ofByte h]) | rfl

/-- A request command is the arrival of its request. -/
theorem exec_request {i : Instr} {p : Port} {q : Request} (s : State) (h : i.request = some (p, q)) :
    exec i s = .next (arrive p q s) := by
  cases i <;> simp only [Instr.request, Option.some.injEq, Prod.mk.injEq, reduceCtorEq] at h <;>
    (obtain ⟨rfl, rfl⟩ := h; rfl)

/-- A request taken at once. -/
theorem exec_taken {i : Instr} {p : Port} {q : Request} {s : State} (h : i.request = some (p, q))
    (hs : s.takesAtOnce p) : exec i s = .next (takeRequest p q (s.arrived p q)) := by
  obtain ⟨h1, h2, h3⟩ := hs
  rw [exec_request s h]
  simp [arrive, State.deaf, h1, h2, h3, Config.requestQueueMax, State.arrived]

@[simp] theorem arrived_task (s : State) (p : Port) (q : Request) (t : TaskNo) :
    (s.arrived p q).task t = s.task t := rfl
@[simp] theorem arrived_lock (s : State) (p : Port) (q : Request) (l : LockNo) :
    (s.arrived p q).lock l = s.lock l := rfl
@[simp] theorem arrived_page (s : State) (p : Port) (q : Request) (n : PageNo) :
    (s.arrived p q).page n = s.page n := rfl
@[simp] theorem arrived_pages (s : State) (p : Port) (q : Request) : (s.arrived p q).pages = s.pages := rfl
@[simp] theorem arrived_locks (s : State) (p : Port) (q : Request) : (s.arrived p q).locks = s.locks := rfl
@[simp] theorem arrived_tasks (s : State) (p : Port) (q : Request) : (s.arrived p q).tasks = s.tasks := rfl
@[simp] theorem arrived_nextToken (s : State) (p : Port) (q : Request) : (s.arrived p q).nextToken = s.nextToken := rfl
@[simp] theorem arrived_freeCount (s : State) (p : Port) (q : Request) : (s.arrived p q).freeCount = s.freeCount := rfl
@[simp] theorem arrived_scrubQueue (s : State) (p : Port) (q : Request) :
    (s.arrived p q).scrubQueue = s.scrubQueue := rfl
@[simp] theorem arrived_scrubbing (s : State) (p : Port) (q : Request) : (s.arrived p q).scrubbing = s.scrubbing := rfl

/-- The port records after a request has joined a queue. -/
@[simp] theorem arrived_port (s : State) (p r : Port) (q : Request) :
    (s.arrived p q).port r =
      if r = p then { s.port p with requests := (s.port p).requests ++ [q] } else s.port r := by
  simp [State.arrived, State.onPort, port_setPort, PortRecord.queueRequest]

/-- A request that passes steps 2 to 4 is carried out. -/
theorem exec_admitted {i : Instr} {p : Port} {q : Request} {c : RequestCode} {s : State} (h : i.request = some (p, q))
    (hq : q.code = c.byte) (hs : s.admits p c) (ho : operandsOk q.ops c = true) :
    exec i s = .next (carryOut p q (s.arrived p q) c) := by
  obtain ⟨h1, h2, h3⟩ := hs
  rw [exec_taken h h1]
  simp [takeRequest, hq, h2, h3, ho]

/-- A request that names a task finds its record. -/
theorem withTask_of_task {s : State} {p : Port} {q : Request} {t : TaskNo} {k : Task} (ht : taskOf q.ops.task = some t)
    (hk : s.task t = some k) (f : TaskNo → Task → State) : s.withTask p q f = f t k := by
  simp [State.withTask, ht, hk]

/-- A token-bearing request with a live token finds its claim. -/
theorem withClaim_of_live {s : State} {p : Port} {q : Request} {t : TaskNo} {k : Task} {c : Claim}
    (ht : taskOf q.ops.task = some t) (hl : s.liveClaim p t k c q.ops.token) (f : TaskNo → Task → Claim → State) :
    s.withClaim p q f = f t k c := by
  obtain ⟨a, b, d, e, g⟩ := hl
  simp [State.withClaim, State.withTask, State.claimFor, ht, a, b, d, e, g]

/-- A lock request with a live token finds its claim and its lock. -/
theorem withClaimLock_of_live {s : State} {p : Port} {q : Request} {t : TaskNo} {k : Task} {c : Claim} {l : LockNo}
    (ht : taskOf q.ops.task = some t) (hl : s.liveClaim p t k c q.ops.token) (hk : lockOf q.ops.arg = some l)
    (hu : (s.lock l).state ≠ .unallocated) (f : TaskNo → Claim → LockNo → State) : s.withClaimLock p q f = f t c l := by
  obtain ⟨a, b, d, e, g⟩ := hl
  simp [State.withClaimLock, State.withTask, State.withLock, State.claimFor, ht, hk, hu, a, b, d, e, g]

/-! ### What holds after a request that finds its objects or is refused -/

section Induction

variable {P : State → Prop} {s : State} {p : Port} {q : Request}

/-- A property that the refusals have, and the rest has for the task found. -/
theorem withTask_ind {f : TaskNo → Task → State} (hr : ∀ st, P (s.refuse p q st))
    (hf : ∀ t k, taskOf q.ops.task = some t → s.task t = some k → P (f t k)) : P (s.withTask p q f) := by
  simp only [State.withTask]
  split
  · exact hr _
  · next ht =>
    split
    · exact hr _
    · next hk => exact hf _ _ ht hk

/-- The same for the claim found. -/
theorem withClaim_ind {f : TaskNo → Task → Claim → State} (hr : ∀ st, P (s.refuse p q st))
    (hf : ∀ t k c, taskOf q.ops.task = some t → s.liveClaim p t k c q.ops.token → P (f t k c)) :
    P (s.withClaim p q f) := by
  refine withTask_ind hr fun t _ ht _ => ?_
  split
  · exact hr _
  · next h => exact hf _ _ _ ht (claimFor_spec h)

/-- The same for the lock found. -/
theorem withLock_ind {f : LockNo → State} (hr : ∀ st, P (s.refuse p q st))
    (hf : ∀ l, (s.lock l).state ≠ .unallocated → P (f l)) : P (s.withLock p q f) := by
  simp only [State.withLock]
  split
  · exact hr _
  · split
    · exact hr _
    · next h => exact hf _ h

/-- The same for the claim and the lock found. -/
theorem withClaimLock_ind {f : TaskNo → Claim → LockNo → State} (hr : ∀ st, P (s.refuse p q st))
    (hf : ∀ t k c l, s.liveClaim p t k c q.ops.token → (s.lock l).state ≠ .unallocated → P (f t c l)) :
    P (s.withClaimLock p q f) := by
  refine withTask_ind hr fun t _ _ _ => withLock_ind hr fun l hl => ?_
  split
  · exact hr _
  · next h => exact hf _ _ _ _ (claimFor_spec h) hl

/-- TAKE and TAKE-WAIT: an answer with the FREE lock taken or over the lock pool as it stands, or the case left to each,
of a lock that is not FREE and that neither the claim nor a frame of its task holds. -/
theorem takeLock_ind {t : TaskNo} {c : Claim} {l : LockNo} {e : State}
    (ha : ∀ x, (s.lock l).state = .free →
      P ((s.setLock l ((s.lock l).takenBy (.claim t c.token))).answerClaim p t x))
    (hs : ∀ x, P (s.answerClaim p t x))
    (he : (s.lock l).state ≠ .free →
      (∀ y ∈ (s.lock l).holder, y ≠ .claim t c.token ∧ ∀ i, y ≠ .frame t i) → P e) : P (s.takeLock p q t c l e) := by
  simp only [State.takeLock]
  split
  · next hf => exact ha _ hf
  · next hf =>
    split
    · exact hs _
    · next hc =>
      split
      · next t' i hh =>
        split
        · exact hs _
        · next ht =>
          refine he hf fun y hy => ?_
          obtain rfl := Option.mem_some.1 (hh ▸ hy)
          exact ⟨by simp, fun _ g => ht (Holder.frame.inj g).1⟩
      · next hh =>
        refine he hf fun y hy => ?_
        obtain rfl := Option.mem_some.1 (hh ▸ hy)
        exact ⟨fun g => hc (hh.trans (congrArg some g)), by simp⟩
      · next hh => exact he hf fun y hy => by simp [hh] at hy

end Induction

end Sys2Proof.Laws
end

