-- ==== Sys2Proof/Laws/KeepsRequests.lean ====
section
/-! SUPPORT. `Keeps` for the requests a port takes, for the transfers and for every other command: each keeps every
record's agreement with itself. -/

namespace Sys2Proof.Laws

open Sys2Proof Sys2Proof.Machine

/-! ### The requests of a port engine -/

theorem openSession_ok (r : PortRecord) (h : r.Ok) : r.openSession.Ok := by
  obtain ⟨h1, h2, h3, h4, h5, h6, h7, h8, h9⟩ := h
  refine ⟨h1, h2, h3, ?_, ?_, ?_, ?_, rfl, h9⟩ <;> simp [PortRecord.openSession, PortRecord.driveLine]

/-- GRANT-RIGHTS keeps a port with the GRANT right. -/
theorem keeps_withRights (s : State) (p : Port) (x : Rights) (h : (s.onPort p (·.withRights x)).someGrant = true) :
    Keeps s (s.onPort p (·.withRights x)) := by
  have grant : ∃ r, ((s.onPort p (·.withRights x)).port r).rights.grant = true := by
    simpa [State.someGrant] using h
  refine ⟨fun i => ⟨fun q => ?_, grant, i.tasks, i.locks, i.token, i.queue, i.memory⟩, rfl, rfl⟩
  simp only [State.onPort, port_setPort]
  split
  · exact i.ports p
  · exact i.ports q

theorem fetch_ok (r : PortRecord) (hn : r.notices ≠ []) (h : r.Ok) : r.fetch.Ok := by
  obtain ⟨h1, h2, h3, h4, h5, h6, h7, h8, h9⟩ := h
  have on : r.session = .online := by
    cases hs : r.session
    · exact absurd (h7 hs).1 hn
    · rfl
  have hl : 0 < r.notices.length := List.length_pos_iff.2 hn
  simp only [PortRecord.fetch]
  split
  · next e =>
    exact ⟨h1, h2, h3, by simp only [PortRecord.driveLine, List.length_tail]; omega, h5,
      by simp [PortRecord.driveLine, e], by simp [PortRecord.driveLine, on], rfl, h9⟩
  · exact ⟨h1, h2, h3,
      by simp only [PortRecord.driveLine, List.length_append, List.length_tail, List.length_singleton]; omega,
      by simp [PortRecord.driveLine], by simp [PortRecord.driveLine], by simp [PortRecord.driveLine, on], rfl, h9⟩

/-! ### The requests of the task table -/

theorem keeps_reserve (s : State) (t : TaskNo) (x : Params) (ps : List PageNo) : Keeps s (s.reserve t x ps) :=
  .foldl _ (fun s (a : PageNo × Nat) => keeps_setPage s a.1 _) _ _

theorem readParams_lease {b : List Byte} {x : Params} (h : readParams b = some x) : x.leasePeriod ≤ Config.leaseMax := by
  unfold readParams at h
  split at h
  · simp only at h
    split at h
    · next hh => obtain rfl := Option.some.inj h; exact hh.2.2.2.2.1
    · simp at h
  · simp at h

theorem keeps_releasePages (s : State) (ns : List PageNo) : Keeps s (s.releasePages ns) := by
  refine .foldl _ (fun s n => (keeps_onPage s n Page.release).trans ?_) _ _
  simp only [State.queueReleased]
  split
  · exact .refl _
  · next h =>
    split
    · exact .refl _
    · exact keeps_queue _ _ fun nd => List.nodup_append'.2 ⟨nd, by simp, by simpa using h⟩

theorem popToRest_ok (k : Task) (h : k.Ok) (hs : k.state = .faulted) : k.popToRest.Ok := by
  obtain ⟨h1, h2, h3, h4, h5, h6, h7⟩ := h
  have hc : k.claim = none := by
    cases hc : k.claim
    · rfl
    · have := h1.2 (by simp [hc]); simp [hs] at this
  have ho : k.op = none := by
    cases ho : k.op
    · rfl
    · have := h2 (by simp [ho]); simp [hc] at this
  simp only [Task.Ok, Task.popToRest, Task.restState, hc, ho]
  cases k.stack.dropLast <;> simp <;> exact h7

theorem keeps_loadLease (s : State) (t : TaskNo) : Keeps s (s.onTask t Task.loadLease) := keeps_onTask _ _ _ loadLease_ok

theorem keeps_answerClaim (s : State) (p : Port) (t : TaskNo) (x : Response) : Keeps s (s.answerClaim p t x) :=
  (keeps_loadLease ..).trans (keeps_respond ..)

/-! ### CLAIM -/

theorem startKindOf_spec (st : TaskState) (m : ResumeMode) (o : Option Origin) (f : Bool) :
    ((startKindOf st m o f).1 = .fresh → (startKindOf st m o f).2 = .primary)
      ∧ ((startKindOf st m o f).1 = .notified → (startKindOf st m o f).2 = .handler) := by
  cases st <;> cases m <;> cases f <;> (rcases o with _ | (_ | _)) <;> simp [startKindOf]

theorem tokenAfter_ne (n : Half) : tokenAfter n ≠ 0 := by
  simp only [tokenAfter]
  split
  · simp
  · bv_omega

theorem keeps_acceptClaim (s : State) (p : Port) (q : Request) (t : TaskNo) (k : Task) (hk : s.task t = some k)
    (hr : k.state ≠ .running) : Keeps s (s.acceptClaim p q t k) := by
  generalize hc : newClaim p s.nextToken (k.startFor q.ops.force).1 (k.startFor q.ops.force).2 = c
  have cok : s.RecordsOk → c.Ok := by
    intro i
    have := startKindOf_spec k.state k.resumeMode (k.top.map (·.2.origin)) q.ops.force
    rw [← hc]
    exact ⟨i.token, by simp [newClaim], by simp [newClaim], by simp [newClaim], this.1, this.2⟩
  have claimed : s.RecordsOk → (k.claimed c).Ok := by
    intro i
    obtain ⟨h1, h2, h3, h4, h5, h6, h7⟩ := i.tasks t k hk
    have ho : k.op = none := by
      cases ho : k.op
      · rfl
      · exact absurd (h1.2 (h2 (by simp [ho]))) hr
    refine ⟨by simp [Task.claimed], by simp [Task.claimed], by simp [Task.claimed], by simp [Task.claimed], ?_,
      by simp [Task.claimed, ho], h7⟩
    intro c' hc'
    obtain rfl := Option.mem_some.1 hc'
    exact cok i
  have tok : ∀ u : State, Keeps u { u with nextToken := tokenAfter s.nextToken } :=
    fun u => ⟨fun i => ⟨i.ports, i.grant, i.tasks, i.locks, tokenAfter_ne _, i.queue, i.memory⟩, rfl, rfl⟩
  simp only [State.acceptClaim, hc]
  split
  · next slot f he htop =>
    refine (Keeps.trans (keeps_someRecord s t _ claimed) (tok _)).trans
      (keeps_reachDelivery _ _ _ _ _ _ _ _ fun i => ⟨i.tasks t _ (by simp [State.task, State.setTask]), rfl, ?_, ?_⟩)
    · rw [← hc]; simp [newClaim, he]
    · intro hs
      have hs : k.stack = [] := hs
      simp [Task.top, hs] at htop
  · exact (Keeps.trans (keeps_someRecord s t _ fun i => loadLease_ok _ (claimed i)) (tok _)).trans (keeps_respond ..)

/-! ### Requests -/

section Requests

variable {s : State} {p : Port} {q : Request}

theorem keeps_takeFetchNotice : Keeps s (takeFetchNotice p q s) := by
  simp only [takeFetchNotice]
  split
  · exact keeps_respond ..
  · next e =>
    refine (keeps_setPort s p (s.port p).fetch (fetch_ok _ (by simp [e])) ?_).trans (keeps_respond ..)
    simp only [PortRecord.fetch]
    split <;> exact id

theorem keeps_takeDefine : Keeps s (takeDefine p q s) := by
  simp only [takeDefine]
  split
  · exact keeps_refuse ..
  · exact keeps_refuse ..
  · next x t hx _ =>
    split
    · exact keeps_respond ..
    · refine ((keeps_reserve ..).trans (keeps_someRecord _ _ _ fun i => ?_)).trans (keeps_respond ..)
      have := readParams_lease (Option.filter_eq_some_iff.1 hx).1
      simp [Task.Ok, Params.newTask, this]

theorem keeps_takeRetune : Keeps s (takeRetune p q s) := by
  simp only [takeRetune]
  split
  · exact keeps_refuse ..
  · next x hx =>
    refine withTask_ind (keeps_refuse s p q) fun t k _ hk => ?_
    split
    · exact keeps_refuse ..
    · refine (keeps_someRecord _ _ _ fun i => ?_).trans (keeps_respond ..)
      obtain ⟨h1, h2, h3, h4, h5, h6, _⟩ := i.tasks t k hk
      exact ⟨h1, h2, h3, h4, h5, h6, readParams_lease (Option.filter_eq_some_iff.1 hx).1⟩

theorem keeps_takeSalvage : Keeps s (takeSalvage p q s) := by
  refine withTask_ind (keeps_refuse s p q) fun t k _ hk => ?_
  split
  · next slot f hst _ =>
    refine ((((keeps_giveUpAll s f.carried).trans (keeps_emptySlot _ t slot)).trans ?_).trans (keeps_postAll ..)).trans
      (keeps_respond ..)
    have ht : (((s.giveUpAll f.carried).emptySlot t slot).task t) = some (k.withSlot slot ⟨.empty, none⟩) := by
      simp [emptySlot_task, hk]
    simp only [State.onTask, ht, Option.map_some]
    exact keeps_someRecord _ _ _ fun i => popToRest_ok _ (i.tasks t _ ht) hst
  · exact keeps_refuse ..

theorem keeps_takeClaim : Keeps s (takeClaim p q s) := by
  refine withTask_ind (keeps_refuse s p q) fun t k _ hk => ?_
  split
  · exact keeps_refuse ..
  · next h =>
    refine keeps_acceptClaim _ _ _ _ _ hk fun hr => ?_
    simp only [Task.claimRefusal, hr] at h
    split at h <;> simp at h

theorem keeps_takeRelease : Keeps s (takeRelease p q s) :=
  withClaim_ind (keeps_refuse s p q) fun _ _ _ _ _ =>
    (((((keeps_withdraw ..).trans (keeps_giveUpAll ..)).trans (keeps_dropRetained ..)).trans
      (keeps_onTask _ _ _ endClaim_ok)).trans (keeps_postAll ..)).trans (keeps_respond ..)

theorem keeps_takeSuspend : Keeps s (takeSuspend p q s) := by
  refine withClaim_ind (keeps_refuse s p q) fun t k c _ hl => ?_
  obtain ⟨hk, _, hc, _, _⟩ := hl
  split
  · exact keeps_answerClaim ..
  · refine ((keeps_withdraw ..).trans (keeps_someRecord _ _ _ fun i => ?_)).trans (keeps_withdrawPages ..)
    have := stopLease_ok _ (withSlot_ok k k.emptySlot ⟨.filling, none⟩ (i.tasks t k (by simp [hk])))
    exact setOp_ok _ this _ (by simp [Op.kind]) (by simp [Task.stopLease, Task.withSlot, hc])

theorem keeps_takeEvict : Keeps s (takeEvict p q s) := by
  refine withTask_ind (keeps_refuse s p q) fun t k _ _ => ?_
  split
  · exact (keeps_abnormalEnd ..).trans (keeps_respond ..)
  · exact keeps_refuse ..

theorem keeps_takePeekFrame : Keeps s (takePeekFrame p q s) := by
  refine withClaim_ind (keeps_refuse s p q) fun t k c _ hl => ?_
  obtain ⟨hk, _, hc, _, _⟩ := hl
  split
  · exact keeps_answerClaim ..
  · split
    · exact keeps_answerClaim ..
    · exact (keeps_someRecord _ _ _ fun i => stopLease_ok _ (i.tasks t k (by simp [hk]))).trans
        (keeps_reachPeek _ _ _ _ _ _ _ _ _ fun i => ⟨i.tasks t _ (by simp), by simp [Task.stopLease, hc]⟩)

/-- A data transfer's start. -/
theorem keeps_startData {t : TaskNo} {k : Task} {c : Claim} {tok : Half} (hl : s.liveClaim p t k c tok) (o : Op)
    (ho : o.kind ≠ .delivery) : Keeps s (s.setTask t (some { k.stopLease with op := some o })) := by
  obtain ⟨hk, _, hc, _, _⟩ := hl
  exact keeps_someRecord _ _ _ fun i =>
    setOp_ok _ (stopLease_ok _ (i.tasks t k (by simp [hk]))) _ ho (by simp [Task.stopLease, hc])

theorem keeps_takeTakeWait : Keeps s (takeTakeWait p q s) := by
  refine withClaimLock_ind (keeps_refuse s p q) fun t k c l _ hl =>
    takeLock_ind (fun _ _ => ?_) (fun _ => keeps_answerClaim ..) fun hf _ => ?_
  · exact (keeps_setLock _ _ _ fun _ => by simp [Lock.Ok, Lock.takenBy]).trans (keeps_answerClaim ..)
  · split
    · exact keeps_answerClaim ..
    · split
      · exact keeps_answerClaim ..
      · next hw =>
        refine (keeps_setLock _ _ _ fun ok => ?_).trans (keeps_answerClaim ..)
        revert ok
        simp only [Lock.Ok]
        cases hs : (s.lock l).state
        · exact absurd hs hl
        · exact absurd hs hf
        · simp only [Config.waiterMax, ge_iff_le, Nat.not_le] at hw
          simp only [List.length_append, List.length_singleton]
          exact fun h => ⟨h.1, by omega⟩

/-- Every request that has passed steps 2 to 4. -/
theorem keeps_carryOut (c : RequestCode) : Keeps s (carryOut p q s c) := by
  cases c <;> simp only [carryOut]
  case hello =>
    simp only [takeHello]
    refine .trans ?_ (keeps_respond ..)
    split
    · exact .refl s
    · exact keeps_onPort _ _ _ openSession_ok fun _ => rfl
  case goodbye => exact keeps_respond ..
  case grantRights =>
    simp only [takeGrantRights]
    split
    · next h => exact (keeps_withRights s _ _ h).trans (keeps_respond ..)
    · exact keeps_refuse ..
  case fetchNotice => exact keeps_takeFetchNotice
  case define => exact keeps_takeDefine
  case discard =>
    refine withTask_ind (keeps_refuse s p q) fun t k _ hk => ?_
    split
    · exact keeps_refuse ..
    · exact (((keeps_giveUpAll ..).trans (keeps_releasePages ..)).trans
        (keeps_setTask _ t none fun _ => by simp)).trans (keeps_respond ..)
  case retune => exact keeps_takeRetune
  case queryTask => exact withTask_ind (keeps_refuse s p q) fun _ _ _ _ => keeps_respond ..
  case salvage => exact keeps_takeSalvage
  case claim => exact keeps_takeClaim
  case release => exact keeps_takeRelease
  case suspend => exact keeps_takeSuspend
  case renew => exact withClaim_ind (keeps_refuse s p q) fun _ _ _ _ _ => (keeps_loadLease ..).trans (keeps_respond ..)
  case evict => exact keeps_takeEvict
  case peekFrame => exact keeps_takePeekFrame
  case dataRead =>
    refine withClaim_ind (keeps_refuse s p q) fun t k c _ hl => ?_
    dsimp only
    split
    · exact keeps_answerClaim ..
    · split
      · exact keeps_answerClaim ..
      · exact keeps_startData hl _ (by simp [Op.kind])
  case dataWrite =>
    refine withClaim_ind (keeps_refuse s p q) fun t k c _ hl => ?_
    dsimp only
    split
    · exact keeps_answerClaim ..
    · split
      · exact keeps_answerClaim ..
      · exact keeps_startData hl _ (by simp [Op.kind])
  case lockNew =>
    simp only [takeLockNew]
    split
    · exact keeps_refuse ..
    · exact (keeps_setLock _ _ _ fun _ => by simp [Lock.Ok]).trans (keeps_respond ..)
  case lockReturn =>
    refine withLock_ind (keeps_refuse s p q) fun l _ => ?_
    split
    · exact keeps_refuse ..
    · exact (keeps_setLock _ _ _ fun _ => by simp [Lock.Ok, Lock.unallocated]).trans (keeps_respond ..)
  case take =>
    exact withClaimLock_ind (keeps_refuse s p q) fun _ _ _ _ _ _ =>
      takeLock_ind (fun _ _ => (keeps_setLock _ _ _ fun _ => by simp [Lock.Ok, Lock.takenBy]).trans
        (keeps_answerClaim ..)) (fun _ => keeps_answerClaim ..) fun _ _ => keeps_answerClaim ..
  case takeWait => exact keeps_takeTakeWait
  case withdraw =>
    refine withClaim_ind (keeps_refuse s p q) fun t k c _ _ => ?_
    split
    · exact keeps_answerClaim ..
    · exact (keeps_withdraw ..).trans (keeps_answerClaim ..)
  case give =>
    refine withClaimLock_ind (keeps_refuse s p q) fun t k c l _ _ => ?_
    split
    · exact (keeps_giveUp ..).trans (keeps_answerClaim ..)
    · exact keeps_answerClaim ..
  case queryLock => exact withLock_ind (keeps_refuse s p q) fun _ _ => keeps_respond ..
  case queryMemory => exact keeps_respond ..

theorem keeps_takeRequest : Keeps s (takeRequest p q s) := by
  simp only [takeRequest]
  repeat' split
  all_goals first | exact keeps_refuse .. | exact keeps_carryOut _

theorem queueRequest_ok (r : PortRecord) (q : Request) (hl : r.requests.length < 4) (hh : r.held = false) (h : r.Ok) :
    (r.queueRequest q).Ok := by
  obtain ⟨h1, h2, h3, h4, h5, h6, h7, h8, h9⟩ := h
  exact ⟨by simp only [PortRecord.queueRequest, List.length_append, List.length_singleton]; omega, h2, h3, h4, h5, h6, h7,
    h8, by simp [PortRecord.queueRequest, hh]⟩

theorem keeps_addLinkAnswer (s : State) (p : Port) (a : LinkAnswer) (hd : s.deaf p = false) :
    Keeps s (s.onPort p (·.addLinkAnswer a)) := by
  simp only [State.deaf, Bool.or_eq_false_iff] at hd
  refine keeps_setPort _ _ _ ?_ ?_
  · rintro ⟨h1, h2, h3, h4, h5, h6, h7, h8, h9⟩
    simp only [PortRecord.addLinkAnswer]
    split
    · next hl =>
      refine startSending_ok _ ⟨h1, ?_, h3, h4, h5, h6, h7, h8, by simp [hd.2]⟩
      simp only [Config.linkAnswerMax, List.length_append, List.length_singleton] at hl ⊢
      omega
    · exact ⟨h1, h2, by simp [Config.countMax], h4, h5, h6, h7, h8, by simp [hd.2]⟩
  · simp only [PortRecord.addLinkAnswer]
    split
    · rw [startSending_rights]; exact id
    · exact id

theorem keeps_arrive : Keeps s (arrive p q s) := by
  simp only [arrive]
  split
  · exact .refl s
  · next hd =>
    have hd' : s.deaf p = false := by simpa using hd
    have hh : (s.port p).held = false := by
      simp only [State.deaf, Bool.or_eq_false_iff] at hd'; exact hd'.2
    split
    · next hl =>
      have : Keeps s (s.onPort p (·.queueRequest q)) :=
        keeps_setPort _ _ _ (queueRequest_ok _ _ (by simpa [Config.requestQueueMax] using hl) hh) id
      split
      · exact this.trans keeps_takeRequest
      · exact this
    · exact keeps_addLinkAnswer _ _ _ hd'

end Requests

end Sys2Proof.Laws
end

