-- ==== Sys2Proof/Laws/KeepsCommands.lean ====
section
/-! SUPPORT. `Keeps` for the transfers, the link, the timers and the resets: so every command keeps every record's
agreement with itself. -/

namespace Sys2Proof.Laws

open Sys2Proof Sys2Proof.Machine

/-! ### Transfers -/

section Transfers

variable {s u : State}

/-- The task record of a transfer's operation is sound, and so is its claim. -/
theorem op_ok {v : State} {p : Port} {t : TaskNo} {k : Task} {c : Claim} {o : Op} (ho : s.opOf p = some (t, k, c, o))
    (hv : v.task t = s.task t) (i : v.RecordsOk) : k.Ok ∧ k.claim = some c ∧ k.op = some o := by
  obtain ⟨hk, hc, hop, _⟩ := opOf_spec ho
  exact ⟨i.tasks t k (hv.trans hk), hc, hop⟩

theorem keeps_deliveryPart (e : ReadOutcome) (hu : execDeliveryPartTransfer e s = .next u) : Keeps s u := by
  simp only [execDeliveryPartTransfer, Host.Outcome.next.injEq] at hu
  subst hu
  split
  · split
    · next t k c slot next b ho =>
      have ok : s.freePath.RecordsOk → k.Ok ∧ k.claim = some c ∧ c.phase = .opening ∧ k.stack ≠ [] := fun i => by
        obtain ⟨h1, h2, h3⟩ := op_ok (v := s.freePath) ho rfl i
        obtain ⟨h4, h5⟩ := h1.2.2.2.2.2.1 (by simp [h3, Op.kind])
        exact ⟨h1, h2, by simpa [h2] using h5, h4⟩
      split
      · split
        · exact (keeps_freePath s).trans (keeps_damageInDelivery _ _ _ _ _ _ fun i => ⟨(ok i).1, (ok i).2.2.2⟩)
        · exact (keeps_freePath s).trans (keeps_reachDelivery _ _ _ _ _ _ _ _ ok)
      · exact .refl s
    · exact .refl s
  · exact .refl s

theorem keeps_peekPart (e : ReadOutcome) (hu : execPeekPartTransfer e s = .next u) : Keeps s u := by
  simp only [execPeekPartTransfer, Host.Outcome.next.injEq] at hu
  subst hu
  split
  · split
    · next ho =>
      have ok := fun i => op_ok (v := s.freePath) ho rfl i
      split
      · split
        · exact (keeps_freePath s).trans (keeps_damageInRead _ _ _ _ _ _ fun i => (ok i).1)
        · exact (keeps_freePath s).trans
            (keeps_reachPeek _ _ _ _ _ _ _ _ _ fun i => ⟨(ok i).1, by simp [(ok i).2.1]⟩)
      · exact .refl s
    · exact .refl s
  · exact .refl s

theorem keeps_fillPage (hu : execFillPageWrite s = .next u) : Keeps s u := by
  simp only [execFillPageWrite, Host.Outcome.next.injEq] at hu
  subst hu
  split
  · split
    · next t k c slot next w b x ho =>
      split
      · next n _ =>
        have pre : Keeps s ((s.freePath.writePage n 0 Config.pageBytes (framePart b next)).onPage n Page.clearPoison) :=
          ((keeps_freePath s).trans (keeps_writePage _ _ _ _ _ (.inr (by simp)))).trans (keeps_onPage ..)
        have ok := fun i => op_ok
          (v := (s.freePath.writePage n 0 Config.pageBytes (framePart b next)).onPage n Page.clearPoison) ho rfl i
        split
        · exact pre.trans (keeps_someRecord _ _ _ fun i =>
            setOp_ok _ (ok i).1 _ (by simp [Op.kind]) (by simp [(ok i).2.1]))
        · exact pre.trans (keeps_completeFill _ _ _ _ _ _ _ _ fun i =>
            ⟨clearOp_ok _ (ok i).1, by simp [(ok i).2.1], rfl⟩)
      · exact .refl s
    · exact .refl s
  · exact .refl s

theorem keeps_dataReadPart (e : ReadOutcome) (hu : execDataReadPartTransfer e s = .next u) : Keeps s u := by
  simp only [execDataReadPartTransfer, Host.Outcome.next.injEq] at hu
  subst hu
  split
  · split
    · next ho =>
      have ok := fun i => op_ok (v := s.freePath) ho rfl i
      split
      · split
        · exact (keeps_freePath s).trans (keeps_damageInRead _ _ _ _ _ _ fun i => (ok i).1)
        · split
          · exact (keeps_freePath s).trans (keeps_someRecord _ _ _ fun i =>
              setOp_ok _ (ok i).1 _ (by simp [Op.kind]) (by simp [(ok i).2.1]))
          · exact (keeps_freePath s).trans (keeps_completeDataRead _ _ _ _ _ _ _ fun i => (ok i).1)
      · exact .refl s
    · exact .refl s
  · exact .refl s

theorem keeps_writeDataPart (s : State) (n : PageNo) (offset : Nat) (bytes : List Byte) (part : Nat) :
    Keeps s (s.writeDataPart n offset bytes part) := by
  simp only [State.writeDataPart]
  have h : Keeps s (s.writePage n (partFrom offset part - part * Config.pageBytes)
      (partTo offset bytes.length part - partFrom offset part) (writePart offset bytes part)) := by
    refine keeps_writePage _ _ _ _ _ ?_
    simp only [partTo, partFrom, Config.pageBytes]
    by_cases hz : min (offset + bytes.length) ((part + 1) * 1024) - max offset (part * 1024) = 0
    · left; simp [hz]
    · right; omega
  split
  · exact h.trans (keeps_onPage ..)
  · exact h

theorem keeps_dataWritePage (e : ReadOutcome) (hu : execDataWritePageTransfer e s = .next u) : Keeps s u := by
  simp only [execDataWritePageTransfer, Host.Outcome.next.injEq] at hu
  subst hu
  split
  · split
    · next t k c offset bytes next cleared ho =>
      split
      · next n _ =>
        split
        · exact (keeps_freePath s).trans (keeps_damageInRead _ _ _ _ _ _ fun i =>
            (op_ok (v := s.freePath) ho rfl i).1)
        · have ok := fun i => op_ok (v := s.freePath.writeDataPart n offset bytes next) ho
            (by simp only [State.writeDataPart]; split <;> rfl) i
          split
          · exact ((keeps_freePath s).trans (keeps_writeDataPart ..)).trans (keeps_someRecord _ _ _ fun i =>
              setOp_ok _ (ok i).1 _ (by simp [Op.kind]) (by simp [(ok i).2.1]))
          · exact ((keeps_freePath s).trans (keeps_writeDataPart ..)).trans
              (keeps_completeDataWrite _ _ _ _ _ _ _ fun i => (ok i).1)
      · exact .refl s
    · exact .refl s
  · exact .refl s

theorem keeps_scrubCompletion (hu : execScrubCompletion s = .next u) : Keeps s u := by
  simp only [execScrubCompletion, Host.Outcome.next.injEq] at hu
  subst hu
  split
  · next n _ _ =>
    have h := ((keeps_freePath s).trans (keeps_writePage _ n 0 Config.pageBytes [] (.inr (by simp)))).trans
      (keeps_onPage _ n (·.afterScrub (n ∈ s.scrubQueue)))
    exact ⟨fun i =>
      let j := h.records i; ⟨j.ports, j.grant, j.tasks, j.locks, j.token, j.queue, j.memory⟩, h.pending, h.frst⟩
  · exact .refl s

end Transfers

/-! ### The link, the timers and the resets -/

theorem tick_ok (k : Task) (h : k.Ok) : Task.Ok { k with claim := k.claim.map Claim.tick } := by
  obtain ⟨h1, h2, h3, h4, h5, h6, h7⟩ := h
  refine ⟨by simpa using h1, by simpa using h2, h3, h4, ?_, ?_, h7⟩
  · intro c hc
    obtain ⟨c0, hc0, rfl⟩ := Option.mem_map.1 hc
    obtain ⟨a, b, d, e, f, g⟩ := h5 c0 hc0
    simp only [Claim.tick]
    cases hl : c0.lease with
    | none => exact ⟨a, by simp [hl], d, e, f, g⟩
    | some n =>
      have hb := b n (by simp [hl])
      simp only
      split
      · exact ⟨a, by simp; omega, d, e, f, g⟩
      · exact ⟨a, by simp; omega, d, e, f, g⟩
  · intro ho
    obtain ⟨a, b⟩ := h6 ho
    have : ∀ c : Claim, c.tick.phase = c.phase := fun c => by
      simp only [Claim.tick]
      split
      · rfl
      · split <;> rfl
    exact ⟨a, by simpa [Option.map_map, Function.comp_def, this] using b⟩

theorem portRecord_reset_ok (x : Rights) : (PortRecord.reset x).Ok := by simp [PortRecord.reset, PortRecord.Ok]

/-- A full reset leaves sound records, over a memory in its canonical form. -/
theorem records_fullyReset (s : State) {m : Memory} (hm : m.wf) (b : Bool) : (s.fullyReset m b).RecordsOk := by
  have hp : ∀ p, (s.fullyReset m b).port p = { State.reset.port p with held := (s.port p).held } := by
    intro p; simp [State.port, State.fullyReset]
  have reset : ∀ p, State.reset.port p = .reset (State.reset.port p).rights := by decide
  refine ⟨fun p => ?_, ⟨0, ?_⟩, fun t k hk => ?_, fun l => ?_, ?_, ?_, hm⟩
  · rw [hp, reset]; simp [PortRecord.reset, PortRecord.Ok]
  · rw [hp]; exact (by decide +kernel : (State.reset.port 0).rights.grant = true)
  · simp [State.task, State.fullyReset, State.reset] at hk
  · have : (s.fullyReset m b).lock l = .unallocated := by simp [State.lock, State.fullyReset, State.reset]
    rw [this]; simp [Lock.Ok, Lock.unallocated]
  · simp [State.fullyReset, State.reset]
  · simp only [State.fullyReset, State.reset]; exact List.nodup_finRange _

/-- The reset state is what a full reset leaves of it. -/
theorem fullyReset_reset : State.reset.fullyReset [] false = State.reset := by
  have hp : (Vector.ofFn fun p => { State.reset.port p with held := (State.reset.port p).held }) = State.reset.ports := by
    decide +kernel
  simp only [State.fullyReset, hp]
  simp only [State.reset]

theorem keeps_responseSent {s u : State} (p : Port) (hu : execResponseSent p s = .next u) : Keeps s u := by
  simp only [execResponseSent, Host.Outcome.next.injEq] at hu
  subst hu
  have start : ∀ v : State, Keeps v (v.onPort p PortRecord.startSending) := fun v =>
    keeps_onPort _ _ _ startSending_ok startSending_rights
  split
  · exact .refl s
  · exact keeps_onPort _ _ _ (fun r h => startSending_ok { r with sending := none } h) fun r => startSending_rights _
  · have drop : Keeps s (s.onPort p PortRecord.dropHead) := by
      refine keeps_onPort _ _ _ ?_ fun _ => rfl
      rintro r ⟨h1, h2, h3, h4, h5, h6, h7, h8, h9⟩
      refine ⟨by simp only [PortRecord.dropHead, List.length_tail]; omega, h2, h3, h4, h5, h6, h7, h8, fun hh => ?_⟩
      have := h9 hh
      simp [PortRecord.dropHead, this]
    have take : ∀ v : State, Keeps v (v.takeNext p) := fun v => by
      simp only [State.takeNext]
      split
      · exact .refl _
      · exact keeps_takeRequest
    refine Keeps.trans (Keeps.trans ?_ (take _)) (start _)
    split
    · exact drop.trans (keeps_teardown ..)
    · exact drop

/-- Every command keeps every record's agreement with itself. -/
theorem records_exec {s u : State} (h : s.RecordsOk) (i : Instr) (hu : exec i s = .next u) : u.RecordsOk := by
  cases hr : i.request with
  | some x =>
    rw [exec_request s hr, Host.Outcome.next.injEq] at hu
    subst hu
    exact keeps_arrive.records h
  | none =>
    cases i <;> simp only [Instr.request, reduceCtorEq] at hr <;> simp only [exec] at hu
    case responseSent p => exact (keeps_responseSent p hu).records h
    case deliveryPartTransfer e => exact (keeps_deliveryPart e hu).records h
    case fillPageWrite => exact (keeps_fillPage hu).records h
    case peekPartTransfer e => exact (keeps_peekPart e hu).records h
    case dataReadPartTransfer e => exact (keeps_dataReadPart e hu).records h
    case dataWritePageTransfer e => exact (keeps_dataWritePage e hu).records h
    case scrubCompletion => exact (keeps_scrubCompletion hu).records h
    all_goals simp only [execMessageEnd, execArbiterGrant, execLeaseExpiry, execPortReset, execPortResetRelease,
      execFullReset, execFullResetRelease, execLeaseTimerMillisecond, execScrubberTakePage,
      Host.Outcome.next.injEq] at hu
    all_goals subst hu
    case messageEnd p m =>
      split
      · exact keeps_arrive.records h
      · split
        · exact h
        · next hd => exact (keeps_addLinkAnswer _ _ _ (by simpa using hd)).records h
    case arbiterGrant =>
      split
      · exact h
      · split
        · exact h
        · exact ⟨h.ports, h.grant, h.tasks, h.locks, h.token, h.queue, h.memory⟩
    case scrubberTakePage =>
      split
      · exact h
      · split
        · exact h
        · next e =>
          exact ⟨h.ports, h.grant, h.tasks, h.locks, h.token, (List.nodup_cons.1 (e ▸ h.queue)).2, h.memory⟩
    case leaseExpiry t =>
      split
      · exact (keeps_abnormalEnd ..).records h
      · exact h
    case portReset p => exact ((keeps_cutOff s p).trans (keeps_teardown ..)).records h
    case portResetRelease p =>
      split
      · exact (keeps_onPort s p PortRecord.restart (fun r _ => portRecord_reset_ok _) fun _ => rfl).records h
      · exact h
    case fullReset c =>
      refine records_fullyReset _ ?_ _
      cases c
      · exact h.memory
      · exact ⟨by simp, by simp⟩
    case fullResetRelease =>
      split
      · exact records_fullyReset _ h.memory _
      · exact h
    case leaseTimerMillisecond =>
      exact (Keeps.foldl _ (fun s t => keeps_onTask s t _ tick_ok) _ _).records h

end Sys2Proof.Laws
end

