-- ==== Sys2Proof/Laws/Slots.lean ====
section
/-! SUPPORT. The slots against the stack, the claim and the operation (`Task.SlotsOk`): what each operation that writes a
task's record does to their agreement. -/

namespace Sys2Proof.Laws

open Sys2Proof Sys2Proof.Machine

/-! ### A slot table against a stack, a retained slot and a fill -/

/-- A slot table agrees with a stack, a retained slot and the slot of a fill. -/
structure Fits (slots : List Slot) (stack : List Nat) (ret fil : Option Nat) : Prop where
  once     : stack.Nodup
  filled   : ∀ i, (slots[i]?).map (·.status) = some .filled ↔ i ∈ stack
  retained : ∀ i, (slots[i]?).map (·.status) = some .retained ↔ ret = some i
  filling  : ∀ i, (slots[i]?).map (·.status) = some .filling ↔ fil = some i
  frames   : ∀ i : Nat, ((slots[i]?).bind (·.frame)).isSome = true ↔
    (slots[i]?).map (·.status) = some .filled ∨ (slots[i]?).map (·.status) = some .retained

theorem Fits.bound {slots : List Slot} {stack : List Nat} {ret fil : Option Nat} (h : Fits slots stack ret fil)
    {i : Nat} (hi : i ∈ stack ∨ ret = some i ∨ fil = some i) : i < slots.length := by
  refine Nat.lt_of_not_le fun hn => ?_
  have e : slots[i]? = none := List.getElem?_eq_none hn
  rcases hi with hi | hi | hi
  · simpa [e] using (h.filled i).2 hi
  · simpa [e] using (h.retained i).2 hi
  · simpa [e] using (h.filling i).2 hi

/-- One slot given a new status, and the stack, the retained slot and the fill following it. -/
theorem Fits.set {slots : List Slot} {stack : List Nat} {ret fil : Option Nat} (h : Fits slots stack ret fil)
    {i : Nat} {x : Slot} (hi : i < slots.length) {stack' : List Nat} {ret' fil' : Option Nat} (nd : stack'.Nodup)
    (h1 : ∀ j, j ≠ i → (j ∈ stack' ↔ j ∈ stack) ∧ (ret' = some j ↔ ret = some j) ∧ (fil' = some j ↔ fil = some j))
    (h2 : x.status = .filled ↔ i ∈ stack') (h3 : x.status = .retained ↔ ret' = some i)
    (h4 : x.status = .filling ↔ fil' = some i)
    (h5 : x.frame.isSome = true ↔ x.status = .filled ∨ x.status = .retained) :
    Fits (slots.set i x) stack' ret' fil' := by
  refine ⟨nd, fun j => ?_, fun j => ?_, fun j => ?_, fun j => ?_⟩ <;> rw [List.getElem?_set] <;> by_cases e : i = j
  · subst e; simpa [hi] using h2
  · rw [if_neg e]; exact (h.filled j).trans (h1 j (Ne.symm e)).1.symm
  · subst e; simpa [hi] using h3
  · rw [if_neg e]; exact (h.retained j).trans (h1 j (Ne.symm e)).2.1.symm
  · subst e; simpa [hi] using h4
  · rw [if_neg e]; exact (h.filling j).trans (h1 j (Ne.symm e)).2.2.symm
  · subst e; simpa [hi] using h5
  · rw [if_neg e]; exact h.frames j

/-- An EMPTY slot, as every operation writes it. -/
abbrev emptied : Slot := { status := .empty, frame := none }

/-- An aborted fill's slot empties. -/
theorem Fits.dropFill {slots : List Slot} {stack : List Nat} {ret : Option Nat} {i : Nat}
    (h : Fits slots stack ret (some i)) : Fits (slots.set i emptied) stack ret none := by
  have hs := (h.filling i).2 rfl
  refine h.set (h.bound (.inr (.inr rfl))) h.once (fun j hj => ?_) ?_ ?_ ?_ ?_
  · simp [Ne.symm hj]
  · simpa [hs] using h.filled i
  · simpa [hs] using h.retained i
  · simp
  · simp

/-- A retained slot empties. -/
theorem Fits.dropRetained {slots : List Slot} {stack : List Nat} {fil : Option Nat} {i : Nat}
    (h : Fits slots stack (some i) fil) : Fits (slots.set i emptied) stack none fil := by
  have hs := (h.retained i).2 rfl
  refine h.set (h.bound (.inr (.inl rfl))) h.once (fun j hj => ?_) ?_ ?_ ?_ ?_
  · simp [Ne.symm hj]
  · simpa [hs] using h.filled i
  · simp
  · simpa [hs] using h.filling i
  · simp

/-- The top of the stack empties. -/
theorem Fits.dropTop {slots : List Slot} {below : List Nat} {ret fil : Option Nat} {i : Nat}
    (h : Fits slots (below ++ [i]) ret fil) : Fits (slots.set i emptied) below ret fil := by
  have hs := (h.filled i).2 (by simp)
  obtain ⟨n1, n2, n3⟩ := List.nodup_append'.1 h.once
  refine h.set (h.bound (.inl (by simp))) n1 (fun j hj => ?_) ?_ ?_ ?_ ?_
  · simp [hj]
  · have : i ∉ below := fun hb => n3 hb (by simp)
    simp [this]
  · simpa [hs] using h.retained i
  · simpa [hs] using h.filling i
  · simp

/-- A fill starts in an EMPTY slot. -/
theorem Fits.startFill {slots : List Slot} {stack : List Nat} {ret : Option Nat} {i : Nat}
    (h : Fits slots stack ret none) (hs : (slots[i]?).map (·.status) = some .empty) :
    Fits (slots.set i { status := .filling, frame := none }) stack ret (some i) := by
  have hi : i < slots.length := Nat.lt_of_not_le fun hn => by simp [List.getElem?_eq_none hn] at hs
  refine h.set hi h.once (fun j hj => ?_) ?_ ?_ ?_ ?_
  · simp [Ne.symm hj]
  · simpa [hs] using h.filled i
  · simpa [hs] using h.retained i
  · simp
  · simp

/-- A fill's slot is FILLED on top of the stack. -/
theorem Fits.pushFill {slots : List Slot} {stack : List Nat} {ret : Option Nat} {i : Nat} (f : FrameRecord)
    (h : Fits slots stack ret (some i)) :
    Fits (slots.set i { status := .filled, frame := some f }) (stack ++ [i]) ret none := by
  have hs := (h.filling i).2 rfl
  have hn : i ∉ stack := fun hm => by simpa [hs] using (h.filled i).2 hm
  refine h.set (h.bound (.inr (.inr rfl))) (List.nodup_append'.2 ⟨h.once, by simp, by simpa using hn⟩)
    (fun j hj => ?_) ?_ ?_ ?_ ?_
  · simp [hj, Ne.symm hj]
  · simp
  · simpa [hs] using h.retained i
  · simp
  · simp

/-- A retained slot is FILLED on top of the stack again. -/
theorem Fits.reinstate {slots : List Slot} {stack : List Nat} {fil : Option Nat} {i : Nat} (f : FrameRecord)
    (h : Fits slots stack (some i) fil) :
    Fits (slots.set i { status := .filled, frame := some f }) (stack ++ [i]) none fil := by
  have hs := (h.retained i).2 rfl
  have hn : i ∉ stack := fun hm => by simpa [hs] using (h.filled i).2 hm
  refine h.set (h.bound (.inr (.inl rfl))) (List.nodup_append'.2 ⟨h.once, by simp, by simpa using hn⟩)
    (fun j hj => ?_) ?_ ?_ ?_ ?_
  · simp [hj, Ne.symm hj]
  · simp
  · simp
  · simpa [hs] using h.filling i
  · simp

/-- The top of the stack becomes the retained slot. -/
theorem Fits.retain {slots : List Slot} {below : List Nat} {fil : Option Nat} {i : Nat} (f : FrameRecord)
    (h : Fits slots (below ++ [i]) none fil) :
    Fits (slots.set i { status := .retained, frame := some f }) below (some i) fil := by
  have hs := (h.filled i).2 (by simp)
  obtain ⟨n1, n2, n3⟩ := List.nodup_append'.1 h.once
  refine h.set (h.bound (.inl (by simp))) n1 (fun j hj => ?_) ?_ ?_ ?_ ?_
  · simp [hj, Ne.symm hj]
  · have : i ∉ below := fun hb => n3 hb (by simp)
    simp [this]
  · simp
  · simpa [hs] using h.filling i
  · simp

/-- With room on the stack and no fill in flight some slot is EMPTY (R36). -/
theorem Fits.exists_empty {slots : List Slot} {stack : List Nat} {ret : Option Nat} (h : Fits slots stack ret none)
    (hl : stack.length + 1 < slots.length) : ∃ i : Nat, (slots[i]?).map (·.status) = some .empty := by
  refine Classical.byContradiction fun hn => ?_
  have sub : List.range slots.length ⊆ ret.toList ++ stack := by
    intro i hi
    have hi := List.mem_range.1 hi
    have hs : (slots[i]?).map (·.status) ≠ some .empty := fun e => hn ⟨i, e⟩
    rw [List.mem_append]
    have h1 := h.filled i
    have h2 := h.retained i
    have h3 := h.filling i
    simp only [List.getElem?_eq_getElem hi, Option.map_some] at hs h1 h2 h3
    revert hs h1 h2 h3
    cases (slots[i]).status <;> simp +contextual
  have := (List.subperm_of_subset List.nodup_range sub).length_le
  simp only [List.length_range, List.length_append] at this
  cases ret <;> simp at this <;> omega

/-! ### Task records -/

theorem SlotsOk.fits {k : Task} (h : k.SlotsOk) :
    Fits k.slots k.stack (k.claim.bind (·.retained)) (k.op.bind Op.fillSlot) :=
  ⟨h.once, h.filled, h.retained, h.filling, h.frames⟩

/-- A record whose slot table, stack, phase, retained slot, fill and delivery are as in a sound one. -/
theorem SlotsOk.congr {k k' : Task} (h : k.SlotsOk) (h0 : k.LayoutOk → k'.LayoutOk) (h1 : k'.frameLimit = k.frameLimit) (h2 : k'.slots = k.slots)
    (h3 : k'.stack = k.stack) (h4 : k'.claim.map (·.phase) = k.claim.map (·.phase))
    (h5 : k'.claim.bind (·.retained) = k.claim.bind (·.retained))
    (h6 : k'.op.bind Op.fillSlot = k.op.bind Op.fillSlot)
    (h7 : k'.op.bind Op.deliverySlot = k.op.bind Op.deliverySlot) : k'.SlotsOk := by
  obtain ⟨a, b, c, d, e, f, g, i, j, l, m⟩ := h
  simp only [Task.slotStatus, Task.frameIn] at f g i j
  refine ⟨h0 a, ?_, ?_, ?_, ?_, ?_, ?_, ?_, ?_, ?_, ?_⟩ <;>
    simp only [Task.slotStatus, Task.frameIn, h1, h2, h3, h4, h5, h6, h7] <;> assumption

/-- A record without claim and operation. -/
theorem slotsOk_rest {k : Task} (hl : k.LayoutOk) (hc : k.slots.length = k.frameLimit + 1)
    (hd : k.stack.length ≤ k.frameLimit) (hf : Fits k.slots k.stack none none) (h1 : k.claim = none)
    (h2 : k.op = none) : k.SlotsOk := by
  refine ⟨hl, hc, hf.once, hd, ?_, hf.filled, ?_, ?_, hf.frames, ?_, ?_⟩
  · simp [h1]
  · rw [h1]; exact hf.retained
  · rw [h2]; exact hf.filling
  · simp [h1, h2]
  · simp [h2]

/-- A record of an ACTIVE claim, with room on its stack and no delivery in flight. -/
theorem slotsOk_active {k : Task} {c : Claim} {fil : Option Nat} (hl : k.LayoutOk)
    (hc : k.slots.length = k.frameLimit + 1) (hd : k.stack.length < k.frameLimit)
    (hf : Fits k.slots k.stack c.retained fil) (h1 : k.claim = some c) (hp : c.phase = .active)
    (h2 : k.op.bind Op.fillSlot = fil) (h3 : k.op.bind Op.deliverySlot = none) : k.SlotsOk := by
  refine ⟨hl, hc, hf.once, by omega, fun _ => hd, hf.filled, ?_, ?_, hf.frames, ?_, ?_⟩
  · rw [h1]; exact hf.retained
  · rw [h2]; exact hf.filling
  · simp [h1, h3, hp]
  · simp [h3]

theorem slotsOk_loadLease {k : Task} (h : k.SlotsOk) : k.loadLease.SlotsOk :=
  SlotsOk.congr h id rfl rfl rfl (by cases hc : k.claim <;> simp [Task.loadLease, Claim.loadLease, hc])
    (by cases hc : k.claim <;> simp [Task.loadLease, Claim.loadLease, hc]) rfl rfl

theorem slotsOk_stopLease {k : Task} (h : k.SlotsOk) : k.stopLease.SlotsOk :=
  SlotsOk.congr h id rfl rfl rfl (by cases hc : k.claim <;> simp [Task.stopLease, Claim.stopLease, hc])
    (by cases hc : k.claim <;> simp [Task.stopLease, Claim.stopLease, hc]) rfl rfl

theorem slotsOk_retuned {k : Task} (x : Params) (h : k.SlotsOk) : (k.retuned x).SlotsOk :=
  SlotsOk.congr h id rfl rfl rfl rfl rfl rfl rfl

theorem slotsOk_tick {k : Task} (h : k.SlotsOk) : Task.SlotsOk { k with claim := k.claim.map Claim.tick } := by
  have e : ∀ c : Claim, c.tick.phase = c.phase ∧ c.tick.retained = c.retained := by
    intro c; simp only [Claim.tick]; split
    · exact ⟨rfl, rfl⟩
    · split <;> exact ⟨rfl, rfl⟩
  exact SlotsOk.congr h id rfl rfl rfl (by cases hc : k.claim <;> simp [(e _).1])
    (by cases hc : k.claim <;> simp [(e _).2]) rfl rfl

/-- An operation replaced by one that is alike in fill and delivery. -/
theorem slotsOk_op {k : Task} {o : Option Op} (h : k.SlotsOk) (h1 : o.bind Op.fillSlot = k.op.bind Op.fillSlot)
    (h2 : o.bind Op.deliverySlot = k.op.bind Op.deliverySlot) : Task.SlotsOk { k with op := o } :=
  SlotsOk.congr h id rfl rfl rfl rfl rfl h1 h2

/-- Without an operation in flight a claim is ACTIVE. -/
theorem active_of_idle {k : Task} {c : Claim} (h : k.SlotsOk) (hc : k.claim = some c) (ho : k.op = none) :
    c.phase = .active := by
  have := h.opening
  simp only [hc, ho, Option.map_some, Option.some.injEq, Option.bind_none, Option.isSome_none, Bool.false_eq_true,
    iff_false] at this
  cases hp : c.phase <;> simp_all

/-! ### The abnormal end of a claim -/

/-- A task record after step 1 of the abnormal end: the operation gone, and an aborted fill's slot EMPTY. -/
def abortedTask (k : Task) : Task :=
  match k.op with
  | some (.fill slot ..) => { k.withSlot slot emptied with op := none }
  | some _ | none => { k with op := none }

/-- The abort of an operation writes its task's record and no other. -/
theorem abortOp_tasks {s : State} {t : TaskNo} {k : Task} {c : Claim} (hk : s.task t = some k)
    (hc : k.claim = some c) (u : TaskNo) :
    (s.abortOp t).task u = if u = t then some (abortedTask k) else s.task u := by
  simp only [State.abortOp, hk, hc]
  cases ho : k.op with
  | none =>
    have e : abortedTask k = k := by cases k; simp_all [abortedTask]
    show s.task u = _
    split
    · next h => subst h; rw [e, hk]
    · rfl
  | some o =>
    cases o with
    | fill slot next w b x =>
      simp only [abandon_task, onTask_task, State.abortEffect, abortedTask, ho]
      have h : ∀ v, (if s.path = some (.port c.port) then s.abandonFill k slot next b else s).task v = s.task v := by
        intro v; split
        · exact abandonFill_task ..
        · rfl
      split
      · simp [emptySlot_task, h, hk, Task.withSlot]
      · next e => simp [emptySlot_task, h, e]
    | _ => simp [onTask_task, State.abortEffect, abortedTask, ho, hk]

/-- Reinstatement writes its task's record and no other. -/
theorem reinstate_tasks {s : State} {t : TaskNo} {k : Task} {slot : Nat} {f : FrameRecord} (token : Half)
    (hk : s.task t = some k) (hf : k.frameIn slot = some f) (u : TaskNo) :
    (s.reinstate t token slot).task u = if u = t then
      some { k.withSlot slot { status := .filled, frame := some (f.reconcile (s.heldBy (.claim t token))) } with
             stack := k.stack ++ [slot] } else s.task u := by
  simp [State.reinstate, hk, hf, task_setTask]

theorem abortedTask_fits {k : Task} (h : k.SlotsOk) :
    Fits (abortedTask k).slots k.stack (k.claim.bind (·.retained)) none := by
  have hf := SlotsOk.fits h
  cases ho : k.op with
  | none => rw [ho] at hf; simpa [abortedTask, ho] using hf
  | some o =>
    rw [ho] at hf
    cases o with
    | fill slot next w b x => simpa [abortedTask, ho, Task.withSlot] using hf.dropFill
    | _ => simpa [abortedTask, ho, Op.fillSlot] using hf

theorem abortedTask_rest (k : Task) :
    (abortedTask k).stack = k.stack ∧ (abortedTask k).frameLimit = k.frameLimit ∧ (abortedTask k).claim = k.claim
      ∧ (abortedTask k).slots.length = k.slots.length ∧ (abortedTask k).slotPages = k.slotPages
      ∧ (abortedTask k).dataAreaPages = k.dataAreaPages := by
  simp only [abortedTask]
  split <;> simp [Task.withSlot]

theorem abortedTask_layout {k : Task} (h : k.LayoutOk) : (abortedTask k).LayoutOk := by
  simp only [abortedTask]
  split <;> exact h

theorem slotsOk_endClaim {k : Task} (hl : k.LayoutOk)
    (hc : k.slots.length = k.frameLimit + 1) (hd : k.stack.length ≤ k.frameLimit)
    (hf : Fits k.slots k.stack none none) : k.endClaim.SlotsOk :=
  slotsOk_rest hl hc hd hf rfl rfl

/-- The abnormal end of a claim writes its task's record and no other: the task is without claim and operation, its page
lists as they were, and its slots sound if they were. -/
theorem abnormalEnd_tasks {s : State} {t : TaskNo} {k : Task} {c : Claim} (cause : EndCause) (hk : s.task t = some k)
    (hc : k.claim = some c) :
    ∃ k1 : Task, (∀ u, (s.abnormalEnd t cause).task u = if u = t then some k1.endClaim else s.task u)
      ∧ k1.slotPages = k.slotPages ∧ k1.dataAreaPages = k.dataAreaPages
      ∧ (c.Ok → k.SlotsOk → k1.endClaim.SlotsOk) := by
  obtain ⟨a1, a2, a3, a4, a5, a6⟩ := abortedTask_rest k
  have hs : ∀ u, ((s.abortOp t).withdraw ⟨t, c.token⟩).task u = if u = t then some (abortedTask k) else s.task u :=
    fun u => by rw [withdraw_task, abortOp_tasks hk hc]
  have last : ∀ (v : State) (k1 : Task), (∀ u, v.task u = if u = t then some k1 else s.task u) → ∀ u,
      (((v.onTask t Task.endClaim).endNotices t k.watch c.port cause ((v.onTask t Task.endClaim).depthOf t)).answerAborted
        c k.op cause).task u = if u = t then some k1.endClaim else s.task u := by
    intro v k1 hv u
    have h1 : ∀ (w : State) (o : Option Op), (w.answerAborted c o cause).task u = w.task u := by
      intro w o; cases cause <;> cases o <;> simp [State.answerAborted]
    rw [h1, (told_endNotices ..).task, onTask_task, hv t, hv u]
    split <;> simp
  generalize hv : ((s.abortOp t).withdraw ⟨t, c.token⟩) = v at hs
  simp only [State.abnormalEnd, hk, hc, hv]
  have plain : ∀ w : State, (∀ u, w.task u = v.task u) → (c.Ok → k.SlotsOk → c.retained = none) → _ :=
    fun w hw hr => (⟨abortedTask k, last w _ fun u => (hw u).trans (hs u), a5, a6, fun ok h => by
      have hf := abortedTask_fits h
      rw [hc, Option.bind_some, hr ok h] at hf
      exact slotsOk_endClaim (abortedTask_layout h.layout) (by rw [a4, a2]; exact h.count)
        (by rw [a1, a2]; exact h.depth) (by rw [a1]; exact hf)⟩ :
      ∃ k1 : Task, (∀ u, (((w.onTask t Task.endClaim).endNotices t k.watch c.port cause
        ((w.onTask t Task.endClaim).depthOf t)).answerAborted c k.op cause).task u
          = if u = t then some k1.endClaim else s.task u)
      ∧ k1.slotPages = k.slotPages ∧ k1.dataAreaPages = k.dataAreaPages ∧ (c.Ok → k.SlotsOk → k1.endClaim.SlotsOk))
  simp only [State.endLocks]
  split
  · next hp =>
    refine plain v (fun _ => rfl) fun ok _ => ?_
    have := ok.2.2.2.1
    cases hr : c.retained <;> simp_all
  · next slot hp hr =>
    cases hf : (abortedTask k).frameIn slot with
    | none =>
      have e : v.reinstate t c.token slot = v := by simp [State.reinstate, hs, hf]
      rw [e]
      refine ⟨abortedTask k, last v _ hs, a5, a6, fun ok h => ?_⟩
      have := ((abortedTask_fits h).frames slot).2 (.inr (((abortedTask_fits h).retained slot).2 (by simp [hc, hr])))
      rw [show ((abortedTask k).slots[slot]?).bind (·.frame) = none from hf] at this
      simp at this
    | some f =>
      refine ⟨{ (abortedTask k).withSlot slot
                  { status := .filled, frame := some (f.reconcile (v.heldBy (.claim t c.token))) } with
                stack := (abortedTask k).stack ++ [slot] }, last _ _ fun u => ?_, a5, a6, fun ok h => ?_⟩
      · rw [reinstate_tasks c.token (by rw [hs]; simp) hf, hs]
        split <;> rfl
      · have hf2 := abortedTask_fits h
        rw [hc, Option.bind_some, hr, ← a1] at hf2
        have room := h.room (by simp [hc, hp])
        exact slotsOk_endClaim (abortedTask_layout h.layout)
          (by simp only [Task.withSlot, List.length_set]; rw [a4, a2]; exact h.count)
          (by simp only [Task.withSlot, List.length_append, List.length_singleton]; rw [a1, a2]; exact room)
          (hf2.reinstate _)
  · next hp hr => exact plain _ (fun u => by rw [giveUpAll_task]) fun _ _ => hr

/-! ### The part -/

/-- Every task of the part has slots that agree with it. -/
def SlotsAll (s : State) : Prop := ∀ t, ∀ k ∈ s.task t, k.SlotsOk

theorem SlotsAll.congr {s u : State} (h : SlotsAll s) (e : ∀ t, u.task t = s.task t) : SlotsAll u :=
  fun t k hk => h t k (e t ▸ hk)

theorem SlotsAll.portsLocks {s u : State} (h : SlotsAll s) (e : PortsLocks s u) : SlotsAll u := h.congr e.task

theorem SlotsAll.setTask {s : State} (h : SlotsAll s) (t : TaskNo) {k : Option Task} (hk : ∀ k' ∈ k, k'.SlotsOk) :
    SlotsAll (s.setTask t k) := by
  intro u k' hk'
  rw [task_setTask] at hk'
  split at hk'
  · exact hk k' hk'
  · exact h u k' hk'

theorem SlotsAll.some {s : State} (h : SlotsAll s) (t : TaskNo) {k : Task} (hk : k.SlotsOk) :
    SlotsAll (s.setTask t (some k)) :=
  h.setTask t fun k' hk' => by obtain rfl := Option.mem_some.1 hk'; exact hk

theorem SlotsAll.onTask {s : State} (h : SlotsAll s) (t : TaskNo) {f : Task → Task}
    (hf : ∀ k, k.SlotsOk → (f k).SlotsOk) : SlotsAll (s.onTask t f) := by
  refine h.setTask t fun k' hk' => ?_
  obtain ⟨k, hk, rfl⟩ := Option.mem_map.1 hk'
  exact hf k (h t k hk)

/-- The abnormal end of a claim keeps every task's slots sound. -/
theorem SlotsAll.abnormalEnd {s : State} (h : SlotsAll s) (i : ∀ t, ∀ k ∈ s.task t, k.Ok) (t : TaskNo) (cause : EndCause) :
    SlotsAll (s.abnormalEnd t cause) := by
  cases hk : s.task t with
  | none => simpa [State.abnormalEnd, hk] using h
  | some k =>
    cases hc : k.claim with
    | none => simpa [State.abnormalEnd, hk, hc] using h
    | some c =>
      obtain ⟨k1, h1, _, _, h2⟩ := abnormalEnd_tasks cause hk hc
      intro u k' hk'
      rw [h1] at hk'
      split at hk'
      · obtain rfl := Option.mem_some.1 hk'
        exact h2 ((i t k hk).2.2.2.2.1 c hc) (h t k hk)
      · exact h u k' hk'

end Sys2Proof.Laws
end

