-- ==== Sys2Proof/Laws/Linked.lean ====
section
/-! SUPPORT. The ports against the claims (`State.Linked`): what the answers, the ends of claims, teardown and the long
operations do to their agreement. -/

namespace Sys2Proof.Laws

open Sys2Proof Sys2Proof.Machine

/-! ### The agreement for some of the ports -/

/-- The agreement of `State.Linked`, with the operations in flight only of the ports in D: while a port is being torn
down its own are left out. -/
structure LinkedOn (D : Port → Prop) (s : State) : Prop where
  held   : ∀ p, D p → (s.port p).held = true → (s.port p).session = .offline
  empty  : ∀ p, (s.port p).requests = [] → (s.port p).Unanswered
  one    : ∀ p x, (s.port p).sending = some (.answer x) → (s.port p).waiting = none
  online : ∀ t k c, s.task t = some k → k.claim = some c → (s.port c.port).session = .online
  head   : ∀ t k c, s.task t = some k → k.claim = some c → k.op.isSome = true → D c.port →
    (s.port c.port).Unanswered ∧ ∃ q, (s.port c.port).requests.head? = some q ∧ taskOf q.ops.task = some t

/-- The agreement for all four ports. -/
abbrev LinkedAll (s : State) : Prop := LinkedOn (fun _ => True) s

theorem linkedAll_iff {s : State} : LinkedAll s ↔ s.Linked :=
  ⟨fun h => ⟨fun p => h.held p trivial, h.empty, h.one, h.online, fun t k c a b d => h.head t k c a b d trivial⟩,
    fun h => ⟨fun p _ => h.held p, h.empty, h.one, h.online, fun t k c a b d _ => h.head t k c a b d⟩⟩

theorem LinkedOn.mono {D E : Port → Prop} {s : State} (h : LinkedOn D s) (e : ∀ p, E p → D p) : LinkedOn E s :=
  ⟨fun p x => h.held p (e p x), h.empty, h.one, h.online, fun t k c a b d x => h.head t k c a b d (e _ x)⟩

/-- From s to t no port's session, head request, answers or reset line change. -/
structure SameLines (s t : State) : Prop where
  lines : ∀ p, (t.port p).session = (s.port p).session ∧ (t.port p).held = (s.port p).held
    ∧ (t.port p).requests.head? = (s.port p).requests.head? ∧ (t.port p).waiting = (s.port p).waiting
    ∧ ∀ x, (t.port p).sending = some (.answer x) ↔ (s.port p).sending = some (.answer x)

theorem SameLines.refl (s : State) : SameLines s s := ⟨fun _ => ⟨rfl, rfl, rfl, rfl, fun _ => .rfl⟩⟩

theorem SameLines.trans {s t u : State} (a : SameLines s t) (b : SameLines t u) : SameLines s u :=
  ⟨fun p => by
    obtain ⟨a1, a2, a3, a4, a5⟩ := a.lines p
    obtain ⟨b1, b2, b3, b4, b5⟩ := b.lines p
    exact ⟨b1.trans a1, b2.trans a2, b3.trans a3, b4.trans a4, fun x => (b5 x).trans (a5 x)⟩⟩

theorem SameLines.of_ports {s t : State} (h : t.ports = s.ports) : SameLines s t :=
  ⟨fun p => by simp [State.port, h]⟩

/-- One port record rewritten with its lines as they were. -/
theorem same_onPort (s : State) (p : Port) (f : PortRecord → PortRecord)
    (h : (f (s.port p)).session = (s.port p).session ∧ (f (s.port p)).held = (s.port p).held
      ∧ (f (s.port p)).requests.head? = (s.port p).requests.head? ∧ (f (s.port p)).waiting = (s.port p).waiting
      ∧ ∀ x, (f (s.port p)).sending = some (.answer x) ↔ (s.port p).sending = some (.answer x)) :
    SameLines s (s.onPort p f) :=
  ⟨fun r => by
    simp only [State.onPort, port_setPort]
    split
    · next e => subst e; exact h
    · exact ⟨rfl, rfl, rfl, rfl, fun _ => .rfl⟩⟩

theorem same_setTask (s : State) (t : TaskNo) (k : Option Task) : SameLines s (s.setTask t k) := .of_ports rfl

theorem same_onTask (s : State) (t : TaskNo) (f : Task → Task) : SameLines s (s.onTask t f) := .of_ports rfl

theorem Told.same {s t : State} (h : Told s t) : SameLines s t :=
  ⟨fun p => by
    obtain ⟨h1, _, h3, h4, h5, h6⟩ := h.lines p
    exact ⟨h1, h6, by rw [h3], h4, fun x => by rw [h5]⟩⟩

theorem SameLines.unanswered {s t : State} (h : SameLines s t) {p : Port} (u : (s.port p).Unanswered) :
    (t.port p).Unanswered := by
  obtain ⟨_, _, _, h3, h4⟩ := h.lines p
  exact ⟨h3.trans u.1, fun x hx => u.2 x ((h4 x).1 hx)⟩

theorem SameLines.empty {s t : State} (h : SameLines s t) {p : Port} (e : (t.port p).requests = []) :
    (s.port p).requests = [] := by
  have := (h.lines p).2.2.1
  rw [e] at this
  exact List.head?_eq_none_iff.1 this.symm

theorem SameLines.one {s t : State} (h : SameLines s t) {p : Port} {x : Response}
    (o : ∀ x, (s.port p).sending = some (.answer x) → (s.port p).waiting = none)
    (e : (t.port p).sending = some (.answer x)) : (t.port p).waiting = none := by
  obtain ⟨_, _, _, h3, h4⟩ := h.lines p
  rw [h3]; exact o x ((h4 x).1 e)

/-- From s to t no claim and no operation comes new, and the ports' lines stay. -/
structure Less (s t : State) : Prop extends SameLines s t where
  tasks : ∀ u k' c', t.task u = some k' → k'.claim = some c' →
    ∃ k c, s.task u = some k ∧ k.claim = some c ∧ c.port = c'.port ∧ (k'.op.isSome = true → k.op.isSome = true)

theorem Less.of_same {s t : State} (h : SameLines s t) (e : ∀ u, t.task u = s.task u) : Less s t :=
  ⟨h, fun u k c hk hc => ⟨k, c, e u ▸ hk, hc, rfl, id⟩⟩

theorem Less.refl (s : State) : Less s s := .of_same (.refl s) fun _ => rfl

theorem Less.trans {s t u : State} (a : Less s t) (b : Less t u) : Less s u :=
  ⟨a.toSameLines.trans b.toSameLines, fun x k c hk hc => by
    obtain ⟨k1, c1, h1, h2, h3, h4⟩ := b.tasks x k c hk hc
    obtain ⟨k2, c2, g1, g2, g3, g4⟩ := a.tasks x k1 c1 h1 h2
    exact ⟨k2, c2, g1, g2, g3.trans h3, g4 ∘ h4⟩⟩

theorem Told.less {s t : State} (h : Told s t) : Less s t := .of_same h.same h.task

/-- A task record rewritten: without a claim, or under a claim of the same port with no new operation. -/
theorem less_setTask {s : State} {t : TaskNo} {k : Option Task} (h : ∀ k' c', k = some k' → k'.claim = some c' →
    ∃ k0 c, s.task t = some k0 ∧ k0.claim = some c ∧ c.port = c'.port ∧ (k'.op.isSome = true → k0.op.isSome = true)) :
    Less s (s.setTask t k) :=
  ⟨.of_ports rfl, fun u k' c' hk hc => by
    rw [task_setTask] at hk
    split at hk
    · next e => subst e; exact h k' c' hk hc
    · exact ⟨k', c', hk, hc, rfl, id⟩⟩

theorem less_onTask (s : State) (t : TaskNo) (f : Task → Task)
    (h : ∀ k c', (f k).claim = some c' →
      ∃ c, k.claim = some c ∧ c.port = c'.port ∧ ((f k).op.isSome = true → k.op.isSome = true)) :
    Less s (s.onTask t f) :=
  less_setTask fun k' c' hk hc => by
    obtain ⟨k, e, rfl⟩ := Option.map_eq_some_iff.1 hk
    obtain ⟨c, h1, h2, h3⟩ := h k c' hc
    exact ⟨k, c, e, h1, h2, h3⟩

theorem less_loadLease (s : State) (t : TaskNo) : Less s (s.onTask t Task.loadLease) :=
  less_onTask s t _ fun k c' hc => by
    obtain ⟨c, e, rfl⟩ := Option.map_eq_some_iff.1 hc
    exact ⟨c, e, rfl, id⟩

theorem LinkedOn.less {D : Port → Prop} {s t : State} (h : LinkedOn D s) (l : Less s t) : LinkedOn D t := by
  refine ⟨fun p hd hp => ?_, fun p hp => l.unanswered (h.empty p (l.toSameLines.empty hp)),
    fun p x hx => l.one (h.one p) hx, fun u k' c' hk hc => ?_, fun u k' c' hk hc ho hd => ?_⟩
  · rw [(l.lines p).1]; exact h.held p hd ((l.lines p).2.1 ▸ hp)
  · obtain ⟨k, c, h1, h2, h3, _⟩ := l.tasks u k' c' hk hc
    rw [(l.lines c'.port).1, ← h3]; exact h.online u k c h1 h2
  · obtain ⟨k, c, h1, h2, h3, h4⟩ := l.tasks u k' c' hk hc
    rw [← h3] at hd ⊢
    obtain ⟨g1, g2⟩ := h.head u k c h1 h2 (h4 ho) hd
    exact ⟨l.unanswered g1, by rw [(l.lines c.port).2.2.1]; exact g2⟩

/-! ### Answers -/

/-- Port p executes a head request that is unanswered, and none of its claims has an operation in flight. -/
structure Idle (s : State) (p : Port) : Prop where
  head : (s.port p).requests ≠ []
  free : (s.port p).Unanswered
  idle : ∀ t k c, s.task t = some k → k.claim = some c → c.port = p → k.op = none

theorem Idle.less {s t : State} {p : Port} (h : Idle s p) (l : Less s t) : Idle t p := by
  refine ⟨fun e => h.head (l.toSameLines.empty e), l.unanswered h.free, fun u k' c' hk hc hp => ?_⟩
  obtain ⟨k, c, h1, h2, h3, h4⟩ := l.tasks u k' c' hk hc
  have := h.idle u k c h1 h2 (h3.trans hp)
  cases ho : k'.op with
  | none => rfl
  | some o => simp [ho, this] at h4

/-- An answer to an unanswered head request goes to the line or waits, and changes no session or request. -/
theorem respond_line (r : PortRecord) (x : Response) (u : r.Unanswered) :
    (r.respond x).session = r.session ∧ (r.respond x).held = r.held ∧ (r.respond x).requests = r.requests
      ∧ ∀ y, (r.respond x).sending = some (.answer y) → (r.respond x).waiting = none := by
  rcases startSending_cases { r with waiting := some x } with ⟨_, e⟩ | ⟨a, rest, _, _, e⟩ | ⟨y, _, _, _, e⟩ |
    ⟨_, _, h, _⟩
  · rw [PortRecord.respond, e]; exact ⟨rfl, rfl, rfl, fun y hy => absurd hy (u.2 y)⟩
  · rw [PortRecord.respond, e]; exact ⟨rfl, rfl, rfl, fun y hy => by simp at hy⟩
  · rw [PortRecord.respond, e]; exact ⟨rfl, rfl, rfl, fun _ _ => rfl⟩
  · simp at h

theorem linked_respond {D : Port → Prop} {s : State} {p : Port} (h : LinkedOn D s) (i : Idle s p) (x : Response) :
    LinkedOn D (s.respond p x) := by
  obtain ⟨e1, e0, e2, e3⟩ := respond_line (s.port p) x i.free
  have port : ∀ r, (s.respond p x).port r = if r = p then (s.port p).respond x else s.port r := fun r => by
    simp [State.respond, State.onPort, port_setPort]
  refine ⟨fun r hd hr => ?_, fun r hr => ?_, fun r y hy => ?_, fun t k c hk hc => ?_, fun t k c hk hc ho hd => ?_⟩
  · rw [port] at hr ⊢
    split
    · next e => rw [if_pos e, e0, ← e] at hr; rw [e1, ← e]; exact h.held r hd hr
    · next e => rw [if_neg e] at hr; exact h.held r hd hr
  · rw [port] at hr ⊢
    split
    · next e => rw [if_pos e, e2] at hr; exact absurd hr i.head
    · next e => rw [if_neg e] at hr; exact h.empty r hr
  · rw [port] at hy ⊢
    split
    · next e => rw [if_pos e] at hy; exact e3 y hy
    · next e => rw [if_neg e] at hy; exact h.one r y hy
  · rw [port]
    split
    · next e => rw [e1, ← e]; exact h.online t k c hk hc
    · exact h.online t k c hk hc
  · rw [port]
    by_cases e : c.port = p
    · rw [i.idle t k c hk hc e] at ho; simp at ho
    · rw [if_neg e]; exact h.head t k c hk hc ho hd

theorem linked_respondHead {D : Port → Prop} {s : State} {p : Port} (h : LinkedOn D s) (i : Idle s p)
    (f : Request → Response) : LinkedOn D (s.respondHead p f) := by
  simp only [State.respondHead]
  split
  · exact h
  · exact linked_respond h i _

/-! ### The abnormal end and teardown -/

theorem same_emptySlot (s : State) (t : TaskNo) (slot : Nat) : SameLines s (s.emptySlot t slot) :=
  .of_ports (by simp only [State.emptySlot]; split; rfl; rw [markStale_frame]; rfl)

theorem same_abortOp (s : State) (t : TaskNo) : SameLines s (s.abortOp t) := by
  have ab : ∀ (k : Task) (slot part : Nat) (b : List Byte), SameLines s (s.abandonFill k slot part b) :=
    fun _ _ _ _ => .of_ports (by simp only [State.abandonFill]; split <;> rfl)
  have free : ∀ (v : State) (p : Port), SameLines v (v.abandon p) := fun v p =>
    .of_ports (by simp only [State.abandon]; split <;> rfl)
  simp only [State.abortOp]
  split
  · exact .refl s
  · split
    · next c o _ _ =>
      have effect : SameLines s (s.abortEffect t ‹Task› c o) := by
        cases o <;> simp only [State.abortEffect] <;> try exact .refl s
        split
        · exact (ab ..).trans (same_emptySlot ..)
        · exact same_emptySlot ..
      exact (effect.trans (same_onTask ..)).trans (free ..)
    · exact .refl s

theorem same_endLocks (s : State) (t : TaskNo) (c : Claim) : SameLines s (s.endLocks t c) := by
  simp only [State.endLocks]
  split
  · exact .refl s
  · simp only [State.reinstate]
    split
    · exact .refl s
    · split
      · exact .refl s
      · exact ((same_setTask ..).trans (told_moveAll ..).same).trans (told_giveUpAll ..).same
  · exact (told_giveUpAll ..).same

/-- After an abnormal end the task has no claim, and every other task is as it was. -/
theorem abnormalEnd_claims {s : State} {t : TaskNo} {cause : EndCause} {u : TaskNo} {k : Task} {c : Claim}
    (hk : (s.abnormalEnd t cause).task u = some k) (hc : k.claim = some c) : u ≠ t ∧ s.task u = some k := by
  cases ht : s.task t with
  | none =>
    simp only [State.abnormalEnd, ht] at hk
    exact ⟨fun e => by simp [e, ht] at hk, hk⟩
  | some k0 =>
    cases hc0 : k0.claim with
    | none =>
      simp only [State.abnormalEnd, ht, hc0] at hk
      exact ⟨fun e => by simp [e, ht] at hk; simp [← hk, hc0] at hc, hk⟩
    | some c0 =>
      obtain ⟨k1, h1, _⟩ := abnormalEnd_tasks cause ht hc0
      rw [h1] at hk
      split at hk
      · obtain rfl := Option.some.inj hk; simp [Task.endClaim] at hc
      · next e => exact ⟨e, hk⟩

/-- An abnormal end takes the claim away and tells of it, and then answers the request it aborted. -/
theorem abnormalEnd_form {s : State} {t : TaskNo} {k0 : Task} {c0 : Claim} (cause : EndCause) (ht : s.task t = some k0)
    (hc0 : k0.claim = some c0) : ∃ n, Less s n
      ∧ (∀ u k c, n.task u = some k → k.claim = some c → u ≠ t ∧ s.task u = some k)
      ∧ s.abnormalEnd t cause = n.answerAborted c0 k0.op cause := by
  have claims := fun u k c => @abnormalEnd_claims s t cause u k c
  simp only [State.abnormalEnd, ht, hc0] at claims ⊢
  generalize hv : ((s.abortOp t).withdraw ⟨t, c0.token⟩).endLocks t c0 = v at claims ⊢
  have same : SameLines s v := by
    rw [← hv]; exact (same_abortOp s t).trans ((told_withdraw ..).same.trans (same_endLocks ..))
  generalize hn : (v.onTask t Task.endClaim).endNotices t k0.watch c0.port cause
    ((v.onTask t Task.endClaim).depthOf t) = n at claims ⊢
  have samen : SameLines s n := by
    rw [← hn]; exact (same.trans (same_onTask ..)).trans (told_endNotices ..).same
  have tasks : ∀ u, (n.answerAborted c0 k0.op cause).task u = n.task u := by
    intro u; cases cause <;> cases k0.op <;> simp [State.answerAborted]
  have left : ∀ u k c, n.task u = some k → k.claim = some c → u ≠ t ∧ s.task u = some k := fun u k c hk hc =>
    claims u k c ((tasks u).trans hk) hc
  exact ⟨n, ⟨samen, fun u k c hk hc => ⟨k, c, (left u k c hk hc).2, hc, rfl, id⟩⟩, left, rfl⟩

theorem linked_abnormalEnd {D : Port → Prop} {s : State} (h : LinkedOn D s) (t : TaskNo) (cause : EndCause)
    (hd : cause = .portDown ∨ ∀ p, D p) : LinkedOn D (s.abnormalEnd t cause) := by
  cases ht : s.task t with
  | none => simpa only [State.abnormalEnd, ht] using h
  | some k0 =>
    cases hc0 : k0.claim with
    | none => simpa only [State.abnormalEnd, ht, hc0] using h
    | some c0 =>
      obtain ⟨n, less, left, e⟩ := abnormalEnd_form cause ht hc0
      rw [e]
      have answer : ∀ o, k0.op = some o → D c0.port → LinkedOn D (n.respondHead c0.port (abortedReply c0 o)) := by
        intro o ho hD
        obtain ⟨g1, q, g2, g3⟩ := h.head t k0 c0 ht hc0 (by simp [ho]) hD
        refine linked_respondHead (h.less less)
          ⟨fun e => ?_, less.unanswered g1, fun u k c hk hc hp => ?_⟩ _
        · simp [less.empty e] at g2
        · obtain ⟨hne, hu⟩ := left u k c hk hc
          cases hop : k.op with
          | none => rfl
          | some o' =>
            obtain ⟨_, q', g2', g3'⟩ := h.head u k c hu hc (by simp [hop]) (hp ▸ hD)
            rw [hp, g2] at g2'
            obtain rfl := Option.some.inj g2'
            exact absurd (Option.some.inj (g3'.symm.trans g3)) hne
      cases cause <;> cases ho : k0.op <;> simp only [State.answerAborted] <;> try exact h.less less
      · exact answer _ ho (hd.resolve_left (by simp) _)
      · exact answer _ ho (hd.resolve_left (by simp) _)

/-- An abnormal end answers no port whose claims have no operation in flight. -/
theorem Idle.abnormalEnd {s : State} {p : Port} (i : Idle s p) (t : TaskNo) (cause : EndCause) :
    Idle (s.abnormalEnd t cause) p := by
  cases ht : s.task t with
  | none => simpa only [State.abnormalEnd, ht] using i
  | some k0 =>
    cases hc0 : k0.claim with
    | none => simpa only [State.abnormalEnd, ht, hc0] using i
    | some c0 =>
      obtain ⟨n, less, -, e⟩ := abnormalEnd_form cause ht hc0
      rw [e]
      have j := i.less less
      have answer : ∀ o, k0.op = some o → Idle (n.respondHead c0.port (abortedReply c0 o)) p := by
        intro o ho
        have hp : p ≠ c0.port := fun hp => by simpa [ho] using i.idle t k0 c0 ht hc0 hp.symm
        have port : (n.respondHead c0.port (abortedReply c0 o)).port p = n.port p := by
          simp only [State.respondHead]
          split
          · rfl
          · simp [State.respond, State.onPort, port_setPort, hp]
        exact ⟨by rw [port]; exact j.head, by rw [port]; exact j.free, fun u k c hk => j.idle u k c (by simpa using hk)⟩
      cases cause <;> cases ho : k0.op <;> simp only [State.answerAborted] <;> try exact j
      · exact answer _ ho
      · exact answer _ ho

/-- The claims that are left after the ends of several. -/
theorem abnormalEnds_claims (ts : List TaskNo) (cause : EndCause) (s : State) {u : TaskNo} {k : Task} {c : Claim}
    (hk : (ts.foldl (fun s t => s.abnormalEnd t cause) s).task u = some k) (hc : k.claim = some c) :
    u ∉ ts ∧ s.task u = some k := by
  induction ts generalizing s with
  | nil => exact ⟨by simp, hk⟩
  | cons t ts ih =>
    obtain ⟨h1, h2⟩ := ih _ hk
    obtain ⟨h3, h4⟩ := abnormalEnd_claims h2 hc
    exact ⟨by simp [h1, h3], h4⟩

/-- After a teardown the agreement holds for all ports, if it held for the others. -/
theorem linked_teardown {s : State} {p : Port} (h : LinkedOn (· ≠ p) s) : LinkedAll (s.teardown p) := by
  simp only [State.teardown]
  split
  · generalize hw : (s.claimsOf p).foldl State.withdrawClaim s = w
    have tw : Told s w := by rw [← hw]; exact .foldl _ told_withdrawClaim _ _
    generalize he : (s.claimsOf p).foldl (fun s t => s.abnormalEnd t .portDown) w = e
    have le : LinkedOn (· ≠ p) e := by
      have : ∀ (ts : List TaskNo) (u : State), LinkedOn (· ≠ p) u →
          LinkedOn (· ≠ p) (ts.foldl (fun s t => s.abnormalEnd t .portDown) u) := by
        intro ts
        induction ts with
        | nil => exact fun _ h => h
        | cons t ts ih => exact fun u h => ih _ (linked_abnormalEnd h t _ (.inl rfl))
      rw [← he]; exact this _ _ (h.less tw.less)
    have none : ∀ t k c, e.task t = some k → k.claim = some c → c.port ≠ p := by
      intro t k c hk hc hp
      rw [← he] at hk
      obtain ⟨h1, h2⟩ := abnormalEnds_claims _ _ _ hk hc
      rw [tw.task] at h2
      exact h1 (by simp [State.claimsOf, h2, hc, hp])
    refine LinkedOn.less ?_ (told_postAll ..).less
    have port : ∀ r, (e.onPort p PortRecord.close).port r = if r = p then (e.port p).close else e.port r := fun r => by
      simp [State.onPort, port_setPort]
    refine ⟨fun r _ hr => ?_, fun r hr => ?_, fun r x hx => ?_, fun t k c hk hc => ?_, fun t k c hk hc ho _ => ?_⟩
    · rw [port] at hr ⊢
      split
      · rfl
      · next e' => rw [if_neg e'] at hr; exact le.held r e' hr
    · rw [port] at hr ⊢
      split
      · next e' => rw [if_pos e'] at hr; exact le.empty p hr
      · next e' => rw [if_neg e'] at hr; exact le.empty r hr
    · rw [port] at hx ⊢
      split
      · next e' => rw [if_pos e'] at hx; exact le.one p x hx
      · next e' => rw [if_neg e'] at hx; exact le.one r x hx
    · rw [port, if_neg (none t k c hk hc)]; exact le.online t k c hk hc
    · rw [port, if_neg (none t k c hk hc)]; exact le.head t k c hk hc ho (none t k c hk hc)
  · next hoff =>
    refine ⟨fun r _ hr => ?_, h.empty, h.one, h.online, fun t k c hk hc ho _ =>
      h.head t k c hk hc ho fun e => hoff (e ▸ h.online t k c hk hc)⟩
    by_cases e : r = p
    · subst e; cases hs : (s.port r).session <;> simp_all
    · exact h.held r e hr

/-! ### A port and the task its head request names -/

/-- Port p's head request names task t and is unanswered, the port is ONLINE, and every other task agrees with the
ports: so task t's record may be rewritten under a claim of p. -/
structure Owner (s : State) (t : TaskNo) (p : Port) : Prop where
  held   : ∀ r, (s.port r).held = true → (s.port r).session = .offline
  empty  : ∀ r, (s.port r).requests = [] → (s.port r).Unanswered
  one    : ∀ r x, (s.port r).sending = some (.answer x) → (s.port r).waiting = none
  online : (s.port p).session = .online
  free   : (s.port p).Unanswered
  names  : ∃ q, (s.port p).requests.head? = some q ∧ taskOf q.ops.task = some t
  others : ∀ u k c, u ≠ t → s.task u = some k → k.claim = some c → (s.port c.port).session = .online
    ∧ (k.op.isSome = true → c.port ≠ p ∧ (s.port c.port).Unanswered
      ∧ ∃ q, (s.port c.port).requests.head? = some q ∧ taskOf q.ops.task = some u)

/-- A port with an operation in flight owns its task. -/
theorem owner_of_op {s : State} {t : TaskNo} {k : Task} {c : Claim} (h : LinkedAll s) (hk : s.task t = some k)
    (hc : k.claim = some c) (ho : k.op.isSome = true) : Owner s t c.port := by
  obtain ⟨g1, q, g2, g3⟩ := h.head t k c hk hc ho trivial
  refine ⟨fun r => h.held r trivial, h.empty, h.one, h.online t k c hk hc, g1, ⟨q, g2, g3⟩, fun u k' c' hu hk' hc' =>
    ⟨h.online u k' c' hk' hc', fun ho' => ?_⟩⟩
  obtain ⟨h1, q', h2, h3⟩ := h.head u k' c' hk' hc' ho' trivial
  refine ⟨fun e => ?_, h1, q', h2, h3⟩
  rw [e, g2] at h2
  obtain rfl := Option.some.inj h2
  exact hu (Option.some.inj (h3.symm.trans g3))

/-- A port owns the task that the request it takes names. -/
theorem owner_of_idle {s : State} {t : TaskNo} {p : Port} {q : Request} (h : LinkedAll s) (i : Idle s p)
    (on : (s.port p).session = .online) (hq : (s.port p).requests.head? = some q) (ht : taskOf q.ops.task = some t) :
    Owner s t p :=
  ⟨fun r => h.held r trivial, h.empty, h.one, on, i.free, ⟨q, hq, ht⟩, fun u k c _ hk hc => ⟨h.online u k c hk hc, fun ho =>
    ⟨fun e => by simp [i.idle u k c hk hc e] at ho, h.head u k c hk hc ho trivial⟩⟩⟩

/-- Ownership looks at the lines and at the other tasks only. -/
theorem Owner.congr {s v : State} {t : TaskNo} {p : Port} (h : Owner s t p) (l : SameLines s v)
    (e : ∀ u, u ≠ t → v.task u = s.task u) : Owner v t p := by
  refine ⟨fun r hr => ?_, fun r hr => l.unanswered (h.empty r (l.empty hr)), fun r x hx => l.one (h.one r) hx,
    (l.lines p).1 ▸ h.online, l.unanswered h.free, by rw [(l.lines p).2.2.1]; exact h.names, fun u k c hu hk hc => ?_⟩
  · rw [(l.lines r).1]; exact h.held r ((l.lines r).2.1 ▸ hr)
  · obtain ⟨h1, h2⟩ := h.others u k c hu (e u hu ▸ hk) hc
    refine ⟨(l.lines _).1 ▸ h1, fun ho => ?_⟩
    obtain ⟨g1, g2, g3⟩ := h2 ho
    exact ⟨g1, l.unanswered g2, by rw [(l.lines _).2.2.1]; exact g3⟩

theorem Owner.setTask {s : State} {t : TaskNo} {p : Port} (h : Owner s t p) (k : Option Task) :
    Owner (s.setTask t k) t p :=
  h.congr (.of_ports rfl) fun u hu => by rw [task_setTask, if_neg hu]

/-- The owner's task under a claim of the owner agrees. -/
theorem Owner.linked {s : State} {t : TaskNo} {p : Port} (h : Owner s t p)
    (hc : ∀ k c, s.task t = some k → k.claim = some c → c.port = p) : LinkedAll s := by
  refine ⟨fun r _ => h.held r, h.empty, h.one, fun u k c hk hc' => ?_, fun u k c hk hc' ho _ => ?_⟩ <;> by_cases e : u = t
  · subst e; rw [hc k c hk hc']; exact h.online
  · exact (h.others u k c e hk hc').1
  · subst e; rw [hc k c hk hc']; exact ⟨h.free, h.names⟩
  · exact ((h.others u k c e hk hc').2 ho).2

/-- The owner's port is idle where its task has no operation. -/
theorem Owner.isIdle {s : State} {t : TaskNo} {p : Port} (h : Owner s t p)
    (ho : ∀ k c, s.task t = some k → k.claim = some c → k.op = none) : Idle s p := by
  obtain ⟨q, hq, _⟩ := h.names
  refine ⟨fun e => by simp [e] at hq, h.free, fun u k c hk hc hp => ?_⟩
  by_cases e : u = t
  · subst e; exact ho k c hk hc
  · cases hop : k.op with
    | none => rfl
    | some o => exact absurd hp ((h.others u k c e hk hc).2 (by simp [hop])).1

/-- The owner's task without an operation in flight: the head request can be answered. -/
theorem Owner.ready {s : State} {t : TaskNo} {p : Port} (h : Owner s t p)
    (hc : ∀ k c, s.task t = some k → k.claim = some c → c.port = p ∧ k.op = none) : LinkedAll s ∧ Idle s p :=
  ⟨h.linked fun k c e1 e2 => (hc k c e1 e2).1, h.isIdle fun k c e1 e2 => (hc k c e1 e2).2⟩

/-- The owner's task rewritten without an operation in flight. -/
theorem Owner.rewritten {s : State} {t : TaskNo} {p : Port} {k : Task} (h : Owner s t p)
    (hc : ∀ c, k.claim = some c → c.port = p ∧ k.op = none) :
    LinkedAll (s.setTask t (some k)) ∧ Idle (s.setTask t (some k)) p :=
  (h.setTask (some k)).ready fun k' c e1 e2 => by
    rw [task_setTask_same] at e1
    obtain rfl := Option.some.inj e1
    exact hc c e2

/-- The owner's task rewritten, then told of, then the head request answered. -/
theorem Owner.answered {s v : State} {t : TaskNo} {p : Port} {k : Task} (h : Owner s t p)
    (hc : ∀ c, k.claim = some c → c.port = p ∧ k.op = none) (tv : Told (s.setTask t (some k)) v)
    (f : Request → Response) : LinkedAll (v.respondHead p f) :=
  linked_respondHead ((h.rewritten hc).1.less tv.less) ((h.rewritten hc).2.less tv.less) f

/-- The owner's task under an operation of the owner's. -/
theorem Owner.started {s : State} {t : TaskNo} {p : Port} {k : Task} (h : Owner s t p)
    (hc : ∀ c, k.claim = some c → c.port = p) : LinkedAll (s.setTask t (some k)) :=
  (h.setTask (some k)).linked fun k' c e1 e2 => by
    rw [task_setTask_same] at e1
    obtain rfl := Option.some.inj e1
    exact hc c e2

end Sys2Proof.Laws
end

