-- ==== Sys2Proof/Laws/LinkedKept.lean ====
section
/-! SUPPORT. `State.Linked` is kept: by the parts of the long operations, the transfers, every request a port takes, the
link's events and the resets. -/

namespace Sys2Proof.Laws

open Sys2Proof Sys2Proof.Machine

/-! ### The long operations -/

section Parts

variable {s : State} {t : TaskNo} {k : Task} {c : Claim} (o : Owner s t c.port) (hc : k.claim = some c)

include o hc

omit hc in
theorem linked_damageInDelivery (n : PageNo) (part : Nat) : LinkedAll (s.damageInDelivery t k c n part) := by
  have o' : Owner (s.onPage n Page.markPoisoned) t c.port := o.congr (.of_ports rfl) fun _ _ => rfl
  exact o'.answered (k := k.fault) (by simp [Task.fault]) (told_postAll ..) _

theorem linked_reachDelivery (slot : Nat) (f : FrameRecord) (part : Nat) (b : List Byte) :
    LinkedAll (s.reachDeliveryPart t k c slot f part b) := by
  simp only [State.reachDeliveryPart]
  split
  · split
    · exact linked_damageInDelivery o _ _
    · exact o.started fun c' e => by rw [hc] at e; rw [← Option.some.inj e]
  · simp only [State.completeDelivery]
    refine o.answered (fun c' e => ?_) (told_moveAll ..) _
    rw [← Option.some.inj e]; exact ⟨rfl, rfl⟩

theorem linked_answeredLease (f : Request → Response) :
    LinkedAll ((s.setTask t (some (Task.loadLease { k with op := none }))).respondHead c.port f) := by
  refine o.answered (fun c' e => ?_) (.refl _) f
  simp only [Task.loadLease, hc, Option.map_some, Option.some.injEq] at e
  exact ⟨by rw [← e]; rfl, rfl⟩

theorem linked_damageInRead (n : PageNo) (part : Nat) : LinkedAll (s.damageInRead t k c n part) := by
  have o' : Owner (s.onPage n Page.markPoisoned) t c.port := o.congr (.of_ports rfl) fun _ _ => rfl
  exact linked_answeredLease o' hc _

theorem linked_op (x : Op) : LinkedAll (s.setTask t (some { k with op := some x })) :=
  o.started fun c' e => by rw [← Option.some.inj (hc.symm.trans e)]

theorem linked_reachPeek (position slot : Nat) (f : FrameRecord) (part : Nat) (b : List Byte) :
    LinkedAll (s.reachPeekPart t k c position slot f part b) := by
  simp only [State.reachPeekPart]
  split
  · split
    · exact linked_damageInRead o hc _ _
    · exact linked_op o hc _
  · exact linked_answeredLease o hc _

omit hc in
theorem linked_completeFill (slot : Nat) (w : Word) (b : List Byte) (x : Bool) :
    LinkedAll (s.completeFill t k c slot w b x) := by
  simp only [State.completeFill]
  have ready : ∀ v : State, Owner v t c.port → LinkedAll ((v.dropRetained t c).onTask t Task.endClaim)
      ∧ Idle ((v.dropRetained t c).onTask t Task.endClaim) c.port := by
    intro v hv
    refine (hv.congr ?_ fun u hu => ?_).ready fun k' c' e1 e2 => ?_
    · refine .trans ?_ (same_onTask ..)
      simp only [State.dropRetained]
      split
      · exact .refl _
      · exact same_emptySlot ..
    · rw [onTask_task, if_neg hu]
      simp only [State.dropRetained]
      split
      · rfl
      · rw [emptySlot_task, if_neg hu]
    · rw [onTask_task, if_pos rfl] at e1
      obtain ⟨k0, _, rfl⟩ := Option.map_eq_some_iff.1 e1
      simp [Task.endClaim] at e2
  refine linked_respondHead (LinkedOn.less (ready _ ?_).1 (told_postFreed ..).less)
    (Idle.less (ready _ ?_).2 (told_postFreed ..).less) _
  all_goals exact (o.setTask _).congr (told_moveAll ..).same fun _ _ => (told_moveAll ..).task _

end Parts

/-! ### Transfers -/

section Transfers

variable {s : State} (h : LinkedAll s)

include h

/-- A transfer's operation is its port's own, and the path is free for what follows. -/
theorem owner_of_opOf {p : Port} {t : TaskNo} {k : Task} {c : Claim} {o : Op} (ho : s.opOf p = some (t, k, c, o))
    {v : State} (e : v.ports = s.ports) (e' : ∀ u, v.task u = s.task u) : Owner v t c.port ∧ k.claim = some c := by
  obtain ⟨hk, hc, hop, _⟩ := opOf_spec ho
  exact ⟨(owner_of_op h hk hc (by simp [hop])).congr (.of_ports e) fun u _ => e' u, hc⟩

theorem linked_deliveryPart (e : ReadOutcome) {u : State} (hu : execDeliveryPartTransfer e s = .next u) :
    LinkedAll u := by
  simp only [execDeliveryPartTransfer, Host.Outcome.next.injEq] at hu
  subst hu
  split
  · split
    · next ho =>
      obtain ⟨o, hc⟩ := owner_of_opOf h ho (v := s.freePath) rfl fun _ => rfl
      split
      · split
        · exact linked_damageInDelivery o _ _
        · exact linked_reachDelivery o hc _ _ _ _
      · exact h
    · exact h
  · exact h

theorem linked_peekPart (e : ReadOutcome) {u : State} (hu : execPeekPartTransfer e s = .next u) : LinkedAll u := by
  simp only [execPeekPartTransfer, Host.Outcome.next.injEq] at hu
  subst hu
  split
  · split
    · next ho =>
      obtain ⟨o, hc⟩ := owner_of_opOf h ho (v := s.freePath) rfl fun _ => rfl
      split
      · split
        · exact linked_damageInRead o hc _ _
        · exact linked_reachPeek o hc _ _ _ _ _
      · exact h
    · exact h
  · exact h

theorem linked_fillPage {u : State} (hu : execFillPageWrite s = .next u) : LinkedAll u := by
  simp only [execFillPageWrite, Host.Outcome.next.injEq] at hu
  subst hu
  split
  · split
    · next t k c slot next w b x ho =>
      split
      · next n _ =>
        obtain ⟨o, hc⟩ := owner_of_opOf h ho
          (v := (s.freePath.writePage n 0 Config.pageBytes (framePart b next)).onPage n Page.clearPoison) rfl fun _ => rfl
        split
        · exact linked_op o hc _
        · exact linked_completeFill (k := { k with op := none }) o _ _ _ _
      · exact h
    · exact h
  · exact h

theorem linked_dataReadPart (e : ReadOutcome) {u : State} (hu : execDataReadPartTransfer e s = .next u) :
    LinkedAll u := by
  simp only [execDataReadPartTransfer, Host.Outcome.next.injEq] at hu
  subst hu
  split
  · split
    · next ho =>
      obtain ⟨o, hc⟩ := owner_of_opOf h ho (v := s.freePath) rfl fun _ => rfl
      split
      · split
        · exact linked_damageInRead o hc _ _
        · split
          · exact linked_op o hc _
          · exact linked_answeredLease o hc _
      · exact h
    · exact h
  · exact h

theorem linked_dataWritePage (e : ReadOutcome) {u : State} (hu : execDataWritePageTransfer e s = .next u) :
    LinkedAll u := by
  simp only [execDataWritePageTransfer, Host.Outcome.next.injEq] at hu
  subst hu
  split
  · split
    · next t k c offset bytes next cleared ho =>
      obtain ⟨o, hc⟩ := owner_of_opOf h ho (v := s.freePath) rfl fun _ => rfl
      split
      · next n _ =>
        obtain ⟨o', -⟩ := owner_of_opOf h ho (v := s.freePath.writeDataPart n offset bytes next)
          (by simp only [State.writeDataPart]; split <;> rfl)
          (fun _ => by simp only [State.writeDataPart]; split <;> rfl)
        split
        · exact linked_damageInRead o hc _ _
        · split
          · exact linked_op o' hc _
          · exact linked_answeredLease o' hc _
      · exact h
    · exact h
  · exact h

end Transfers

/-! ### Requests -/

/-- Port p takes request q: its head request is q, unanswered, no claim of the port has an operation in flight, and no
reset line holds the port. -/
structure Takes (s : State) (p : Port) (q : Request) : Prop where
  linked : LinkedAll s
  idle   : Idle s p
  head   : (s.port p).requests.head? = some q
  free   : (s.port p).held = false
  tasks  : ∀ t, ∀ k ∈ s.task t, k.Ok

theorem less_emptySlot (s : State) (t : TaskNo) (slot : Nat) : Less s (s.emptySlot t slot) :=
  ⟨same_emptySlot .., fun u k c hk hc => by
    rw [emptySlot_task] at hk
    split at hk
    · next e =>
      subst e
      obtain ⟨k0, h0, rfl⟩ := Option.map_eq_some_iff.1 hk
      exact ⟨k0, c, h0, hc, rfl, id⟩
    · exact ⟨k, c, hk, hc, rfl, id⟩⟩

theorem less_dropRetained (s : State) (t : TaskNo) (c : Claim) : Less s (s.dropRetained t c) := by
  simp only [State.dropRetained]
  split
  · exact .refl s
  · exact less_emptySlot ..

section Requests

variable {s : State} {p : Port} {q : Request} (h : Takes s p q)

include h

/-- An answer after whatever brings no claim and no operation. -/
theorem linked_answer {v : State} (l : Less s v) (x : Response) : LinkedAll (v.respond p x) :=
  linked_respond (h.linked.less l) (h.idle.less l) x

theorem linked_refuse (st : Status) : LinkedAll (s.refuse p q st) := linked_answer h (.refl s) _

theorem linked_answerClaim {v : State} (l : Less s v) (t : TaskNo) (x : Response) : LinkedAll (v.answerClaim p t x) :=
  linked_answer h (l.trans (less_loadLease ..)) x

/-- The claim found is the port's and idle, and the port owns its task. -/
theorem owner_of_live {t : TaskNo} {k : Task} {c : Claim} {tok : Half} (ht : taskOf q.ops.task = some t)
    (hl : s.liveClaim p t k c tok) : Owner s t c.port ∧ k.claim = some c ∧ k.op = none ∧ c.port = p := by
  obtain ⟨hk, _, hc, hp, _⟩ := hl
  exact ⟨hp ▸ owner_of_idle h.linked h.idle (hp ▸ h.linked.online t k c hk hc) h.head ht, hc, h.idle.idle t k c hk hc hp, hp⟩

theorem linked_takeHello : LinkedAll (takeHello p q s) := by
  simp only [takeHello]
  split
  · exact linked_answer h (.refl s) _
  · generalize hv : s.onPort p PortRecord.openSession = v
    have port : ∀ r, v.port r = if r = p then (s.port p).openSession else s.port r := fun r => by
      rw [← hv]; simp [State.onPort, port_setPort]
    have task : ∀ t, v.task t = s.task t := fun t => by rw [← hv]; rfl
    have line : ∀ r, ((v.port r).session = .online ∨ (v.port r).session = (s.port r).session)
        ∧ (v.port r).held = (s.port r).held ∧ (v.port r).requests = (s.port r).requests
        ∧ (v.port r).waiting = (s.port r).waiting ∧ (v.port r).sending = (s.port r).sending := fun r => by
      rw [port]
      split
      · next e => subst e; exact ⟨.inl rfl, rfl, rfl, rfl, rfl⟩
      · exact ⟨.inr rfl, rfl, rfl, rfl, rfl⟩
    have un : ∀ r, (s.port r).Unanswered → (v.port r).Unanswered := fun r u => by
      obtain ⟨_, _, _, l4, l5⟩ := line r
      exact ⟨l4.trans u.1, fun x => by rw [l5]; exact u.2 x⟩
    refine linked_respond ⟨fun r _ hr => ?_, fun r hr => un r ?_, fun r x hx => ?_, fun t k c hk hc => ?_,
      fun t k c hk hc ho _ => ?_⟩ ⟨?_, un p h.idle.free, fun t k c hk hc hp => ?_⟩ _
    · obtain ⟨l1, l2, l3, l4, l5⟩ := line r
      rw [l2] at hr
      rcases l1 with l1 | l1
      · have : r ≠ p := fun e => by rw [e, h.free] at hr; simp at hr
        rw [port, if_neg this]; exact h.linked.held r trivial hr
      · rw [l1]; exact h.linked.held r trivial hr
    · exact h.linked.empty r ((line r).2.2.1 ▸ hr)
    · rw [(line r).2.2.2.1]; exact h.linked.one r x ((line r).2.2.2.2 ▸ hx)
    · rcases (line c.port).1 with l1 | l1
      · exact l1
      · rw [l1]; exact h.linked.online t k c (task t ▸ hk) hc
    · obtain ⟨g1, g2⟩ := h.linked.head t k c (task t ▸ hk) hc ho trivial
      exact ⟨un _ g1, by rw [(line c.port).2.2.1]; exact g2⟩
    · rw [(line p).2.2.1]; exact h.idle.head
    · exact h.idle.idle t k c (task t ▸ hk) hc hp

theorem linked_takeDefine : LinkedAll (takeDefine p q s) := by
  simp only [takeDefine]
  split
  · exact linked_refuse h _
  · exact linked_refuse h _
  · split
    · exact linked_answer h (.refl s) _
    · refine linked_answer h (.trans (Less.of_same ?_ fun u => reserve_task ..) (less_setTask fun k' c' e1 e2 => ?_)) _
      · refine .of_ports (foldl_frame (fun s => s.ports) (fun s (a : PageNo × Nat) => s.setPage a.1 _) ?_ _ _)
        exact fun _ _ => rfl
      · rw [← Option.some.inj e1] at e2; simp [Params.newTask] at e2

theorem linked_takeDiscard : LinkedAll (takeDiscard p q s) := by
  refine withTask_ind (linked_refuse h) fun t k _ hk => ?_
  split
  · exact linked_refuse h _
  · refine linked_answer h (.trans ((told_giveUpAll ..).less.trans (.of_same (.of_ports ?_) fun u => releasePages_task ..))
      (less_setTask (k := none) (by simp))) _
    rw [releasePages_frame]

theorem linked_takeRetune : LinkedAll (takeRetune p q s) := by
  simp only [takeRetune]
  split
  · exact linked_refuse h _
  · refine withTask_ind (linked_refuse h) fun t k _ hk => ?_
    split
    · exact linked_refuse h _
    · refine linked_answer h (less_setTask fun k' c' e1 e2 => ?_) _
      rw [← Option.some.inj e1] at e2 ⊢
      exact ⟨k, c', hk, e2, rfl, id⟩

theorem linked_takeSalvage : LinkedAll (takeSalvage p q s) := by
  refine withTask_ind (linked_refuse h) fun t k _ hk => ?_
  split
  · next slot f _ _ =>
    exact linked_answer h ((((told_giveUpAll ..).less.trans (less_emptySlot ..)).trans
      (less_onTask _ _ Task.popToRest fun k c hc => ⟨c, hc, rfl, id⟩)).trans (told_postAll ..).less) _
  · exact linked_refuse h _

theorem linked_takeClaim (on : (s.port p).session = .online) : LinkedAll (takeClaim p q s) := by
  refine withTask_ind (linked_refuse h) fun t k ht hk => ?_
  split
  · exact linked_refuse h _
  · next hr =>
    have hn : k.state ≠ .running := by
      simp only [Task.claimRefusal] at hr
      split at hr <;> [simp at hr; skip]
      split at hr <;> [simp at hr; skip]
      split at hr <;> [simp at hr; skip]
      assumption
    have ko := h.tasks t k hk
    have hop : k.op = none := by
      have h1 := ko.1; have h2 := ko.2.1
      cases hop : k.op <;> simp_all
    have o : Owner s t p := owner_of_idle h.linked h.idle on h.head ht
    have o' : Owner { s with nextToken := tokenAfter s.nextToken } t p := o.congr (.of_ports rfl) fun _ _ => rfl
    simp only [State.acceptClaim]
    split
    · next slot f _ _ =>
      refine linked_reachDelivery (Owner.setTask ?_ _) rfl _ _ _ _
      exact o'
    · refine linked_respond (o'.rewritten fun c e => ?_).1 (o'.rewritten fun c e => ?_).2 _ <;>
        (simp only [Task.loadLease, Task.claimed, Option.map_some, Option.some.injEq] at e
         exact ⟨by rw [← e]; rfl, hop⟩)

theorem linked_takeRelease : LinkedAll (takeRelease p q s) := by
  refine withClaim_ind (linked_refuse h) fun t k c _ _ => ?_
  exact linked_answer h ((((told_withdraw ..).less.trans (told_giveUpAll ..).less).trans (less_dropRetained ..)).trans
    (less_onTask _ _ Task.endClaim (by simp [Task.endClaim])) |>.trans (told_postFreed ..).less) _

theorem linked_takeSuspend : LinkedAll (takeSuspend p q s) := by
  refine withClaim_ind (linked_refuse h) fun t k c ht hl => ?_
  obtain ⟨o, hc, _, _⟩ := owner_of_live h ht hl
  split
  · exact linked_answer h (less_loadLease ..) _
  · have o' : Owner (s.withdraw ⟨t, c.token⟩) t c.port := o.congr (told_withdraw ..).same fun _ _ => (told_withdraw ..).task _
    refine LinkedOn.less (o'.started (k := k.startFill q.ops.arg q.ops.payload _) fun c' e => ?_)
      (.of_same (.of_ports ?_) fun u => withdrawPages_task ..)
    · simp only [Task.startFill, Task.withSlot, Task.stopLease, hc, Option.map_some, Option.some.injEq] at e
      rw [← e]; rfl
    · rw [withdrawPages_frame]

theorem linked_takeRenew : LinkedAll (takeRenew p q s) :=
  withClaim_ind (linked_refuse h) fun _ _ _ _ _ => linked_answer h (less_loadLease ..) _

theorem linked_takeEvict : LinkedAll (takeEvict p q s) := by
  refine withTask_ind (linked_refuse h) fun t k _ _ => ?_
  split
  · exact linked_respond (linked_abnormalEnd h.linked t _ (.inr fun _ => trivial)) (h.idle.abnormalEnd t _) _
  · exact linked_refuse h _

theorem linked_takePeekFrame : LinkedAll (takePeekFrame p q s) := by
  refine withClaim_ind (linked_refuse h) fun t k c ht hl => ?_
  obtain ⟨o, hc, _, _⟩ := owner_of_live h ht hl
  split
  · exact linked_answer h (less_loadLease ..) _
  · split
    · exact linked_answer h (less_loadLease ..) _
    · exact linked_reachPeek (c := c.stopLease) (o.setTask _) (by simp [Task.stopLease, hc]) _ _ _ _ _

theorem linked_takeDataRead : LinkedAll (takeDataRead p q s) := by
  refine withClaim_ind (linked_refuse h) fun t k c ht hl => ?_
  obtain ⟨o, hc, _, _⟩ := owner_of_live h ht hl
  dsimp only
  split
  · exact linked_answer h (less_loadLease ..) _
  · split
    · exact linked_answer h (less_loadLease ..) _
    · exact linked_op (k := k.stopLease) (c := c.stopLease) o (by simp [Task.stopLease, hc]) _

theorem linked_takeDataWrite : LinkedAll (takeDataWrite p q s) := by
  refine withClaim_ind (linked_refuse h) fun t k c ht hl => ?_
  obtain ⟨o, hc, _, _⟩ := owner_of_live h ht hl
  dsimp only
  split
  · exact linked_answer h (less_loadLease ..) _
  · split
    · exact linked_answer h (less_loadLease ..) _
    · exact linked_op (k := k.stopLease) (c := c.stopLease) o (by simp [Task.stopLease, hc]) _

/-- A request that has passed steps 2 to 4. -/
theorem linked_carryOut (c : RequestCode) (on : c ≠ .hello → (s.port p).session = .online) :
    LinkedAll (carryOut p q s c) := by
  have lock : ∀ l k, Less s (s.setLock l k) := fun l k => (told_setLock ..).less
  have answer : ∀ t x, LinkedAll (s.answerClaim p t x) := linked_answerClaim h (.refl s)
  cases c <;> simp only [carryOut]
  case hello => exact linked_takeHello h
  case define => exact linked_takeDefine h
  case discard => exact linked_takeDiscard h
  case retune => exact linked_takeRetune h
  case salvage => exact linked_takeSalvage h
  case claim => exact linked_takeClaim h (on (by simp))
  case release => exact linked_takeRelease h
  case suspend => exact linked_takeSuspend h
  case renew => exact linked_takeRenew h
  case evict => exact linked_takeEvict h
  case peekFrame => exact linked_takePeekFrame h
  case dataRead => exact linked_takeDataRead h
  case dataWrite => exact linked_takeDataWrite h
  case goodbye => exact linked_answer h (.refl s) _
  case grantRights =>
    simp only [takeGrantRights]
    split
    · exact linked_answer h (.of_same (same_onPort _ _ _ ⟨rfl, rfl, rfl, rfl, fun _ => .rfl⟩) fun _ => rfl) _
    · exact linked_refuse h _
  case fetchNotice =>
    simp only [takeFetchNotice]
    split
    · exact linked_answer h (.refl s) _
    · refine linked_answer h (.of_same (same_onPort _ _ _ ?_) fun _ => rfl) _
      simp only [PortRecord.fetch, PortRecord.driveLine]
      split <;> exact ⟨rfl, rfl, rfl, rfl, fun _ => .rfl⟩
  case queryTask => exact withTask_ind (linked_refuse h) fun _ _ _ _ => linked_answer h (.refl s) _
  case lockNew =>
    simp only [takeLockNew]
    split
    · exact linked_refuse h _
    · exact linked_answer h (lock _ _) _
  case lockReturn =>
    refine withLock_ind (linked_refuse h) fun l _ => ?_
    split
    · exact linked_refuse h _
    · exact linked_answer h (lock _ _) _
  case take =>
    exact withClaimLock_ind (linked_refuse h) fun t k c l _ _ =>
      takeLock_ind (fun _ _ => linked_answerClaim h (lock _ _) _ _) (fun _ => answer _ _) fun _ _ => answer _ _
  case takeWait =>
    refine withClaimLock_ind (linked_refuse h) fun t k c l _ _ =>
      takeLock_ind (fun _ _ => linked_answerClaim h (lock _ _) _ _) (fun _ => answer _ _) fun _ _ => ?_
    split
    · exact answer _ _
    · split
      · exact answer _ _
      · exact linked_answerClaim h (lock _ _) _ _
  case withdraw =>
    refine withClaim_ind (linked_refuse h) fun t k c _ _ => ?_
    split
    · exact answer _ _
    · exact linked_answerClaim h (told_withdraw ..).less _ _
  case give =>
    refine withClaimLock_ind (linked_refuse h) fun t k c l _ _ => ?_
    split
    · exact linked_answerClaim h (told_giveUp ..).less _ _
    · exact answer _ _
  case queryLock => exact withLock_ind (linked_refuse h) fun _ _ => linked_answer h (.refl s) _
  case queryMemory => exact linked_answer h (.refl s) _

theorem linked_takeRequest : LinkedAll (takeRequest p q s) := by
  simp only [takeRequest]
  split
  · split
    · exact linked_refuse h _
    · exact linked_refuse h _
  · split
    · exact linked_refuse h _
    · next hs =>
      split
      · exact linked_refuse h _
      · split
        · exact linked_refuse h _
        · refine linked_carryOut h _ fun hc => ?_
          cases e : (s.port p).session
          · exact absurd ⟨e, hc⟩ hs
          · rfl

end Requests

/-! ### The link -/

/-- One port's line rewritten: its session, reset line and head request as they were, an unanswered head unanswered
still, and an answer on the line the only one. -/
theorem linked_line {D : Port → Prop} {s : State} (h : LinkedOn D s) (p : Port) (f : PortRecord → PortRecord)
    (h1 : (f (s.port p)).session = (s.port p).session) (h2 : (f (s.port p)).held = (s.port p).held)
    (h3 : (f (s.port p)).requests.head? = (s.port p).requests.head?)
    (h4 : (s.port p).Unanswered → (f (s.port p)).Unanswered)
    (h5 : ∀ x, (f (s.port p)).sending = some (.answer x) → (f (s.port p)).waiting = none) :
    LinkedOn D (s.onPort p f) := by
  have port : ∀ r, (s.onPort p f).port r = if r = p then f (s.port p) else s.port r := fun r => by
    simp [State.onPort, port_setPort]
  have same : ∀ r, ((s.onPort p f).port r).session = (s.port r).session ∧ ((s.onPort p f).port r).held = (s.port r).held
      ∧ ((s.onPort p f).port r).requests.head? = (s.port r).requests.head?
      ∧ ((s.port r).Unanswered → ((s.onPort p f).port r).Unanswered) := fun r => by
    rw [port]
    split
    · next e => subst e; exact ⟨h1, h2, h3, h4⟩
    · exact ⟨rfl, rfl, rfl, id⟩
  refine ⟨fun r hd hr => ?_, fun r hr => ?_, fun r x hx => ?_, fun t k c hk hc => ?_, fun t k c hk hc ho hd => ?_⟩
  · rw [(same r).1]; exact h.held r hd ((same r).2.1 ▸ hr)
  · have := (same r).2.2.1
    rw [hr] at this
    exact (same r).2.2.2 (h.empty r (List.head?_eq_none_iff.1 this.symm))
  · rw [port] at hx ⊢
    split
    · next e => rw [if_pos e] at hx; exact h5 x hx
    · next e => rw [if_neg e] at hx; exact h.one r x hx
  · rw [(same c.port).1]; exact h.online t k c hk hc
  · obtain ⟨g1, g2⟩ := h.head t k c hk hc ho hd
    exact ⟨(same c.port).2.2.2 g1, by rw [(same c.port).2.2.1]; exact g2⟩

/-- What starting SDOn does to a line. -/
theorem startSending_line (r : PortRecord) :
    r.startSending.session = r.session ∧ r.startSending.held = r.held ∧ r.startSending.requests = r.requests
      ∧ (r.Unanswered → r.startSending.Unanswered)
      ∧ ((∀ x, r.sending = some (.answer x) → r.waiting = none) →
          ∀ x, r.startSending.sending = some (.answer x) → r.startSending.waiting = none) := by
  rcases startSending_cases r with ⟨_, e⟩ | ⟨a, rest, h, _, e⟩ | ⟨y, h, _, hw, e⟩ | ⟨_, _, _, e⟩ <;> rw [e]
  · exact ⟨rfl, rfl, rfl, id, id⟩
  · exact ⟨rfl, rfl, rfl, fun u => ⟨u.1, by simp⟩, fun _ x hx => by simp at hx⟩
  · exact ⟨rfl, rfl, rfl, fun u => absurd (hw.symm.trans u.1) (by simp), fun _ _ _ => rfl⟩
  · exact ⟨rfl, rfl, rfl, id, id⟩

theorem linked_addLinkAnswer {s : State} (h : LinkedAll s) (p : Port) (a : LinkAnswer) :
    LinkedAll (s.onPort p (·.addLinkAnswer a)) := by
  have line : ∀ r : PortRecord, (r.addLinkAnswer a).session = r.session ∧ (r.addLinkAnswer a).held = r.held
      ∧ (r.addLinkAnswer a).requests = r.requests ∧ (r.Unanswered → (r.addLinkAnswer a).Unanswered)
      ∧ ((∀ x, r.sending = some (.answer x) → r.waiting = none) →
          ∀ x, (r.addLinkAnswer a).sending = some (.answer x) → (r.addLinkAnswer a).waiting = none) := by
    intro r
    simp only [PortRecord.addLinkAnswer]
    split
    · exact startSending_line { r with linkAnswers := r.linkAnswers ++ [a] }
    · exact ⟨rfl, rfl, rfl, id, id⟩
  obtain ⟨l1, l2, l3, l4, l5⟩ := line (s.port p)
  exact linked_line h p _ l1 l2 (by rw [l3]) l4 (l5 (h.one p))

/-- A request that joins an empty queue is the one the port takes. -/
theorem takes_queued {s : State} (i : ∀ t, ∀ k ∈ s.task t, k.Ok) (h : LinkedAll s) {p : Port} (hp : (s.port p).held = false)
    (he : (s.port p).requests = []) (q : Request) : Takes (s.onPort p (·.queueRequest q)) p q := by
  have port : ∀ r, (s.onPort p (·.queueRequest q)).port r = if r = p then (s.port p).queueRequest q else s.port r :=
    fun r => by simp [State.onPort, port_setPort]
  have un : ∀ r, (s.port r).Unanswered → ((s.onPort p (·.queueRequest q)).port r).Unanswered := fun r u => by
    rw [port]; split
    · next e => subst e; exact u
    · exact u
  have idle : ∀ t k c, s.task t = some k → k.claim = some c → c.port = p → k.op = none := by
    intro t k c hk hc hcp
    cases ho : k.op with
    | none => rfl
    | some o =>
      obtain ⟨_, q', g, _⟩ := h.head t k c hk hc (by simp [ho]) trivial
      rw [hcp, he] at g; simp at g
  refine ⟨⟨fun r _ hr => ?_, fun r hr => ?_, fun r x hx => ?_, fun t k c hk hc => ?_, fun t k c hk hc ho _ => ?_⟩,
    ⟨?_, un p (h.empty p he), idle⟩, ?_, ?_, i⟩
  · rw [port] at hr ⊢
    split
    · next e => subst e; rw [if_pos rfl] at hr; exact h.held r trivial hr
    · next e => rw [if_neg e] at hr; exact h.held r trivial hr
  · by_cases e : r = p
    · subst e; exact un r (h.empty r he)
    · rw [port, if_neg e] at hr; exact un r (h.empty r hr)
  · rw [port] at hx ⊢
    split
    · next e => subst e; rw [if_pos rfl] at hx; exact h.one r x hx
    · next e => rw [if_neg e] at hx; exact h.one r x hx
  · have := h.online t k c hk hc
    rw [port]
    split
    · next e => rw [e] at this; exact this
    · exact this
  · have hne : c.port ≠ p := fun e => by simp [idle t k c hk hc e] at ho
    rw [port, if_neg hne]
    exact h.head t k c hk hc ho trivial
  · rw [port, if_pos rfl]; simp [PortRecord.queueRequest]
  · rw [port, if_pos rfl]; simp [PortRecord.queueRequest, he]
  · rw [port, if_pos rfl]; exact hp

theorem linked_arrive {s : State} (i : ∀ t, ∀ k ∈ s.task t, k.Ok) (h : LinkedAll s) (p : Port) (q : Request) :
    LinkedAll (arrive p q s) := by
  simp only [arrive]
  split
  · exact h
  · next hd =>
    split
    · split
      · next he =>
        refine linked_takeRequest (takes_queued i h ?_ (by simpa using he) q)
        simp only [State.deaf, Bool.or_eq_true, not_or, Bool.not_eq_true] at hd
        exact hd.2
      · next he =>
        refine h.less (.of_same (same_onPort _ _ _ ⟨rfl, rfl, ?_, rfl, fun _ => .rfl⟩) fun _ => rfl)
        cases e : (s.port p).requests
        · simp [e] at he
        · simp [PortRecord.queueRequest, e]
    · exact linked_addLinkAnswer h p _

/-- Teardown leaves what a port has queued, and brings no claim. -/
theorem teardown_spec (s : State) (p : Port) :
    (((s.teardown p).port p).held = (s.port p).held ∧ ((s.teardown p).port p).requests.head? = (s.port p).requests.head?
      ∧ ((s.port p).Unanswered → ((s.teardown p).port p).Unanswered))
    ∧ ∀ u k c, (s.teardown p).task u = some k → k.claim = some c → s.task u = some k := by
  simp only [State.teardown]
  split
  · generalize hw : (s.claimsOf p).foldl State.withdrawClaim s = w
    have tw : Told s w := by rw [← hw]; exact .foldl _ told_withdrawClaim _ _
    generalize he : (s.claimsOf p).foldl (fun s t => s.abnormalEnd t .portDown) w = e
    have ends : ∀ (ts : List TaskNo) (u : State),
        SameLines u (ts.foldl (fun s t => s.abnormalEnd t .portDown) u) := by
      intro ts
      induction ts with
      | nil => exact fun _ => .refl _
      | cons t ts ih =>
        refine fun u => .trans ?_ (ih _)
        cases ht : u.task t with
        | none => simp only [State.abnormalEnd, ht]; exact .refl u
        | some k0 =>
          cases hc0 : k0.claim with
          | none => simp only [State.abnormalEnd, ht, hc0]; exact .refl u
          | some c0 =>
            obtain ⟨n, less, -, e⟩ := abnormalEnd_form .portDown ht hc0
            show SameLines u (u.abnormalEnd t .portDown)
            rw [e]; exact less.toSameLines
    have se : SameLines s e := by rw [← he]; exact tw.same.trans (ends _ _)
    have st := (told_postAll (e.onPort p PortRecord.close) (otherPorts p) (.portDown p (s.claimsOf p).length)).same
    have close : (e.onPort p PortRecord.close).port p = (e.port p).close := by simp [State.onPort]
    refine ⟨⟨?_, ?_, fun u => st.unanswered ?_⟩, fun u k c hk hc => ?_⟩
    · rw [(st.lines p).2.1, close]; exact (se.lines p).2.1
    · rw [(st.lines p).2.2.1, close]; exact (se.lines p).2.2.1
    · rw [close]; exact se.unanswered u
    · rw [(told_postAll ..).task, onPort_task, ← he] at hk
      have := (abnormalEnds_claims _ _ _ hk hc).2
      rwa [tw.task] at this
  · exact ⟨⟨rfl, rfl, id⟩, fun _ _ _ hk _ => hk⟩

/-- The head removed, when its answer has left: the records agree with themselves. -/
theorem responseSent_dropped {s : State} (i : s.RecordsOk) (h : LinkedAll s) {p : Port} {x : Response}
    (hx : (s.port p).sending = some (.answer x)) :
    (s.onPort p PortRecord.dropHead).RecordsOk ∧ (s.port p).held = false := by
  have hheld : (s.port p).held = false := by
    cases e : (s.port p).held
    · rfl
    · exact absurd hx ((h.empty p ((i.ports p).2.2.2.2.2.2.2.2 e).1).2 x)
  refine ⟨(keeps_setPort s p (s.port p).dropHead (fun ok => ?_) id).records i, hheld⟩
  obtain ⟨o1, o2, o3, o4, o5, o6, o7, o8, o9⟩ := ok
  refine ⟨?_, o2, o3, o4, o5, o6, o7, o8, fun e => ?_⟩
  · simp only [PortRecord.dropHead, List.length_tail]; omega
  · have e : (s.port p).held = true := e
    simp [hheld] at e

/-- The part when the answer to port p's head request has left, a GOODBYE's teardown carried out: what the next request
finds. -/
theorem responseSent_next {s : State} (i : s.RecordsOk) (h : LinkedAll s) {p : Port} {x : Response}
    (hx : (s.port p).sending = some (.answer x)) {s2 : State}
    (h2 : (if (s.port p).closing x then (s.onPort p PortRecord.dropHead).teardown p
      else s.onPort p PortRecord.dropHead) = s2) :
    LinkedAll s2 ∧ s2.RecordsOk ∧ (s2.port p).Unanswered ∧ (s2.port p).held = false
      ∧ ∀ t k c, s2.task t = some k → k.claim = some c → c.port = p → k.op = none := by
  obtain ⟨records1, hheld⟩ := responseSent_dropped i h hx
  have hw := h.one p x hx
  have hidle : ∀ t k c, s.task t = some k → k.claim = some c → c.port = p → k.op = none := by
    intro t k c hk hc hcp
    cases ho : k.op with
    | none => rfl
    | some o => exact absurd hx (hcp ▸ (h.head t k c hk hc (by simp [ho]) trivial).1.2 x)
  generalize h1 : s.onPort p PortRecord.dropHead = s1 at h2 records1
  have port : ∀ r, s1.port r = if r = p then (s.port p).dropHead else s.port r := fun r => by
    rw [← h1]; simp [State.onPort, port_setPort]
  have task : ∀ t, s1.task t = s.task t := fun t => by rw [← h1]; rfl
  have free1 : (s1.port p).Unanswered := by
    rw [port, if_pos rfl]; exact ⟨hw, by simp [PortRecord.dropHead]⟩
  have held1 : (s1.port p).held = false := by rw [port, if_pos rfl]; exact hheld
  have linked1 : LinkedAll s1 := by
    refine ⟨fun r _ hr => ?_, fun r hr => ?_, fun r y hy => ?_, fun t k c hk hc => ?_, fun t k c hk hc ho _ => ?_⟩
    · by_cases e : r = p
      · rw [e, held1] at hr; simp at hr
      · rw [port, if_neg e] at hr ⊢; exact h.held r trivial hr
    · by_cases e : r = p
      · rw [e]; exact free1
      · rw [port, if_neg e] at hr ⊢; exact h.empty r hr
    · by_cases e : r = p
      · rw [e] at hy; exact absurd hy (free1.2 y)
      · rw [port, if_neg e] at hy ⊢; exact h.one r y hy
    · have := h.online t k c (task t ▸ hk) hc
      rw [port]
      split
      · next e => rw [e] at this; exact this
      · exact this
    · have hne : c.port ≠ p := fun e => by simp [hidle t k c (task t ▸ hk) hc e] at ho
      rw [port, if_neg hne]; exact h.head t k c (task t ▸ hk) hc ho trivial
  rw [← h2]
  split
  · obtain ⟨⟨t1, _, t3⟩, t4⟩ := teardown_spec s1 p
    exact ⟨linked_teardown (linked1.mono fun _ _ => trivial), (keeps_teardown s1 p).records records1, t3 free1,
      t1.trans held1, fun t k c hk hc => hidle t k c (task t ▸ t4 t k c hk hc) hc⟩
  · exact ⟨linked1, records1, free1, held1, fun t k c hk => hidle t k c (task t ▸ hk)⟩

theorem linked_responseSent {s u : State} (i : s.RecordsOk) (h : LinkedAll s) (p : Port)
    (hu : execResponseSent p s = .next u) : LinkedAll u := by
  simp only [execResponseSent, Host.Outcome.next.injEq] at hu
  subst hu
  split
  · exact h
  · next x hx =>
    obtain ⟨l1, l2, l3, l4, l5⟩ := startSending_line { s.port p with sending := none }
    refine linked_line h p _ l1 l2 (by rw [l3]) (fun u => l4 ⟨u.1, by simp⟩) (l5 (by simp))
  · next x hx =>
    generalize h2 : (if (s.port p).closing x then (s.onPort p PortRecord.dropHead).teardown p
      else s.onPort p PortRecord.dropHead) = s2
    obtain ⟨g1, g2, g3, g4, g5⟩ := responseSent_next i h hx h2
    have next : LinkedAll (s2.takeNext p) := by
      simp only [State.takeNext]
      split
      · exact g1
      · next q rest hq =>
        exact linked_takeRequest ⟨g1, ⟨by simp [hq], g3, g5⟩, by simp [hq], g4, g2.tasks⟩
    obtain ⟨l1, l2, l3, l4, l5⟩ := startSending_line ((s2.takeNext p).port p)
    exact linked_line next p _ l1 l2 (by rw [l3]) l4 (l5 (next.one p))

/-- After a full reset every port is OFFLINE with nothing queued, and there is no claim. -/
theorem linked_fullyReset (v : State) (m : Memory) (b : Bool) : LinkedAll (v.fullyReset m b) := by
  have task : ∀ t, (v.fullyReset m b).task t = none := fun t => by simp [State.task, State.fullyReset, State.reset]
  have port : ∀ r, (v.fullyReset m b).port r = { State.reset.port r with held := (v.port r).held } := fun r => by
    simp [State.port, State.fullyReset]
  have reset : ∀ r, State.reset.port r = .reset (State.reset.port r).rights := by decide
  refine ⟨fun r _ _ => ?_, fun r _ => ?_, fun r x hx => ?_, fun t k c hk => ?_, fun t k c hk => ?_⟩
  · rw [port, reset]; rfl
  · rw [port, reset]; exact ⟨rfl, by simp [PortRecord.reset]⟩
  · rw [port, reset] at hx; simp [PortRecord.reset] at hx
  · simp [task] at hk
  · simp [task] at hk

/-- Every command keeps the ports' agreement with the claims. -/
theorem linked_exec {s u : State} (ok : s.RecordsOk) (h : LinkedAll s) (i : Instr) (hu : exec i s = .next u) :
    LinkedAll u := by
  cases hr : i.request with
  | some x =>
    rw [exec_request s hr, Host.Outcome.next.injEq] at hu
    subst hu
    exact linked_arrive ok.tasks h ..
  | none =>
    cases i <;> simp only [Instr.request, reduceCtorEq] at hr <;> simp only [exec] at hu
    case responseSent p => exact linked_responseSent ok h p hu
    case deliveryPartTransfer e => exact linked_deliveryPart h e hu
    case fillPageWrite => exact linked_fillPage h hu
    case peekPartTransfer e => exact linked_peekPart h e hu
    case dataReadPartTransfer e => exact linked_dataReadPart h e hu
    case dataWritePageTransfer e => exact linked_dataWritePage h e hu
    all_goals simp only [execMessageEnd, execArbiterGrant, execLeaseExpiry, execPortReset, execPortResetRelease,
      execFullReset, execFullResetRelease, execLeaseTimerMillisecond, execScrubberTakePage, execScrubCompletion,
      Host.Outcome.next.injEq] at hu
    all_goals subst hu
    case messageEnd p m =>
      split
      · exact linked_arrive ok.tasks h ..
      · split
        · exact h
        · exact linked_addLinkAnswer h p _
    case arbiterGrant =>
      split
      · exact h
      · split
        · exact h
        · exact h.less (.of_same (.of_ports rfl) fun _ => rfl)
    case scrubberTakePage =>
      split
      · exact h
      · split
        · exact h
        · exact h.less (.of_same (.of_ports rfl) fun _ => rfl)
    case scrubCompletion =>
      split
      · exact h.less (.of_same (.of_ports rfl) fun _ => rfl)
      · exact h
    case leaseExpiry t =>
      split
      · exact linked_abnormalEnd h t _ (.inr fun _ => trivial)
      · exact h
    case portReset p =>
      refine linked_teardown ?_
      have port : ∀ r, (s.onPort p PortRecord.cutOff).port r = if r = p then (s.port p).cutOff else s.port r :=
        fun r => by simp [State.onPort, port_setPort]
      refine ⟨fun r hd hr => ?_, fun r hr => ?_, fun r x hx => ?_, fun t k c hk hc => ?_, fun t k c hk hc ho hd => ?_⟩
      · rw [port, if_neg hd] at hr ⊢; exact h.held r trivial hr
      · rw [port] at hr ⊢
        split
        · exact ⟨rfl, by simp [PortRecord.cutOff]⟩
        · next e => rw [if_neg e] at hr; exact h.empty r hr
      · rw [port] at hx ⊢
        split
        · rfl
        · next e => rw [if_neg e] at hx; exact h.one r x hx
      · have := h.online t k c hk hc
        rw [port]
        split
        · next e => rw [e] at this; exact this
        · exact this
      · rw [port, if_neg hd]; exact h.head t k c hk hc ho trivial
    case portResetRelease p =>
      split
      · next hp =>
        have off := h.held p trivial hp
        have none : ∀ t k c, s.task t = some k → k.claim = some c → c.port ≠ p := fun t k c hk hc e => by
          have := h.online t k c hk hc
          rw [e, off] at this; simp at this
        have port : ∀ r, (s.onPort p PortRecord.restart).port r = if r = p then (s.port p).restart else s.port r :=
          fun r => by simp [State.onPort, port_setPort]
        refine ⟨fun r _ hr => ?_, fun r hr => ?_, fun r x hx => ?_, fun t k c hk hc => ?_, fun t k c hk hc ho _ => ?_⟩
        · rw [port] at hr ⊢
          split
          · rfl
          · next e => rw [if_neg e] at hr; exact h.held r trivial hr
        · rw [port] at hr ⊢
          split
          · exact ⟨rfl, by simp [PortRecord.restart, PortRecord.reset]⟩
          · next e => rw [if_neg e] at hr; exact h.empty r hr
        · rw [port] at hx ⊢
          split
          · rfl
          · next e => rw [if_neg e] at hx; exact h.one r x hx
        · rw [port, if_neg (none t k c hk hc)]; exact h.online t k c hk hc
        · rw [port, if_neg (none t k c hk hc)]; exact h.head t k c hk hc ho trivial
      · exact h
    case fullReset c => exact linked_fullyReset ..
    case fullResetRelease =>
      split
      · exact linked_fullyReset ..
      · exact h
    case leaseTimerMillisecond =>
      have tick : ∀ (ts : List TaskNo) (v : State), Less v
          (ts.foldl (fun s t => s.onTask t fun k => { k with claim := k.claim.map Claim.tick }) v) := by
        intro ts
        induction ts with
        | nil => exact fun _ => .refl _
        | cons t ts ih =>
          refine fun v => (less_onTask v t _ fun k c' hc => ?_).trans (ih _)
          obtain ⟨c, e, rfl⟩ := Option.map_eq_some_iff.1 hc
          refine ⟨c, e, ?_, id⟩
          simp only [Claim.tick]
          split
          · rfl
          · split <;> rfl
      exact h.less (tick _ _)

end Sys2Proof.Laws
end

