-- ==== Sys2Proof/Laws/Pages.lean ====
section
/-! SUPPORT. The page map against the tasks, the scrub queue and context memory (`State.PagesOk`): what each operation
over pages, slots and claims does to their agreement. -/

namespace Sys2Proof.Laws

open Sys2Proof Sys2Proof.Machine

/-! ### Places -/

/-- The page that stands at a place of task t's page lists. -/
def placeOf (s : State) (t : TaskNo) (r : Role) : Option PageNo := (s.task t).bind (·.pageAt r)

theorem placeOf_iff {s : State} {t : TaskNo} {r : Role} {n : PageNo} :
    placeOf s t r = some n ↔ ∃ k, s.task t = some k ∧ k.pageAt r = some n := by
  simp [placeOf, Option.bind_eq_some_iff]

theorem placeOf_some {s : State} {t : TaskNo} {k : Task} (hk : s.task t = some k) (r : Role) :
    placeOf s t r = k.pageAt r := by simp [placeOf, hk]

/-- A page at a place is RESERVED, with that place as its owner and role. -/
theorem reserved_of_place {s : State} {t : TaskNo} {r : Role} {n : PageNo} (h : s.PagesOk)
    (hp : placeOf s t r = some n) :
    (s.page n).state = .reserved ∧ (s.page n).owner = some t ∧ (s.page n).role = some r := by
  obtain ⟨h1, h2⟩ := (h.places n t r).2 (placeOf_iff.1 hp)
  exact ⟨(h.records n).1.2 (by simp [h1]), h1, h2⟩

theorem not_free_of_place {s : State} {t : TaskNo} {r : Role} {n : PageNo} (h : s.PagesOk)
    (hp : placeOf s t r = some n) : (s.page n).state ≠ .free := by
  rw [(reserved_of_place h hp).1]; simp

/-! ### Operations that leave the page map -/

/-- From s to t no page, queue entry, byte of memory or page list changes. -/
structure SamePages (s t : State) : Prop where
  pages  : ∀ n, t.page n = s.page n
  queue  : t.scrubQueue = s.scrubQueue
  taken  : t.scrubbing = s.scrubbing
  mem    : t.mem = s.mem
  places : ∀ u r, placeOf t u r = placeOf s u r

theorem SamePages.refl (s : State) : SamePages s s := ⟨fun _ => rfl, rfl, rfl, rfl, fun _ _ => rfl⟩

theorem SamePages.trans {s t u : State} (a : SamePages s t) (b : SamePages t u) : SamePages s u :=
  ⟨fun n => (b.pages n).trans (a.pages n), b.queue.trans a.queue, b.taken.trans a.taken, b.mem.trans a.mem,
    fun x r => (b.places x r).trans (a.places x r)⟩

theorem PortsLocks.samePages {s t : State} (h : PortsLocks s t) : SamePages s t := by
  rw [h.frame]; exact ⟨fun _ => rfl, rfl, rfl, rfl, fun _ _ => rfl⟩

theorem Told.samePages {s t : State} (h : Told s t) : SamePages s t := h.toPortsLocks.samePages

/-- A task's record rewritten with its page lists as they were. -/
theorem samePages_setTask {s : State} {t : TaskNo} {k : Task} (h : ∀ r, placeOf s t r = k.pageAt r) :
    SamePages s (s.setTask t (some k)) :=
  ⟨fun _ => rfl, rfl, rfl, rfl, fun u r => by
    simp only [placeOf, task_setTask]
    split
    · next e => subst e; exact (h r).symm
    · rfl⟩

theorem samePages_onTask (s : State) (t : TaskNo) (f : Task → Task) (h : ∀ k r, (f k).pageAt r = k.pageAt r) :
    SamePages s (s.onTask t f) :=
  ⟨fun _ => rfl, rfl, rfl, rfl, fun u r => by
    simp only [placeOf, onTask_task]
    split
    · next e => subst e; cases s.task u <;> simp [h]
    · rfl⟩

theorem PagesOk.same {s t : State} (h : s.PagesOk) (e : SamePages s t) : t.PagesOk := by
  obtain ⟨e1, e2, e3, e4, e5⟩ := e
  refine ⟨fun n => ?_, fun n u r => ?_, fun n => ?_, fun n => ?_, fun n => ?_, fun n => ?_⟩
  · rw [e1]; exact h.records n
  · rw [e1, ← placeOf_iff, e5, placeOf_iff]; exact h.places n u r
  · rw [e1, e2]; exact h.queued n
  · rw [e1, e2, e3]; exact h.waiting n
  · rw [e1, e3]; exact h.taken n
  · rw [e1, e4]; exact h.zero n

/-! ### Marks and memory -/

/-- A page's poison mark rewritten, set only on a page that is not FREE. -/
theorem pages_poison {s : State} (h : s.PagesOk) (n : PageNo) (b : Bool) (hb : b = true → (s.page n).state ≠ .free) :
    (s.onPage n fun g => { g with poisoned := b }).PagesOk := by
  have e : ∀ m, ∃ b', (s.onPage n fun g => { g with poisoned := b }).page m = { s.page m with poisoned := b' }
      ∧ (b' = true → (s.page m).state ≠ .free) := by
    intro m
    rw [onPage_page]
    split
    · next e => subst e; exact ⟨b, rfl, hb⟩
    · exact ⟨_, rfl, (h.records m).2.2.2⟩
  refine ⟨fun m => ?_, fun m u r => ?_, fun m => ?_, fun m => ?_, fun m => ?_, fun m => ?_⟩ <;>
    obtain ⟨b', e1, e2⟩ := e m <;> rw [e1]
  · exact ⟨(h.records m).1, (h.records m).2.1, (h.records m).2.2.1, e2⟩
  · exact h.places m u r
  · exact h.queued m
  · exact h.waiting m
  · exact h.taken m
  · exact h.zero m

theorem pages_markPoisoned {s : State} (h : s.PagesOk) {n : PageNo} (hn : (s.page n).state ≠ .free) :
    (s.onPage n Page.markPoisoned).PagesOk := pages_poison h n true fun _ => hn

theorem pages_clearPoison {s : State} (h : s.PagesOk) (n : PageNo) : (s.onPage n Page.clearPoison).PagesOk :=
  pages_poison h n false (by simp)

@[simp] theorem onPage_place (s : State) (n : PageNo) (f : Page → Page) (t : TaskNo) (r : Role) :
    placeOf (s.onPage n f) t r = placeOf s t r := rfl

@[simp] theorem freePath_place (s : State) (t : TaskNo) (r : Role) : placeOf s.freePath t r = placeOf s t r := rfl

theorem samePages_freePath (s : State) : SamePages s s.freePath := ⟨fun _ => rfl, rfl, rfl, rfl, fun _ _ => rfl⟩

/-- A write into one page leaves every byte of the others. -/
theorem read_writePage_other {s : State} {n m : PageNo} {off len : Nat} {b : List Byte} (hm : m ≠ n)
    (hl : len = 0 ∨ off + len ≤ 1024) {i : Nat} (hi : i < 1024) :
    Memory.read (s.writePage n off len b).mem (1024 * m.val + i) = Memory.read s.mem (1024 * m.val + i) := by
  refine read_writeRange_outside _ _ _ _ _ ?_
  have : m.val ≠ n.val := fun e => hm (Fin.ext e)
  rw [pageBase_eq]; omega

/-- A write into a page that is not FREE. -/
theorem pages_writePage {s : State} (h : s.PagesOk) {n : PageNo} (hn : (s.page n).state ≠ .free) {off len : Nat}
    (b : List Byte) (hl : len = 0 ∨ off + len ≤ 1024) : (s.writePage n off len b).PagesOk := by
  refine ⟨h.records, h.places, h.queued, h.waiting, h.taken, fun m hm i hi => ?_⟩
  have hm : (s.page m).state = .free := hm
  have hne : m ≠ n := by rintro rfl; exact hn hm
  rw [read_writePage_other hne hl hi]
  exact h.zero m hm i hi

/-- Slot pages marked stale and queued. -/
theorem pages_markStale {s : State} (h : s.PagesOk) (ns : List PageNo)
    (hr : ∀ n ∈ ns, ∃ t slot part, placeOf s t (.slotPart slot part) = some n) : (s.markStale ns).PagesOk := by
  have ef := markStale_frame s ns
  have e : ∀ m, ∃ b, (s.markStale ns).page m = { s.page m with stale := b } ∧
      (b = true ↔ (s.page m).stale = true ∨ m ∈ ns) := by
    intro m
    rw [markStale_page]
    split
    · next e => exact ⟨true, rfl, by simp [e]⟩
    · next e => exact ⟨(s.page m).stale, rfl, by simp [e]⟩
  have hm : (s.markStale ns).mem = s.mem := by rw [ef]
  have ht : (s.markStale ns).scrubbing = s.scrubbing := by rw [ef]
  refine ⟨fun m => ?_, fun m u r => ?_, fun m => ?_, fun m => ?_, fun m => ?_, fun m => ?_⟩ <;>
    obtain ⟨b, e1, e2⟩ := e m <;> rw [e1]
  · obtain ⟨g1, g2, g3, g4⟩ := h.records m
    refine ⟨g1, g2, fun hs => ?_, g4⟩
    rcases e2.1 hs with hs | hs
    · exact g3 hs
    · obtain ⟨t, slot, part, hp⟩ := hr m hs
      exact ⟨slot, part, (reserved_of_place h hp).2.2⟩
  · simp only [markStale_task]; exact h.places m u r
  · rw [mem_markStale_queue]
    rintro (hq | hq)
    · exact (h.queued m hq).imp_right fun x => e2.2 (.inl x)
    · exact .inr (e2.2 (.inr hq))
  · rw [mem_markStale_queue, ht]
    rintro (hs | hs)
    · exact (h.waiting m (.inl hs)).imp_left .inl
    · rcases e2.1 hs with hs | hs
      · exact (h.waiting m (.inr hs)).imp_left .inl
      · exact .inl (.inr hs)
  · rw [ht]; exact h.taken m
  · rw [hm]; exact h.zero m

/-- The pages of a slot stand at its places. -/
theorem slotPages_place {s : State} {t : TaskNo} {k : Task} {slot : Nat}
    (hl : ∀ r, placeOf s t r = k.pageAt r) {n : PageNo} (hn : n ∈ (k.slotPages[slot]?).getD []) :
    ∃ t slot part, placeOf s t (.slotPart slot part) = some n := by
  cases e : k.slotPages[slot]? with
  | none => simp [e] at hn
  | some l =>
    rw [e, Option.getD_some] at hn
    obtain ⟨part, hp⟩ := List.mem_iff_getElem?.1 hn
    exact ⟨t, slot, part, by rw [hl]; simp [Task.pageAt, Task.slotPage, e, hp]⟩

@[simp] theorem emptySlot_place (s : State) (t : TaskNo) (slot : Nat) (u : TaskNo) (r : Role) :
    placeOf (s.emptySlot t slot) u r = placeOf s u r := by
  simp only [placeOf, emptySlot_task]
  split
  · next e => subst e; cases s.task u <;> rfl
  · rfl

theorem pages_emptySlot {s : State} (h : s.PagesOk) (t : TaskNo) (slot : Nat) : (s.emptySlot t slot).PagesOk := by
  cases hk : s.task t with
  | none => simpa [State.emptySlot, hk] using h
  | some k =>
    rw [emptySlot_eq slot hk]
    have e := samePages_setTask (k := k.withSlot slot emptied) (s := s) (t := t) fun r => placeOf_some hk r
    refine pages_markStale (PagesOk.same h e) _ fun n hn => ?_
    obtain ⟨u, slot, part, hp⟩ := slotPages_place (placeOf_some hk) hn
    exact ⟨u, slot, part, (e.places u _).trans hp⟩

theorem pages_dropRetained {s : State} (h : s.PagesOk) (t : TaskNo) (c : Claim) : (s.dropRetained t c).PagesOk := by
  simp only [State.dropRetained]
  split
  · exact h
  · exact pages_emptySlot h _ _

/-- A fill's start on the pages of its slot. -/
theorem pages_withdrawPages {s : State} (h : s.PagesOk) (ns : List PageNo)
    (hr : ∀ n ∈ ns, (s.page n).state = .reserved) : (s.withdrawPages ns).PagesOk := by
  have ef := withdrawPages_frame s ns
  have e : ∀ m, ∃ b, (s.withdrawPages ns).page m = { s.page m with stale := b } ∧
      (b = true ↔ (s.page m).stale = true ∧ m ∉ ns) := by
    intro m
    rw [withdrawPages_page]
    split
    · next e => exact ⟨false, rfl, by simp [e]⟩
    · next e => exact ⟨(s.page m).stale, rfl, by simp [e]⟩
  have hq : (s.withdrawPages ns).scrubQueue = s.scrubQueue.filter (fun n => n ∉ ns) := by rw [ef]
  have hm : (s.withdrawPages ns).mem = s.mem := by rw [ef]
  have ht : (s.withdrawPages ns).scrubbing = s.scrubbing := by rw [ef]
  refine ⟨fun m => ?_, fun m u r => ?_, fun m => ?_, fun m => ?_, fun m => ?_, fun m => ?_⟩ <;>
    obtain ⟨b, e1, e2⟩ := e m <;> rw [e1]
  · obtain ⟨g1, g2, g3, g4⟩ := h.records m
    exact ⟨g1, g2, fun hs => g3 (e2.1 hs).1, g4⟩
  · simp only [withdrawPages_task]; exact h.places m u r
  · rw [hq]
    intro hm'
    obtain ⟨q1, q2⟩ := List.mem_filter.1 hm'
    exact (h.queued m q1).imp_right fun x => e2.2 ⟨x, by simpa using q2⟩
  · rw [hq, ht]
    rintro (hs | hs)
    · have : m ∉ ns := fun hn => by rw [hr m hn] at hs; simp at hs
      exact (h.waiting m (.inl hs)).imp_left fun x => List.mem_filter.2 ⟨x, by simpa using this⟩
    · obtain ⟨h1, h2⟩ := e2.1 hs
      exact (h.waiting m (.inr h1)).imp_left fun x => List.mem_filter.2 ⟨x, by simpa using h2⟩
  · rw [ht]; exact h.taken m
  · rw [hm]; exact h.zero m

/-! ### The ends of claims -/

theorem abandonFill_place (s : State) (k : Task) (slot part : Nat) (b : List Byte) (u : TaskNo) (r : Role) :
    placeOf (s.abandonFill k slot part b) u r = placeOf s u r := by
  simp only [placeOf, abandonFill_task]

theorem pages_abandonFill {s : State} (h : s.PagesOk) {t : TaskNo} {k : Task} (hk : s.task t = some k)
    (slot part : Nat) (b : List Byte) : (s.abandonFill k slot part b).PagesOk := by
  simp only [State.abandonFill]
  split
  · exact h
  · next n hn =>
    have hf := not_free_of_place h (t := t) (r := .slotPart slot part) (n := n) (by rw [placeOf_some hk]; exact hn)
    exact PagesOk.same (pages_writePage h hf _ (by simp [Config.pageBytes]))
      ⟨fun _ => rfl, rfl, rfl, rfl, fun _ _ => rfl⟩

theorem pages_abortOp {s : State} (h : s.PagesOk) (t : TaskNo) : (s.abortOp t).PagesOk := by
  simp only [State.abortOp]
  split
  · exact h
  · next k hk =>
    split
    · next c o _ _ =>
      have effect : (s.abortEffect t k c o).PagesOk := by
        cases o <;> simp only [State.abortEffect] <;> try exact h
        refine pages_emptySlot ?_ _ _
        split
        · exact pages_abandonFill h hk _ _ _
        · exact h
      refine PagesOk.same (PagesOk.same effect (samePages_onTask _ t (fun k => { k with op := none }) fun _ _ => rfl)) ?_
      simp only [State.abandon]
      split
      · exact samePages_freePath _
      · exact .refl _
    · exact h

theorem samePages_endLocks (s : State) (t : TaskNo) (c : Claim) : SamePages s (s.endLocks t c) := by
  simp only [State.endLocks]
  split
  · exact .refl s
  · simp only [State.reinstate]
    split
    · exact .refl s
    · next k hk =>
      split
      · exact .refl s
      · refine .trans (.trans (samePages_setTask ?_) (told_moveAll ..).samePages) (told_giveUpAll ..).samePages
        exact fun r => placeOf_some hk r
  · exact (told_giveUpAll ..).samePages

theorem samePages_respondHead (s : State) (p : Port) (f : Request → Response) : SamePages s (s.respondHead p f) :=
  (portsLocks_respondHead s p f).samePages

theorem samePages_respond (s : State) (p : Port) (x : Response) : SamePages s (s.respond p x) :=
  (portsLocks_respond s p x).samePages

theorem samePages_answerAborted (s : State) (c : Claim) (o : Option Op) (cause : EndCause) :
    SamePages s (s.answerAborted c o cause) := by
  simp only [State.answerAborted]
  split
  · exact samePages_respondHead ..
  · exact samePages_respondHead ..
  · exact .refl _
  · exact .refl _
  · exact .refl _

theorem pages_abnormalEnd {s : State} (h : s.PagesOk) (t : TaskNo) (cause : EndCause) :
    (s.abnormalEnd t cause).PagesOk := by
  simp only [State.abnormalEnd]
  split
  · exact h
  · split
    · exact h
    · refine PagesOk.same ?_ (samePages_answerAborted ..)
      refine PagesOk.same ?_ (told_endNotices ..).samePages
      refine PagesOk.same ?_ (samePages_onTask _ _ Task.endClaim fun _ _ => rfl)
      exact PagesOk.same (PagesOk.same (pages_abortOp h t) (told_withdraw ..).samePages) (samePages_endLocks ..)

theorem pages_teardown {s : State} (h : s.PagesOk) (p : Port) : (s.teardown p).PagesOk := by
  simp only [State.teardown]
  split
  · have ends : ∀ (ts : List TaskNo) (u : State), u.PagesOk →
        (ts.foldl (fun s t => s.abnormalEnd t .portDown) u).PagesOk := by
      intro ts
      induction ts with
      | nil => exact fun _ h => h
      | cons t ts ih => exact fun u h => ih _ (pages_abnormalEnd h t _)
    refine PagesOk.same (PagesOk.same (ends _ _ (PagesOk.same h ?_)) (portsLocks_onPort ..).samePages)
      (told_postAll ..).samePages
    exact (Told.foldl _ told_withdrawClaim _ _).samePages
  · exact h

end Sys2Proof.Laws
end

