-- ==== Sys2Proof/Laws/PagesKept.lean ====
section
/-! SUPPORT. `State.PagesOk` is kept: by the parts of the long operations, the transfers, the scrubber, every request
and the resets. -/

namespace Sys2Proof.Laws

open Sys2Proof Sys2Proof.Machine

/-! ### The long operations -/

section Parts

variable {s : State} {t : TaskNo} {k : Task} (h : s.PagesOk) (hl : ∀ r, placeOf s t r = k.pageAt r)

include h

theorem pages_setTask {k' : Task} (e : ∀ r, placeOf s t r = k'.pageAt r) : (s.setTask t (some k')).PagesOk :=
  PagesOk.same h (samePages_setTask e)

theorem pages_told {v : State} (e : Told s v) : v.PagesOk := PagesOk.same h e.samePages

theorem pages_answered (p : Port) (f : Request → Response) : (s.respondHead p f).PagesOk :=
  PagesOk.same h (samePages_respondHead ..)

include hl

theorem pages_damageInDelivery {n : PageNo} (hn : (s.page n).state ≠ .free) (c : Claim) (part : Nat) :
    (s.damageInDelivery t k c n part).PagesOk := by
  simp only [State.damageInDelivery]
  refine pages_answered (pages_told (pages_setTask (pages_markPoisoned h hn) ?_) (told_postAll ..)) _ _
  exact hl

theorem pages_damageInRead {n : PageNo} (hn : (s.page n).state ≠ .free) (c : Claim) (part : Nat) :
    (s.damageInRead t k c n part).PagesOk := by
  simp only [State.damageInRead]
  refine pages_answered (pages_setTask (pages_markPoisoned h hn) ?_) _ _
  exact hl

theorem not_free_of_poisoned {slot part : Nat} {n : PageNo} (hn : s.poisonedPart k slot part = some n) :
    (s.page n).state ≠ .free := by
  have : k.slotPage slot part = some n := (Option.filter_eq_some_iff.1 hn).1
  exact not_free_of_place h (t := t) (r := .slotPart slot part) (by rw [hl]; exact this)

theorem pages_reachDelivery (c : Claim) (slot : Nat) (f : FrameRecord) (part : Nat) (b : List Byte) :
    (s.reachDeliveryPart t k c slot f part b).PagesOk := by
  simp only [State.reachDeliveryPart]
  split
  · split
    · next hn => exact pages_damageInDelivery h hl (not_free_of_poisoned h hl hn) _ _
    · exact pages_setTask h hl
  · simp only [State.completeDelivery]
    refine pages_answered (pages_told (pages_setTask h ?_) (told_moveAll ..)) _ _
    exact hl

theorem pages_reachPeek (c : Claim) (position slot : Nat) (f : FrameRecord) (part : Nat) (b : List Byte) :
    (s.reachPeekPart t k c position slot f part b).PagesOk := by
  simp only [State.reachPeekPart]
  split
  · split
    · next hn => exact pages_damageInRead h hl (not_free_of_poisoned h hl hn) _ _
    · exact pages_setTask h hl
  · simp only [State.completePeek]
    refine pages_answered (pages_setTask h ?_) _ _
    exact hl

theorem pages_completeFill (c : Claim) (slot : Nat) (w : Word) (b : List Byte) (x : Bool) :
    (s.completeFill t k c slot w b x).PagesOk := by
  simp only [State.completeFill]
  refine pages_answered (pages_told ?_ (told_postFreed ..)) _ _
  refine PagesOk.same (pages_dropRetained (pages_told (pages_setTask h ?_) (told_moveAll ..)) _ _)
    (samePages_onTask _ _ Task.endClaim fun _ _ => rfl)
  exact hl

end Parts

/-! ### Transfers and the scrubber -/

section Transfers

variable {s : State} (h : s.PagesOk)

include h

/-- What a transfer of port p's operation finds: the part with the path freed, its page lists, and a page of them. -/
theorem pages_op {p : Port} {t : TaskNo} {k : Task} {c : Claim} {o : Op} (ho : s.opOf p = some (t, k, c, o)) :
    s.freePath.PagesOk ∧ (∀ r, placeOf s.freePath t r = k.pageAt r)
      ∧ ∀ r n, k.pageAt r = some n → (s.freePath.page n).state ≠ .free := by
  obtain ⟨hk, _⟩ := opOf_spec ho
  have hl := placeOf_some hk
  exact ⟨PagesOk.same h (samePages_freePath s), hl, fun r n hn => by
    show (s.page n).state ≠ _
    exact not_free_of_place h ((hl r).trans hn)⟩

theorem pages_deliveryPart (e : ReadOutcome) {u : State} (hu : execDeliveryPartTransfer e s = .next u) :
    u.PagesOk := by
  simp only [execDeliveryPartTransfer, Host.Outcome.next.injEq] at hu
  subst hu
  split
  · split
    · next t k c slot next b ho =>
      obtain ⟨h', hl, hf⟩ := pages_op h ho
      split
      · next hn =>
        split
        · exact pages_damageInDelivery h' hl (hf (.slotPart slot next) _ hn) _ _
        · exact pages_reachDelivery h' hl _ _ _ _ _
      · exact h
    · exact h
  · exact h

theorem pages_peekPart (e : ReadOutcome) {u : State} (hu : execPeekPartTransfer e s = .next u) : u.PagesOk := by
  simp only [execPeekPartTransfer, Host.Outcome.next.injEq] at hu
  subst hu
  split
  · split
    · next t k c position slot next b ho =>
      obtain ⟨h', hl, hf⟩ := pages_op h ho
      split
      · next hn =>
        split
        · exact pages_damageInRead h' hl (hf (.slotPart slot next) _ hn) _ _
        · exact pages_reachPeek h' hl _ _ _ _ _ _
      · exact h
    · exact h
  · exact h

theorem pages_fillPage {u : State} (hu : execFillPageWrite s = .next u) : u.PagesOk := by
  simp only [execFillPageWrite, Host.Outcome.next.injEq] at hu
  subst hu
  split
  · split
    · next t k c slot next w b x ho =>
      obtain ⟨h', hl, hf⟩ := pages_op h ho
      split
      · next n hn =>
        have hw : ∀ b, ((s.freePath.writePage n 0 Config.pageBytes b).onPage n Page.clearPoison).PagesOk := fun b =>
          pages_clearPoison (pages_writePage h' (hf (.slotPart slot next) n hn) b (by simp [Config.pageBytes])) n
        split
        · refine pages_setTask (hw _) ?_
          exact hl
        · refine pages_completeFill (hw _) ?_ _ _ _ _ _
          exact hl
      · exact h
    · exact h
  · exact h

theorem pages_dataReadPart (e : ReadOutcome) {u : State} (hu : execDataReadPartTransfer e s = .next u) : u.PagesOk := by
  simp only [execDataReadPartTransfer, Host.Outcome.next.injEq] at hu
  subst hu
  split
  · split
    · next t k c offset length next b ho =>
      obtain ⟨h', hl, hf⟩ := pages_op h ho
      split
      · next hn =>
        split
        · exact pages_damageInRead h' hl (hf (.dataPart next) _ hn) _ _
        · split
          · refine pages_setTask h' ?_
            exact hl
          · simp only [State.completeDataRead]
            refine pages_answered (pages_setTask h' ?_) _ _
            exact hl
      · exact h
    · exact h
  · exact h

/-- A covered page of a data write. -/
theorem pages_writeDataPart {n : PageNo} (hn : (s.page n).state ≠ .free) (offset : Nat) (bytes : List Byte)
    (part : Nat) : (s.writeDataPart n offset bytes part).PagesOk := by
  have hw : ∀ b, (s.writePage n (partFrom offset part - part * Config.pageBytes)
      (partTo offset bytes.length part - partFrom offset part) b).PagesOk := fun b =>
    pages_writePage h hn b (by simp only [partFrom, partTo, Config.pageBytes]; omega)
  simp only [State.writeDataPart]
  split
  · exact pages_clearPoison (hw _) n
  · exact hw _

theorem pages_dataWritePage (e : ReadOutcome) {u : State} (hu : execDataWritePageTransfer e s = .next u) :
    u.PagesOk := by
  simp only [execDataWritePageTransfer, Host.Outcome.next.injEq] at hu
  subst hu
  split
  · split
    · next t k c offset bytes next cleared ho =>
      obtain ⟨h', hl, hf⟩ := pages_op h ho
      split
      · next n hn =>
        have hw : ∀ part, (s.freePath.writeDataPart n offset bytes part).PagesOk ∧
            ∀ r, placeOf (s.freePath.writeDataPart n offset bytes part) t r = k.pageAt r := fun part =>
          ⟨pages_writeDataPart h' (hf (.dataPart next) n hn) _ _ _, fun r => by
            rw [← hl r]; simp only [State.writeDataPart]; split <;> rfl⟩
        split
        · exact pages_damageInRead h' hl (hf (.dataPart next) _ hn) _ _
        · split
          · refine pages_setTask (hw _).1 ?_
            exact (hw _).2
          · simp only [State.completeDataWrite]
            refine pages_answered (pages_setTask (hw _).1 ?_) _ _
            exact (hw _).2
      · exact h
    · exact h
  · exact h

theorem pages_scrubberTakePage {u : State} (hu : execScrubberTakePage s = .next u) : u.PagesOk := by
  simp only [execScrubberTakePage, Host.Outcome.next.injEq] at hu
  subst hu
  split
  · exact h
  · next hs =>
    split
    · exact h
    · next n rest hq =>
      have hn : s.scrubbing = none := by simpa using (not_or.1 hs).2
      refine ⟨h.records, h.places, fun m hm => h.queued m (by rw [hq]; exact .tail _ hm), fun m hm => ?_, ?_, h.zero⟩
      · rcases h.waiting m hm with hw | hw
        · rw [hq] at hw
          rcases List.mem_cons.1 hw with rfl | hw
          · exact .inr rfl
          · exact .inl hw
        · simp [hn] at hw
      · rintro m ⟨⟩
        rcases h.queued n (by simp [hq]) with hw | hw
        · show (s.page n).state ≠ _
          rw [hw]; simp
        · obtain ⟨slot, part, hr⟩ := (h.records n).2.2.1 hw
          have := (h.records n).2.1.2 (by simp [hr])
          show (s.page n).state ≠ _
          rw [this]; simp

omit h in
/-- What a scrub's completion leaves in a record: the same owner and role; with an entry in the queue the same state and
stale mark, and without one neither SCRUBBING nor stale (Table 7-3). -/
theorem afterScrub_spec {g : Page} (ok : g.Ok) (hf : g.state ≠ .free) (queued : Bool) :
    (g.afterScrub queued).Ok ∧ (g.afterScrub queued).owner = g.owner ∧ (g.afterScrub queued).role = g.role
      ∧ (queued = true → (g.afterScrub queued).state = g.state ∧ (g.afterScrub queued).stale = g.stale)
      ∧ (queued = false → (g.afterScrub queued).state ≠ .scrubbing ∧ (g.afterScrub queued).stale = false) := by
  obtain ⟨g1, g2, g3, g4⟩ := ok
  have hst : g.stale = true → g.state = .reserved := fun e => by
    obtain ⟨_, _, hr⟩ := g3 e; exact g2.2 (by simp [hr])
  obtain ⟨st, ow, ro, sl, po⟩ := g
  simp only at *
  cases st <;> cases queued <;> cases sl <;>
    simp_all [Page.afterScrub, Page.clearPoison, Page.clearStale, Page.Ok]

/-- The page in progress settled and its bytes zero, with the scrubber idle. -/
theorem pages_scrubbed {u : State} {n : PageNo} (hn : s.scrubbing = some n)
    (same : u.page n = (s.page n).afterScrub (n ∈ s.scrubQueue)) (other : ∀ m, m ≠ n → u.page m = s.page m)
    (queue : u.scrubQueue = s.scrubQueue) (idle : u.scrubbing = none) (task : ∀ t, u.task t = s.task t)
    (zero : ∀ i < 1024, Memory.read u.mem (1024 * n.val + i) = 0)
    (rest : ∀ m : PageNo, m ≠ n → ∀ i < 1024,
      Memory.read u.mem (1024 * m.val + i) = Memory.read s.mem (1024 * m.val + i)) : u.PagesOk := by
  obtain ⟨a1, a2, a3, a4, a5⟩ := afterScrub_spec (h.records n) (h.taken n hn) (n ∈ s.scrubQueue)
  refine ⟨fun m => ?_, fun m t r => ?_, fun m => ?_, fun m => ?_, fun m hm => by simp [idle] at hm, fun m => ?_⟩
  all_goals by_cases e : m = n
  · subst e; exact same ▸ a1
  · exact (other m e) ▸ h.records m
  · subst e; rw [same, a2, a3, task]; exact h.places m t r
  · rw [other m e, task]; exact h.places m t r
  · subst e
    rw [same, queue]
    intro hm
    rw [(a4 (decide_eq_true hm)).1, (a4 (decide_eq_true hm)).2]; exact h.queued m hm
  · rw [other m e, queue]; exact h.queued m
  · subst e
    rw [same, queue]
    refine fun hm => .inl (Classical.byContradiction fun hq => ?_)
    obtain ⟨b1, b2⟩ := a5 (decide_eq_false hq)
    simp [b1, b2] at hm
  · rw [other m e, queue]
    refine fun hm => (h.waiting m hm).imp id fun hw => ?_
    rw [hn] at hw
    exact absurd (Option.some.inj hw).symm e
  · subst e; exact fun _ => zero
  · rw [other m e]
    exact fun hm i hi => (rest m e i hi).trans (h.zero m hm i hi)

theorem pages_scrubCompletion {u : State} (hu : execScrubCompletion s = .next u) : u.PagesOk := by
  simp only [execScrubCompletion, Host.Outcome.next.injEq] at hu
  subst hu
  split
  · next n _ hn =>
    refine pages_scrubbed h hn ?_ (fun m e => ?_) rfl rfl (fun _ => rfl) (fun i hi => ?_) fun m e i hi => ?_
    · exact (onPage_page (s.freePath.writePage n 0 Config.pageBytes []) n n
        (·.afterScrub (n ∈ s.scrubQueue))).trans (if_pos rfl)
    · exact (onPage_page (s.freePath.writePage n 0 Config.pageBytes []) n m
        (·.afterScrub (n ∈ s.scrubQueue))).trans (if_neg e)
    · have := read_writeRange_inside s.mem (pageBase n) Config.pageBytes [] i (by simpa [Config.pageBytes] using hi)
      simpa [State.writePage, State.onPage, pageBase_eq] using this
    · exact read_writePage_other (s := s.freePath) e (.inr (by simp [Config.pageBytes])) hi
  · exact h

end Transfers

/-! ### The tasks' pages: DEFINE and DISCARD -/

/-- A reservation changes page records alone. -/
theorem reserve_frame (s : State) (t : TaskNo) (x : Params) (ns : List PageNo) :
    s.reserve t x ns = { s with pages := (s.reserve t x ns).pages } := by
  have h : ∀ (l : List (PageNo × Nat)) (u : State) (f : Nat → Page),
      l.foldl (fun s a => s.setPage a.1 (f a.2)) u =
        { u with pages := (l.foldl (fun s a => s.setPage a.1 (f a.2)) u).pages } := by
    intro l
    induction l with
    | nil => intro _ _; rfl
    | cons a l ih => intro u f; rw [List.foldl_cons, ih]; rfl
  exact h ns.zipIdx s fun i =>
    ⟨.reserved, some t, some (x.roleOf i), false, false⟩

/-- A reservation gives its pages, each listed once, their records by their places, and changes no other. -/
theorem reserve_page (s : State) (t : TaskNo) (x : Params) (ns : List PageNo) (nd : ns.Nodup) (m : PageNo) :
    (m ∉ ns → (s.reserve t x ns).page m = s.page m) ∧ ∀ i : Nat, ns[i]? = some m → (s.reserve t x ns).page m =
      { state := .reserved, owner := some t, role := some (x.roleOf i), stale := false, poisoned := false } := by
  have h : ∀ (l : List PageNo) (j : Nat) (u : State) (f : Nat → Page), l.Nodup →
      (m ∉ l → ((l.zipIdx j).foldl (fun s a => s.setPage a.1 (f a.2)) u).page m = u.page m)
      ∧ ∀ i : Nat, l[i]? = some m → ((l.zipIdx j).foldl (fun s a => s.setPage a.1 (f a.2)) u).page m = f (j + i) := by
    intro l
    induction l with
    | nil => intro _ _ _ _; simp
    | cons a l ih =>
      intro j u f nd
      obtain ⟨h1, h2⟩ := List.nodup_cons.1 nd
      obtain ⟨i1, i2⟩ := ih (j + 1) (u.setPage a (f j)) f h2
      simp only [List.zipIdx_cons, List.foldl_cons]
      refine ⟨fun hm => ?_, fun i hi => ?_⟩
      · obtain ⟨g1, g2⟩ := not_or.1 (fun e => hm (List.mem_cons.2 e))
        rw [i1 g2, page_setPage, if_neg g1]
      · cases i with
        | zero =>
          obtain rfl : a = m := by simpa using hi
          rw [i1 h1, page_setPage, if_pos rfl]; rfl
        | succ i => rw [i2 i (by simpa using hi)]; congr 1; omega
  have := h ns 0 s (fun i => ⟨.reserved, some t, some (x.roleOf i), false, false⟩) nd
  simp only [Nat.zero_add] at this
  exact this

/-- The pages of a new task stand at the places that its reservation gives them. -/
theorem newTask_place {x : Params} (hx : 1 ≤ x.framePages) (pages : List PageNo) (r : Role) (n : PageNo) :
    (x.newTask pages).pageAt r = some n ↔ ∃ i : Nat, pages[i]? = some n ∧ x.roleOf i = r := by
  cases r with
  | slotPart a b =>
    have e : (x.newTask pages).pageAt (.slotPart a b) =
        if a < x.frameLimit + 1 ∧ b < x.framePages then pages[a * x.framePages + b]? else none := by
      simp only [Task.pageAt, Task.slotPage, Params.newTask, List.getElem?_map]
      by_cases ha : a < x.frameLimit + 1
      · by_cases hb : b < x.framePages
        · simp [ha, hb]
        · simp [ha, hb]
      · simp [ha]
    rw [e]
    constructor
    · intro h
      rw [Option.ite_none_right_eq_some] at h
      obtain ⟨⟨ha, hb⟩, hn⟩ := h
      refine ⟨_, hn, ?_⟩
      have lt : a * x.framePages + b < (x.frameLimit + 1) * x.framePages := by
        have := Nat.mul_le_mul_right x.framePages (show a + 1 ≤ x.frameLimit + 1 from ha)
        rw [Nat.add_mul, Nat.one_mul] at this; omega
      simp only [Params.roleOf, lt, if_true]
      rw [Nat.mul_comm, Nat.mul_add_div (by omega), Nat.div_eq_of_lt hb, Nat.mul_add_mod, Nat.mod_eq_of_lt hb]; rfl
    · rintro ⟨i, hn, hr⟩
      simp only [Params.roleOf] at hr
      split at hr
      · next lt =>
        obtain ⟨rfl, rfl⟩ := Role.slotPart.inj hr
        rw [if_pos ⟨Nat.div_lt_of_lt_mul (by rwa [Nat.mul_comm]), Nat.mod_lt _ (by omega)⟩, Nat.div_add_mod']
        exact hn
      · simp at hr
  | dataPart d =>
    have e : (x.newTask pages).pageAt (.dataPart d) = pages[(x.frameLimit + 1) * x.framePages + d]? := by
      simp [Task.pageAt, Task.dataPage, Params.newTask, List.getElem?_drop]
    rw [e]
    constructor
    · exact fun h => ⟨_, h, by simp [Params.roleOf]⟩
    · rintro ⟨i, hn, hr⟩
      simp only [Params.roleOf] at hr
      split at hr
      · simp at hr
      · next hge =>
        obtain rfl := Role.dataPart.inj hr
        rw [Nat.add_sub_cancel' (by omega)]; exact hn

/-- FREE pages reserved for a task that did not exist. -/
theorem pages_reserved {s : State} (h : s.PagesOk) {t : TaskNo} (ht : s.task t = none) {x : Params}
    (hx : 1 ≤ x.framePages) {pages : List PageNo} (nd : pages.Nodup) (free : ∀ n ∈ pages, (s.page n).state = .free) :
    ((s.reserve t x pages).setTask t (some (x.newTask pages))).PagesOk := by
  generalize hu : (s.reserve t x pages).setTask t (some (x.newTask pages)) = u
  have rest : ∀ m, m ∉ pages → u.page m = s.page m := fun m hm => by
    rw [← hu]; exact (reserve_page s t x pages nd m).1 hm
  have new : ∀ m, m ∈ pages → ∃ i : Nat, pages[i]? = some m ∧ u.page m =
      { state := .reserved, owner := some t, role := some (x.roleOf i), stale := false, poisoned := false } := by
    intro m hm
    obtain ⟨i, hi⟩ := List.mem_iff_getElem?.1 hm
    exact ⟨i, hi, by rw [← hu]; exact (reserve_page s t x pages nd m).2 i hi⟩
  have ef := reserve_frame s t x pages
  have hq : u.scrubQueue = s.scrubQueue := by rw [← hu, setTask_scrubQueue, ef]
  have hs : u.scrubbing = s.scrubbing := by rw [← hu, setTask_scrubbing, ef]
  have hm : u.mem = s.mem := by rw [← hu, setTask_mem, ef]
  have place : ∀ v r, placeOf u v r = if v = t then (x.newTask pages).pageAt r else placeOf s v r := by
    intro v r
    rw [← hu]
    simp only [placeOf, task_setTask, reserve_task]
    split <;> rfl
  have notIn : ∀ n, (s.page n).state ≠ .free → n ∉ pages := fun n hn hp => hn (free n hp)
  refine ⟨fun m => ?_, fun m v r => ?_, fun m => ?_, fun m => ?_, fun m => ?_, fun m => ?_⟩
  · by_cases hp : m ∈ pages
    · obtain ⟨i, _, e⟩ := new m hp; rw [e]; simp [Page.Ok]
    · rw [rest m hp]; exact h.records m
  · rw [← placeOf_iff, place]
    by_cases hp : m ∈ pages
    · obtain ⟨i, hi, e⟩ := new m hp
      rw [e]
      simp only [Option.some.injEq]
      by_cases hv : v = t
      · subst hv
        rw [if_pos rfl, newTask_place hx]
        simp only [true_and]
        constructor
        · exact fun e => ⟨i, hi, e⟩
        · rintro ⟨j, hj, e⟩
          obtain ⟨hi', hi''⟩ := List.getElem?_eq_some_iff.1 hi
          obtain ⟨hj', hj''⟩ := List.getElem?_eq_some_iff.1 hj
          rw [(List.Nodup.getElem_inj_iff nd).1 (hi''.trans hj''.symm)]; exact e
      · rw [if_neg hv]
        constructor
        · exact fun e => absurd e.1.symm hv
        · exact fun e => absurd (free m hp) (not_free_of_place h e)
    · rw [rest m hp]
      by_cases hv : v = t
      · subst hv
        rw [if_pos rfl, newTask_place hx, h.places m v r]
        simp only [ht, reduceCtorEq, false_and, exists_false, false_iff, not_exists, not_and]
        exact fun i hi => absurd (List.mem_of_getElem? hi) hp
      · rw [if_neg hv, placeOf_iff]; exact h.places m v r
  · rw [hq]
    intro hm'
    have hn : m ∉ pages := notIn m fun e => by
      rcases h.queued m hm' with hw | hw
      · simp [e] at hw
      · obtain ⟨_, _, hr⟩ := (h.records m).2.2.1 hw
        have := (h.records m).2.1.2 (by simp [hr])
        simp [e] at this
    rw [rest m hn]; exact h.queued m hm'
  · rw [hq, hs]
    by_cases hp : m ∈ pages
    · obtain ⟨i, _, e⟩ := new m hp; rw [e]; simp
    · rw [rest m hp]; exact h.waiting m
  · rw [hs]
    intro hm'
    rw [rest m (notIn m (h.taken m hm'))]; exact h.taken m hm'
  · rw [hm]
    by_cases hp : m ∈ pages
    · obtain ⟨i, _, e⟩ := new m hp; rw [e]; simp
    · rw [rest m hp]; exact h.zero m

/-- The record a DEFINE takes is EMPTY. -/
theorem chooseRecord_empty {s : State} {b : Byte} {t : TaskNo} (h : s.chooseRecord b = .ok t) : s.task t = none := by
  simp only [State.chooseRecord] at h
  split at h
  · split at h
    · next e => obtain rfl := Except.ok.inj h; simpa using e
    · simp at h
  · split at h
    · next e => obtain rfl := Except.ok.inj h; simpa using List.find?_some e
    · simp at h

/-- The pages of a task released, and its record emptied. -/
theorem pages_released {s : State} (h : s.PagesOk) (t : TaskNo) :
    ((s.releasePages (s.pagesOf t)).setTask t none).PagesOk := by
  generalize hu : (s.releasePages (s.pagesOf t)).setTask t none = u
  have mem : ∀ n, n ∈ s.pagesOf t ↔ (s.page n).owner = some t := fun n => by
    simp only [State.pagesOf]; rw [mem_pagesWhere]; simp
  have page : ∀ n, u.page n = if (s.page n).owner = some t then
      { s.page n with state := .scrubbing, owner := none, role := none, stale := false } else s.page n := fun n => by
    rw [← hu, setTask_page, releasePages_page]; simp only [mem]
  have ef := releasePages_frame s (s.pagesOf t)
  have queue : ∀ n, n ∈ u.scrubQueue ↔ n ∈ s.scrubQueue ∨ (s.page n).owner = some t ∧ s.scrubbing ≠ some n := by
    intro n; rw [← hu, setTask_scrubQueue, mem_releasePages_queue, mem]
  have hs : u.scrubbing = s.scrubbing := by rw [← hu, setTask_scrubbing, ef]
  have hm : u.mem = s.mem := by rw [← hu, setTask_mem, ef]
  have place : ∀ v r, placeOf u v r = if v = t then none else placeOf s v r := by
    intro v r
    rw [← hu]
    simp only [placeOf, task_setTask, releasePages_task]
    split <;> rfl
  refine ⟨fun m => ?_, fun m v r => ?_, fun m => ?_, fun m => ?_, fun m => ?_, fun m => ?_⟩ <;> rw [page]
  · split
    · simp [Page.Ok]
    · exact h.records m
  · rw [← placeOf_iff, place]
    split
    · next ho =>
      by_cases hv : v = t
      · simp [hv]
      · rw [if_neg hv]
        simp only [reduceCtorEq, false_and, false_iff]
        intro e
        rw [(reserved_of_place h e).2.1] at ho
        exact hv (Option.some.inj ho)
    · next ho =>
      by_cases hv : v = t
      · simp [hv, ho]
      · rw [if_neg hv, placeOf_iff]; exact h.places m v r
  · rw [queue]
    split
    · exact fun _ => .inl rfl
    · next ho =>
      rintro (hq | hq)
      · exact h.queued m hq
      · exact absurd hq.1 ho
  · rw [queue, hs]
    split
    · next ho =>
      intro _
      by_cases e : s.scrubbing = some m
      · exact .inr e
      · exact .inl (.inr ⟨ho, e⟩)
    · exact fun hw => (h.waiting m hw).imp_left .inl
  · rw [hs]
    split
    · simp
    · exact h.taken m
  · rw [hm]
    split
    · simp
    · exact h.zero m

/-! ### Requests -/

section Requests

variable {s : State} {p : Port} {q : Request} (h : s.PagesOk)

include h

theorem pages_portsLocks {v : State} (e : PortsLocks s v) : v.PagesOk := PagesOk.same h e.samePages

theorem pages_respond (x : Response) : (s.respond p x).PagesOk := PagesOk.same h (samePages_respond ..)

theorem pages_refuse (st : Status) : (s.refuse p q st).PagesOk := pages_respond h _

theorem pages_loadLease (t : TaskNo) : (s.onTask t Task.loadLease).PagesOk :=
  PagesOk.same h (samePages_onTask _ _ _ fun _ _ => rfl)

theorem pages_answerClaim (t : TaskNo) (x : Response) : (s.answerClaim p t x).PagesOk := pages_respond (pages_loadLease h t) _

theorem pages_takeDefine : (takeDefine p q s).PagesOk := by
  simp only [takeDefine]
  split
  · exact pages_refuse h _
  · exact pages_refuse h _
  · next x t hx ht =>
    split
    · exact pages_respond h _
    · have sorted := pagesWhere_sorted s (·.state == .free)
      refine pages_respond (pages_reserved h (chooseRecord_empty ht) ?_ ?_ fun n hn => ?_) _
      · simp only [defineParams, Option.filter_eq_some_iff, Params.geometryInRange, Bool.and_eq_true,
          decide_eq_true_eq] at hx
        exact hx.2.1.2.1
      · exact (sorted.imp fun h => ne_of_lt h).sublist (List.take_sublist ..)
      · have := mem_pagesWhere.1 (List.mem_of_mem_take hn)
        simpa using this

theorem pages_takeDiscard : (takeDiscard p q s).PagesOk := by
  refine withTask_ind (pages_refuse h) fun t k _ hk => ?_
  split
  · exact pages_refuse h _
  · exact pages_respond (pages_released (pages_told h (told_giveUpAll ..)) t) _

theorem pages_takeRetune : (takeRetune p q s).PagesOk := by
  simp only [takeRetune]
  split
  · exact pages_refuse h _
  · refine withTask_ind (pages_refuse h) fun t k _ hk => ?_
    split
    · exact pages_refuse h _
    · refine pages_respond (pages_setTask h ?_) _
      exact fun r => placeOf_some hk r

theorem pages_takeSalvage : (takeSalvage p q s).PagesOk := by
  refine withTask_ind (pages_refuse h) fun t k _ hk => ?_
  split
  · refine pages_respond (pages_told (PagesOk.same (pages_emptySlot (pages_told h (told_giveUpAll ..)) _ _)
      (samePages_onTask _ t Task.popToRest fun _ _ => rfl)) (told_postAll ..)) _
  · exact pages_refuse h _

theorem pages_takeClaim : (takeClaim p q s).PagesOk := by
  refine withTask_ind (pages_refuse h) fun t k _ hk => ?_
  split
  · exact pages_refuse h _
  · have h' : State.PagesOk { s with nextToken := tokenAfter s.nextToken } :=
      PagesOk.same h ⟨fun _ => rfl, rfl, rfl, rfl, fun _ _ => rfl⟩
    simp only [State.acceptClaim]
    split
    · refine pages_reachDelivery (pages_setTask h' ?_) (fun r => ?_) _ _ _ _ _
      · exact fun r => placeOf_some hk r
      · exact placeOf_some (task_setTask_same ..) r
    · refine pages_respond (pages_setTask h' ?_) _
      exact fun r => placeOf_some hk r

theorem pages_takeRelease : (takeRelease p q s).PagesOk := by
  refine withClaim_ind (pages_refuse h) fun t k c _ hl => ?_
  refine pages_respond (pages_told ?_ (told_postFreed ..)) _
  refine PagesOk.same (pages_dropRetained (pages_told (pages_told h (told_withdraw ..)) (told_giveUpAll ..)) t c)
    (samePages_onTask _ t Task.endClaim fun _ _ => rfl)

theorem pages_takeSuspend : (takeSuspend p q s).PagesOk := by
  refine withClaim_ind (pages_refuse h) fun t k c _ hl => ?_
  split
  · exact pages_respond (pages_loadLease h t) _
  · refine pages_withdrawPages (pages_setTask (pages_told h (told_withdraw ..)) ?_) _ fun n hn => ?_
    · exact fun r => by
        rw [(told_withdraw s ⟨t, c.token⟩).samePages.places]; exact placeOf_some hl.1 r
    · obtain ⟨u, slot, part, hp⟩ := slotPages_place (placeOf_some hl.1) hn
      exact (reserved_of_place (PagesOk.same h (told_withdraw s ⟨t, c.token⟩).samePages) (t := u)
        (r := .slotPart slot part) (by rw [(told_withdraw s ⟨t, c.token⟩).samePages.places]; exact hp)).1

theorem pages_takeRenew : (takeRenew p q s).PagesOk :=
  withClaim_ind (pages_refuse h) fun t _ _ _ _ => pages_respond (pages_loadLease h t) _

theorem pages_takeEvict : (takeEvict p q s).PagesOk := by
  refine withTask_ind (pages_refuse h) fun t k _ _ => ?_
  split
  · exact pages_respond (pages_abnormalEnd h t _) _
  · exact pages_refuse h _

theorem pages_takePeekFrame : (takePeekFrame p q s).PagesOk := by
  refine withClaim_ind (pages_refuse h) fun t k c _ hl => ?_
  split
  · exact pages_respond (pages_loadLease h t) _
  · split
    · exact pages_respond (pages_loadLease h t) _
    · refine pages_reachPeek (pages_setTask h ?_) (fun r => placeOf_some (task_setTask_same ..) r) _ _ _ _ _ _
      exact fun r => placeOf_some hl.1 r

theorem pages_takeDataRead : (takeDataRead p q s).PagesOk := by
  refine withClaim_ind (pages_refuse h) fun t k c _ hl => ?_
  dsimp only
  split
  · exact pages_respond (pages_loadLease h t) _
  · split
    · exact pages_respond (pages_loadLease h t) _
    · refine pages_setTask h ?_
      exact fun r => placeOf_some hl.1 r

theorem pages_takeDataWrite : (takeDataWrite p q s).PagesOk := by
  refine withClaim_ind (pages_refuse h) fun t k c _ hl => ?_
  dsimp only
  split
  · exact pages_respond (pages_loadLease h t) _
  · split
    · exact pages_respond (pages_loadLease h t) _
    · refine pages_setTask h ?_
      exact fun r => placeOf_some hl.1 r

/-- Carrying out a request that has passed its checks keeps the page map sound. -/
theorem pages_carryOut (c : RequestCode) : (carryOut p q s c).PagesOk := by
  have lock : ∀ l k, (s.setLock l k).PagesOk := fun l k => pages_told h (told_setLock ..)
  have answer : ∀ t x, (s.answerClaim p t x).PagesOk := pages_answerClaim h
  cases c <;> simp only [carryOut]
  case define => exact pages_takeDefine h
  case discard => exact pages_takeDiscard h
  case retune => exact pages_takeRetune h
  case salvage => exact pages_takeSalvage h
  case claim => exact pages_takeClaim h
  case release => exact pages_takeRelease h
  case suspend => exact pages_takeSuspend h
  case renew => exact pages_takeRenew h
  case evict => exact pages_takeEvict h
  case peekFrame => exact pages_takePeekFrame h
  case dataRead => exact pages_takeDataRead h
  case dataWrite => exact pages_takeDataWrite h
  case hello =>
    refine pages_respond ?_ _
    split
    · exact h
    · exact pages_portsLocks h (portsLocks_onPort ..)
  case goodbye => exact pages_respond h _
  case grantRights =>
    simp only [takeGrantRights]
    split
    · exact pages_respond (pages_portsLocks h (portsLocks_onPort ..)) _
    · exact pages_refuse h _
  case fetchNotice =>
    simp only [takeFetchNotice]
    split
    · exact pages_respond h _
    · exact pages_respond (pages_portsLocks h (portsLocks_onPort ..)) _
  case queryTask => exact withTask_ind (pages_refuse h) fun _ _ _ _ => pages_respond h _
  case lockNew =>
    simp only [takeLockNew]
    split
    · exact pages_refuse h _
    · exact pages_respond (lock _ _) _
  case lockReturn =>
    refine withLock_ind (pages_refuse h) fun l _ => ?_
    split
    · exact pages_refuse h _
    · exact pages_respond (lock _ _) _
  case take =>
    exact withClaimLock_ind (pages_refuse h) fun t k c l _ _ =>
      takeLock_ind (fun _ _ => pages_answerClaim (lock _ _) _ _) (fun _ => answer _ _) fun _ _ => answer _ _
  case takeWait =>
    refine withClaimLock_ind (pages_refuse h) fun t k c l _ _ =>
      takeLock_ind (fun _ _ => pages_answerClaim (lock _ _) _ _) (fun _ => answer _ _) fun _ _ => ?_
    split
    · exact answer _ _
    · split
      · exact answer _ _
      · exact pages_answerClaim (lock _ _) _ _
  case withdraw =>
    refine withClaim_ind (pages_refuse h) fun t k c _ _ => ?_
    split
    · exact answer _ _
    · exact pages_answerClaim (pages_told h (told_withdraw ..)) _ _
  case give =>
    refine withClaimLock_ind (pages_refuse h) fun t k c l _ _ => ?_
    split
    · exact pages_answerClaim (pages_told h (told_giveUp ..)) _ _
    · exact answer _ _
  case queryLock => exact withLock_ind (pages_refuse h) fun _ _ => pages_respond h _
  case queryMemory => exact pages_respond h _

theorem pages_takeRequest : (takeRequest p q s).PagesOk := by
  simp only [takeRequest]
  split
  · split
    · exact pages_refuse h _
    · exact pages_refuse h _
  · split
    · exact pages_refuse h _
    · split
      · exact pages_refuse h _
      · split
        · exact pages_refuse h _
        · exact pages_carryOut h _

theorem pages_arrive : (arrive p q s).PagesOk := by
  simp only [arrive]
  split
  · exact h
  · split
    · split
      · exact pages_takeRequest (pages_portsLocks h (portsLocks_onPort ..))
      · exact pages_portsLocks h (portsLocks_onPort ..)
    · exact pages_portsLocks h (portsLocks_onPort ..)

end Requests

/-! ### The link and the resets -/

theorem pages_responseSent {s u : State} (h : s.PagesOk) (p : Port) (hu : execResponseSent p s = .next u) : u.PagesOk := by
  simp only [execResponseSent, Host.Outcome.next.injEq] at hu
  subst hu
  have on : ∀ {v : State}, v.PagesOk → ∀ f, (v.onPort p f).PagesOk := fun hv _ =>
    pages_portsLocks hv (portsLocks_onPort ..)
  split
  · exact h
  · exact on h _
  · refine on ?_ _
    have h2 : (if (s.port p).closing ‹_› then (s.onPort p PortRecord.dropHead).teardown p
        else s.onPort p PortRecord.dropHead).PagesOk := by
      split
      · exact pages_teardown (on h _) p
      · exact on h _
    simp only [State.takeNext]
    split
    · exact h2
    · exact pages_takeRequest h2

theorem pages_fullyReset (s : State) (m : Memory) (b : Bool) : (s.fullyReset m b).PagesOk := by
  have page : ∀ n, (s.fullyReset m b).page n = Page.reset := fun n => by
    simp [State.page, State.fullyReset, State.reset]
  refine ⟨fun n => ?_, fun n t r => ?_, fun n _ => ?_, fun n _ => ?_, fun n hn => ?_, fun n hn => ?_⟩
  · rw [page]; simp [Page.Ok, Page.reset]
  · rw [page]; simp [Page.reset, State.task, State.fullyReset, State.reset]
  · rw [page]; exact .inl rfl
  · left; simp [State.fullyReset, State.reset]
  · simp [State.fullyReset, State.reset] at hn
  · rw [page] at hn; simp [Page.reset] at hn

/-- Every command keeps the page map's agreement. -/
theorem pages_exec {s u : State} (h : s.PagesOk) (i : Instr) (hu : exec i s = .next u) : u.PagesOk := by
  cases hr : i.request with
  | some x =>
    rw [exec_request s hr, Host.Outcome.next.injEq] at hu
    subst hu
    exact pages_arrive h
  | none =>
    have on : ∀ {v : State}, v.PagesOk → ∀ p f, (v.onPort p f).PagesOk := fun hv p f =>
      pages_portsLocks hv (portsLocks_onPort ..)
    cases i <;> simp only [Instr.request, reduceCtorEq] at hr <;> simp only [exec] at hu
    case responseSent p => exact pages_responseSent h p hu
    case deliveryPartTransfer e => exact pages_deliveryPart h e hu
    case fillPageWrite => exact pages_fillPage h hu
    case peekPartTransfer e => exact pages_peekPart h e hu
    case dataReadPartTransfer e => exact pages_dataReadPart h e hu
    case dataWritePageTransfer e => exact pages_dataWritePage h e hu
    case scrubberTakePage => exact pages_scrubberTakePage h hu
    case scrubCompletion => exact pages_scrubCompletion h hu
    all_goals simp only [execMessageEnd, execArbiterGrant, execLeaseExpiry, execPortReset, execPortResetRelease,
      execFullReset, execFullResetRelease, execLeaseTimerMillisecond, Host.Outcome.next.injEq] at hu
    all_goals subst hu
    case messageEnd p m =>
      split
      · exact pages_arrive h
      · split
        · exact h
        · exact on h _ _
    case arbiterGrant =>
      split
      · exact h
      · split
        · exact h
        · exact PagesOk.same h ⟨fun _ => rfl, rfl, rfl, rfl, fun _ _ => rfl⟩
    case leaseExpiry t =>
      split
      · exact pages_abnormalEnd h _ _
      · exact h
    case portReset p => exact pages_teardown (on h _ _) p
    case portResetRelease p =>
      split
      · exact on h _ _
      · exact h
    case fullReset c => exact pages_fullyReset ..
    case fullResetRelease =>
      split
      · exact pages_fullyReset ..
      · exact h
    case leaseTimerMillisecond =>
      have tick : ∀ (ts : List TaskNo) (v : State), v.PagesOk →
          (ts.foldl (fun s t => s.onTask t fun k => { k with claim := k.claim.map Claim.tick }) v).PagesOk := by
        intro ts
        induction ts with
        | nil => exact fun _ h => h
        | cons t ts ih =>
          exact fun v hv => ih _ (PagesOk.same hv
            (samePages_onTask _ t (fun k => { k with claim := k.claim.map Claim.tick }) fun _ _ => rfl))
      exact tick _ _ h

end Sys2Proof.Laws
end

