-- ==== Sys2Proof/Laws/PerInstr.lean ====
section
/-! SUPPORT. Per-command families. `RequestRow`: a request command is the one that its own request stands for, and its
message is that request's; an event of the part has no message. -/

namespace Sys2Proof.Laws

open Sys2Proof

/-- What RequestRow says of a command. -/
def RequestRow.Statement (i : Instr) : Prop :=
  match i.request with
  | some (p, q) => WellFormed i → Instr.ofRequest p q = i ∧ encode i = some (encodeRequest q)
  | none => encode i = none

theorem RequestRow.hello (p : Port) (o : Operands) : RequestRow.Statement (.hello p o) := fun _ => ⟨rfl, rfl⟩
theorem RequestRow.goodbye (p : Port) (o : Operands) : RequestRow.Statement (.goodbye p o) := fun _ => ⟨rfl, rfl⟩
theorem RequestRow.grantRights (p : Port) (o : Operands) :
    RequestRow.Statement (.grantRights p o) := fun _ => ⟨rfl, rfl⟩
theorem RequestRow.fetchNotice (p : Port) (o : Operands) :
    RequestRow.Statement (.fetchNotice p o) := fun _ => ⟨rfl, rfl⟩
theorem RequestRow.define (p : Port) (o : Operands) : RequestRow.Statement (.define p o) := fun _ => ⟨rfl, rfl⟩
theorem RequestRow.discard (p : Port) (o : Operands) : RequestRow.Statement (.discard p o) := fun _ => ⟨rfl, rfl⟩
theorem RequestRow.retune (p : Port) (o : Operands) : RequestRow.Statement (.retune p o) := fun _ => ⟨rfl, rfl⟩
theorem RequestRow.queryTask (p : Port) (o : Operands) : RequestRow.Statement (.queryTask p o) := fun _ => ⟨rfl, rfl⟩
theorem RequestRow.salvage (p : Port) (o : Operands) : RequestRow.Statement (.salvage p o) := fun _ => ⟨rfl, rfl⟩
theorem RequestRow.claim (p : Port) (o : Operands) : RequestRow.Statement (.claim p o) := fun _ => ⟨rfl, rfl⟩
theorem RequestRow.release (p : Port) (o : Operands) : RequestRow.Statement (.release p o) := fun _ => ⟨rfl, rfl⟩
theorem RequestRow.suspend (p : Port) (o : Operands) : RequestRow.Statement (.suspend p o) := fun _ => ⟨rfl, rfl⟩
theorem RequestRow.renew (p : Port) (o : Operands) : RequestRow.Statement (.renew p o) := fun _ => ⟨rfl, rfl⟩
theorem RequestRow.evict (p : Port) (o : Operands) : RequestRow.Statement (.evict p o) := fun _ => ⟨rfl, rfl⟩
theorem RequestRow.peekFrame (p : Port) (o : Operands) : RequestRow.Statement (.peekFrame p o) := fun _ => ⟨rfl, rfl⟩
theorem RequestRow.dataRead (p : Port) (o : Operands) : RequestRow.Statement (.dataRead p o) := fun _ => ⟨rfl, rfl⟩
theorem RequestRow.dataWrite (p : Port) (o : Operands) : RequestRow.Statement (.dataWrite p o) := fun _ => ⟨rfl, rfl⟩
theorem RequestRow.lockNew (p : Port) (o : Operands) : RequestRow.Statement (.lockNew p o) := fun _ => ⟨rfl, rfl⟩
theorem RequestRow.lockReturn (p : Port) (o : Operands) : RequestRow.Statement (.lockReturn p o) := fun _ => ⟨rfl, rfl⟩
theorem RequestRow.take (p : Port) (o : Operands) : RequestRow.Statement (.take p o) := fun _ => ⟨rfl, rfl⟩
theorem RequestRow.takeWait (p : Port) (o : Operands) : RequestRow.Statement (.takeWait p o) := fun _ => ⟨rfl, rfl⟩
theorem RequestRow.withdraw (p : Port) (o : Operands) : RequestRow.Statement (.withdraw p o) := fun _ => ⟨rfl, rfl⟩
theorem RequestRow.give (p : Port) (o : Operands) : RequestRow.Statement (.give p o) := fun _ => ⟨rfl, rfl⟩
theorem RequestRow.queryLock (p : Port) (o : Operands) : RequestRow.Statement (.queryLock p o) := fun _ => ⟨rfl, rfl⟩
theorem RequestRow.queryMemory (p : Port) (o : Operands) :
    RequestRow.Statement (.queryMemory p o) := fun _ => ⟨rfl, rfl⟩

theorem RequestRow.unknownCode (p : Port) (code : Byte) (o : Operands) :
    RequestRow.Statement (.unknownCode p code o) := fun h => by
  have : RequestCode.ofByte code = none := by
    simp only [WellFormed, Instr.wellFormed, Bool.and_eq_true, Option.isNone_iff_eq_none] at h
    exact h.2
  exact ⟨by simp [Instr.ofRequest, this], rfl⟩

theorem RequestRow.messageEnd (p : Port) (m : LineMessage) : RequestRow.Statement (.messageEnd p m) := rfl
theorem RequestRow.responseSent (p : Port) : RequestRow.Statement (.responseSent p) := rfl
theorem RequestRow.arbiterGrant : RequestRow.Statement (.arbiterGrant) := rfl
theorem RequestRow.deliveryPartTransfer (e : ReadOutcome) : RequestRow.Statement (.deliveryPartTransfer e) := rfl
theorem RequestRow.fillPageWrite : RequestRow.Statement (.fillPageWrite) := rfl
theorem RequestRow.peekPartTransfer (e : ReadOutcome) : RequestRow.Statement (.peekPartTransfer e) := rfl
theorem RequestRow.dataReadPartTransfer (e : ReadOutcome) : RequestRow.Statement (.dataReadPartTransfer e) := rfl
theorem RequestRow.dataWritePageTransfer (e : ReadOutcome) : RequestRow.Statement (.dataWritePageTransfer e) := rfl
theorem RequestRow.scrubberTakePage : RequestRow.Statement (.scrubberTakePage) := rfl
theorem RequestRow.scrubCompletion : RequestRow.Statement (.scrubCompletion) := rfl
theorem RequestRow.leaseExpiry (t : TaskNo) : RequestRow.Statement (.leaseExpiry t) := rfl
theorem RequestRow.portReset (p : Port) : RequestRow.Statement (.portReset p) := rfl
theorem RequestRow.portResetRelease (p : Port) : RequestRow.Statement (.portResetRelease p) := rfl
theorem RequestRow.fullReset (cause : ResetCause) : RequestRow.Statement (.fullReset cause) := rfl
theorem RequestRow.fullResetRelease : RequestRow.Statement (.fullResetRelease) := rfl
theorem RequestRow.leaseTimerMillisecond : RequestRow.Statement (.leaseTimerMillisecond) := rfl

end Sys2Proof.Laws
end

