-- ==== Sys2Proof/Laws/SlotsKept.lean ====
section
/-! SUPPORT. `SlotsAll` is kept: by the ends of claims, by the parts of the long operations, and by every request a port
takes while it has no operation in flight. -/

namespace Sys2Proof.Laws

open Sys2Proof Sys2Proof.Machine

/-! ### Teardown and damage -/

theorem slots_teardown {s : State} (i : s.RecordsOk) (h : SlotsAll s) (p : Port) : SlotsAll (s.teardown p) := by
  simp only [State.teardown]
  split
  · have h1 : ∀ (ts : List TaskNo) (u : State), Told u (ts.foldl State.withdrawClaim u) :=
      fun ts u => .foldl _ told_withdrawClaim ts u
    have h2 : ∀ (ts : List TaskNo) (u : State), u.RecordsOk → SlotsAll u →
        SlotsAll (ts.foldl (fun s t => s.abnormalEnd t .portDown) u) := by
      intro ts
      induction ts with
      | nil => exact fun _ _ h => h
      | cons t ts ih => exact fun u i h => ih _ ((keeps_abnormalEnd ..).records i) (h.abnormalEnd i.tasks t _)
    refine SlotsAll.portsLocks ?_ (told_postAll ..).toPortsLocks
    refine SlotsAll.portsLocks ?_ (portsLocks_onPort ..)
    exact h2 _ _ ((Keeps.foldl _ keeps_withdrawClaim _ _).records i) (h.portsLocks (h1 _ _).toPortsLocks)
  · exact h

/-- The frame a delivery delivers: the top of the stack, of a claim that has retained none. -/
structure Delivers (k : Task) (slot : Nat) : Prop where
  slots : Fits k.slots k.stack none none
  layout : k.LayoutOk
  count : k.slots.length = k.frameLimit + 1
  depth : k.stack.length ≤ k.frameLimit
  top   : k.stack.getLast? = some slot
  phase : ∃ c, k.claim = some c ∧ c.phase = .opening ∧ c.retained = none

theorem Delivers.fault {k : Task} {slot : Nat} (h : Delivers k slot) : k.fault.SlotsOk :=
  slotsOk_rest h.layout h.count h.depth h.slots rfl rfl

theorem Delivers.next {k : Task} {slot : Nat} (h : Delivers k slot) (part : Nat) (b : List Byte) :
    Task.SlotsOk { k with op := some (.delivery slot part b) } := by
  obtain ⟨c, hc, hp, hr⟩ := h.phase
  refine ⟨h.layout, h.count, h.slots.once, h.depth, by simp [hc, hp], h.slots.filled, ?_, ?_, h.slots.frames, ?_, ?_⟩
  · show ∀ i, _ ↔ k.claim.bind (·.retained) = some i
    rw [hc, Option.bind_some, hr]; exact h.slots.retained
  · exact h.slots.filling
  · simp [hc, hp, Op.deliverySlot]
  · intro i hi
    obtain rfl : slot = i := by simpa [Op.deliverySlot] using hi
    exact h.top

theorem Delivers.done {k : Task} {c : Claim} {slot : Nat} (f : FrameRecord) (lease : Option Nat) (h : Delivers k slot) :
    Task.SlotsOk { k.withSlot slot { status := .retained, frame := some f } with
      stack := k.stack.dropLast, op := none
      claim := some (({ c with phase := .active, retained := some slot } : Claim).loadLease lease) } := by
  obtain ⟨below, e⟩ : ∃ below, k.stack = below ++ [slot] := ⟨_, (List.dropLast_append_getLast? _ h.top).symm⟩
  have hf := h.slots
  have hl := h.depth
  rw [e] at hf hl
  simp only [List.length_append, List.length_singleton] at hl
  refine slotsOk_active h.layout ?_ ?_ (fil := none) ?_ rfl rfl rfl rfl
  · simpa [Task.withSlot] using h.count
  · simp only [e, List.dropLast_concat, Task.withSlot]; omega
  · simpa [Task.withSlot, e, Claim.loadLease] using hf.retain f

theorem delivers_of_op {k : Task} {c : Claim} {slot next : Nat} {b : List Byte} (h : k.SlotsOk)
    (hc : k.claim = some c) (ok : c.Ok) (ho : k.op = some (.delivery slot next b)) : Delivers k slot := by
  have hp : c.phase = .opening := by simpa [hc, ho, Op.deliverySlot] using h.opening
  have hr : c.retained = none := by
    have := ok.2.2.2.1
    cases hr : c.retained <;> simp_all
  have hf := SlotsOk.fits h
  rw [hc, Option.bind_some, hr, ho] at hf
  exact ⟨hf, h.layout, h.count, h.depth, h.delivered slot (by simp [ho, Op.deliverySlot]), c, hc, hp, hr⟩

/-- Every task but t has slots that agree with it. -/
def SlotsBut (s : State) (t : TaskNo) : Prop := ∀ u, u ≠ t → ∀ k ∈ s.task u, k.SlotsOk

theorem SlotsAll.but {s : State} (h : SlotsAll s) (t : TaskNo) : SlotsBut s t := fun u _ => h u

theorem SlotsBut.some {s : State} {t : TaskNo} (h : SlotsBut s t) {k : Task} (hk : k.SlotsOk) :
    SlotsAll (s.setTask t (some k)) := by
  intro u k' hk'
  rw [task_setTask] at hk'
  split at hk'
  · obtain rfl := Option.mem_some.1 hk'; exact hk
  · next e => exact h u e k' hk'

theorem slots_damageInDelivery {s : State} {k : Task} {slot : Nat} {t : TaskNo} (h : SlotsBut s t)
    (d : Delivers k slot) (c : Claim) (n : PageNo) (part : Nat) : SlotsAll (s.damageInDelivery t k c n part) := by
  have h' : SlotsBut (s.onPage n Page.markPoisoned) t := h
  simp only [State.damageInDelivery]
  exact ((h'.some d.fault).portsLocks (told_postAll ..).toPortsLocks).portsLocks (portsLocks_respondHead ..)

theorem slots_reachDelivery {s : State} {k : Task} {slot : Nat} {t : TaskNo} (h : SlotsBut s t) (d : Delivers k slot)
    (c : Claim) (f : FrameRecord) (part : Nat) (b : List Byte) :
    SlotsAll (s.reachDeliveryPart t k c slot f part b) := by
  simp only [State.reachDeliveryPart]
  split
  · split
    · exact slots_damageInDelivery h d _ _ _
    · exact h.some (d.next ..)
  · simp only [State.completeDelivery]
    exact ((h.some (d.done f _)).portsLocks (told_moveAll ..).toPortsLocks).portsLocks (portsLocks_respondHead ..)

/-! ### Peeks and data transfers -/

/-- A record whose operation, if any, is neither fill nor delivery. -/
structure Reads (k : Task) : Prop where
  slots    : k.SlotsOk
  fill     : k.op.bind Op.fillSlot = none
  delivery : k.op.bind Op.deliverySlot = none

theorem Reads.setOp {k : Task} (h : Reads k) (o : Option Op) (h1 : o.bind Op.fillSlot = none)
    (h2 : o.bind Op.deliverySlot = none) : Task.SlotsOk { k with op := o } :=
  slotsOk_op h.slots (h1.trans h.fill.symm) (h2.trans h.delivery.symm)

theorem Reads.done {k : Task} (h : Reads k) : (Task.loadLease { k with op := none }).SlotsOk :=
  slotsOk_loadLease (h.setOp none rfl rfl)

theorem slots_damageInRead {s : State} {k : Task} (h : SlotsAll s) (r : Reads k) (t : TaskNo) (c : Claim) (n : PageNo)
    (part : Nat) : SlotsAll (s.damageInRead t k c n part) := by
  simp only [State.damageInRead]
  have h1 : SlotsAll (s.onPage n Page.markPoisoned) := h.congr fun _ => rfl
  exact (h1.some t r.done).portsLocks (portsLocks_respondHead ..)

theorem slots_reachPeek {s : State} {k : Task} (h : SlotsAll s) (r : Reads k) (t : TaskNo) (c : Claim)
    (position slot : Nat) (f : FrameRecord) (part : Nat) (b : List Byte) :
    SlotsAll (s.reachPeekPart t k c position slot f part b) := by
  simp only [State.reachPeekPart]
  split
  · split
    · exact slots_damageInRead h r _ _ _ _
    · exact h.some t (r.setOp _ rfl rfl)
  · exact (h.some t r.done).portsLocks (portsLocks_respondHead ..)

/-! ### Fills -/

theorem slots_dropRetained {s : State} {t u : TaskNo} {k : Task} {c : Claim} (hk : s.task t = some k) :
    (s.dropRetained t c).task u = if u = t then
      some (match c.retained with | none => k | some old => k.withSlot old emptied) else s.task u := by
  cases hr : c.retained with
  | none =>
    simp only [State.dropRetained, hr]
    split
    · next e => rw [e, hk]
    · rfl
  | some old => simp [State.dropRetained, hr, emptySlot_task, hk]

/-- The end of a claim whose retained slot, if any, empties. -/
theorem slotsOk_ended {k : Task} {c : Claim} (hl : k.LayoutOk)
    (hc : k.slots.length = k.frameLimit + 1) (hd : k.stack.length ≤ k.frameLimit)
    (hf : Fits k.slots k.stack c.retained none) :
    (match c.retained with | none => k | some old => k.withSlot old emptied).endClaim.SlotsOk := by
  cases hr : c.retained with
  | none => rw [hr] at hf; exact slotsOk_endClaim hl hc hd hf
  | some old =>
    rw [hr] at hf
    exact slotsOk_endClaim hl (by simpa [Task.withSlot] using hc) hd hf.dropRetained

theorem slots_completeFill {s : State} {k : Task} {c : Claim} {slot : Nat} (h : SlotsAll s)
    (hl : k.LayoutOk) (hc : k.slots.length = k.frameLimit + 1)
    (hd : k.stack.length < k.frameLimit) (hf : Fits k.slots k.stack c.retained (some slot)) (t : TaskNo) (w : Word)
    (b : List Byte) (x : Bool) : SlotsAll (s.completeFill t k c slot w b x) := by
  have ended : ∀ (v : State) (k2 : Task), (∀ u, v.task u = if u = t then some k2 else s.task u) →
      (match c.retained with | none => k2 | some old => k2.withSlot old emptied).endClaim.SlotsOk →
      SlotsAll ((v.dropRetained t c).onTask t Task.endClaim) := by
    intro v k2 hv ok u k' hk'
    have ht : v.task t = some k2 := by simp [hv]
    rw [onTask_task, slots_dropRetained ht, slots_dropRetained ht] at hk'
    split at hk'
    · obtain rfl := Option.mem_some.1 (by simpa using hk')
      exact ok
    · next e => exact h u k' (by simpa [hv, e] using hk')
  simp only [State.completeFill]
  have pushed : ∀ (f : FrameRecord) (ls : LockSet), SlotsAll (((((s.setTask t (some
      { k.withSlot slot { status := .filled, frame := some f } with stack := k.stack ++ [slot] })).moveAll ls
      (.claim t c.token) (.frame t slot)).dropRetained t c)).onTask t Task.endClaim) := fun f ls =>
    ended _ { k.withSlot slot { status := .filled, frame := some f } with stack := k.stack ++ [slot] }
      (fun u => (moveAll_task ..).trans (task_setTask ..))
      (slotsOk_ended hl (by simpa [Task.withSlot] using hc) (by simpa [Task.withSlot] using hd) (hf.pushFill f))
  exact ((pushed _ _).portsLocks (told_postFreed ..).toPortsLocks).portsLocks (portsLocks_respondHead ..)

/-! ### The completions of transfers -/

section Transfers

variable {s : State} (i : ∀ t, ∀ k ∈ s.task t, k.Ok) (h : SlotsAll s)

/-- The claim of a sound task record is sound. -/
theorem claim_ok {k : Task} {c : Claim} (h : k.Ok) (hc : k.claim = some c) : c.Ok := h.2.2.2.2.1 c hc

include h in
theorem reads_of_op {t : TaskNo} {k : Task} {o : Op} (hk : s.task t = some k) (ho : k.op = some o)
    (h1 : o.fillSlot = none) (h2 : o.deliverySlot = none) : Reads k :=
  ⟨h t k hk, by simp [ho, h1], by simp [ho, h2]⟩

include i h

theorem slots_deliveryPart (e : ReadOutcome) {u : State} (hu : execDeliveryPartTransfer e s = .next u) :
    SlotsAll u := by
  simp only [execDeliveryPartTransfer, Host.Outcome.next.injEq] at hu
  subst hu
  split
  · split
    · next ho =>
      obtain ⟨hk, hc, ho, _⟩ := opOf_spec ho
      have d := delivers_of_op (h _ _ hk) hc (claim_ok (i _ _ hk) hc) ho
      have h' : SlotsAll s.freePath := h.congr fun _ => rfl
      split
      · split
        · exact slots_damageInDelivery (h'.but _) d _ _ _
        · exact slots_reachDelivery (h'.but _) d _ _ _ _
      · exact h
    · exact h
  · exact h

omit i in
theorem slots_peekPart (e : ReadOutcome) {u : State} (hu : execPeekPartTransfer e s = .next u) : SlotsAll u := by
  simp only [execPeekPartTransfer, Host.Outcome.next.injEq] at hu
  subst hu
  split
  · split
    · next ho =>
      obtain ⟨hk, hc, ho, _⟩ := opOf_spec ho
      have r := reads_of_op h hk ho rfl rfl
      have h' : SlotsAll s.freePath := h.congr fun _ => rfl
      split
      · split
        · exact slots_damageInRead h' r _ _ _ _
        · exact slots_reachPeek h' r _ _ _ _ _ _ _
      · exact h
    · exact h
  · exact h

omit i in
theorem slots_dataReadPart (e : ReadOutcome) {u : State} (hu : execDataReadPartTransfer e s = .next u) :
    SlotsAll u := by
  simp only [execDataReadPartTransfer, Host.Outcome.next.injEq] at hu
  subst hu
  split
  · split
    · next ho =>
      obtain ⟨hk, hc, ho, _⟩ := opOf_spec ho
      have r := reads_of_op h hk ho rfl rfl
      have h' : SlotsAll s.freePath := h.congr fun _ => rfl
      split
      · split
        · exact slots_damageInRead h' r _ _ _ _
        · split
          · exact h'.some _ (r.setOp _ rfl rfl)
          · exact (h'.some _ r.done).portsLocks (portsLocks_respondHead ..)
      · exact h
    · exact h
  · exact h

omit i in
theorem slots_dataWritePage (e : ReadOutcome) {u : State} (hu : execDataWritePageTransfer e s = .next u) :
    SlotsAll u := by
  simp only [execDataWritePageTransfer, Host.Outcome.next.injEq] at hu
  subst hu
  split
  · split
    · next ho =>
      obtain ⟨hk, hc, ho, _⟩ := opOf_spec ho
      have r := reads_of_op h hk ho rfl rfl
      have h' : SlotsAll s.freePath := h.congr fun _ => rfl
      have hw : ∀ n offset bytes part, SlotsAll (s.freePath.writeDataPart n offset bytes part) :=
        fun _ _ _ _ => h.congr fun _ => by simp only [State.writeDataPart]; split <;> rfl
      split
      · split
        · exact slots_damageInRead h' r _ _ _ _
        · split
          · exact (hw _ _ _ _).some _ (r.setOp _ rfl rfl)
          · exact ((hw _ _ _ _).some _ r.done).portsLocks (portsLocks_respondHead ..)
      · exact h
    · exact h
  · exact h

omit i in
theorem slots_fillPage {u : State} (hu : execFillPageWrite s = .next u) : SlotsAll u := by
  simp only [execFillPageWrite, Host.Outcome.next.injEq] at hu
  subst hu
  split
  · split
    · next t k c slot next w b x ho =>
      obtain ⟨hk, hc, ho, _⟩ := opOf_spec ho
      have ok := h _ _ hk
      split
      · have hw : ∀ n b, SlotsAll ((s.freePath.writePage n 0 Config.pageBytes b).onPage n Page.clearPoison) :=
          fun _ _ => h.congr fun _ => rfl
        split
        · exact (hw _ _).some _ (slotsOk_op ok (by simp [ho, Op.fillSlot]) (by simp [ho, Op.deliverySlot]))
        · have hf := SlotsOk.fits ok
          have hp := ok.opening
          simp only [hc, ho, Option.bind_some, Op.fillSlot, Op.deliverySlot, Option.map_some, Option.isSome_none,
            Option.some.injEq, Bool.false_eq_true, iff_false] at hf hp
          refine slots_completeFill (k := { k with op := none }) (hw _ _) ok.layout ok.count (ok.room ?_) hf _ _ _ _
          rw [hc]
          cases hph : c.phase <;> simp_all
      · exact h
    · exact h
  · exact h

end Transfers

/-! ### New tasks and new claims -/

/-- A slot table with every slot EMPTY. -/
theorem fits_new (n : Nat) : Fits (List.replicate n emptied) [] none none := by
  have h : ∀ (i : Nat) x, (List.replicate n emptied)[i]? = some x → x = emptied := by
    intro i x hx
    exact List.eq_of_mem_replicate (List.mem_of_getElem? hx)
  refine ⟨List.nodup_nil, fun i => ?_, fun i => ?_, fun i => ?_, fun i => ?_⟩ <;>
    cases e : (List.replicate n emptied)[i]? with
    | none => simp
    | some x => simp [h i x e]

/-- The page lists of a new task have the lengths that its geometry gives. -/
theorem layoutOk_newTask {x : Params} (hx : x.geometryInRange = true) {pages : List PageNo}
    (hl : pages.length = x.pageCount) : (x.newTask pages).LayoutOk := by
  simp only [Params.geometryInRange, Bool.and_eq_true, decide_eq_true_eq] at hx
  simp only [Params.pageCount] at hl
  refine ⟨hx.1.1, hx.1.2, hx.2, by simp [Params.newTask], fun ns hns => ?_, ?_⟩
  · obtain ⟨i, hi, rfl⟩ := List.mem_map.1 hns
    have hi : i + 1 ≤ x.frameLimit + 1 := List.mem_range.1 hi
    have := Nat.mul_le_mul_right x.framePages hi
    rw [Nat.add_mul, Nat.one_mul] at this
    simp only [List.length_take, List.length_drop, Params.newTask]
    omega
  · simp only [Params.newTask, List.length_drop]; omega

theorem slotsOk_newTask {o : Operands} {x : Params} (hx : defineParams o = some x) {pages : List PageNo}
    (hl : pages.length = x.pageCount) : (x.newTask pages).SlotsOk := by
  have hg : x.geometryInRange = true := by
    simp only [defineParams, Option.filter_eq_some_iff] at hx
    exact hx.2
  exact slotsOk_rest (layoutOk_newTask hg hl) (by simp [Params.newTask]) (by simp [Params.newTask]) (fits_new _) rfl rfl

/-- The top of the stack as the claim decision reads it. -/
theorem top_spec {k : Task} {slot : Nat} {f : FrameRecord} (h : k.top = some (slot, f)) :
    k.stack.getLast? = some slot ∧ k.frameIn slot = some f := by
  simp only [Task.top, Option.bind_eq_some_iff, Option.map_eq_some_iff, Prod.mk.injEq] at h
  obtain ⟨a, ha, b, hb, rfl, rfl⟩ := h
  exact ⟨ha, hb⟩

/-- A task with a frame on its stack has a top frame. -/
theorem top_isSome {k : Task} (h : k.SlotsOk) (hs : k.stack ≠ []) : k.top.isSome = true := by
  have hl : k.stack.getLast? = some (k.stack.getLast hs) := List.getLast?_eq_some_getLast hs
  have hf := (h.frames _).2 (.inl ((h.filled _).2 (List.getLast_mem hs)))
  obtain ⟨f, hf⟩ := Option.isSome_iff_exists.1 hf
  simp [Task.top, hl, hf]

/-- A task without a claim has no operation. -/
theorem idle_of_claimless {k : Task} (ok : k.Ok) (hs : k.state ≠ .running) : k.claim = none ∧ k.op = none := by
  have hc : k.claim = none := by
    have := ok.1
    cases hc : k.claim <;> simp_all
  refine ⟨hc, ?_⟩
  have := ok.2.1
  cases ho : k.op <;> simp_all

/-- An accepted claim of a task with a claim's room: the slots agree with the claim. -/
theorem slotsOk_claimed {k : Task} {c : Claim} (ok : k.Ok) (h : k.SlotsOk) (hs : k.state ≠ .running)
    (hp : c.phase = .active) (hr : c.retained = none) (hroom : k.stack.length < k.frameLimit) :
    (k.claimed c).SlotsOk := by
  obtain ⟨hc, ho⟩ := idle_of_claimless ok hs
  have hf := SlotsOk.fits h
  rw [hc, ho] at hf
  exact slotsOk_active (k := k.claimed c) (c := c) h.layout h.count hroom (by rw [hr]; exact hf) rfl hp
    (by simp [Task.claimed, ho]) (by simp [Task.claimed, ho])

theorem delivers_claimed {k : Task} {c : Claim} {slot : Nat} {f : FrameRecord} (ok : k.Ok) (h : k.SlotsOk)
    (hs : k.state ≠ .running) (hp : c.phase = .opening) (hr : c.retained = none) (ht : k.top = some (slot, f)) :
    Delivers (k.claimed c) slot := by
  obtain ⟨hc, ho⟩ := idle_of_claimless ok hs
  have hf := SlotsOk.fits h
  rw [hc, ho] at hf
  exact ⟨hf, h.layout, h.count, h.depth, (top_spec ht).1, c, rfl, hp, hr⟩

/-- The start kinds: RESTORED only over a top frame, FRESH only of a READY task or without one. -/
theorem startFor_cases (k : Task) (force : Bool) :
    ((k.startFor force).1 = .restored → k.top.isSome = true)
      ∧ ((k.startFor force).1 = .fresh → k.state = .ready ∨ k.top = none) := by
  simp only [Task.startFor, startKindOf]
  cases k.state <;> cases k.top <;> simp
  all_goals
    rename_i x
    cases k.resumeMode <;> cases x.2.origin <;> cases force <;> simp

/-! ### Requests -/

/-- What holds when a port takes a request: sound task records, and no operation in flight of the port's own. -/
structure Taking (s : State) (p : Port) : Prop where
  tasks : ∀ t, ∀ k ∈ s.task t, k.Ok
  slots : SlotsAll s
  idle  : ∀ t k c, s.task t = some k → k.claim = some c → c.port = p → k.op = none

section Requests

variable {s : State} {p : Port} {q : Request} (h : Taking s p)

include h

theorem slots_respond (x : Response) : SlotsAll (s.respond p x) := h.slots.portsLocks (portsLocks_respond ..)

theorem slots_refuse (st : Status) : SlotsAll (s.refuse p q st) := slots_respond h _

theorem slots_restart (t : TaskNo) : SlotsAll (s.onTask t Task.loadLease) := h.slots.onTask t fun _ => slotsOk_loadLease

/-- The record that a token-bearing request finds, with its claim's timer stopped. -/
theorem reads_of_live {t : TaskNo} {k : Task} {c : Claim} {tok : Half} (hl : s.liveClaim p t k c tok) :
    Reads k ∧ Reads k.stopLease ∧ k.op = none := by
  obtain ⟨hk, _, hc, hp, _⟩ := hl
  have ho := h.idle t k c hk hc hp
  have ok := h.slots t k hk
  exact ⟨⟨ok, by simp [ho], by simp [ho]⟩,
    ⟨slotsOk_stopLease ok, by simp [Task.stopLease, ho], by simp [Task.stopLease, ho]⟩, ho⟩

theorem slots_takeDefine : SlotsAll (takeDefine p q s) := by
  simp only [takeDefine]
  split
  · exact slots_refuse h _
  · exact slots_refuse h _
  · next x t hx _ =>
    split
    · exact slots_respond h _
    · next hn =>
      refine SlotsAll.portsLocks (SlotsAll.some ?_ t ?_) (portsLocks_respond ..)
      · exact h.slots.congr fun u => reserve_task ..
      · exact slotsOk_newTask hx (by rw [List.length_take]; omega)

theorem slots_takeDiscard : SlotsAll (takeDiscard p q s) := by
  refine withTask_ind (slots_refuse h) fun t k _ hk => ?_
  split
  · exact slots_refuse h _
  · refine SlotsAll.portsLocks (SlotsAll.setTask ?_ t (by simp)) (portsLocks_respond ..)
    exact (h.slots.portsLocks (told_giveUpAll ..).toPortsLocks).congr fun u => releasePages_task ..

theorem slots_takeRetune : SlotsAll (takeRetune p q s) := by
  simp only [takeRetune]
  split
  · exact slots_refuse h _
  · refine withTask_ind (slots_refuse h) fun t k _ hk => ?_
    split
    · exact slots_refuse h _
    · exact (h.slots.some t (slotsOk_retuned _ (h.slots t k hk))).portsLocks (portsLocks_respond ..)

theorem slots_takeSalvage : SlotsAll (takeSalvage p q s) := by
  refine withTask_ind (slots_refuse h) fun t k _ hk => ?_
  split
  · next slot f hs ht =>
    refine SlotsAll.portsLocks (SlotsAll.portsLocks ?_ (told_postAll ..).toPortsLocks) (portsLocks_respond ..)
    have ok := h.slots t k hk
    obtain ⟨hc, ho⟩ := idle_of_claimless (h.tasks t k hk) (by simp [hs])
    have hg := (top_spec ht).1
    have e := (List.dropLast_append_getLast? _ hg).symm
    have hf := SlotsOk.fits ok
    have hd := ok.depth
    rw [hc, ho, e] at hf
    rw [e] at hd
    simp only [List.length_append, List.length_singleton] at hd
    intro u k' hk'
    rw [onTask_task] at hk'
    simp only [emptySlot_task, giveUpAll_task, hk, if_true] at hk'
    split at hk'
    · obtain rfl := Option.mem_some.1 (by simpa using hk')
      exact slotsOk_rest ok.layout (by simpa [Task.withSlot, Task.popToRest] using ok.count)
        (by simp only [Task.popToRest, Task.withSlot]; omega) hf.dropTop hc ho
    · exact h.slots u k' hk'
  · exact slots_refuse h _

theorem slots_takeClaim : SlotsAll (takeClaim p q s) := by
  refine withTask_ind (slots_refuse h) fun t k _ hk => ?_
  split
  · exact slots_refuse h _
  · next hr =>
    have ok := h.slots t k hk
    have ko := h.tasks t k hk
    obtain ⟨hn, hroom⟩ : k.state ≠ .running ∧ k.state ≠ .faulted
        ∧ ((k.startFor q.ops.force).1 = .notified → k.depth ≠ k.frameLimit) := by
      simp only [Task.claimRefusal] at hr
      split at hr <;> [simp at hr; skip]
      split at hr <;> [simp at hr; skip]
      split at hr <;> [simp at hr; skip]
      split at hr
      · simp at hr
      · next h1 h2 h3 => exact ⟨h2, h1, fun e d => h3 ⟨e, d⟩⟩
    have h' : ∀ x : Half, SlotsAll { s with nextToken := x } := fun _ => h.slots.congr fun _ => rfl
    simp only [State.acceptClaim]
    split
    · next slot f hkind ht =>
      refine slots_reachDelivery (fun u hu => ?_) (delivers_claimed ko ok hn ?_ rfl ht) _ _ _ _
      · rw [task_setTask, if_neg hu]; exact h.slots u
      · simp [newClaim, hkind]
    · next hkind =>
      have hne : (k.startFor q.ops.force).1 ≠ .restored := fun e => by
        obtain ⟨x, hx⟩ := Option.isSome_iff_exists.1 ((startFor_cases k _).1 e)
        exact hkind x.1 x.2 e hx
      refine ((h' _).some t (slotsOk_loadLease (slotsOk_claimed ko ok hn ?_ rfl ?_))).portsLocks (portsLocks_respond ..)
      · simp [newClaim, hne]
      · have hd := ok.depth
        cases hk2 : (k.startFor q.ops.force).1 with
        | restored => exact absurd hk2 hne
        | notified => have := hroom.2 hk2; simp only [Task.depth] at this; omega
        | fresh =>
          have hst : k.stack = [] := by
            rcases (startFor_cases k _).2 hk2 with e | e
            · exact ko.2.2.1 e
            · refine Classical.byContradiction fun hs => ?_
              have := top_isSome ok hs
              simp [e] at this
          rw [hst]; exact ok.layout.1.1

theorem slots_takeRelease : SlotsAll (takeRelease p q s) := by
  refine withClaim_ind (slots_refuse h) fun t k c _ hl => ?_
  obtain ⟨r, _, ho⟩ := reads_of_live h hl
  obtain ⟨hk, _, hc, _, _⟩ := hl
  refine SlotsAll.portsLocks (SlotsAll.portsLocks ?_ (told_postFreed ..).toPortsLocks) (portsLocks_respond ..)
  have hf := SlotsOk.fits r.slots
  rw [hc, Option.bind_some, ho] at hf
  intro u k' hk'
  have ht : ∀ u, (((s.withdraw ⟨t, c.token⟩).giveUpAll (s.heldBy (.claim t c.token))).task u) = s.task u := by
    intro u; rw [giveUpAll_task, withdraw_task]
  rw [onTask_task, slots_dropRetained ((ht t).trans hk), slots_dropRetained ((ht t).trans hk)] at hk'
  split at hk'
  · obtain rfl := Option.mem_some.1 (by simpa using hk')
    exact slotsOk_ended r.slots.layout r.slots.count r.slots.depth hf
  · next e => exact h.slots u k' (by simpa [e, ht] using hk')

theorem slots_takeSuspend : SlotsAll (takeSuspend p q s) := by
  refine withClaim_ind (slots_refuse h) fun t k c _ hl => ?_
  obtain ⟨r, r2, ho⟩ := reads_of_live h hl
  obtain ⟨hk, _, hc, _, _⟩ := hl
  split
  · exact (slots_restart h t).portsLocks (portsLocks_respond ..)
  · refine SlotsAll.congr (SlotsAll.some (h.slots.portsLocks (told_withdraw ..).toPortsLocks) t (k := k.startFill _ _ _) ?_)
      fun u => withdrawPages_task ..
    have ha := active_of_idle r.slots hc ho
    have room := r.slots.room (by simp [hc, ha])
    have hf := SlotsOk.fits r.slots
    rw [hc, Option.bind_some, ho] at hf
    obtain ⟨j, hj⟩ := hf.exists_empty (by rw [r.slots.count]; omega)
    have he : (k.slots[k.emptySlot]?).map (·.status) = some .empty := by
      obtain ⟨x, hx, hs⟩ := Option.map_eq_some_iff.1 hj
      have hlt : k.slots.findIdx (fun x => x.status = .empty) < k.slots.length :=
        List.findIdx_lt_length_of_exists ⟨x, List.mem_of_getElem? hx, by simpa using hs⟩
      have := List.findIdx_getElem (w := hlt)
      simp only [Task.emptySlot]
      rw [List.getElem?_eq_getElem hlt]
      simpa using this
    refine slotsOk_active (c := c.stopLease) (fil := some k.emptySlot) r.slots.layout ?_ room ?_ ?_ ha rfl rfl
    · simpa [Task.startFill, Task.withSlot, Task.stopLease] using r.slots.count
    · simpa [Task.startFill, Task.withSlot, Task.stopLease, Claim.stopLease] using hf.startFill he
    · simp [Task.startFill, Task.withSlot, Task.stopLease, hc]

theorem slots_answerClaim (t : TaskNo) (x : Response) : SlotsAll (s.answerClaim p t x) :=
  (slots_restart h t).portsLocks (portsLocks_respond ..)

theorem slots_takeRenew : SlotsAll (takeRenew p q s) :=
  withClaim_ind (slots_refuse h) fun t _ _ _ _ => (slots_restart h t).portsLocks (portsLocks_respond ..)

theorem slots_takeEvict : SlotsAll (takeEvict p q s) := by
  refine withTask_ind (slots_refuse h) fun t k _ hk => ?_
  split
  · exact (h.slots.abnormalEnd h.tasks t _).portsLocks (portsLocks_respond ..)
  · exact slots_refuse h _

theorem slots_takePeekFrame : SlotsAll (takePeekFrame p q s) := by
  refine withClaim_ind (slots_refuse h) fun t k c _ hl => ?_
  have r := (reads_of_live h hl).2.1
  split
  · exact (slots_restart h t).portsLocks (portsLocks_respond ..)
  · split
    · exact (slots_restart h t).portsLocks (portsLocks_respond ..)
    · exact slots_reachPeek (h.slots.some t r.slots) r _ _ _ _ _ _ _

theorem slots_takeDataRead : SlotsAll (takeDataRead p q s) := by
  refine withClaim_ind (slots_refuse h) fun t k c _ hl => ?_
  have r := (reads_of_live h hl).2.1
  dsimp only
  split
  · exact (slots_restart h t).portsLocks (portsLocks_respond ..)
  · split
    · exact (slots_restart h t).portsLocks (portsLocks_respond ..)
    · exact h.slots.some t (r.setOp _ rfl rfl)

theorem slots_takeDataWrite : SlotsAll (takeDataWrite p q s) := by
  refine withClaim_ind (slots_refuse h) fun t k c _ hl => ?_
  have r := (reads_of_live h hl).2.1
  dsimp only
  split
  · exact (slots_restart h t).portsLocks (portsLocks_respond ..)
  · split
    · exact (slots_restart h t).portsLocks (portsLocks_respond ..)
    · exact h.slots.some t (r.setOp _ rfl rfl)

/-- A request that has passed steps 2 to 4: of those left, each changes ports, locks and leases alone. -/
theorem slots_carryOut (c : RequestCode) : SlotsAll (carryOut p q s c) := by
  have told : ∀ {v : State}, PortsLocks s v → ∀ x, SlotsAll (v.respond p x) := fun e x =>
    (h.slots.portsLocks e).portsLocks (portsLocks_respond ..)
  have leased : ∀ {v : State}, PortsLocks s v → ∀ t x, SlotsAll (v.answerClaim p t x) := fun e t x =>
    ((h.slots.portsLocks e).onTask t fun _ => slotsOk_loadLease).portsLocks (portsLocks_respond ..)
  have lock : ∀ l k, PortsLocks s (s.setLock l k) := fun l k => (told_setLock ..).toPortsLocks
  cases c <;> simp only [carryOut]
  case define => exact slots_takeDefine h
  case discard => exact slots_takeDiscard h
  case retune => exact slots_takeRetune h
  case salvage => exact slots_takeSalvage h
  case claim => exact slots_takeClaim h
  case release => exact slots_takeRelease h
  case suspend => exact slots_takeSuspend h
  case renew => exact slots_takeRenew h
  case evict => exact slots_takeEvict h
  case peekFrame => exact slots_takePeekFrame h
  case dataRead => exact slots_takeDataRead h
  case dataWrite => exact slots_takeDataWrite h
  case hello =>
    simp only [takeHello]
    split
    · exact told (.refl s) _
    · exact told (portsLocks_onPort ..) _
  case goodbye => exact told (.refl s) _
  case grantRights =>
    simp only [takeGrantRights]
    split
    · exact told (portsLocks_onPort ..) _
    · exact slots_refuse h _
  case fetchNotice =>
    simp only [takeFetchNotice]
    split
    · exact told (.refl s) _
    · exact told (portsLocks_onPort ..) _
  case queryTask => exact withTask_ind (slots_refuse h) fun _ _ _ _ => told (.refl s) _
  case lockNew =>
    simp only [takeLockNew]
    split
    · exact slots_refuse h _
    · exact told (lock _ _) _
  case lockReturn =>
    refine withLock_ind (slots_refuse h) fun l _ => ?_
    split
    · exact slots_refuse h _
    · exact told (lock _ _) _
  case take =>
    exact withClaimLock_ind (slots_refuse h) fun t k c l _ _ =>
      takeLock_ind (fun _ _ => leased (lock _ _) _ _) (fun _ => leased (.refl s) _ _) fun _ _ => leased (.refl s) _ _
  case takeWait =>
    refine withClaimLock_ind (slots_refuse h) fun t k c l _ _ =>
      takeLock_ind (fun _ _ => leased (lock _ _) _ _) (fun _ => leased (.refl s) _ _) fun _ _ => ?_
    split
    · exact leased (.refl s) _ _
    · split
      · exact leased (.refl s) _ _
      · exact leased (lock _ _) _ _
  case withdraw =>
    refine withClaim_ind (slots_refuse h) fun t k c _ _ => ?_
    split
    · exact leased (.refl s) _ _
    · exact leased (told_withdraw ..).toPortsLocks _ _
  case give =>
    refine withClaimLock_ind (slots_refuse h) fun t k c l _ _ => ?_
    split
    · exact leased (told_giveUp ..).toPortsLocks _ _
    · exact leased (.refl s) _ _
  case queryLock => exact withLock_ind (slots_refuse h) fun _ _ => told (.refl s) _
  case queryMemory => exact told (.refl s) _

theorem slots_takeRequest : SlotsAll (takeRequest p q s) := by
  simp only [takeRequest]
  split
  · split
    · exact slots_refuse h _
    · exact slots_refuse h _
  · split
    · exact slots_refuse h _
    · split
      · exact slots_refuse h _
      · split
        · exact slots_refuse h _
        · exact slots_carryOut h _

end Requests

/-! ### Commands -/

theorem slots_arrive {s : State} (i : ∀ t, ∀ k ∈ s.task t, k.Ok) (l : LinkedAll s) (h : SlotsAll s) (p : Port)
    (q : Request) : SlotsAll (arrive p q s) := by
  simp only [arrive]
  split
  · exact h
  · next hd =>
    split
    · split
      · next he =>
        simp only [State.deaf, Bool.or_eq_true, not_or, Bool.not_eq_true] at hd
        exact slots_takeRequest
          ⟨i, h.portsLocks (portsLocks_onPort ..), (takes_queued i l hd.2 (by simpa using he) q).idle.idle⟩
      · exact h.portsLocks (portsLocks_onPort ..)
    · exact h.portsLocks (portsLocks_onPort ..)

theorem slots_responseSent {s u : State} (i : s.RecordsOk) (l : LinkedAll s) (h : SlotsAll s) (p : Port)
    (hu : execResponseSent p s = .next u) : SlotsAll u := by
  simp only [execResponseSent, Host.Outcome.next.injEq] at hu
  subst hu
  split
  · exact h
  · exact h.portsLocks (portsLocks_onPort ..)
  · next x hx =>
    generalize h2 : (if (s.port p).closing x then (s.onPort p PortRecord.dropHead).teardown p
      else s.onPort p PortRecord.dropHead) = s2
    obtain ⟨_, g2, _, _, g5⟩ := responseSent_next i l hx h2
    refine SlotsAll.portsLocks ?_ (portsLocks_onPort ..)
    have slots2 : SlotsAll s2 := by
      rw [← h2]
      split
      · exact slots_teardown (responseSent_dropped i l hx).1 (h.portsLocks (portsLocks_onPort ..)) p
      · exact h.portsLocks (portsLocks_onPort ..)
    simp only [State.takeNext]
    split
    · exact slots2
    · exact slots_takeRequest ⟨g2.tasks, slots2, g5⟩

/-- Every command keeps the slots' agreement with the stacks. -/
theorem slots_exec {s u : State} (ok : s.RecordsOk) (l : LinkedAll s) (h : SlotsAll s) (i : Instr)
    (hu : exec i s = .next u) : SlotsAll u := by
  cases hr : i.request with
  | some x =>
    rw [exec_request s hr, Host.Outcome.next.injEq] at hu
    subst hu
    exact slots_arrive ok.tasks l h _ _
  | none =>
    have reset : ∀ (v : State) (m : Memory) (b : Bool), SlotsAll (v.fullyReset m b) := by
      intro v m b t k hk
      simp [State.task, State.fullyReset, State.reset] at hk
    cases i <;> simp only [Instr.request, reduceCtorEq] at hr <;> simp only [exec] at hu
    case responseSent p => exact slots_responseSent ok l h p hu
    case deliveryPartTransfer e => exact slots_deliveryPart ok.tasks h e hu
    case fillPageWrite => exact slots_fillPage h hu
    case peekPartTransfer e => exact slots_peekPart h e hu
    case dataReadPartTransfer e => exact slots_dataReadPart h e hu
    case dataWritePageTransfer e => exact slots_dataWritePage h e hu
    all_goals simp only [execMessageEnd, execArbiterGrant, execLeaseExpiry, execPortReset, execPortResetRelease,
      execFullReset, execFullResetRelease, execLeaseTimerMillisecond, execScrubberTakePage, execScrubCompletion,
      Host.Outcome.next.injEq] at hu
    all_goals subst hu
    case messageEnd p m =>
      split
      · exact slots_arrive ok.tasks l h _ _
      · split
        · exact h
        · exact h.portsLocks (portsLocks_onPort ..)
    case arbiterGrant =>
      split
      · exact h
      · split
        · exact h
        · exact h.congr fun _ => rfl
    case scrubberTakePage =>
      split
      · exact h
      · split
        · exact h
        · exact h.congr fun _ => rfl
    case scrubCompletion =>
      split
      · exact h.congr fun _ => rfl
      · exact h
    case leaseExpiry t =>
      split
      · exact h.abnormalEnd ok.tasks t _
      · exact h
    case portReset p =>
      exact slots_teardown ((keeps_cutOff s p).records ok) (h.portsLocks (portsLocks_onPort ..)) p
    case portResetRelease p =>
      split
      · exact h.portsLocks (portsLocks_onPort ..)
      · exact h
    case fullReset c => exact reset _ _ _
    case fullResetRelease =>
      split
      · exact reset _ _ _
      · exact h
    case leaseTimerMillisecond =>
      have tick : ∀ (ts : List TaskNo) (v : State), SlotsAll v → SlotsAll
          (ts.foldl (fun s t => s.onTask t fun k => { k with claim := k.claim.map Claim.tick }) v) := by
        intro ts
        induction ts with
        | nil => exact fun _ h => h
        | cons t ts ih => exact fun v hv => ih _ (hv.onTask t fun _ => slotsOk_tick)
      exact tick _ _ h

end Sys2Proof.Laws
end

