-- ==== Sys2Proof/Laws/Pool.lean ====
section
/-! SUPPORT. The lock pool against the claims and the frames (`State.PoolOk`): what each procedure of the pool does to
their agreement while one task's record is being rewritten. -/

namespace Sys2Proof.Laws

open Sys2Proof Sys2Proof.Machine

/-! ### A lock table against claims, waits and carried locks -/

/-- A lock table agrees with the tokens of the claims that may hold locks, with those of the claims that may wait on
one, and with the locks that the frames carry. -/
structure Pool (lk : LockNo → Lock) (H W : TaskNo → Option Half) (C : TaskNo → Nat → LockNo → Prop) : Prop where
  claims  : ∀ l t x, (lk l).holder = some (.claim t x) → H t = some x
  frames  : ∀ l t i, (lk l).holder = some (.frame t i) ↔ C t i l
  waiters : ∀ l, ∀ w ∈ (lk l).waiters, W w.task = some w.token ∧ (lk l).holder.map Holder.task ≠ some w.task
  once    : ∀ l, (lk l).waiters.Nodup
  single  : ∀ l m, ∀ w ∈ (lk l).waiters, w ∈ (lk m).waiters → l = m

section Pool

variable {lk : LockNo → Lock} {H W : TaskNo → Option Half} {C : TaskNo → Nat → LockNo → Prop} (h : Pool lk H W C)

include h

/-- The same locks under other claims, waits and frames that serve them as well. -/
theorem Pool.change {H' W' : TaskNo → Option Half} {C' : TaskNo → Nat → LockNo → Prop}
    (hH : ∀ l t x, (lk l).holder = some (.claim t x) → H' t = some x)
    (hW : ∀ l, ∀ w ∈ (lk l).waiters, W' w.task = some w.token) (hC : ∀ t i l, C' t i l ↔ C t i l) : Pool lk H' W' C' :=
  ⟨hH, fun l t i => (h.frames l t i).trans (hC t i l).symm, fun l w hw => ⟨hW l w hw, (h.waiters l w hw).2⟩, h.once,
    h.single⟩

/-- Locks given up: each passes to its oldest waiter, which is a live claim of another task, or becomes FREE. -/
theorem Pool.gaveUp {lk' : LockNo → Lock} {ls : LockSet} (wh : ∀ t x, W t = some x → H t = some x)
    (e : ∀ m, lk' m = if m ∈ ls then gaveUp (lk m) else lk m) : Pool lk' H W fun t i l => C t i l ∧ l ∉ ls := by
  have spec : ∀ m, (lk' m).holder = none ∧ (lk' m).waiters = [] ∧ m ∈ ls
      ∨ (∃ w rest, (lk m).waiters = w :: rest ∧ (lk' m).holder = some (.claim w.task w.token) ∧ (lk' m).waiters = rest
          ∧ m ∈ ls)
      ∨ lk' m = lk m ∧ (m ∈ ls → (lk m).holder = none) := by
    intro m
    rw [e m]
    by_cases hm : m ∈ ls
    · rw [if_pos hm]
      cases hh : (lk m).holder with
      | none => exact .inr (.inr ⟨by simp [Laws.gaveUp, hh], fun _ => rfl⟩)
      | some x =>
        cases hw : (lk m).waiters with
        | nil => exact .inl (by simp [Laws.gaveUp, hh, hw, hm])
        | cons w rest => exact .inr (.inl ⟨w, rest, rfl, by simp [Laws.gaveUp, hh, hw, hm]⟩)
    · rw [if_neg hm]; exact .inr (.inr ⟨rfl, fun x => absurd x hm⟩)
  have sub : ∀ m, (lk' m).waiters.Sublist (lk m).waiters := by
    intro m
    rcases spec m with ⟨_, g, _⟩ | ⟨w, rest, g1, _, g2, _⟩ | ⟨g, _⟩
    · rw [g]; exact List.nil_sublist _
    · rw [g2, g1]; exact List.sublist_cons_self ..
    · rw [g]
  refine ⟨fun l t x hx => ?_, fun l t i => ?_, fun l w hw => ⟨(h.waiters l w ((sub l).subset hw)).1, ?_⟩,
    fun l => (h.once l).sublist (sub l), fun l m w hl hm => h.single l m w ((sub l).subset hl) ((sub m).subset hm)⟩
  · rcases spec l with ⟨g, _⟩ | ⟨w, rest, g1, g, _⟩ | ⟨g, _⟩
    · simp [g] at hx
    · rw [g] at hx
      obtain ⟨rfl, rfl⟩ := Holder.claim.inj (Option.some.inj hx)
      exact wh _ _ (h.waiters l w (by simp [g1])).1
    · exact h.claims l t x (g ▸ hx)
  · rcases spec l with ⟨g, _, hm⟩ | ⟨w, rest, g1, g, _, hm⟩ | ⟨g, hm⟩
    · simp [g, hm]
    · simp [g, hm]
    · rw [g, h.frames]
      exact ⟨fun hc => ⟨hc, fun hm' => by rw [← h.frames, hm hm'] at hc; simp at hc⟩, And.left⟩
  · rcases spec l with ⟨_, g, _⟩ | ⟨v, rest, g1, g, g2, _⟩ | ⟨g, _⟩
    · simp [g] at hw
    · rw [g]
      simp only [Option.map_some, Holder.task, ne_eq, Option.some.injEq]
      intro et
      rw [g2] at hw
      have hv := (h.waiters l v (by simp [g1])).1
      have hw' := (h.waiters l w (by rw [g1]; exact .tail _ hw)).1
      have nd := h.once l
      rw [g1] at nd
      refine (List.nodup_cons.1 nd).1 ?_
      obtain ⟨vt, vx⟩ := v
      obtain ⟨wt, wx⟩ := w
      obtain rfl : vt = wt := et
      obtain rfl : vx = wx := Option.some.inj (hv.symm.trans hw')
      exact hw
    · rw [g] at hw ⊢; exact (h.waiters l w hw).2

/-- Locks that change their holder within its task, the waiter lists as they were. -/
theorem Pool.moved {lk' : LockNo → Lock} {H' W' : TaskNo → Option Half} {C' : TaskNo → Nat → LockNo → Prop}
    (eW : ∀ u, W' u = W u) (hw : ∀ m, (lk' m).waiters = (lk m).waiters)
    (ht : ∀ m, (lk' m).holder.map Holder.task = (lk m).holder.map Holder.task)
    (hH : ∀ l t x, (lk' l).holder = some (.claim t x) → H' t = some x)
    (hC : ∀ l t i, (lk' l).holder = some (.frame t i) ↔ C' t i l) : Pool lk' H' W' C' :=
  ⟨hH, hC, fun l w hm => by rw [hw] at hm; rw [ht, eW]; exact h.waiters l w hm, fun l => by rw [hw]; exact h.once l,
    fun l m w hl hm => by rw [hw] at hl hm; exact h.single l m w hl hm⟩

end Pool

/-! ### The tables of a state -/

/-- The token of task t's claim that may hold locks. -/
def holds (s : State) (t : TaskNo) : Option Half := (s.task t).bind Task.activeToken

/-- The token of task t's claim that may wait on a lock. -/
def waits (s : State) (t : TaskNo) : Option Half := (s.task t).bind Task.waitToken

/-- The locks that the FILLED frame in slot i of task t carries. -/
def frameHas (s : State) (t : TaskNo) (i : Nat) (l : LockNo) : Prop := ∃ k, s.task t = some k ∧ k.carries i l

theorem waitToken_active {k : Task} {x : Half} (h : k.waitToken = some x) : k.activeToken = some x := by
  simp only [Task.waitToken] at h
  split at h
  · simp at h
  · exact h

/-- The frame records of a slot table carry ascending sets. -/
def Sorted (k : Task) : Prop := ∀ i f, k.frameIn i = some f → f.carried.Pairwise (· < ·)

theorem pool_iff {s : State} : s.PoolOk ↔
    Pool s.lock (holds s) (waits s) (frameHas s) ∧ ∀ t, ∀ k ∈ s.task t, Sorted k :=
  ⟨fun h => ⟨⟨h.claims, h.frames, h.waiters, h.once, h.single⟩, fun t k hk i f hf => h.sets t k i f hk hf⟩,
    fun h => ⟨h.1.claims, h.1.frames, h.1.waiters, h.1.once, h.1.single, fun t k i f hk hf => h.2 t k hk i f hf⟩⟩

/-! ### One task's record in the making -/

/-- The lock pool agrees with every task but t as the table has it, and with task t as if its claim's token were H, the
token it may wait with W, and the locks of its frames C. -/
structure PoolAt (s : State) (t : TaskNo) (H W : Option Half) (C : Nat → LockNo → Prop) : Prop where
  pool : Pool s.lock (fun u => if u = t then H else holds s u) (fun u => if u = t then W else waits s u)
    (fun u i l => if u = t then C i l else frameHas s u i l)
  sets : ∀ u, u ≠ t → ∀ k ∈ s.task u, Sorted k

theorem poolAt_of {s : State} (h : s.PoolOk) (t : TaskNo) : PoolAt s t (holds s t) (waits s t) (frameHas s t) := by
  obtain ⟨p, q⟩ := pool_iff.1 h
  refine ⟨p.change (fun l u x hx => ?_) (fun l w hw => ?_) fun u i l => ?_, fun u _ => q u⟩
  · split
    · next e => exact e ▸ p.claims l u x hx
    · exact p.claims l u x hx
  · split
    · next e => exact e ▸ (p.waiters l w hw).1
    · exact (p.waiters l w hw).1
  · split
    · next e => rw [e]
    · rfl

/-- The same for a task whose record is known. -/
theorem poolAt_task {s : State} (h : s.PoolOk) {t : TaskNo} {k : Task} (hk : s.task t = some k) :
    PoolAt s t k.activeToken k.waitToken k.carries := by
  have := poolAt_of h t
  have e : frameHas s t = k.carries := by funext i l; simp [frameHas, hk]
  simpa [holds, waits, hk, e] using this

section PoolAt

variable {s : State} {t : TaskNo} {H W : Option Half} {C : Nat → LockNo → Prop} (h : PoolAt s t H W C)

include h

/-- The record that serves the pool as well is written. -/
theorem PoolAt.close {k : Task} (hk : s.task t = some k) (h1 : H = none ∨ k.activeToken = H)
    (h2 : W = none ∨ k.waitToken = W) (h3 : ∀ i l, k.carries i l ↔ C i l) (h4 : Sorted k) : s.PoolOk := by
  refine pool_iff.2 ⟨h.pool.change (fun l u x hx => ?_) (fun l w hw => ?_) fun u i l => ?_, fun u k' hk' => ?_⟩
  · have := h.pool.claims l u x hx
    split at this
    · next e => subst e; rcases h1 with h1 | h1 <;> simp_all [holds]
    · exact this
  · have := (h.pool.waiters l w hw).1
    split at this
    · next e =>
      rcases h2 with h2 | h2
      · simp [h2] at this
      · rw [waits, e, hk, Option.bind_some, h2, this]
    · exact this
  · split
    · next e => subst e; simp [frameHas, hk, h3]
    · rfl
  · by_cases e : u = t
    · subst e
      obtain rfl : k = k' := by rw [hk] at hk'; exact Option.mem_some.1 hk'
      exact h4
    · exact h.sets u e k' hk'

/-- The record is emptied, when nothing is left of it in the pool. -/
theorem PoolAt.closeNone (hk : s.task t = none) (h1 : ∀ l x, (s.lock l).holder ≠ some (.claim t x)) (h2 : W = none)
    (h3 : ∀ i l, ¬ C i l) : s.PoolOk := by
  refine pool_iff.2 ⟨h.pool.change (fun l u x hx => ?_) (fun l w hw => ?_) fun u i l => ?_, fun u k' hk' => ?_⟩
  · have := h.pool.claims l u x hx
    split at this
    · next e => subst e; exact absurd hx (h1 l x)
    · exact this
  · have := (h.pool.waiters l w hw).1
    split at this
    · simp [h2] at this
    · exact this
  · split
    · next e => subst e; simp [frameHas, hk, h3]
    · rfl
  · refine h.sets u (fun e => ?_) k' hk'
    subst e; simp [hk] at hk'

/-- Task t's record, the ports, the pages and the memory play no part. -/
theorem PoolAt.congr {u : State} (el : ∀ l, u.lock l = s.lock l) (et : ∀ v, v ≠ t → u.task v = s.task v) :
    PoolAt u t H W C := by
  have e : ∀ v, v ≠ t → holds u v = holds s v ∧ waits u v = waits s v ∧ ∀ i l, frameHas u v i l ↔ frameHas s v i l :=
    fun v hv => by simp [holds, waits, frameHas, et v hv]
  refine ⟨?_, fun v hv k hk => h.sets v hv k (et v hv ▸ hk)⟩
  have p := h.pool.change (H' := fun v => if v = t then H else holds u v) (W' := fun v => if v = t then W else waits u v)
    (C' := fun v i l => if v = t then C i l else frameHas u v i l) (fun l v x hx => ?_) (fun l w hw => ?_) fun v i l => ?_
  · have e' : u.lock = s.lock := funext el
    rw [e']; exact p
  · have := h.pool.claims l v x hx
    split at this
    · next hv => rw [if_pos hv]; exact this
    · next hv => rw [if_neg hv, (e v hv).1]; exact this
  · have := (h.pool.waiters l w hw).1
    split at this
    · next hv => rw [if_pos hv]; exact this
    · next hv => rw [if_neg hv, (e _ hv).2.1]; exact this
  · split
    · rfl
    · next hv => exact (e v hv).2.2 i l

/-- What the claim of task t holds, as the pool has it. -/
theorem PoolAt.held {l : LockNo} {x : Half} (hx : (s.lock l).holder = some (.claim t x)) : H = some x := by
  simpa using h.pool.claims l t x hx

theorem PoolAt.carried {l : LockNo} {i : Nat} : (s.lock l).holder = some (.frame t i) ↔ C i l := by
  simpa using h.pool.frames l t i

theorem PoolAt.waiter {l : LockNo} {w : Waiter} (hw : w ∈ (s.lock l).waiters) (e : w.task = t) : W = some w.token := by
  simpa [e] using (h.pool.waiters l w hw).1

/-- The claim's token rewritten, when the claim holds no lock. -/
theorem PoolAt.setHolds (hn : ∀ l x, (s.lock l).holder ≠ some (.claim t x)) (H' : Option Half) : PoolAt s t H' W C :=
  ⟨h.pool.change (fun l u x hx => by
      by_cases e : u = t
      · subst e; exact absurd hx (hn l x)
      · simpa [e] using h.pool.claims l u x hx) (fun l w hw => (h.pool.waiters l w hw).1) fun _ _ _ => .rfl, h.sets⟩

/-- The give-up procedure on locks of task t's. -/
theorem PoolAt.giveUpAll {ls : LockSet} (nd : ls.Nodup) (wh : ∀ x, W = some x → H = some x)
    (own : ∀ l ∈ ls, ∀ y ∈ (s.lock l).holder, y.task = t) : PoolAt (s.giveUpAll ls) t H W fun i l => C i l ∧ l ∉ ls := by
  have base : PoolAt (s.giveUpAll ls) t H W fun i l => C i l ∧ l ∉ ls := by
    refine ⟨?_, fun u hu k hk => h.sets u hu k (by simpa using hk)⟩
    have p := h.pool.gaveUp (lk' := (s.giveUpAll ls).lock) (ls := ls) (fun u x => ?_) (giveUpAll_lock s ls nd)
    · refine p.change (fun l u x hx => ?_) (fun l w hw => ?_) fun u i l => ?_
      · have := p.claims l u x hx
        simpa [holds] using this
      · have := (p.waiters l w hw).1
        simpa [waits] using this
      · by_cases e : u = t
        · simp [e]
        · simp only [e, if_false]
          have ef : frameHas (s.giveUpAll ls) u i l ↔ frameHas s u i l := by simp [frameHas]
          rw [ef]
          refine ⟨fun hf => ⟨hf, fun hl => ?_⟩, And.left⟩
          have := (h.pool.frames l u i).2 (by simpa [e] using hf)
          exact e (own l hl _ this)
    · by_cases e : u = t
      · simpa [e] using wh x
      · simp only [e, if_false, holds, waits, Option.bind_eq_some_iff]
        rintro ⟨k, hk, hx⟩
        exact ⟨k, hk, waitToken_active hx⟩
  exact base

/-- The withdrawal procedure on the claim's wait. -/
theorem PoolAt.withdraw {x : Half} (hx : ∀ y, W = some y → y = x) : PoolAt (s.withdraw ⟨t, x⟩) t H none C := by
  have hl : ∀ m, ((s.withdraw ⟨t, x⟩).lock m).holder = (s.lock m).holder
      ∧ ((s.withdraw ⟨t, x⟩).lock m).waiters.Sublist (s.lock m).waiters
      ∧ ⟨t, x⟩ ∉ ((s.withdraw ⟨t, x⟩).lock m).waiters := by
    intro m
    rw [withdraw_lock]
    split
    · refine ⟨rfl, List.erase_sublist, fun hm => ?_⟩
      exact absurd hm (by rw [(h.pool.once m).mem_erase_iff]; simp)
    · next e =>
      refine ⟨rfl, List.Sublist.refl _, fun hm => e ?_⟩
      simp only [State.waitOf]
      cases ef : (List.finRange 32).find? (fun l => ⟨t, x⟩ ∈ (s.lock l).waiters) with
      | none => exact absurd hm (by simpa using List.find?_eq_none.1 ef m (List.mem_finRange m))
      | some l =>
        have := List.find?_some ef
        rw [h.pool.single l m ⟨t, x⟩ (by simpa using this) hm]
  refine ⟨⟨fun l u y hy => ?_, fun l u i => ?_, fun l w hw => ?_, fun l => (h.pool.once l).sublist (hl l).2.1,
    fun l m w h1 h2 => h.pool.single l m w ((hl l).2.1.subset h1) ((hl m).2.1.subset h2)⟩,
    fun u hu k hk => h.sets u hu k (by simpa using hk)⟩
  · have := h.pool.claims l u y ((hl l).1 ▸ hy)
    simpa [holds] using this
  · rw [(hl l).1, h.pool.frames]
    simp [frameHas]
  · obtain ⟨h1, h2⟩ := h.pool.waiters l w ((hl l).2.1.subset hw)
    rw [(hl l).1]
    refine ⟨?_, h2⟩
    by_cases e : w.task = t
    · have hw' := h.waiter ((hl l).2.1.subset hw) e
      obtain ⟨wt, wx⟩ := w
      obtain rfl : wt = t := e
      obtain rfl := hx _ hw'
      exact absurd hw (hl l).2.2
    · simpa [e, waits] using h1

/-- The move procedure on locks of the claim's, to a frame. -/
theorem PoolAt.moveToFrame {x : Half} {slot : Nat} (ls : LockSet)
    (hl : ∀ l ∈ ls, (s.lock l).holder = some (.claim t x)) :
    PoolAt (s.moveAll ls (.claim t x) (.frame t slot)) t H W fun i l => C i l ∨ i = slot ∧ l ∈ ls := by
  have e : ∀ m, (m ∈ ls ∧ ((s.moveAll ls (.claim t x) (.frame t slot)).lock m).holder = some (.frame t slot)
        ∧ (s.lock m).holder = some (.claim t x))
      ∨ m ∉ ls ∧ (s.moveAll ls (.claim t x) (.frame t slot)).lock m = s.lock m := by
    intro m
    rw [moveAll_lock]
    by_cases hm : m ∈ ls
    · simp [hm, hl m hm]
    · simp [hm]
  refine ⟨h.pool.moved (fun u => by simp [waits]) (fun m => moveAll_waiters ..) (fun m => ?_) (fun l u y hy => ?_) fun l u i => ?_,
    fun u hu k hk => h.sets u hu k (by simpa using hk)⟩
  · rcases e m with ⟨_, g1, g2⟩ | ⟨_, g⟩
    · rw [g1, g2]; rfl
    · rw [g]
  · rcases e l with ⟨_, g1, g2⟩ | ⟨_, g⟩
    · simp [g1] at hy
    · have := h.pool.claims l u y (g ▸ hy); simpa [holds] using this
  · rcases e l with ⟨hm, g1, g2⟩ | ⟨hm, g⟩
    · rw [g1]
      simp only [Option.some.injEq, Holder.frame.injEq, hm, and_true]
      have nf : ∀ u i, ¬ (if u = t then C i l else frameHas s u i l) := fun u i hf => by
        rw [← h.pool.frames, g2] at hf; simp at hf
      have nf' := nf u i
      by_cases eu : u = t
      · simp only [eu, if_true] at nf' ⊢
        simp [nf', eq_comm]
      · simp only [eu, if_false] at nf' ⊢
        simp only [Ne.symm eu, false_and, false_iff]
        simpa [frameHas] using nf'
    · rw [g, h.pool.frames]
      by_cases eu : u = t
      · simp [eu, hm]
      · simp [eu, frameHas]

/-- The move procedure from the frame in a slot to the claim, which held no lock. -/
theorem PoolAt.moveToClaim {x : Half} {slot : Nat} (ls : LockSet) (hn : H = none) (hc : ∀ l, C slot l ↔ l ∈ ls) :
    PoolAt (s.moveAll ls (.frame t slot) (.claim t x)) t (some x) W fun i l => C i l ∧ i ≠ slot := by
  have e : ∀ m, (m ∈ ls ∧ ((s.moveAll ls (.frame t slot) (.claim t x)).lock m).holder = some (.claim t x)
        ∧ (s.lock m).holder = some (.frame t slot))
      ∨ m ∉ ls ∧ (s.moveAll ls (.frame t slot) (.claim t x)).lock m = s.lock m := by
    intro m
    rw [moveAll_lock]
    by_cases hm : m ∈ ls
    · simp [hm, h.carried.2 ((hc m).2 hm)]
    · simp [hm]
  refine ⟨h.pool.moved (fun u => by simp [waits]) (fun m => moveAll_waiters ..) (fun m => ?_) (fun l u y hy => ?_) fun l u i => ?_,
    fun u hu k hk => h.sets u hu k (by simpa using hk)⟩
  · rcases e m with ⟨_, g1, g2⟩ | ⟨_, g⟩
    · rw [g1, g2]; rfl
    · rw [g]
  · rcases e l with ⟨_, g1, g2⟩ | ⟨_, g⟩
    · rw [g1] at hy
      obtain ⟨rfl, rfl⟩ := Holder.claim.inj (Option.some.inj hy)
      simp
    · have := h.pool.claims l u y (g ▸ hy)
      by_cases eu : u = t
      · simp [eu, hn] at this
      · simpa [eu, holds] using this
  · rcases e l with ⟨hm, g1, g2⟩ | ⟨hm, g⟩
    · rw [g1]
      simp only [Option.some.injEq, reduceCtorEq, false_iff]
      by_cases eu : u = t
      · simp only [eu, if_true, not_and, not_not]
        intro hf
        have := h.carried.2 hf
        rw [g2] at this
        exact (Holder.frame.inj (Option.some.inj this)).2.symm
      · simp only [eu, if_false]
        intro hf
        have : frameHas s u i l := by simpa [frameHas] using hf
        have := (h.pool.frames l u i).2 (by simpa [eu] using this)
        rw [g2] at this
        exact eu (Holder.frame.inj (Option.some.inj this)).1.symm
    · rw [g, h.pool.frames]
      by_cases eu : u = t
      · subst eu
        simp only [if_true, iff_self_and]
        rintro hf rfl
        exact hm ((hc l).1 hf)
      · simp [eu, frameHas]

end PoolAt

end Sys2Proof.Laws
end

