-- ==== Sys2Proof/Laws/PoolKept.lean ====
section
/-! SUPPORT. `State.PoolOk` is kept: by the parts of the long operations, the ends of claims, every request and every
other command. -/

namespace Sys2Proof.Laws

open Sys2Proof Sys2Proof.Machine

/-! ### Operations that leave the lock pool -/

/-- What of a task record the lock pool looks at. -/
def prof (k : Task) : Option Half × Option Half × List Slot := (k.activeToken, k.waitToken, k.slots)

/-- From s to u no lock's holder or waiter list changes, and no task's claim token or slots. -/
structure SamePool (s u : State) : Prop where
  locks : ∀ l, (u.lock l).holder = (s.lock l).holder ∧ (u.lock l).waiters = (s.lock l).waiters
  tasks : ∀ t, (u.task t).map prof = (s.task t).map prof

theorem SamePool.refl (s : State) : SamePool s s := ⟨fun _ => ⟨rfl, rfl⟩, fun _ => rfl⟩

theorem SamePool.trans {s t u : State} (a : SamePool s t) (b : SamePool t u) : SamePool s u :=
  ⟨fun l => ⟨(b.locks l).1.trans (a.locks l).1, (b.locks l).2.trans (a.locks l).2⟩,
    fun x => (b.tasks x).trans (a.tasks x)⟩

/-- The lock table and the task table as they were. -/
theorem SamePool.of_tables {s u : State} (h : u.locks = s.locks) (e : ∀ t, u.task t = s.task t) : SamePool s u :=
  ⟨fun l => by simp [State.lock, h], fun t => by rw [e]⟩

/-- A task's record rewritten alike. -/
theorem same_record {s : State} {t : TaskNo} {k k' : Task} (hk : s.task t = some k) (e : prof k' = prof k) :
    SamePool s (s.setTask t (some k')) :=
  ⟨fun _ => ⟨rfl, rfl⟩, fun u => by
    rw [task_setTask]
    split
    · next g => simp [g, hk, e]
    · rfl⟩

theorem same_update (s : State) (t : TaskNo) (f : Task → Task) (e : ∀ k, prof (f k) = prof k) :
    SamePool s (s.onTask t f) :=
  ⟨fun _ => ⟨rfl, rfl⟩, fun u => by
    rw [onTask_task]
    split
    · next g => subst g; cases s.task u <;> simp [e]
    · rfl⟩

theorem carries_of_slots {k k' : Task} (e : k'.slots = k.slots) : k'.carries = k.carries := by
  funext i l; simp only [Task.carries, Task.slotStatus, Task.frameIn, e]

theorem PoolOk.same {s u : State} (h : s.PoolOk) (e : SamePool s u) : u.PoolOk := by
  have rel : ∀ t k', u.task t = some k' → ∃ k, s.task t = some k ∧ prof k' = prof k := fun t k' hk => by
    have := e.tasks t
    rw [hk] at this
    obtain ⟨k, h1, h2⟩ := Option.map_eq_some_iff.1 this.symm
    exact ⟨k, h1, h2.symm⟩
  have rel' : ∀ t k, s.task t = some k → ∃ k', u.task t = some k' ∧ prof k' = prof k := fun t k hk => by
    have := e.tasks t
    rw [hk] at this
    obtain ⟨k', h1, h2⟩ := Option.map_eq_some_iff.1 this
    exact ⟨k', h1, h2⟩
  refine ⟨fun l t x hx => ?_, fun l t i => ?_, fun l w hw => ?_, fun l => (e.locks l).2 ▸ h.once l, fun l m w hl hm => ?_,
    fun t k i f hk hf => ?_⟩
  · rw [(e.locks l).1] at hx
    obtain ⟨k, hk, hx⟩ := Option.bind_eq_some_iff.1 (h.claims l t x hx)
    obtain ⟨k', hk', g⟩ := rel' t k hk
    rw [hk', Option.bind_some, (Prod.mk.inj g).1, hx]
  · rw [(e.locks l).1, h.frames l t i]
    constructor
    · rintro ⟨k, hk, hc⟩
      obtain ⟨k', hk', g⟩ := rel' t k hk
      exact ⟨k', hk', by rw [carries_of_slots (Prod.mk.inj (Prod.mk.inj g).2).2]; exact hc⟩
    · rintro ⟨k', hk', hc⟩
      obtain ⟨k, hk, g⟩ := rel t k' hk'
      exact ⟨k, hk, by rw [← carries_of_slots (Prod.mk.inj (Prod.mk.inj g).2).2]; exact hc⟩
  · rw [(e.locks l).2] at hw
    obtain ⟨h1, h2⟩ := h.waiters l w hw
    obtain ⟨k, hk, hx⟩ := Option.bind_eq_some_iff.1 h1
    obtain ⟨k', hk', g⟩ := rel' w.task k hk
    rw [(e.locks l).1]
    exact ⟨by rw [hk', Option.bind_some, (Prod.mk.inj (Prod.mk.inj g).2).1, hx], h2⟩
  · rw [(e.locks l).2] at hl; rw [(e.locks m).2] at hm; exact h.single l m w hl hm
  · obtain ⟨k0, hk0, g⟩ := rel t k hk
    refine h.sets t k0 i f hk0 ?_
    rw [← hf]; simp only [Task.frameIn, (Prod.mk.inj (Prod.mk.inj g).2).2]

/-! ### What leaves the lock table -/

theorem postAll_locks (s : State) (ps : List Port) (n : Notice) : (s.postAll ps n).locks = s.locks :=
  foldl_frame (fun s => s.locks) (fun s p => s.post p n) (fun _ _ => rfl) ps s

theorem respondHead_locks (s : State) (p : Port) (f : Request → Response) : (s.respondHead p f).locks = s.locks := by
  simp only [State.respondHead]; split <;> rfl

theorem emptySlot_locks (s : State) (t : TaskNo) (slot : Nat) : (s.emptySlot t slot).locks = s.locks := by
  simp only [State.emptySlot]
  split
  · rfl
  · rw [markStale_frame]; rfl

theorem dropRetained_locks (s : State) (t : TaskNo) (c : Claim) : (s.dropRetained t c).locks = s.locks := by
  simp only [State.dropRetained]
  split
  · rfl
  · exact emptySlot_locks ..

theorem endNotices_locks (s : State) (t : TaskNo) (w : PortSet) (p : Port) (c : EndCause) (d : Nat) :
    (s.endNotices t w p c d).locks = s.locks := by
  cases c <;> (simp only [State.endNotices]; rw [postAll_locks]; try rfl)

theorem abortOp_locks (s : State) (t : TaskNo) : (s.abortOp t).locks = s.locks := by
  simp only [State.abortOp]
  split
  · rfl
  · split
    · next c o _ _ =>
      have effect : (s.abortEffect t ‹Task› c o).locks = s.locks := by
        cases o <;> simp only [State.abortEffect]
        rw [emptySlot_locks]
        split
        · rw [abandonFill_frame]
        · rfl
      simp only [State.abandon]
      split <;> exact effect
    · rfl

theorem same_respond (s : State) (p : Port) (x : Response) : SamePool s (s.respond p x) :=
  .of_tables rfl fun _ => rfl

theorem same_respondHead (s : State) (p : Port) (f : Request → Response) : SamePool s (s.respondHead p f) :=
  .of_tables (respondHead_locks ..) fun _ => respondHead_task ..

theorem same_postAll (s : State) (ps : List Port) (n : Notice) : SamePool s (s.postAll ps n) :=
  .of_tables (postAll_locks ..) fun _ => postAll_task ..

theorem same_port (s : State) (p : Port) (f : PortRecord → PortRecord) : SamePool s (s.onPort p f) :=
  .of_tables rfl fun _ => rfl

theorem same_answerAborted (s : State) (c : Claim) (o : Option Op) (cause : EndCause) :
    SamePool s (s.answerAborted c o cause) := by
  cases cause <;> cases o <;> simp only [State.answerAborted] <;> first | exact .refl s | exact same_respondHead ..

theorem same_endNotices (s : State) (t : TaskNo) (w : PortSet) (p : Port) (c : EndCause) (d : Nat) :
    SamePool s (s.endNotices t w p c d) :=
  .of_tables (endNotices_locks ..) fun _ => (told_endNotices ..).task _

/-! ### Records -/

theorem activeToken_claim {k : Task} {c : Claim} (h : k.claim = some c) :
    k.activeToken = if c.phase = .active then some c.token else none := by
  simp only [Task.activeToken, h, Option.filter]
  split <;> simp_all

theorem activeToken_none {k : Task} (h : k.claim = none) : k.activeToken = none := by simp [Task.activeToken, h]

theorem waitToken_none {k : Task} (h : k.activeToken = none) : k.waitToken = none := by
  simp [Task.waitToken, h]

/-- A claim's token, lease and phase rewritten with token and phase as they were. -/
theorem activeToken_map {k k' : Task} {f : Claim → Claim} (h : k'.claim = k.claim.map f)
    (e : ∀ c, (f c).phase = c.phase ∧ (f c).token = c.token) : k'.activeToken = k.activeToken := by
  cases hc : k.claim with
  | none => simp [Task.activeToken, h, hc]
  | some c => rw [activeToken_claim (c := f c) (by simp [h, hc]), activeToken_claim hc, (e c).1, (e c).2]

theorem prof_loadLease (k : Task) : prof k.loadLease = prof k := by
  have e : k.loadLease.activeToken = k.activeToken := activeToken_map rfl fun _ => ⟨rfl, rfl⟩
  simp only [prof, Task.waitToken, e]
  rfl

theorem prof_stopLease (k : Task) : prof k.stopLease = prof k := by
  have e : k.stopLease.activeToken = k.activeToken := activeToken_map rfl fun _ => ⟨rfl, rfl⟩
  simp only [prof, Task.waitToken, e]
  rfl

theorem prof_tick (k : Task) : prof { k with claim := k.claim.map Claim.tick } = prof k := by
  have e : Task.activeToken { k with claim := k.claim.map Claim.tick } = k.activeToken :=
    activeToken_map rfl fun c => by
      simp only [Claim.tick]; split
      · exact ⟨rfl, rfl⟩
      · split <;> exact ⟨rfl, rfl⟩
  simp only [prof, Task.waitToken, e]

/-- An operation replaced by one that is alike in its fill. -/
theorem prof_op (k : Task) {o : Option Op} (h : o.bind Op.fillSlot = k.op.bind Op.fillSlot) :
    prof { k with op := o } = prof k := by
  simp only [prof, Task.waitToken, h]
  rfl

/-- A record of no ACTIVE claim, with the slots as they were. -/
theorem prof_inactive {k k' : Task} (h : k.activeToken = none) (h' : k'.activeToken = none) (e : k'.slots = k.slots) :
    prof k' = prof k := by
  simp only [prof, h, h', waitToken_none h, waitToken_none h', e]

/-- One slot rewritten: what its frame carries, if it is FILLED, and every other frame as before. -/
theorem carries_set {k k' : Task} {j : Nat} {x : Slot} (e : k'.slots = k.slots.set j x) (hj : j < k.slots.length)
    (i : Nat) (l : LockNo) :
    k'.carries i l ↔ if i = j then x.status = .filled ∧ ∃ f, x.frame = some f ∧ l ∈ f.carried else k.carries i l := by
  simp only [Task.carries, Task.slotStatus, Task.frameIn, e, List.getElem?_set]
  by_cases g : j = i
  · subst g; simp [hj]
  · simp [g, Ne.symm g]

theorem sorted_set {k k' : Task} {j : Nat} {x : Slot} (h : Sorted k) (e : k'.slots = k.slots.set j x)
    (hx : ∀ f, x.frame = some f → f.carried.Pairwise (· < ·)) : Sorted k' := by
  intro i f hf
  simp only [Task.frameIn, e, List.getElem?_set] at hf
  split at hf
  · split at hf
    · exact hx f hf
    · simp at hf
  · exact h i f hf

theorem sorted_slots {k k' : Task} (h : Sorted k) (e : k'.slots = k.slots) : Sorted k' := by
  intro i f hf
  exact h i f (by simpa only [Task.frameIn, e] using hf)

/-- A slot that is not FILLED carries nothing. -/
theorem not_carries {k : Task} {i : Nat} (h : k.slotStatus i ≠ some .filled) (l : LockNo) : ¬ k.carries i l :=
  fun hc => h hc.1

theorem carries_iff {k : Task} {i : Nat} {f : FrameRecord} (h : k.slotStatus i = some .filled) (hf : k.frameIn i = some f)
    (l : LockNo) : k.carries i l ↔ l ∈ f.carried := by
  simp [Task.carries, h, hf]

theorem heldBy_sorted (s : State) (h : Holder) : (s.heldBy h).Pairwise (· < ·) :=
  (List.pairwise_lt_finRange 32).filter _

/-- An ascending set lists each lock once. -/
theorem nodup_of_sorted {ls : LockSet} (h : ls.Pairwise (· < ·)) : ls.Nodup := h.imp fun h => ne_of_lt h

section PoolAt

variable {s : State} {t : TaskNo} {H W : Option Half} {C : Nat → LockNo → Prop} (h : PoolAt s t H W C)

include h

/-- The frames' locks said otherwise. -/
theorem PoolAt.carry {C' : Nat → LockNo → Prop} (e : ∀ i l, C i l ↔ C' i l) : PoolAt s t H W C' := by
  have : C = C' := by funext i l; exact propext (e i l)
  exact this ▸ h

/-- A task's record written, or its ports, pages and memory changed. -/
theorem PoolAt.tables {u : State} (el : u.locks = s.locks) (et : ∀ v, v ≠ t → u.task v = s.task v) :
    PoolAt u t H W C :=
  h.congr (fun l => by simp [State.lock, el]) et

theorem PoolAt.setTask (k : Option Task) : PoolAt (s.setTask t k) t H W C :=
  h.tables rfl fun v hv => by rw [task_setTask, if_neg hv]

theorem PoolAt.onTask (f : Task → Task) : PoolAt (s.onTask t f) t H W C :=
  h.tables rfl fun v hv => by rw [onTask_task, if_neg hv]

/-- All the locks of a claim that waits for none, given up: it holds none. -/
theorem PoolAt.released {ls : LockSet} (nd : ls.Nodup) (hw : W = none)
    (own : ∀ l, (∃ x, (s.lock l).holder = some (.claim t x)) ↔ l ∈ ls) :
    PoolAt (s.giveUpAll ls) t none none C := by
  subst hw
  have own' : ∀ l ∈ ls, ∃ x, (s.lock l).holder = some (.claim t x) := fun l => (own l).2
  have p := h.giveUpAll nd (by simp) fun l hl y hy => by
    obtain ⟨x, hx⟩ := own' l hl
    rw [hx] at hy
    obtain rfl := Option.mem_some.1 hy; rfl
  refine (p.setHolds (fun l x hx => ?_) none).carry fun i l => ⟨And.left, fun hc => ⟨hc, fun hl => ?_⟩⟩
  · rw [giveUpAll_lock s ls nd] at hx
    split at hx
    · next hl =>
      obtain ⟨y, hy⟩ := own' l hl
      cases hw : (s.lock l).waiters with
      | nil => simp [gaveUp, hy, hw] at hx
      | cons w rest =>
        simp only [gaveUp, hy, hw, Option.some.injEq, Holder.claim.injEq] at hx
        have := h.waiter (l := l) (w := w) (by simp [hw]) hx.1
        simp at this
    · next hl => exact hl ((own l).1 ⟨x, hx⟩)
  · obtain ⟨x, hx⟩ := own' l hl
    rw [h.carried.2 hc] at hx
    simp at hx

end PoolAt

/-! ### Deliveries -/

section Delivery

variable {s : State} {t : TaskNo} {k : Task} {c : Claim} {slot : Nat} (h : s.PoolOk) (hk : s.task t = some k)
  (d : Delivers k slot)

include h hk d

omit h hk in
theorem Delivers.inactive : k.activeToken = none := by
  obtain ⟨c, hc, hp, _⟩ := d.phase
  rw [activeToken_claim hc, hp]; rfl

theorem pool_damageInDelivery (n : PageNo) (part : Nat) : (s.damageInDelivery t k c n part).PoolOk := by
  simp only [State.damageInDelivery]
  have h' : (s.onPage n Page.markPoisoned).PoolOk := PoolOk.same h (.of_tables rfl fun _ => rfl)
  have e : SamePool (s.onPage n Page.markPoisoned) ((s.onPage n Page.markPoisoned).setTask t (some k.fault)) :=
    same_record hk (prof_inactive d.inactive (activeToken_none rfl) rfl)
  exact PoolOk.same h' ((e.trans (same_postAll ..)).trans (same_respondHead ..))

theorem pool_completeDelivery {f : FrameRecord} (hf : k.frameIn slot = some f) (b : List Byte) :
    (s.completeDelivery t k c slot f b).PoolOk := by
  simp only [State.completeDelivery]
  refine PoolOk.same ?_ (same_respondHead ..)
  have hm : slot ∈ k.stack := List.mem_of_getLast? d.top
  have hs : k.slotStatus slot = some .filled := (d.slots.filled slot).2 hm
  have hb : slot < k.slots.length := d.slots.bound (.inl hm)
  have p := ((poolAt_task h hk).setTask (some { k.withSlot slot { status := .retained, frame := some f } with
    stack := k.stack.dropLast, op := none
    claim := some (({ c with phase := .active, retained := some slot } : Claim).loadLease k.leaseLoad) })).moveToClaim
      (x := c.token) f.carried d.inactive fun l => carries_iff hs hf l
  refine p.close ((moveAll_task ..).trans (task_setTask_same ..)) (.inr ?_)
    (.inl (waitToken_none d.inactive)) (fun i l => ?_) ?_
  · exact (activeToken_claim rfl).trans (if_pos rfl)
  · rw [carries_set (k := k) (j := slot) (x := { status := .retained, frame := some f }) rfl hb]
    split
    · next e => simp [e]
    · next e => simp [e]
  · exact sorted_set (fun i g => h.sets t k i g hk) rfl fun g hg => h.sets t k slot g hk (hf.trans hg)

theorem pool_reachDelivery {f : FrameRecord} (hf : k.frameIn slot = some f) (part : Nat) (b : List Byte) :
    (s.reachDeliveryPart t k c slot f part b).PoolOk := by
  simp only [State.reachDeliveryPart]
  split
  · split
    · exact pool_damageInDelivery h hk d _ _
    · exact PoolOk.same h (same_record hk (prof_inactive d.inactive d.inactive rfl))
  · exact pool_completeDelivery h hk d hf _

end Delivery

/-! ### Peeks and data transfers -/

section Reading

variable {s : State} {t : TaskNo} {k : Task} {c : Claim} (h : s.PoolOk) (hk : s.task t = some k) (r : Reads k)

include h hk r

omit h in
/-- The operation of a read replaced by none or by another read. -/
theorem same_setOp {o : Option Op} (ho : o.bind Op.fillSlot = none) : SamePool s (s.setTask t (some { k with op := o })) :=
  same_record hk (prof_op k (ho.trans r.fill.symm))

omit h in
theorem same_done (f : Request → Response) :
    SamePool s ((s.setTask t (some (Task.loadLease { k with op := none }))).respondHead c.port f) :=
  (same_record hk ((prof_loadLease _).trans (prof_op k (o := none) r.fill.symm))).trans (same_respondHead ..)

theorem pool_damageInRead (n : PageNo) (part : Nat) : (s.damageInRead t k c n part).PoolOk := by
  have h' : (s.onPage n Page.markPoisoned).PoolOk := PoolOk.same h (.of_tables rfl fun _ => rfl)
  exact PoolOk.same h' (same_done (s := s.onPage n Page.markPoisoned) hk r _)

theorem pool_reachPeek (position slot : Nat) (f : FrameRecord) (part : Nat) (b : List Byte) :
    (s.reachPeekPart t k c position slot f part b).PoolOk := by
  simp only [State.reachPeekPart]
  split
  · split
    · exact pool_damageInRead h hk r _ _
    · exact PoolOk.same h (same_setOp hk r rfl)
  · exact PoolOk.same h (same_done hk r _)

end Reading

/-! ### Fills and normal ends -/

/-- The retained slot of an ending claim empties: no FILLED frame changes. -/
theorem carries_dropped {k : Task} {c : Claim} {fil : Option Nat} (hf : Fits k.slots k.stack c.retained fil) (i : Nat)
    (l : LockNo) :
    (match c.retained with | none => k | some old => k.withSlot old emptied).endClaim.carries i l ↔ k.carries i l := by
  cases hr : c.retained with
  | none => rw [carries_of_slots (k := k) (k' := k.endClaim) rfl]
  | some old =>
    rw [hr] at hf
    rw [carries_set (k := k) (j := old) (x := emptied) rfl (hf.bound (.inr (.inl rfl)))]
    split
    · next e =>
      have : k.slotStatus old = some .retained := (hf.retained old).2 rfl
      simp only [e, reduceCtorEq, false_and, false_iff]
      exact not_carries (by simp [this]) l
    · rfl

theorem sorted_dropped {k : Task} (h : Sorted k) (c : Claim) :
    Sorted (match c.retained with | none => k | some old => k.withSlot old emptied).endClaim := by
  cases c.retained with
  | none => exact sorted_slots h rfl
  | some old => exact sorted_set h (x := emptied) rfl (by simp)

/-- A claim that holds no lock and waits for none ends normally. -/
theorem pool_dropped {s : State} {t : TaskNo} {k : Task} {c : Claim} {fil : Option Nat} (p : PoolAt s t none none k.carries)
    (hk : s.task t = some k) (hf : Fits k.slots k.stack c.retained fil) (hs : Sorted k) :
    ((s.dropRetained t c).onTask t Task.endClaim).PoolOk := by
  refine PoolAt.close (k := (match c.retained with | none => k | some old => k.withSlot old emptied).endClaim)
    (((p.tables (dropRetained_locks s t c) fun v hv => ?_).onTask _)) ?_ (.inl rfl) (.inl rfl)
    (fun i l => carries_dropped hf i l) (sorted_dropped hs c)
  · rw [slots_dropRetained hk, if_neg hv]
  · rw [onTask_task, if_pos rfl, slots_dropRetained hk, if_pos rfl]; rfl

theorem pool_completeFill {s : State} {t : TaskNo} {k : Task} {c : Claim} {slot : Nat} (h : s.PoolOk)
    {o : Op} (hk : s.task t = some { k with op := some o }) (ho : o.fillSlot = some slot) (hc : k.claim = some c)
    (hp : c.phase = .active) (hf : Fits k.slots k.stack c.retained (some slot)) (w : Word) (b : List Byte) (x : Bool) :
    (s.completeFill t k c slot w b x).PoolOk := by
  simp only [State.completeFill]
  refine PoolOk.same ?_ ((same_postAll ..).trans (same_respondHead ..))
  have p0 := poolAt_task h hk
  have hH : Task.activeToken { k with op := some o } = some c.token := (activeToken_claim hc).trans (if_pos hp)
  have hW : Task.waitToken { k with op := some o } = none := by simp [Task.waitToken, ho]
  rw [hH, hW, carries_of_slots (k := k) (k' := { k with op := some o }) rfl] at p0
  generalize hheld : s.heldBy (.claim t c.token) = held
  have mem : ∀ l, l ∈ held ↔ (s.lock l).holder = some (.claim t c.token) := fun l => by rw [← hheld, mem_heldBy]
  have sorted : held.Pairwise (· < ·) := by rw [← hheld]; exact heldBy_sorted ..
  generalize hfr : (⟨b.length, w, c.level, held, false, c.port⟩ : FrameRecord) = f
  have hcar : f.carried = held := by rw [← hfr]
  generalize hk' : ({ k.withSlot slot { status := .filled, frame := some f } with stack := k.stack ++ [slot] } : Task) = k'
  have hsl : k'.slots = k.slots.set slot { status := .filled, frame := some f } := by rw [← hk']; rfl
  have hb : slot < k.slots.length := hf.bound (.inr (.inr rfl))
  have p1 := (p0.setTask (some k')).moveToFrame (slot := slot) held fun l hl => (mem l).1 hl
  have none : ∀ l y, (((s.setTask t (some k')).moveAll held (.claim t c.token) (.frame t slot)).lock l).holder
      ≠ some (.claim t y) := by
    intro l y
    rw [moveAll_lock]
    split
    · simp
    · next e =>
      intro hy
      have hy : (s.lock l).holder = some (.claim t y) := hy
      have := p0.held hy
      obtain rfl := Option.some.inj this
      exact e ⟨(mem l).2 hy, hy⟩
  refine pool_dropped (k := k') ((p1.setHolds none _).carry fun i l => ?_) ((moveAll_task ..).trans (task_setTask_same ..))
    (fil := Option.none) ?_ ?_
  · rw [carries_set hsl hb]
    have hs : k.slotStatus slot = some .filling := (hf.filling slot).2 rfl
    split
    · next e => subst e; simp [hcar, not_carries (k := k) (i := i) (by simp [hs]) l]
    · next e => simp [e]
  · rw [← hk']; exact hf.pushFill f
  · exact sorted_set (fun i g hg => h.sets t _ i g hk hg) hsl fun g hg => by
      obtain rfl := Option.some.inj hg; rw [hcar]; exact sorted

/-! ### The abnormal end of a claim -/

/-- An abort leaves what the FILLED frames carry. -/
theorem carries_aborted {k : Task} (h : k.SlotsOk) : (abortedTask k).carries = k.carries := by
  funext i l
  refine propext ?_
  simp only [abortedTask]
  split
  · next slot _ _ _ _ ho =>
    have hs : k.slotStatus slot = some .filling := (h.filling slot).2 (by simp [ho, Op.fillSlot])
    rw [carries_set (k := k) (j := slot) (x := emptied) rfl ((SlotsOk.fits h).bound (.inr (.inr (by simp [ho, Op.fillSlot]))))]
    split
    · next e =>
      subst e
      simp only [reduceCtorEq, false_and, false_iff]
      exact not_carries (by simp [hs]) l
    · rfl
  · rfl
  · rfl

theorem sorted_aborted {k : Task} (h : Sorted k) : Sorted (abortedTask k) := by
  simp only [abortedTask]
  split
  · exact sorted_set h (x := emptied) rfl (by simp)
  · exact h
  · exact h

/-- Step 3 of the abnormal end of a claim that waits for no lock: it holds none any more, and its task's frames carry
what they hold. -/
theorem pool_endLocks {s : State} {t : TaskNo} {k : Task} {c : Claim} (hk : s.task t = some k) (hc : k.claim = some c)
    (p : PoolAt s t k.activeToken none k.carries) (hs : Sorted k)
    (hf : Fits k.slots k.stack c.retained none) :
    ∃ k', (s.endLocks t c).task t = some k' ∧ PoolAt (s.endLocks t c) t none none k'.carries ∧ Sorted k' := by
  have hA := activeToken_claim hc
  simp only [State.endLocks]
  split
  · next hp =>
    rw [hA, hp] at p
    exact ⟨k, hk, p, hs⟩
  · next slot hp hrt =>
    rw [hA, if_pos hp] at p
    rw [hrt] at hf
    have hst : k.slotStatus slot = some .retained := (hf.retained slot).2 rfl
    have hfr := (hf.frames slot).2 (.inr hst)
    obtain ⟨f, hfi⟩ := Option.isSome_iff_exists.1 hfr
    have hfi : k.frameIn slot = some f := hfi
    have hb : slot < k.slots.length := hf.bound (.inr (.inl rfl))
    generalize hheld : s.heldBy (.claim t c.token) = held
    have mem : ∀ l, l ∈ held ↔ (s.lock l).holder = some (.claim t c.token) := fun l => by rw [← hheld, mem_heldBy]
    have sorted : held.Pairwise (· < ·) := by rw [← hheld]; exact heldBy_sorted ..
    generalize hk' : ({ k.withSlot slot { status := .filled, frame := some (f.reconcile held) } with
      stack := k.stack ++ [slot] } : Task) = k'
    have hsl : k'.slots = k.slots.set slot { status := .filled, frame := some (f.reconcile held) } := by rw [← hk']; rfl
    have e : s.reinstate t c.token slot = ((s.setTask t (some k')).moveAll (f.reconcile held).carried (.claim t c.token)
        (.frame t slot)).giveUpAll (held.filter (fun l => l ∉ f.carried)) := by
      simp only [State.reinstate, hk, hfi, hheld, hk']
    rw [e]
    have mem1 : ∀ l, l ∈ (f.reconcile held).carried ↔ l ∈ held ∧ l ∈ f.carried := fun l => by
      simp [FrameRecord.reconcile]
    have mem2 : ∀ l, l ∈ held.filter (fun l => l ∉ f.carried) ↔ l ∈ held ∧ l ∉ f.carried := fun l => by simp
    have p1 := (p.setTask (some k')).moveToFrame (slot := slot) (f.reconcile held).carried fun l hl =>
      (mem l).1 ((mem1 l).1 hl).1
    have p2 := p1.released (ls := held.filter (fun l => l ∉ f.carried))
      (nodup_of_sorted (sorted.filter _)) rfl fun l => by
        rw [moveAll_lock]
        simp only [setTask_lock, mem1, mem2, mem]
        by_cases g : (s.lock l).holder = some (.claim t c.token)
        · by_cases g2 : l ∈ f.carried
          · simp [g, g2]
          · simp only [g, g2, and_false, false_and, if_false, not_false_eq_true, and_self, iff_true]
            exact ⟨_, rfl⟩
        · simp only [g, and_false, if_false, false_and, iff_false, not_exists]
          intro x hx
          have := p.held hx
          obtain rfl := Option.some.inj this
          exact g hx
    refine ⟨k', by simp, p2.carry fun i l => ?_, ?_⟩
    · rw [carries_set hsl hb]
      split
      · next e => subst e; simp [not_carries (k := k) (i := i) (by simp [hst]) l]
      · next e => simp [e]
    · refine sorted_set hs hsl fun g hg => ?_
      obtain rfl := Option.some.inj hg
      exact sorted.filter _
  · next hp hrt =>
    rw [hA, if_pos hp] at p
    refine ⟨k, by simpa using hk, p.released (heldBy_nodup ..) rfl fun l => ?_, hs⟩
    rw [mem_heldBy]
    constructor
    · rintro ⟨x, hx⟩
      obtain rfl := Option.some.inj (p.held hx)
      exact hx
    · exact fun hx => ⟨_, hx⟩

theorem pool_abnormalEnd {s : State} (sl : SlotsAll s) (h : s.PoolOk) (t : TaskNo)
    (cause : EndCause) : (s.abnormalEnd t cause).PoolOk := by
  cases hk : s.task t with
  | none => simpa only [State.abnormalEnd, hk] using h
  | some k =>
    cases hc : k.claim with
    | none => simpa only [State.abnormalEnd, hk, hc] using h
    | some c =>
      have sk := sl t k hk
      obtain ⟨a1, a2, a3, a4, a5, a6⟩ := abortedTask_rest k
      have hA : (abortedTask k).activeToken = k.activeToken := by simp [Task.activeToken, a3]
      have p1 := ((poolAt_task h hk).tables (abortOp_locks s t) fun v hv => by
        rw [abortOp_tasks hk hc, if_neg hv]).withdraw (x := c.token) fun y hy => by
          have := waitToken_active hy
          rw [activeToken_claim hc] at this
          split at this
          · exact (Option.some.inj this).symm
          · simp at this
      have hf := abortedTask_fits sk
      rw [hc, Option.bind_some, ← a1] at hf
      obtain ⟨k', e1, p2, s2⟩ := pool_endLocks (s := (s.abortOp t).withdraw ⟨t, c.token⟩) (k := abortedTask k) (c := c)
        (by rw [withdraw_task, abortOp_tasks hk hc, if_pos rfl]) (a3.trans hc)
        (by rw [hA, carries_aborted sk]; exact p1) (sorted_aborted fun i f => h.sets t k i f hk) hf
      simp only [State.abnormalEnd, hk, hc]
      refine PoolOk.same ?_ ((same_endNotices ..).trans (same_answerAborted ..))
      exact (p2.onTask Task.endClaim).close (k := k'.endClaim) (by rw [onTask_task, if_pos rfl, e1]; rfl) (.inl rfl)
        (.inl rfl) (fun i l => by rw [carries_of_slots (k := k') (k' := k'.endClaim) rfl]) (sorted_slots s2 rfl)

/-- A claim's wait withdrawn. -/
theorem pool_withdrawClaim {s : State} (h : s.PoolOk) (t : TaskNo) : (s.withdrawClaim t).PoolOk := by
  simp only [State.withdrawClaim]
  split
  · exact h
  · next c hc =>
    obtain ⟨k, hk, hc⟩ := Option.bind_eq_some_iff.1 hc
    have p := (poolAt_task h hk).withdraw (x := c.token) fun y hy => by
      have := waitToken_active hy
      rw [activeToken_claim hc] at this
      split at this
      · exact (Option.some.inj this).symm
      · simp at this
    exact p.close (by simpa using hk) (.inr rfl) (.inl rfl) (fun _ _ => .rfl) fun i f => h.sets t k i f hk

theorem pool_teardown {s : State} (i : s.RecordsOk) (sl : SlotsAll s) (h : s.PoolOk) (p : Port) :
    (s.teardown p).PoolOk := by
  simp only [State.teardown]
  split
  · refine PoolOk.same ?_ ((same_port ..).trans (same_postAll ..))
    have waits : ∀ (ts : List TaskNo) (u : State), u.PoolOk → (ts.foldl State.withdrawClaim u).PoolOk := by
      intro ts
      induction ts with
      | nil => exact fun _ h => h
      | cons t ts ih => exact fun u h => ih _ (pool_withdrawClaim h t)
    have ends : ∀ (ts : List TaskNo) (u : State), u.RecordsOk → SlotsAll u → u.PoolOk →
        (ts.foldl (fun s t => s.abnormalEnd t .portDown) u).PoolOk := by
      intro ts
      induction ts with
      | nil => exact fun _ _ _ h => h
      | cons t ts ih =>
        exact fun u i sl h => ih _ ((keeps_abnormalEnd ..).records i) (sl.abnormalEnd i.tasks t _)
          (pool_abnormalEnd sl h t _)
    exact ends _ _ ((Keeps.foldl _ keeps_withdrawClaim _ _).records i)
      (sl.portsLocks (Told.foldl _ told_withdrawClaim _ _).toPortsLocks) (waits _ _ h)
  · exact h

/-! ### The completions of transfers -/

section Transfers

variable {s : State} (i : ∀ t, ∀ k ∈ s.task t, k.Ok) (sl : SlotsAll s) (h : s.PoolOk)

include i sl h

theorem pool_deliveryPart (e : ReadOutcome) {u : State} (hu : execDeliveryPartTransfer e s = .next u) : u.PoolOk := by
  simp only [execDeliveryPartTransfer, Host.Outcome.next.injEq] at hu
  subst hu
  split
  · split
    · next ho =>
      obtain ⟨hk, hc, ho, _⟩ := opOf_spec ho
      have d := delivers_of_op (sl _ _ hk) hc (claim_ok (i _ _ hk) hc) ho
      have h' : s.freePath.PoolOk := PoolOk.same h (.of_tables rfl fun _ => rfl)
      split
      · next hf _ =>
        split
        · exact pool_damageInDelivery (s := s.freePath) h' hk d _ _
        · exact pool_reachDelivery (s := s.freePath) h' hk d hf _ _
      · exact h
    · exact h
  · exact h

omit i

theorem pool_peekPart (e : ReadOutcome) {u : State} (hu : execPeekPartTransfer e s = .next u) : u.PoolOk := by
  simp only [execPeekPartTransfer, Host.Outcome.next.injEq] at hu
  subst hu
  split
  · split
    · next ho =>
      obtain ⟨hk, hc, ho, _⟩ := opOf_spec ho
      have r := reads_of_op sl hk ho rfl rfl
      have h' : s.freePath.PoolOk := PoolOk.same h (.of_tables rfl fun _ => rfl)
      split
      · split
        · exact pool_damageInRead (s := s.freePath) h' hk r _ _
        · exact pool_reachPeek (s := s.freePath) h' hk r _ _ _ _ _
      · exact h
    · exact h
  · exact h

theorem pool_dataReadPart (e : ReadOutcome) {u : State} (hu : execDataReadPartTransfer e s = .next u) : u.PoolOk := by
  simp only [execDataReadPartTransfer, Host.Outcome.next.injEq] at hu
  subst hu
  split
  · split
    · next ho =>
      obtain ⟨hk, hc, ho, _⟩ := opOf_spec ho
      have r := reads_of_op sl hk ho rfl rfl
      have h' : s.freePath.PoolOk := PoolOk.same h (.of_tables rfl fun _ => rfl)
      split
      · split
        · exact pool_damageInRead (s := s.freePath) h' hk r _ _
        · split
          · exact PoolOk.same h' (same_setOp (s := s.freePath) hk r rfl)
          · exact PoolOk.same h' (same_done (s := s.freePath) hk r _)
      · exact h
    · exact h
  · exact h

theorem pool_dataWritePage (e : ReadOutcome) {u : State} (hu : execDataWritePageTransfer e s = .next u) : u.PoolOk := by
  simp only [execDataWritePageTransfer, Host.Outcome.next.injEq] at hu
  subst hu
  split
  · split
    · next ho =>
      obtain ⟨hk, hc, ho, _⟩ := opOf_spec ho
      have r := reads_of_op sl hk ho rfl rfl
      have h' : s.freePath.PoolOk := PoolOk.same h (.of_tables rfl fun _ => rfl)
      have hw : ∀ n offset bytes part, SamePool s (s.freePath.writeDataPart n offset bytes part) := fun _ _ _ _ =>
        .of_tables (by simp only [State.writeDataPart]; split <;> rfl)
          fun _ => by simp only [State.writeDataPart]; split <;> rfl
      have ht : ∀ n offset bytes part t, (s.freePath.writeDataPart n offset bytes part).task t = s.task t :=
        fun _ _ _ _ _ => by simp only [State.writeDataPart]; split <;> rfl
      split
      · split
        · exact pool_damageInRead (s := s.freePath) h' hk r _ _
        · split
          · exact PoolOk.same h ((hw ..).trans (same_setOp ((ht ..).trans hk) r rfl))
          · exact PoolOk.same h ((hw ..).trans (same_done ((ht ..).trans hk) r _))
      · exact h
    · exact h
  · exact h

theorem pool_fillPage {u : State} (hu : execFillPageWrite s = .next u) : u.PoolOk := by
  simp only [execFillPageWrite, Host.Outcome.next.injEq] at hu
  subst hu
  split
  · split
    · next t k c slot next w b x ho =>
      obtain ⟨hk, hc, ho, _⟩ := opOf_spec ho
      have ok := sl _ _ hk
      split
      · next n _ =>
        have hw : SamePool s ((s.freePath.writePage n 0 Config.pageBytes (framePart b next)).onPage n Page.clearPoison) :=
          .of_tables rfl fun _ => rfl
        split
        · exact PoolOk.same h (hw.trans (same_record (k := k) hk (prof_op k (by simp [ho, Op.fillSlot]))))
        · have hf := SlotsOk.fits ok
          have hp := ok.opening
          simp only [hc, ho, Option.bind_some, Op.fillSlot, Op.deliverySlot, Option.map_some, Option.isSome_none,
            Option.some.injEq, Bool.false_eq_true, iff_false] at hf hp
          refine pool_completeFill (k := { k with op := none }) (o := .fill slot next w b x) (PoolOk.same h hw) ?_ rfl hc
            ?_ hf _ _ _
          · rw [← ho]; exact hk
          · cases hph : c.phase <;> simp_all
      · exact h
    · exact h
  · exact h

end Transfers

/-! ### Requests -/

/-- What holds when a port takes a request, the lock pool's agreement and its records included. -/
structure PoolTaking (s : State) (p : Port) : Prop extends Taking s p where
  pool  : s.PoolOk
  locks : ∀ l, (s.lock l).Ok

section Requests

variable {s : State} {p : Port} {q : Request} (h : PoolTaking s p)

include h

theorem pool_respond (x : Response) : (s.respond p x).PoolOk := PoolOk.same h.pool (same_respond ..)

theorem pool_refuse (st : Status) : (s.refuse p q st).PoolOk := pool_respond h _

omit h in
theorem same_restart (s : State) (t : TaskNo) : SamePool s (s.onTask t Task.loadLease) := same_update _ _ _ prof_loadLease

omit h in
theorem same_answerClaim (s : State) (p : Port) (t : TaskNo) (x : Response) : SamePool s (s.answerClaim p t x) :=
  (same_restart s t).trans (same_respond ..)

/-- The claim that a token-bearing request finds is ACTIVE and may wait. -/
theorem live_tokens {t : TaskNo} {k : Task} {c : Claim} {tok : Half} (hl : s.liveClaim p t k c tok) :
    k.activeToken = some c.token ∧ k.waitToken = some c.token ∧ PoolAt s t (some c.token) (some c.token) k.carries
      ∧ Sorted k ∧ Fits k.slots k.stack c.retained none := by
  obtain ⟨r, _, ho⟩ := reads_of_live h.toTaking hl
  obtain ⟨hk, _, hc, _, _⟩ := hl
  have ha : k.activeToken = some c.token := (activeToken_claim hc).trans (if_pos (active_of_idle r.slots hc ho))
  have hw : k.waitToken = some c.token := by simp [Task.waitToken, ho, ha]
  have hf := SlotsOk.fits r.slots
  rw [hc, Option.bind_some, ho] at hf
  have p := poolAt_task h.pool hk
  rw [ha, hw] at p
  exact ⟨ha, hw, p, fun i f => h.pool.sets t k i f hk, hf⟩

/-- Without a claim a task has no part in the pool but its frames. -/
theorem poolAt_claimless {t : TaskNo} {k : Task} (hk : s.task t = some k) (hs : k.state ≠ .running) :
    PoolAt s t none none k.carries ∧ k.claim = none ∧ k.op = none := by
  obtain ⟨hc, ho⟩ := idle_of_claimless (h.tasks t k hk) hs
  have p := poolAt_task h.pool hk
  rw [activeToken_none hc, waitToken_none (activeToken_none hc)] at p
  exact ⟨p, hc, ho⟩

theorem pool_takeDefine : (takeDefine p q s).PoolOk := by
  simp only [takeDefine]
  split
  · exact pool_refuse h _
  · exact pool_refuse h _
  · next x t hx ht =>
    split
    · exact pool_respond h _
    · refine PoolOk.same ?_ (same_respond ..)
      generalize List.take x.pageCount _ = pages
      have hn := chooseRecord_empty ht
      have p0 := poolAt_of h.pool t
      have p1 := (p0.tables (u := s.reserve t x pages) (by rw [reserve_frame]) fun v _ => reserve_task ..).setTask
        (some (x.newTask pages))
      refine p1.close (task_setTask_same ..) (.inl (by simp [holds, hn])) (.inl (by simp [waits, hn])) (fun i l => ?_) ?_
      · simp only [frameHas, hn, reduceCtorEq, false_and, exists_false, iff_false]
        intro hc
        have := ((fits_new (x.frameLimit + 1)).filled i).1 hc.1
        simp at this
      · intro i f hf
        have := ((fits_new (x.frameLimit + 1)).frames i).1 (by
          show (Task.frameIn (x.newTask pages) i).isSome = true
          simp [hf])
        rw [(fits_new (x.frameLimit + 1)).filled, (fits_new (x.frameLimit + 1)).retained] at this
        simp at this

theorem pool_takeDiscard : (takeDiscard p q s).PoolOk := by
  refine withTask_ind (pool_refuse h) fun t k _ hk => ?_
  split
  · exact pool_refuse h _
  · next hs =>
    refine PoolOk.same ?_ (same_respond ..)
    obtain ⟨p0, hc, _⟩ := poolAt_claimless h hk hs
    have hm : ∀ l, l ∈ k.carriedLocks ↔ ∃ i, k.carries i l := fun l => by
      simp only [Task.carriedLocks, List.mem_filter, List.mem_finRange, true_and, List.any_eq_true, Bool.and_eq_true,
        beq_iff_eq, Option.any_eq_true, decide_eq_true_eq, Task.carries, Task.slotStatus, Task.frameIn]
      constructor
      · rintro ⟨x, hx, h1, f, h2, h3⟩
        obtain ⟨i, hi⟩ := List.mem_iff_getElem?.1 hx
        exact ⟨i, by simp [hi, h1], f, by simp [hi, h2], h3⟩
      · rintro ⟨i, h1, f, h2, h3⟩
        cases hi : k.slots[i]? with
        | none => simp [hi] at h1
        | some x => exact ⟨x, List.mem_of_getElem? hi, by simpa [hi] using h1, f, by simpa [hi] using h2, h3⟩
    have p1 := p0.giveUpAll (ls := k.carriedLocks) (nodup_of_sorted ((List.pairwise_lt_finRange 32).filter _)) (by simp)
      fun l hl y hy => by
        obtain ⟨i, hi⟩ := (hm l).1 hl
        rw [p0.carried.2 hi] at hy
        obtain rfl := Option.mem_some.1 hy; rfl
    generalize (s.giveUpAll k.carriedLocks).pagesOf t = pages
    refine ((p1.tables (u := (s.giveUpAll k.carriedLocks).releasePages pages) (by rw [releasePages_frame])
      fun v _ => releasePages_task ..).setTask none).closeNone (task_setTask_same ..) (fun l x hx => ?_) rfl
      fun i l hC => hC.2 ((hm l).2 ⟨i, hC.1⟩)
    have hx : (((s.giveUpAll k.carriedLocks).releasePages pages).lock l).holder = some (.claim t x) := hx
    rw [releasePages_frame] at hx
    have := p1.held hx
    simp at this

theorem pool_takeRetune : (takeRetune p q s).PoolOk := by
  simp only [takeRetune]
  split
  · exact pool_refuse h _
  · refine withTask_ind (pool_refuse h) fun t k _ hk => ?_
    split
    · exact pool_refuse h _
    · exact PoolOk.same h.pool ((same_record (k' := k.retuned _) hk rfl).trans (same_respond ..))

theorem pool_takeSalvage : (takeSalvage p q s).PoolOk := by
  refine withTask_ind (pool_refuse h) fun t k _ hk => ?_
  split
  · next slot f hs ht =>
    refine PoolOk.same ?_ ((same_postAll ..).trans (same_respond ..))
    obtain ⟨p0, hc, ho⟩ := poolAt_claimless h hk (by simp [hs])
    obtain ⟨hg, hf⟩ := top_spec ht
    have fits := SlotsOk.fits (h.slots t k hk)
    have hm : slot ∈ k.stack := List.mem_of_getLast? hg
    have hst : k.slotStatus slot = some .filled := (fits.filled slot).2 hm
    have srt : Sorted k := fun i f => h.pool.sets t k i f hk
    have p1 := p0.giveUpAll (ls := f.carried) (nodup_of_sorted (srt slot f hf)) (by simp) fun l hl y hy => by
      rw [p0.carried.2 ((carries_iff hst hf l).2 hl)] at hy
      obtain rfl := Option.mem_some.1 hy; rfl
    refine ((p1.tables (emptySlot_locks _ t slot) fun v hv => by rw [emptySlot_task, if_neg hv]).onTask
      Task.popToRest).close (k := (k.withSlot slot emptied).popToRest) ?_ (.inl rfl) (.inl rfl) (fun i l => ?_) ?_
    · rw [onTask_task, if_pos rfl, emptySlot_task, if_pos rfl, giveUpAll_task, hk]; rfl
    · rw [carries_set (k := k) (j := slot) (x := emptied) rfl (fits.bound (.inl hm))]
      split
      · next e =>
        subst e
        simp only [reduceCtorEq, false_and, false_iff, not_and, not_not]
        exact (carries_iff hst hf l).1
      · next e =>
        refine ⟨fun hC => ⟨hC, fun hl => ?_⟩, And.left⟩
        have h1 := p0.carried.2 hC
        rw [p0.carried.2 ((carries_iff hst hf l).2 hl)] at h1
        exact e (Holder.frame.inj (Option.some.inj h1)).2.symm
    · exact sorted_set srt (x := emptied) rfl (by simp)
  · exact pool_refuse h _

theorem pool_takeClaim : (takeClaim p q s).PoolOk := by
  refine withTask_ind (pool_refuse h) fun t k _ hk => ?_
  split
  · exact pool_refuse h _
  · next hr =>
    have hn : k.state ≠ .running := by
      simp only [Task.claimRefusal] at hr
      split at hr <;> [simp at hr; skip]
      split at hr <;> [simp at hr; skip]
      split at hr <;> [simp at hr; skip]
      assumption
    obtain ⟨p0, hc, ho⟩ := poolAt_claimless h hk hn
    have p1 := p0.tables (u := { s with nextToken := tokenAfter s.nextToken }) rfl fun _ _ => rfl
    have srt : Sorted k := fun i f => h.pool.sets t k i f hk
    simp only [State.acceptClaim]
    split
    · next slot f hkind ht =>
      have d := delivers_claimed (c := newClaim p s.nextToken (k.startFor q.ops.force).1 (k.startFor q.ops.force).2)
        (h.tasks t k hk) (h.slots t k hk) hn (by simp [newClaim, hkind]) rfl ht
      refine pool_reachDelivery ?_ (task_setTask_same ..) d (top_spec ht).2 _ _
      exact (p1.setTask _).close (task_setTask_same ..) (.inl rfl) (.inl rfl)
        (fun i l => by rw [carries_of_slots (k := k) (k' := k.claimed _) rfl]) (sorted_slots srt rfl)
    · refine PoolOk.same ?_ (same_respond ..)
      exact (p1.setTask _).close (task_setTask_same ..) (.inl rfl) (.inl rfl)
        (fun i l => by rw [carries_of_slots (k := k) (k' := (k.claimed _).loadLease) rfl]) (sorted_slots srt rfl)

theorem pool_takeRelease : (takeRelease p q s).PoolOk := by
  refine withClaim_ind (pool_refuse h) fun t k c _ hl => ?_
  refine PoolOk.same ?_ ((same_postAll ..).trans (same_respond ..))
  obtain ⟨_, _, p0, srt, fits⟩ := live_tokens h hl
  have p1 := p0.withdraw (x := c.token) fun y hy => (Option.some.inj hy).symm
  have hh : ∀ l, ((s.withdraw ⟨t, c.token⟩).lock l).holder = (s.lock l).holder := fun l => by
    rw [withdraw_lock]; split <;> rfl
  have p2 := p1.released (ls := s.heldBy (.claim t c.token)) (heldBy_nodup ..) rfl fun l => by
    rw [mem_heldBy, hh]
    constructor
    · rintro ⟨x, hx⟩
      obtain rfl := Option.some.inj (p0.held hx)
      exact hx
    · exact fun hx => ⟨_, hx⟩
  exact pool_dropped p2 (by simpa using hl.1) fits srt

theorem pool_takeSuspend : (takeSuspend p q s).PoolOk := by
  refine withClaim_ind (pool_refuse h) fun t k c _ hl => ?_
  split
  · exact PoolOk.same h.pool ((same_restart ..).trans (same_respond ..))
  · obtain ⟨ha, _, p0, srt, fits⟩ := live_tokens h hl
    have p1 := p0.withdraw (x := c.token) fun y hy => (Option.some.inj hy).symm
    dsimp only
    generalize hk' : k.startFill q.ops.arg q.ops.payload _ = k'
    refine PoolOk.same ?_ (.of_tables (by rw [withdrawPages_frame]) fun _ => withdrawPages_task ..)
    have hc := hl.2.2.1
    have he : k'.activeToken = k.activeToken := by
      rw [← hk']; exact activeToken_map rfl fun _ => ⟨rfl, rfl⟩
    have hsl : k'.slots = k.slots.set k.emptySlot { status := .filling, frame := none } := by rw [← hk']; rfl
    have hns : k.slotStatus k.emptySlot ≠ some .filled := by
      simp only [Task.slotStatus, Task.emptySlot]
      intro hf
      obtain ⟨x, hx, hxs⟩ := Option.map_eq_some_iff.1 hf
      obtain ⟨hlt, hg⟩ := List.getElem?_eq_some_iff.1 hx
      have := List.findIdx_getElem (w := hlt)
      rw [hg] at this
      simp [hxs] at this
    refine (p1.setTask _).close (task_setTask_same ..) (.inr (he.trans ha)) (.inl rfl) (fun i l => ?_)
      (sorted_set srt hsl (by simp))
    by_cases hb : k.emptySlot < k.slots.length
    · rw [carries_set hsl hb]
      split
      · next e => subst e; simpa using not_carries hns l
      · rfl
    · rw [carries_of_slots (k := k) (hsl.trans (List.set_eq_of_length_le (by omega)))]

theorem pool_takeRenew : (takeRenew p q s).PoolOk :=
  withClaim_ind (pool_refuse h) fun _ _ _ _ _ => PoolOk.same h.pool ((same_restart ..).trans (same_respond ..))

theorem pool_takeEvict : (takeEvict p q s).PoolOk := by
  refine withTask_ind (pool_refuse h) fun t k _ hk => ?_
  split
  · exact PoolOk.same (pool_abnormalEnd h.slots h.pool t _) (same_respond ..)
  · exact pool_refuse h _

/-- A read's start stops the claim's timer first. -/
theorem pool_stopped {t : TaskNo} {k : Task} (hk : s.task t = some k) : (s.setTask t (some k.stopLease)).PoolOk :=
  PoolOk.same h.pool (same_record hk (prof_stopLease k))

theorem pool_takePeekFrame : (takePeekFrame p q s).PoolOk := by
  refine withClaim_ind (pool_refuse h) fun t k c _ hl => ?_
  have r := (reads_of_live h.toTaking hl).2.1
  have refused : ∀ st, (s.refuseClaim p q t st).PoolOk := fun _ =>
    PoolOk.same h.pool ((same_restart ..).trans (same_respond ..))
  split
  · exact refused _
  · split
    · exact refused _
    · exact pool_reachPeek (pool_stopped h hl.1) (task_setTask_same ..) r _ _ _ _ _

/-- A data request that starts, its record rewritten under the operation. -/
theorem pool_started {t : TaskNo} {k : Task} {c : Claim} (hl : s.liveClaim p t k c q.ops.token) (o : Op)
    (ho : o.fillSlot = none) : (s.setTask t (some { k.stopLease with op := some o })).PoolOk :=
  PoolOk.same h.pool (same_record hl.1 ((prof_op k.stopLease
    (show (some o).bind Op.fillSlot = _ from ho.trans (reads_of_live h.toTaking hl).2.1.fill.symm)).trans
    (prof_stopLease k)))

theorem pool_takeDataRead : (takeDataRead p q s).PoolOk := by
  refine withClaim_ind (pool_refuse h) fun t k c _ hl => ?_
  dsimp only
  split
  · exact PoolOk.same h.pool ((same_restart ..).trans (same_respond ..))
  · split
    · exact PoolOk.same h.pool ((same_restart ..).trans (same_respond ..))
    · exact pool_started h hl _ rfl

theorem pool_takeDataWrite : (takeDataWrite p q s).PoolOk := by
  refine withClaim_ind (pool_refuse h) fun t k c _ hl => ?_
  dsimp only
  split
  · exact PoolOk.same h.pool ((same_restart ..).trans (same_respond ..))
  · split
    · exact PoolOk.same h.pool ((same_restart ..).trans (same_respond ..))
    · exact pool_started h hl _ rfl

/-! ### Lock requests -/

/-- A lock without holder and waiters given a record without them. -/
theorem pool_unheld (l : LockNo) (k : Lock) (h1 : (s.lock l).holder = none ∧ (s.lock l).waiters = [])
    (h2 : k.holder = none ∧ k.waiters = []) : (s.setLock l k).PoolOk := by
  refine PoolOk.same h.pool ⟨fun m => ?_, fun _ => rfl⟩
  rw [lock_setLock]
  split
  · next e => subst e; exact ⟨h2.1.trans h1.1.symm, h2.2.trans h1.2.symm⟩
  · exact ⟨rfl, rfl⟩

/-- A lock that is not HELD has no holder and no waiters. -/
theorem unheld {l : LockNo} (hs : (s.lock l).state ≠ .held) : (s.lock l).holder = none ∧ (s.lock l).waiters = [] := by
  have ok := h.locks l
  simp only [Lock.Ok] at ok
  split at ok
  · exact ⟨ok.1, ok.2.1⟩
  · exact ok
  · next e => exact absurd e hs

/-- A FREE lock is taken by the claim of a request. -/
theorem pool_taken {t : TaskNo} {k : Task} {c : Claim} {l : LockNo} (hl : s.liveClaim p t k c q.ops.token)
    (hs : (s.lock l).state = .free) : (s.setLock l ((s.lock l).takenBy (.claim t c.token))).PoolOk := by
  obtain ⟨ha, _⟩ := live_tokens h hl
  obtain ⟨h1, h2⟩ := unheld h (l := l) (by simp [hs])
  have e : ∀ m, (m = l ∧ (s.setLock l ((s.lock l).takenBy (.claim t c.token))).lock m =
        (s.lock l).takenBy (.claim t c.token))
      ∨ m ≠ l ∧ (s.setLock l ((s.lock l).takenBy (.claim t c.token))).lock m = s.lock m := fun m => by
    rw [lock_setLock]; by_cases g : m = l <;> simp [g]
  refine ⟨fun m u x hx => ?_, fun m u i => ?_, fun m w hw => ?_, fun m => ?_, fun m m' w hm hm' => ?_, h.pool.sets⟩
  · rcases e m with ⟨_, g⟩ | ⟨_, g⟩
    · rw [g] at hx
      obtain ⟨rfl, rfl⟩ := Holder.claim.inj (Option.some.inj hx)
      simp [hl.1, ha]
    · exact h.pool.claims m u x (g ▸ hx)
  · rcases e m with ⟨rfl, g⟩ | ⟨_, g⟩
    · rw [g]
      simp only [Lock.takenBy, Option.some.injEq, reduceCtorEq, false_iff]
      intro hf
      have := (h.pool.frames m u i).2 hf
      simp [h1] at this
    · rw [g]; exact h.pool.frames m u i
  · rcases e m with ⟨_, g⟩ | ⟨_, g⟩
    · rw [g] at hw; simp [Lock.takenBy] at hw
    · rw [g] at hw ⊢; exact h.pool.waiters m w hw
  · rcases e m with ⟨_, g⟩ | ⟨_, g⟩
    · rw [g]; simp [Lock.takenBy]
    · rw [g]; exact h.pool.once m
  · rcases e m with ⟨_, g⟩ | ⟨_, g⟩
    · rw [g] at hm; simp [Lock.takenBy] at hm
    · rcases e m' with ⟨_, g'⟩ | ⟨_, g'⟩
      · rw [g'] at hm'; simp [Lock.takenBy] at hm'
      · exact h.pool.single m m' w (g ▸ hm) (g' ▸ hm')

/-- The claim of a request joins the waiters of a lock held elsewhere. -/
theorem pool_queued {t : TaskNo} {k : Task} {c : Claim} {l : LockNo} (hl : s.liveClaim p t k c q.ops.token)
    (he : ∀ y ∈ (s.lock l).holder, y ≠ .claim t c.token ∧ ∀ i, y ≠ .frame t i) (hw : s.waitOf ⟨t, c.token⟩ = none) :
    (s.setLock l { s.lock l with waiters := (s.lock l).waiters ++ [⟨t, c.token⟩] }).PoolOk := by
  obtain ⟨ha, hwt, p0, _⟩ := live_tokens h hl
  have fresh : ∀ m, ⟨t, c.token⟩ ∉ (s.lock m).waiters := fun m hm => by
    simpa using List.find?_eq_none.1 hw m (List.mem_finRange m) (by simpa using hm)
  have e : ∀ m, ((s.setLock l { s.lock l with waiters := (s.lock l).waiters ++ [⟨t, c.token⟩] }).lock m).holder
        = (s.lock m).holder
      ∧ ∀ w, w ∈ ((s.setLock l { s.lock l with waiters := (s.lock l).waiters ++ [⟨t, c.token⟩] }).lock m).waiters ↔
          w ∈ (s.lock m).waiters ∨ m = l ∧ w = ⟨t, c.token⟩ := fun m => by
    rw [lock_setLock]; by_cases g : m = l <;> simp [g]
  refine ⟨fun m u x hx => h.pool.claims m u x ((e m).1 ▸ hx), fun m u i => (e m).1 ▸ h.pool.frames m u i,
    fun m w hm => ?_, fun m => ?_, fun m m' w hm hm' => ?_, h.pool.sets⟩
  · rw [(e m).1]
    rcases ((e m).2 w).1 hm with hm | ⟨rfl, rfl⟩
    · exact h.pool.waiters m w hm
    · refine ⟨by simp [hl.1, hwt], fun ht => ?_⟩
      obtain ⟨y, hy, hyt⟩ := Option.map_eq_some_iff.1 ht
      obtain ⟨g1, g2⟩ := he y hy
      cases y with
      | claim u x =>
        obtain rfl : u = t := hyt
        obtain rfl := Option.some.inj (p0.held hy)
        exact g1 rfl
      | frame u i =>
        obtain rfl : u = t := hyt
        exact g2 i rfl
  · rw [lock_setLock]
    split
    · next g =>
      rw [List.nodup_append']
      exact ⟨h.pool.once l, by simp, by simpa using fresh l⟩
    · exact h.pool.once m
  · rcases ((e m).2 w).1 hm with a | ⟨rfl, rfl⟩ <;> rcases ((e m').2 _).1 hm' with b | ⟨g, ew⟩
    · exact h.pool.single m m' w a b
    · exact absurd (ew ▸ a) (fresh m)
    · exact absurd b (fresh m')
    · exact g.symm

/-- Carrying out a request that has passed its checks keeps the lock pool sound. -/
theorem pool_carryOut (c : RequestCode) : (carryOut p q s c).PoolOk := by
  have answer : ∀ {v : State}, v.PoolOk → ∀ t x, (v.answerClaim p t x).PoolOk := fun hv t x =>
    PoolOk.same hv (same_answerClaim ..)
  cases c <;> simp only [carryOut]
  case define => exact pool_takeDefine h
  case discard => exact pool_takeDiscard h
  case retune => exact pool_takeRetune h
  case salvage => exact pool_takeSalvage h
  case claim => exact pool_takeClaim h
  case release => exact pool_takeRelease h
  case suspend => exact pool_takeSuspend h
  case renew => exact pool_takeRenew h
  case evict => exact pool_takeEvict h
  case peekFrame => exact pool_takePeekFrame h
  case dataRead => exact pool_takeDataRead h
  case dataWrite => exact pool_takeDataWrite h
  case hello =>
    simp only [takeHello]
    split
    · exact pool_respond h _
    · exact PoolOk.same h.pool ((same_port ..).trans (same_respond ..))
  case goodbye => exact pool_respond h _
  case grantRights =>
    simp only [takeGrantRights]
    split
    · exact PoolOk.same h.pool ((same_port ..).trans (same_respond ..))
    · exact pool_refuse h _
  case fetchNotice =>
    simp only [takeFetchNotice]
    split
    · exact pool_respond h _
    · exact PoolOk.same h.pool ((same_port ..).trans (same_respond ..))
  case queryTask => exact withTask_ind (pool_refuse h) fun _ _ _ _ => pool_respond h _
  case lockNew =>
    simp only [takeLockNew]
    split
    · exact pool_refuse h _
    · next l hf =>
      have hu : (s.lock l).state = .unallocated := by simpa using List.find?_some hf
      exact PoolOk.same (pool_unheld h l _ (unheld h (by simp [hu])) ⟨rfl, rfl⟩) (same_respond ..)
  case lockReturn =>
    refine withLock_ind (pool_refuse h) fun l _ => ?_
    split
    · exact pool_refuse h _
    · next hn => exact PoolOk.same (pool_unheld h l _ (unheld h hn) ⟨rfl, rfl⟩) (same_respond ..)
  case take =>
    exact withClaimLock_ind (pool_refuse h) fun t k c l hl _ =>
      takeLock_ind (fun _ hf => answer (pool_taken h hl hf) _ _) (fun _ => answer h.pool _ _)
        fun _ _ => answer h.pool _ _
  case takeWait =>
    refine withClaimLock_ind (pool_refuse h) fun t k c l hl _ =>
      takeLock_ind (fun _ hf => answer (pool_taken h hl hf) _ _) (fun _ => answer h.pool _ _) fun _ he => ?_
    split
    · exact answer h.pool _ _
    · next hw =>
      split
      · exact answer h.pool _ _
      · exact answer (pool_queued h hl he (by simpa using hw)) _ _
  case withdraw =>
    refine withClaim_ind (pool_refuse h) fun t k c _ hl => ?_
    split
    · exact answer h.pool _ _
    · obtain ⟨ha, _, p0, srt, _⟩ := live_tokens h hl
      exact answer ((p0.withdraw (x := c.token) fun y hy => (Option.some.inj hy).symm).close (by simpa using hl.1)
        (.inr ha) (.inl rfl) (fun _ _ => .rfl) srt) _ _
  case give =>
    refine withClaimLock_ind (pool_refuse h) fun t k c l hl _ => ?_
    split
    · next hh =>
      obtain ⟨ha, hw, p0, srt, _⟩ := live_tokens h hl
      have p1 := p0.giveUpAll (ls := [l]) (by simp) (fun _ => id) fun m hm y hy => by
        obtain rfl := List.mem_singleton.1 hm
        rw [hh] at hy
        obtain rfl := Option.mem_some.1 hy; rfl
      refine answer (PoolAt.close (s := s.giveUp l) p1 (by simpa using hl.1) (.inr ha) (.inr hw) (fun i m => ?_) srt) _ _
      refine ⟨fun hC => ⟨hC, fun hm => ?_⟩, And.left⟩
      obtain rfl := List.mem_singleton.1 hm
      have := p0.carried.2 hC
      rw [hh] at this
      simp at this
    · exact answer h.pool _ _
  case queryLock => exact withLock_ind (pool_refuse h) fun _ _ => pool_respond h _
  case queryMemory => exact pool_respond h _

theorem pool_takeRequest : (takeRequest p q s).PoolOk := by
  simp only [takeRequest]
  split
  · split
    · exact pool_refuse h _
    · exact pool_refuse h _
  · split
    · exact pool_refuse h _
    · split
      · exact pool_refuse h _
      · split
        · exact pool_refuse h _
        · exact pool_carryOut h _

end Requests

/-! ### Commands -/

theorem pool_arrive {s : State} (ok : s.RecordsOk) (l : LinkedAll s) (sl : SlotsAll s) (h : s.PoolOk) (p : Port)
    (q : Request) : (arrive p q s).PoolOk := by
  simp only [arrive]
  split
  · exact h
  · next hd =>
    split
    · split
      · next he =>
        simp only [State.deaf, Bool.or_eq_true, not_or, Bool.not_eq_true] at hd
        exact pool_takeRequest ⟨⟨ok.tasks, sl.portsLocks (portsLocks_onPort ..),
          (takes_queued ok.tasks l hd.2 (by simpa using he) q).idle.idle⟩, PoolOk.same h (same_port ..), ok.locks⟩
      · exact PoolOk.same h (same_port ..)
    · exact PoolOk.same h (same_port ..)

theorem pool_responseSent {s u : State} (ok : s.RecordsOk) (l : LinkedAll s) (sl : SlotsAll s) (h : s.PoolOk) (p : Port)
    (hu : execResponseSent p s = .next u) : u.PoolOk := by
  simp only [execResponseSent, Host.Outcome.next.injEq] at hu
  subst hu
  split
  · exact h
  · exact PoolOk.same h (same_port ..)
  · next x hx =>
    generalize h2 : (if (s.port p).closing x then (s.onPort p PortRecord.dropHead).teardown p
      else s.onPort p PortRecord.dropHead) = s2
    obtain ⟨_, g2, _, _, g5⟩ := responseSent_next ok l hx h2
    refine PoolOk.same ?_ (same_port ..)
    have both : SlotsAll s2 ∧ s2.PoolOk := by
      have r1 := (responseSent_dropped ok l hx).1
      have sl1 : SlotsAll (s.onPort p PortRecord.dropHead) := sl.portsLocks (portsLocks_onPort ..)
      have h1 : (s.onPort p PortRecord.dropHead).PoolOk := PoolOk.same h (same_port ..)
      rw [← h2]
      split
      · exact ⟨slots_teardown r1 sl1 p, pool_teardown r1 sl1 h1 p⟩
      · exact ⟨sl1, h1⟩
    simp only [State.takeNext]
    split
    · exact both.2
    · exact pool_takeRequest ⟨⟨g2.tasks, both.1, g5⟩, both.2, g2.locks⟩

theorem pool_fullyReset (v : State) (m : Memory) (b : Bool) : (v.fullyReset m b).PoolOk := by
  have task : ∀ t, (v.fullyReset m b).task t = none := fun t => by simp [State.task, State.fullyReset, State.reset]
  have lock : ∀ l, (v.fullyReset m b).lock l = .unallocated := fun l => by
    simp [State.lock, State.fullyReset, State.reset]
  refine ⟨fun l t x hx => ?_, fun l t i => ?_, fun l w hw => ?_, fun l => ?_, fun l l' w hw => ?_, fun t k i f hk => ?_⟩
  · simp [lock, Lock.unallocated] at hx
  · simp [lock, task, Lock.unallocated]
  · simp [lock, Lock.unallocated] at hw
  · simp [lock, Lock.unallocated]
  · simp [lock, Lock.unallocated] at hw
  · simp [task] at hk

/-- Every command keeps the lock pool's agreement with the claims and the frames. -/
theorem pool_exec {s u : State} (ok : s.RecordsOk) (l : LinkedAll s) (sl : SlotsAll s) (h : s.PoolOk) (i : Instr)
    (hu : exec i s = .next u) : u.PoolOk := by
  cases hr : i.request with
  | some x =>
    rw [exec_request s hr, Host.Outcome.next.injEq] at hu
    subst hu
    exact pool_arrive ok l sl h _ _
  | none =>
    cases i <;> simp only [Instr.request, reduceCtorEq] at hr <;> simp only [exec] at hu
    case responseSent p => exact pool_responseSent ok l sl h p hu
    case deliveryPartTransfer e => exact pool_deliveryPart ok.tasks sl h e hu
    case fillPageWrite => exact pool_fillPage sl h hu
    case peekPartTransfer e => exact pool_peekPart sl h e hu
    case dataReadPartTransfer e => exact pool_dataReadPart sl h e hu
    case dataWritePageTransfer e => exact pool_dataWritePage sl h e hu
    all_goals simp only [execMessageEnd, execArbiterGrant, execLeaseExpiry, execPortReset, execPortResetRelease,
      execFullReset, execFullResetRelease, execLeaseTimerMillisecond, execScrubberTakePage, execScrubCompletion,
      Host.Outcome.next.injEq] at hu
    all_goals subst hu
    case messageEnd p m =>
      split
      · exact pool_arrive ok l sl h _ _
      · split
        · exact h
        · exact PoolOk.same h (same_port ..)
    case arbiterGrant =>
      split
      · exact h
      · split
        · exact h
        · exact PoolOk.same h (.of_tables rfl fun _ => rfl)
    case scrubberTakePage =>
      split
      · exact h
      · split
        · exact h
        · exact PoolOk.same h (.of_tables rfl fun _ => rfl)
    case scrubCompletion =>
      split
      · exact PoolOk.same h (.of_tables rfl fun _ => rfl)
      · exact h
    case leaseExpiry t =>
      split
      · exact pool_abnormalEnd sl h t _
      · exact h
    case portReset p =>
      exact pool_teardown ((keeps_cutOff s p).records ok) (sl.portsLocks (portsLocks_onPort ..))
        (PoolOk.same h (same_port ..)) p
    case portResetRelease p =>
      split
      · exact PoolOk.same h (same_port ..)
      · exact h
    case fullReset c => exact pool_fullyReset ..
    case fullResetRelease =>
      split
      · exact pool_fullyReset ..
      · exact h
    case leaseTimerMillisecond =>
      have tick : ∀ (ts : List TaskNo) (v : State), v.PoolOk → State.PoolOk
          (ts.foldl (fun s t => s.onTask t fun k => { k with claim := k.claim.map Claim.tick }) v) := by
        intro ts
        induction ts with
        | nil => exact fun _ h => h
        | cons t ts ih => exact fun v hv => ih _ (PoolOk.same hv (same_update v t _ prof_tick))
      exact tick _ _ h

end Sys2Proof.Laws
end

