-- ==== Sys2Proof/Tests/Slice0.lean ====
section
/-! SUPPORT. The model's own tests. The expected values come from the spec: its worked examples, its tables and the
encodings of Tables 9-2 and 10-1; each test names its source. The witnesses at the end show, for every statement that
has hypotheses, states and operands that meet them. -/

namespace Sys2Proof.Tests

open Sys2Proof Sys2Proof.Machine Sys2Proof.Laws

set_option Elab.async false

/-! ### Helpers -/

/-- The command is answered with a next state, and that state is as described. -/
def leaves (i : Instr) (s : State) (P : State → Bool) : Bool :=
  match exec i s with
  | .next t => P t
  | _ => false

/-- A port that has said HELLO. -/
def on (rights : Rights) : PortRecord := { PortRecord.reset rights with session := .online }

/-- The part with every port ONLINE, port 0 with all rights, and the start-up sweep over: pages as they stand, none
queued. -/
def part : State := { State.reset with ports := #v[on .all, on .none, on .none, on .none], scrubQueue := [] }

/-- The operands of a request with tag 5Ah. -/
def body (task : Byte) (token : Half := 0) (arg : Word := 0) (payload : List Byte := []) (flags : Byte := 0) :
    Operands :=
  { tag := 0x5A, task := task, flags := flags, token := token, arg := arg, payload := payload }

/-- Status, task field, token and result word of the response on port p's line. -/
def answer (p : Port) (s : State) : Option (Status × Byte × Half × Word) :=
  match (s.port p).sending with
  | some (.answer r) => some (r.status, r.task, r.token, r.result)
  | _ => none

/-- Result record, notes and payload bytes of the response on port p's line. -/
def details (p : Port) (s : State) : Option (ResultRecord × Notes × List Byte) :=
  match (s.port p).sending with
  | some (.answer r) => some (r.record, r.notes, r.bytes)
  | _ => none

/-- A READY task without pages, for others to differ from. -/
def plain : Machine.Task :=
  { state := .ready, frameLimit := 2, framePages := 1, dataPages := 0, resumeMode := .restore, affinity := 0b1111,
    watch := 0, leasePeriod := 0, entryWord := 0, slotPages := [], dataAreaPages := [], slots := [], stack := [],
    claim := none, op := none }

/-- An ACTIVE FRESH claim. -/
def fresh (p : Port) (token : Half) : Claim :=
  { port := p, token := token, phase := .active, level := .primary, startKind := .fresh, retained := none,
    lease := none, expiryDue := false }

/-- An ACTIVE RESTORED claim over a retained slot. -/
def restored (p : Port) (token : Half) (slot : Nat) : Claim :=
  { fresh p token with startKind := .restored, retained := some slot }

/-- A RUNNING task of a claim. -/
def running (c : Claim) : Machine.Task := { plain with state := .running, claim := some c }

/-- A PRIMARY frame pushed by port 0. -/
def frame (length : Nat) (tag : Word) (carried : LockSet := []) : FrameRecord :=
  { length := length, tagWord := tag, origin := .primary, carried := carried, locksLost := false, pushedBy := 0 }

/-! The four statuses of a slot. -/

def none' : Slot := { status := .empty, frame := none }
def filling : Slot := { status := .filling, frame := none }
def filled (f : FrameRecord) : Slot := { status := .filled, frame := some f }
def retained (f : FrameRecord) : Slot := { status := .retained, frame := some f }

/-- A HELD lock that has had no last holder. -/
def heldLock (h : Holder) (waiters : List Waiter := []) : Lock :=
  { state := .held, holder := some h, waiters := waiters, lastHolder := none }

/-- Port p's head request. -/
def withHead (s : State) (p : Port) (c : RequestCode) (o : Operands) : State :=
  s.onPort p (fun r => { r with requests := [⟨c.byte, o⟩] })

/-- A page reserved for a task. -/
def owned (t : TaskNo) (role : Role) : Page :=
  { state := .reserved, owner := some t, role := some role, stale := false, poisoned := false }

/-- Several pages given one record. -/
def withPages (s : State) (ns : List PageNo) (g : Page) : State := ns.foldl (fun s n => s.setPage n g) s

/-- A FREE page. -/
def free : Page := { Page.reset with state := .free }

/-! ### Well-formedness: each check refuses -/

theorem test_wellFormed_refuses_empty_message :
    ¬ WellFormed (.messageEnd 0 { bytes := [], framingFault := false }) := by decide

theorem test_wellFormed_refuses_long_payload :
    ¬ WellFormed (.suspend 0 (body 1 0 0 (List.replicate 8193 0))) := by
  rw [WellFormed, Instr.wellFormed, Operands.fits, body, List.length_replicate]; decide

theorem test_wellFormed_refuses_known_code_as_unknown : ¬ WellFormed (.unknownCode 0 0x01 (body 0)) := by decide

theorem test_wellFormed_accepts_longest_payload :
    WellFormed (.suspend 0 (body 1 0 0 (List.replicate 8192 0))) := by
  rw [WellFormed, Instr.wellFormed, Operands.fits, body, List.length_replicate]; decide

/-! ### Messages written out from Tables 9-2 and 10-1, one for each family

Byte 0 code, 1 tag, 2 task, 3 flags, 4-5 token, 6-7 payload length, 8-11 argument word, then the payload and the CRC
(R155, R156). The CRC bytes were computed outside Lean from the text of R155. -/

def msg (bytes : List Byte) : LineMessage := { bytes := bytes, framingFault := false }

theorem test_decode_hello :
    decodeMessage 0 (msg [0x01, 0x5A, 0, 0, 0, 0, 0, 0, 0, 0, 0, 0, 0xBC, 0xB1]) = .ok (.hello 0 (body 0)) := by
  decide +kernel

theorem test_decode_grantRights :
    decodeMessage 0 (msg [0x03, 0x5A, 0, 0, 0, 0, 0, 0, 0x01, 0x01, 0, 0, 0x60, 0xF5])
      = .ok (.grantRights 0 (body 0 0 0x0101)) := by decide +kernel

theorem test_decode_define :
    decodeMessage 0 (msg [0x10, 0x5A, 0x05, 0, 0, 0, 0x10, 0, 0, 0, 0, 0,
        0x02, 0x03, 0x02, 0x00, 0x07, 0x05, 0x32, 0x00, 0x00, 0x80, 0x00, 0x00, 0, 0, 0, 0, 0x40, 0x5C])
      = .ok (.define 0 (body 5 0 0 [2, 3, 2, 0, 7, 5, 0x32, 0, 0, 0x80, 0, 0, 0, 0, 0, 0])) := by decide +kernel

theorem test_decode_claim_force :
    decodeMessage 1 (msg [0x20, 0x5A, 0x0E, 0x01, 0, 0, 0, 0, 0, 0, 0, 0, 0x5F, 0xD3])
      = .ok (.claim 1 (body 14 0 0 [] 1)) := by decide +kernel

theorem test_decode_suspend :
    decodeMessage 2 (msg [0x22, 0x5A, 0x14, 0, 0x29, 0x00, 0x04, 0x00, 0x00, 0x10, 0, 0, 1, 2, 3, 4, 0x6B, 0xB6])
      = .ok (.suspend 2 (body 20 41 0x1000 [1, 2, 3, 4])) := by decide +kernel

theorem test_decode_dataRead :
    decodeMessage 2 (msg [0x31, 0x5A, 0x11, 0, 0xB0, 0x04, 0, 0, 0x00, 0x02, 0x00, 0x08, 0x4D, 0x01])
      = .ok (.dataRead 2 (body 17 1200 0x08000200)) := by decide +kernel

theorem test_decode_takeWait :
    decodeMessage 1 (msg [0x43, 0x5A, 0x06, 0, 0x85, 0x03, 0, 0, 0x0C, 0, 0, 0, 0x6C, 0x6F])
      = .ok (.takeWait 1 (body 6 901 12)) := by decide +kernel

theorem test_decode_queryMemory :
    decodeMessage 3 (msg [0x50, 0x5A, 0, 0, 0, 0, 0, 0, 0, 0, 0, 0, 0x51, 0x76]) = .ok (.queryMemory 3 (body 0)) := by
  decide +kernel

theorem test_decode_unknown_code :
    decodeMessage 1 (msg [0x7F, 0x5A, 0x21, 0, 0x2C, 0x03, 0, 0, 0, 0, 0, 0, 0xFB, 0x70])
      = .ok (.unknownCode 1 0x7F (body 33 812)) := by decide +kernel

/-- R170: a header of all zeros that passes the CRC. -/
theorem test_decode_header_of_zeros :
    decodeMessage 2 (msg (List.replicate 12 0x00 ++ [0x21, 0x9F])) = .ok (.unknownCode 2 0x00 { body 0 with tag := 0x00 })
    := by decide +kernel

/-- R160: the payload length field of a header of all ones is above 8192, and its right CRC does not help it. -/
theorem test_decode_header_of_ones :
    decodeMessage 2 (msg (List.replicate 12 0xFF ++ [0xE2, 0x1B])) = .error .payloadTooLong
      ∧ crc (List.replicate 12 0xFF ++ [0xE2, 0x1B]) = 0 := by decide +kernel

/-- R170: the fields of a header of all ones, the link check passed, are answered as a code that names no request. -/
theorem test_header_of_ones_names_no_request :
    leaves (.unknownCode 2 0xFF { body 0xFF 0xFFFF 0xFFFFFFFF [] 0xFF with tag := 0xFF }) part
      fun t => answer 2 t == some (.badParam, 0xFF, 0, 0) := by decide +kernel

/-- One bit of the message changed: the check of R155 does not end at 0 (R160). -/
theorem test_decode_damaged_message :
    decodeMessage 3 (msg [0x50, 0x5B, 0, 0, 0, 0, 0, 0, 0, 0, 0, 0, 0x51, 0x76]) = .error .badCrc := by decide +kernel

/-- R154: start bit 0, the data bits of 16h least significant first, stop bit 1, then ten periods of 1. -/
theorem test_line_byte :
    LineMessage.ofLine ([true, false] ++ [false, true, true, false, true, false, false, false] ++ [true]
      ++ List.replicate 10 true) = some { bytes := [0x16], framingFault := false } := by decide

/-- R154: a stop bit of 0 is a framing fault. -/
theorem test_line_framing_fault :
    LineMessage.ofLine ([false] ++ List.replicate 8 true ++ [false] ++ List.replicate 10 true)
      = some { bytes := [0xFF], framingFault := true } := by decide

/-- Tables 9-3 and 10-6: the OK answer to task 9's RENEW with token 510, a lease of 50 ms loaded; the trailer computed
by hand from R155. -/
theorem test_response_wire :
    (answerTo (body 9) .ok 510 50).wire = [0x00, 0x5A, 9, 0, 0xFE, 0x01, 0, 0, 0x32, 0, 0, 0, 0x20, 0xE8] := by
  decide +kernel

/-- Tables 9-3 and 9-7: a FETCH-NOTICE answered with PORT-DOWN of port 1, 1 claim ended. -/
theorem test_notice_wire :
    (answerTo (body 0xFF) .ok 0 0 (.notice (.portDown 1 1))).wire
      = [0x00, 0x5A, 0xFF, 0, 0, 0, 6, 0, 0, 0, 0, 0, 5, 0xFF, 0xFF, 1, 1, 0, 0x7E, 0x84] := by decide +kernel

/-- Table 9-6: the parameter record of task 5 in 1.4.1. -/
def params5 : List Byte := [2, 3, 2, 0, 7, 5, 0x32, 0, 0, 0x80, 0, 0, 0, 0, 0, 0]

theorem test_parameter_record :
    defineParams (body 5 0 0 params5) = some
      { frameLimit := 2, framePages := 3, dataPages := 2, resumeMode := .restore, affinity := 0b0111,
        watch := 0b0101, leasePeriod := 50, entryWord := 0x00008000 } := by decide

/-! ### Links (9.11) -/

/-- Port 1 in 9.11 after its step 3: four requests queued, the OVERRUN of M5 being sent. -/
def burst : State :=
  (part.setPort 1 { on .none with
    requests := [⟨0x31, body 9 510 0x10000000⟩, ⟨0x42, body 9 510 7⟩, ⟨0x23, body 9 510⟩, ⟨0x50, body 0⟩]
    sending := some (.link { status := .overrun, tag := 5, task := 0, notes := .none, token := 0, result := 4,
                             record := .none, bytes := [] }) }).setTask 9
    (some { running (fresh 1 510) with leasePeriod := 50, dataPages := 4 })
  |>.setLock 7 { Lock.unallocated with state := .free }

/-- 9.11 step 4: M6 fails its CRC and its LINK-ERROR waits behind the OVERRUN. -/
theorem test_messageEnd_link_error :
    leaves (.messageEnd 1 (msg [0x50, 0x5B, 0x11, 0, 0, 0, 0, 0, 0, 0, 0, 0, 0x51, 0x76])) burst fun t =>
      (t.port 1).linkAnswers = [{ overrun := false, tag := 0x5B, task := 0x11, low := 14 }]
        ∧ (t.port 1).requests.length = 4 := by
  decide +kernel

/-- R160, R161: a sound message brings its request, here the QUERY-MEMORY above with no page FREE. -/
theorem test_messageEnd_brings_request :
    leaves (.messageEnd 3 (msg [0x50, 0x5A, 0, 0, 0, 0, 0, 0, 0, 0, 0, 0, 0x51, 0x76])) part fun t =>
      answer 3 t = some (.ok, 0, 0, 0x04000000) ∧ (t.port 3).requests.length = 1 := by
  decide +kernel

/-- 9.11 step 7: M7, a GOODBYE, finds four requests queued. -/
theorem test_goodbye_overrun :
    leaves (.goodbye 1 (body 0)) burst fun t =>
      (t.port 1).linkAnswers = [{ overrun := true, tag := 0x5A, task := 0, low := 4 }]
        ∧ (t.port 1).requests.length = 4 := by
  decide +kernel

/-- 9.11 step 8: M1's response sent, M2's TAKE is taken and answered behind the OVERRUN of M7. -/
theorem test_responseSent_takes_next :
    leaves (.responseSent 1) (burst.onPort 1 (fun r => { r with
        sending := some (.answer (answerTo (body 9) .ok 510 0))
        linkAnswers := [{ overrun := true, tag := 7, task := 0, low := 4 }] })) fun t =>
      (t.port 1).requests.map (·.code) = [0x42, 0x23, 0x50]
        ∧ (t.port 1).sending = some (.link { status := .overrun, tag := 7, task := 0, notes := .none, token := 0,
                                             result := 4, record := .none, bytes := [] })
        ∧ (t.port 1).waiting.map (·.status) = some .ok
        ∧ (t.lock 7).holder = some (.claim 9 510) := by
  decide +kernel

/-- 9.11 step 11: the GOODBYE's response sent, port 1 is torn down and PORT-DOWN with detail 1 goes to port 0. -/
theorem test_responseSent_goodbye_tears_down :
    leaves (.responseSent 1) (((withHead part 1 .goodbye (body 0)).onPort 1 (fun r => { r with
        sending := some (.answer (answerTo (body 0) .ok 0 1)) })).setTask 9 (some (running (fresh 1 510)))) fun t =>
      (t.port 1).session = .offline
        ∧ (t.task 9).map (·.state) = some .ready
        ∧ (t.port 0).notices = [.portDown 1 1] := by
  decide +kernel

/-! ### Sessions, rights and notices -/

/-- 11.4 step 2: HELLO on port 0 with 5 pages FREE answers 5 / 0440h. -/
theorem test_hello :
    leaves (.hello 0 (body 0)) (withPages State.reset [0, 1, 2, 3, 4] free) fun t =>
      answer 0 t = some (.ok, 0, 0, 0x04400005)
        ∧ (t.port 0).session = .online := by
  decide +kernel

/-- 9.11 step 10: a GOODBYE answers with the claims the port holds, here one. -/
theorem test_goodbye_counts_claims :
    leaves (.goodbye 1 (body 0)) (part.setTask 9 (some (running (fresh 1 510)))) fun t =>
      answer 1 t = (some (.ok, 0, 0, 1)) := by
  decide +kernel

/-- R168: port 0 gives port 1 the DEFINE right; the answer has the set before, 0, and after, 1. -/
theorem test_grantRights :
    leaves (.grantRights 0 (body 0 0 0x0101)) part fun t =>
      answer 0 t = some (.ok, 0, 0, 0x00010000)
        ∧ (t.port 1).rights = { define := true, evict := false, grant := false } := by
  decide +kernel

/-- R168: the last GRANT right cannot be taken away. -/
theorem test_grantRights_last :
    leaves (.grantRights 0 (body 0 0 0x0300)) part fun t =>
      answer 0 t = (some (.lastGrant, 0, 0, 0)) := by
  decide +kernel

/-- 8.7 step 4: N1 is removed, and NOTICES-LOST (2) joins the tail of a queue that holds 16 again. -/
theorem test_fetchNotice :
    leaves (.fetchNotice 2 (body 0)) (part.setPort 2 { on .none with
        notices := (List.finRange 14).map (fun i => .taskFreed 20 i.val) ++ [.lockGranted 8 6, .claimLost 8 1]
        lost := 2, attention := true }) fun t =>
      answer 2 t = some (.ok, 0xFF, 0, 16)
        ∧ (details 2 t).map (·.1) = some (.notice (.taskFreed 20 0))
        ∧ (t.port 2).notices.drop 13 = [.lockGranted 8 6, .claimLost 8 1, .noticesLost 2]
        ∧ (t.port 2).lost = 0
        ∧ (t.port 2).attention = true := by
  decide +kernel

/-! ### The check order (Table 10-7) -/

/-- The part of 10.5. -/
def orders : State :=
  ((((part.setTask 30 (some { running (fresh 2 811) with affinity := 0b0101 })).setTask 33
    (some { running (fresh 1 812) with dataPages := 2, leasePeriod := 20, dataAreaPages := [600, 601] })).setTask 32
    (some { plain with state := .suspended, affinity := 0b0001, slots := [none', filled (frame 4 0 [10]), none'],
                       stack := [1] })).setLock 10 (heldLock (.frame 32 1))).setLock 11
    (heldLock (.claim 30 811) [⟨33, 812⟩])

/-- Table 10-7, row by row: the answer's status, task field and token. -/
theorem test_check_order :
    (leaves (.evict 1 (body 31 0 0 [] 8)) orders fun t => answer 1 t = some (.noRight, 31, 0, 0))
      ∧ (leaves (.evict 0 (body 31 0 0 [] 8)) orders fun t => answer 0 t = some (.badParam, 31, 0, 0))
      ∧ (leaves (.evict 0 (body 31)) orders fun t => answer 0 t = some (.noTask, 31, 0, 0))
      ∧ (leaves (.claim 1 (body 31)) orders fun t => answer 1 t = some (.noTask, 31, 0, 0))
      ∧ (leaves (.claim 1 (body 30)) orders fun t => answer 1 t = some (.denied, 30, 0, 0))
      ∧ (leaves (.give 1 (body 33 999 40)) orders fun t => answer 1 t = some (.badParam, 33, 999, 0))
      ∧ (leaves (.give 1 (body 31 812 9)) orders fun t => answer 1 t = some (.noTask, 31, 812, 0))
      ∧ (leaves (.give 1 (body 33 812 9)) orders fun t => answer 1 t = some (.noLock, 33, 812, 0))
      ∧ (leaves (.takeWait 1 (body 33 999 10)) orders fun t => answer 1 t = some (.stale, 33, 999, 0))
      ∧ (leaves (.takeWait 1 (body 33 812 10)) orders fun t => answer 1 t = some (.alreadyWaiting, 33, 812, 0))
      ∧ (leaves (.dataRead 1 (body 33 812 0x00040800)) orders fun t => answer 1 t = some (.badParam, 33, 812, 0))
      ∧ (leaves (.dataRead 1 (body 33 812 0x00060800)) orders fun t => answer 1 t = some (.badParam, 33, 812, 0))
      ∧ (leaves (.unknownCode 1 0x7F (body 33 812)) orders fun t => answer 1 t = some (.badParam, 33, 0, 0)) := by
  decide +kernel

/-- Table 10-7: of these rows, ALREADY-WAITING and the DATA-READ within the step 4 ranges restart the lease of 20 ms,
and the stale TAKE-WAIT, the malformed DATA-READ and code 7Fh do not. -/
theorem test_check_order_leases :
    (leaves (.takeWait 1 (body 33 812 10)) orders fun t => (t.claimOf 33).bind (·.lease) = some 20)
      ∧ (leaves (.dataRead 1 (body 33 812 0x00040800)) orders fun t => (t.claimOf 33).bind (·.lease) = some 20)
      ∧ (leaves (.takeWait 1 (body 33 999 10)) orders fun t => (t.claimOf 33).bind (·.lease) = none)
      ∧ (leaves (.dataRead 1 (body 33 812 0x00060800)) orders fun t => (t.claimOf 33).bind (·.lease) = none)
      ∧ (leaves (.unknownCode 1 0x7F (body 33 812)) orders fun t => (t.claimOf 33).bind (·.lease) = none) := by
  decide +kernel

/-! ### Tasks -/

/-- The FREE pages of 1.4.1, 50 standing for the pages still SCRUBBING. -/
def pages141 : State :=
  ([0, 1, 2, 3].foldl (fun s t => State.setTask s t (some plain)) part)
  |> (withPages · [12, 13, 14, 15, 20, 21, 22, 31, 40, 41, 42, 43, 44, 45] free)

/-- 1.4.1: DEFINE of task 5, Table 1-5. -/
theorem test_define :
    leaves (.define 0 (body 5 0 0 params5)) pages141 fun t =>
      answer 0 t = some (.ok, 5, 0, 0x0003000B)
        ∧ (t.task 5).map (·.slotPages) = some [[12, 13, 14], [15, 20, 21], [22, 31, 40]]
        ∧ (t.task 5).map (fun k => (k.state, k.dataAreaPages, k.slots))
            = some (.ready, [41, 42], [none', none', none'])
        ∧ (t.page 21).role = some (.slotPart 1 2) := by
  decide +kernel

/-- 1.4.1: four pages needed and three FREE; every other page of this part is SCRUBBING, 1021 in all. -/
theorem test_define_no_pages :
    leaves (.define 0 (body 0xFF 0 0 [1, 2, 0, 0, 7, 5, 0x32, 0, 0, 0x80, 0, 0, 0, 0, 0, 0]))
        (withPages part [43, 44, 45] free) fun t =>
      answer 0 t = (some (.noPages, 0xFF, 0, 0x03FD0004)) := by
  decide +kernel

/-- Task 5 of 1.5.1, its pages, lock 6 and the scrubber. -/
def discard151 : State :=
  { (((((part.setTask 5 (some { plain with
        state := .suspended, stack := [0], slots := [filled (frame 8 0 [6]), none', none'], framePages := 3
        slotPages := [[12, 13, 14], [15, 20, 21], [22, 31, 40]], dataPages := 2, dataAreaPages := [41, 42] })).setTask 8
      (some (running (fresh 3 77)))).setLock 6 (heldLock (.frame 5 0) [⟨8, 77⟩]))
      |> (withPages · [12, 13, 14, 15, 20, 21, 41, 42] (owned 5 (.dataPart 0))))
      |> (withPages · [22, 31, 40] { owned 5 (.slotPart 2 0) with stale := true })) with
    scrubbing := some 58, scrubQueue := [22, 31, 40] }

/-- 1.5.1: DISCARD of task 5. -/
theorem test_discard :
    leaves (.discard 0 (body 5)) discard151 fun t =>
      answer 0 t = some (.ok, 5, 0, 0x0001000B)
        ∧ t.task 5 = none
        ∧ (t.lock 6).holder = some (.claim 8 77)
        ∧ (t.lock 6).lastHolder = some 5
        ∧ (t.port 3).notices = [.lockGranted 8 6]
        ∧ t.scrubQueue = [22, 31, 40, 12, 13, 14, 15, 20, 21, 41, 42] := by
  decide +kernel

/-- R15: a RUNNING task is BUSY. -/
theorem test_discard_busy :
    leaves (.discard 0 (body 8)) discard151 fun t =>
      answer 0 t = (some (.busy, 8, 0, 0)) := by
  decide +kernel

/-- R20: the five retunable parameters take their new values; geometry fields are zero. -/
theorem test_retune :
    leaves (.retune 0 (body 5 0 0 [0, 0, 0, 1, 2, 3, 0x60, 0xEA, 1, 2, 3, 4, 0, 0, 0, 0])) discard151 fun t =>
      answer 0 t = some (.ok, 5, 0, 0)
        ∧ (t.task 5).map (fun k => (k.resumeMode, k.affinity, k.watch)) = some (.notify, 0b0010, 0b0011)
        ∧ (t.task 5).map (fun k => (k.leasePeriod, k.entryWord)) = some (60000, 0x04030201) := by
  decide +kernel

/-- R19: a lease period of 60001 is out of range. -/
theorem test_retune_bad_period :
    leaves (.retune 0 (body 5 0 0 [0, 0, 0, 1, 2, 3, 0x61, 0xEA, 1, 2, 3, 4, 0, 0, 0, 0])) discard151 fun t =>
      answer 0 t = (some (.badParam, 5, 0, 0)) := by
  decide +kernel

/-- Task 22 of 4.8, FAULTED by the damage its last paragraph supposes. -/
def faulted22 : State :=
  ((part.setTask 22 (some { plain with
      state := .faulted, frameLimit := 3, watch := 0b1011, stack := [0, 1], slotPages := [[90], [91], [92], [93]]
      slots := [filled (frame 4 0), filled (frame 4 0 [2]), none', none'] })).setLock 2 (heldLock (.frame 22 1)))
  |>.setPage 91 { owned 22 (.slotPart 1 0) with poisoned := true }

/-- 4.8: SALVAGE of task 22. -/
theorem test_salvage :
    leaves (.salvage 0 (body 22)) faulted22 fun t =>
      answer 0 t = some (.ok, 22, 0, 0x00010001)
        ∧ (t.task 22).map (fun k => (k.state, k.stack)) = some (.suspended, [0])
        ∧ (t.lock 2).state = .free
        ∧ (t.lock 2).lastHolder = some 22
        ∧ (t.page 91).poisoned = true
        ∧ t.scrubQueue = [91]
        ∧ (t.port 3).notices = [.taskFreed 22 1] := by
  decide +kernel

/-! ### Claims -/

/-- Task 14 of 3.9. -/
def notify14 : State :=
  { part.setTask 14 (some { plain with
      state := .suspended, resumeMode := .notify, affinity := 0b0111, watch := 0b0010, entryWord := 0x00002000
      slotPages := [[200], [201], [202]], slots := [filled (frame 256 0x4400), none', none'], stack := [0] }) with
    nextToken := 300 }

/-- 3.9 step 1: a NOTIFIED claim of level HANDLER. -/
theorem test_claim_notified :
    leaves (.claim 0 (body 14)) notify14 fun t =>
      answer 0 t = some (.ok, 14, 300, 0x00002000)
        ∧ (t.claimOf 14).map (fun c => (c.port, c.token, c.startKind, c.level)) = some (0, 300, .notified, .handler)
        ∧ (t.task 14).map (fun k => (k.state, k.stack)) = some (.running, [0]) ∧ t.nextToken = 301 := by
  decide +kernel

/-- 3.9 step 7: with force-restore the PRIMARY frame's delivery starts, the claim OPENING and unanswered. -/
theorem test_claim_force_restore :
    leaves (.claim 1 (body 14 0 0 [] 1)) notify14 fun t =>
      answer 1 t = none
        ∧ (t.claimOf 14).map (fun c => (c.startKind, c.phase, c.level)) = some (.restored, .opening, .primary)
        ∧ (t.task 14).bind (·.op) = some (.delivery 0 0 []) := by
  decide +kernel

/-- The part of 3.10 after port 1's TAKE of lock 7: task 9's claim 510 holds locks 4 and 7, and task 12's waits on
lock 4. -/
def release310 : State :=
  ((((part.setTask 9 (some { running (restored 1 510 0) with
      watch := 0b0101, slotPages := [[300], [301], [302]], slots := [retained (frame 4 0 [4]), none', none'] })).setTask
    12 (some (running (fresh 2 509)))).setLock 4 (heldLock (.claim 9 510) [⟨12, 509⟩])).setLock 7
    (heldLock (.claim 9 510)))

/-- 3.10: the RELEASE. -/
theorem test_release :
    leaves (.release 1 (body 9 510)) release310 fun t =>
      answer 1 t = some (.ok, 9, 510, 0x00020000)
        ∧ (t.lock 4).holder = some (.claim 12 509) ∧ (t.lock 4).lastHolder = some 9
        ∧ t.lock 7 = { state := .free, holder := none, waiters := [], lastHolder := some 9 }
        ∧ (t.task 9).map (fun k => (k.state, k.slots)) = some (.ready, [none', none', none'])
        ∧ (t.port 2).notices = [.lockGranted 12 4, .taskFreed 9 0] ∧ (t.port 0).notices = [.taskFreed 9 0]
        ∧ t.scrubQueue = [300] := by
  decide +kernel

/-- 3.9 step 8: a token of an ended claim is STALE. -/
theorem test_renew_stale :
    leaves (.renew 0 (body 9 300)) release310 fun t => answer 0 t = some (.stale, 9, 300, 0) := by
  decide +kernel

/-- R65: a RENEW loads the period, 50 ms, and answers with it; its flags are not examined. -/
theorem test_renew :
    leaves (.renew 1 (body 9 510 7 [] 9)) { burst with ports := burst.ports.set 1 (on .none) } fun t =>
      answer 1 t = some (.ok, 9, 510, 50) ∧ (t.claimOf 9).bind (·.lease) = some 50 := by
  decide +kernel

/-- Task 20 of 2.7 before its step 9. -/
def suspend27 : State :=
  { ((part.setTask 20 (some { running (restored 0 43 1) with
      framePages := 2, slotPages := [[100, 101], [102, 103], [104, 105]]
      slots := [none', retained (frame 512 0x1040 [3]), none'] })).setLock 3 (heldLock (.claim 20 43)))
      |> (withPages · [101] { owned 20 (.slotPart 0 1) with stale := true }) with scrubQueue := [101] }

/-- 2.7 step 9: the fill starts in slot 0 and page 101 leaves the scrub queue. -/
theorem test_suspend :
    leaves (.suspend 0 (body 20 43 0 (List.replicate 1200 1))) suspend27 fun t =>
      (t.task 20).map (fun k => k.slots.map (·.status)) = some [.filling, .retained, .empty]
        ∧ ((t.task 20).bind (·.op)).map Op.kind = some .fill ∧ t.scrubQueue = [] ∧ (t.page 101).stale = false
        ∧ answer 0 t = none := by
  decide +kernel

/-- R34: a frame longer than the slot, 2048 bytes, is BAD-PARAM. -/
theorem test_suspend_too_long :
    leaves (.suspend 0 (body 20 43 0 (List.replicate 2052 1))) suspend27 fun t =>
      answer 0 t = some (.badParam, 20, 43, 0) := by
  decide +kernel

/-- Task 20 of 2.7 before its step 10: port 0's fill of slot 0 in flight, port 3 with the EVICT right. -/
def evict27 : State :=
  ((withHead (part.setPort 3 (on { Rights.none with evict := true })) 0 .suspend (body 20 43)).setTask 20
    (some { running (restored 0 43 1) with
      framePages := 2, slotPages := [[100, 101], [102, 103], [104, 105]]
      slots := [filling, retained (frame 512 0x1040 [3]), none']
      op := some (.fill 0 0 0 [1, 2, 3, 4] false) })).setLock 3 (heldLock (.claim 20 43))

/-- 2.7 step 10: the fill is aborted, slot 1 reinstated, and port 0's SUSPEND answered ABORTED. -/
theorem test_evict :
    leaves (.evict 3 (body 20)) evict27 fun t =>
      (t.task 20).map (fun k => (k.slots, k.stack)) = some ([none', filled (frame 512 0x1040 [3]), none'], [1])
        ∧ t.scrubQueue = [100, 101] ∧ (t.lock 3).holder = some (.frame 20 1) ∧ (t.page 100).stale = true
        ∧ answer 0 t = some (.aborted, 20, 43, 0) ∧ (t.port 0).notices = [.claimLost 20 1]
        ∧ answer 3 t = some (.ok, 20, 0, 1) := by
  decide +kernel

/-- Task 22 of 4.8 when its claim's timer has run down. -/
def lapse48 : State :=
  ((((((part.setTask 22 (some { running { restored 1 700 1 with lease := some 1, expiryDue := true } with
      frameLimit := 3, watch := 0b1011, stack := [0], slotPages := [[90], [91], [92], [93]]
      slots := [filled (frame 4 0), retained (frame 4 0 [2, 3]), none', none'] })).setTask 40
    (some (running (fresh 0 640)))).setLock 2 (heldLock (.claim 22 700))).setLock 3
    (heldLock (.claim 30 630))).setLock 5 (heldLock (.claim 22 700) [⟨40, 640⟩])).setLock 6
    (heldLock (.claim 31 631) [⟨22, 700⟩]))

/-- 4.8: the lapse, Tables 4-6 and 4-7. -/
theorem test_leaseExpiry :
    leaves (.leaseExpiry 22) lapse48 fun t =>
      (t.lock 2).holder = some (.frame 22 1) ∧ (t.lock 3).holder = some (.claim 30 630)
        ∧ (t.lock 5).holder = some (.claim 40 640) ∧ (t.lock 5).lastHolder = some 22 ∧ (t.lock 6).waiters = []
        ∧ (t.task 22).map (fun k => (k.state, k.stack, k.frameIn 1))
            = some (.suspended, [0, 1], some { frame 4 0 [2] with locksLost := true })
        ∧ (t.port 0).notices = [.lockGranted 40 5, .taskFreed 22 2]
        ∧ (t.port 1).notices = [.claimLost 22 2, .taskFreed 22 2] ∧ (t.port 2).notices = []
        ∧ (t.port 3).notices = [.taskFreed 22 2] := by
  decide +kernel

/-- R71: a running timer falls by one, one at 1 becomes due to expire, a stopped one stays. -/
theorem test_leaseTimerMillisecond :
    leaves .leaseTimerMillisecond ((lapse48.setTask 8 (some (running { fresh 0 5 with lease := some 20 }))).setTask 22
        (some (running { fresh 1 700 with lease := some 1 }))) fun t =>
      (t.claimOf 8).map (fun c => (c.lease, c.expiryDue)) = some (some 19, false)
        ∧ (t.claimOf 22).map (·.expiryDue) = some true ∧ (t.claimOf 40).map (·.lease) = some none := by
  decide +kernel

/-! ### Peeks and data areas -/

/-- Task 3 of 11.2 under port 0's NOTIFIED claim. -/
def peek112 : State :=
  part.setTask 3 (some { running { fresh 0 800 with level := .handler, startKind := .notified } with
    frameLimit := 3, slotPages := [[60], [61], [62], [63]], stack := [0]
    slots := [filled { frame 512 0x0100 with pushedBy := 1 }, none', none', none'] })

/-- 11.2 step 2: the peek of position 0 starts. -/
theorem test_peekFrame :
    leaves (.peekFrame 0 (body 3 800 0)) peek112 fun t =>
      (t.task 3).bind (·.op) = some (.peek 0 0 0 []) ∧ answer 0 t = none := by
  decide +kernel

/-- 11.2 step 2: position 1 is beyond the depth. -/
theorem test_peekFrame_beyond_depth :
    leaves (.peekFrame 0 (body 3 800 1)) peek112 fun t => answer 0 t = some (.badParam, 3, 800, 0) := by
  decide +kernel

/-- Task 17 of 6.6. -/
def data66 : State :=
  (part.setTask 17 (some { running (fresh 2 1200) with
    frameLimit := 1, dataPages := 3, dataAreaPages := [310, 311, 312] })).setPage 311
    { owned 17 (.dataPart 1) with poisoned := true }

/-- 6.6 step 1. -/
theorem test_dataRead_damaged :
    leaves (.dataRead 2 (body 17 1200 0x08000000)) data66 fun t =>
      answer 2 t = some (.damaged, 17, 1200, 0x00010137) := by
  decide +kernel

/-- 6.6 step 2: bytes 1200 to 1599 cover part 1 partly. -/
theorem test_dataWrite_damaged :
    leaves (.dataWrite 2 (body 17 1200 1200 (List.replicate 400 0xAA))) data66 fun t =>
      answer 2 t = some (.damaged, 17, 1200, 0x00010137) := by
  decide +kernel

/-- 6.6 step 3: a write that covers the poisoned part in full starts. -/
theorem test_dataWrite :
    leaves (.dataWrite 2 (body 17 1200 1024 (List.replicate 1024 0xBB))) data66 fun t =>
      ((t.task 17).bind (·.op)).map Op.kind = some .dataWrite ∧ answer 2 t = none := by
  decide +kernel

/-! ### Locks -/

/-- Lock 12 of 5.9 with the given holder and waiters, and the four claims. -/
def lock59 (h : Option Holder) (waiters : List Waiter) : State :=
  (([(5, 0, 900), (6, 1, 901), (7, 2, 902), (8, 3, 903)] : List (TaskNo × Port × Half)).foldl
    (fun s x => s.setTask x.1 (some (running (fresh x.2.1 x.2.2)))) part).setLock 12
    { state := if h.isSome then .held else .free, holder := h, waiters := waiters, lastHolder := none }

/-- 5.9 step 1. -/
theorem test_take :
    leaves (.take 0 (body 5 900 12)) (lock59 none []) fun t =>
      answer 0 t = some (.ok, 5, 900, 12) ∧ t.lock 12 = heldLock (.claim 5 900) := by
  decide +kernel

/-- 5.9 step 2. -/
theorem test_take_held :
    leaves (.take 1 (body 6 901 12)) (lock59 (some (.claim 5 900)) []) fun t =>
      answer 1 t = some (.held, 6, 901, 0) := by
  decide +kernel

/-- 5.9 step 5: QUEUED at place 3. -/
theorem test_takeWait :
    leaves (.takeWait 3 (body 8 903 12)) (lock59 (some (.claim 5 900)) [⟨6, 901⟩, ⟨7, 902⟩]) fun t =>
      answer 3 t = some (.queued, 8, 903, 0x0003000C)
        ∧ (t.lock 12).waiters = [⟨6, 901⟩, ⟨7, 902⟩, ⟨8, 903⟩] := by
  decide +kernel

/-- 5.9 step 6. -/
theorem test_withdraw :
    leaves (.withdraw 1 (body 6 901)) (lock59 (some (.claim 5 900)) [⟨6, 901⟩, ⟨7, 902⟩, ⟨8, 903⟩]) fun t =>
      answer 1 t = some (.ok, 6, 901, 12) ∧ (t.lock 12).waiters = [⟨7, 902⟩, ⟨8, 903⟩] := by
  decide +kernel

/-- 5.9 step 10, with task 5's token 904 written 900. -/
theorem test_give :
    leaves (.give 0 (body 5 900 12)) (lock59 (some (.claim 5 900)) [⟨7, 902⟩, ⟨8, 903⟩]) fun t =>
      answer 0 t = some (.ok, 5, 900, 0x0007000C)
        ∧ t.lock 12 = { heldLock (.claim 7 902) [⟨8, 903⟩] with lastHolder := some 5 }
        ∧ (t.port 2).notices = [.lockGranted 7 12] := by
  decide +kernel

/-- 5.9 step 12: with no waiter the new holder is FFFFh. -/
theorem test_give_to_nobody :
    leaves (.give 3 (body 8 903 12)) (lock59 (some (.claim 8 903)) []) fun t =>
      answer 3 t = some (.ok, 8, 903, 0xFFFF000C) ∧ (t.lock 12).state = .free := by
  decide +kernel

/-- 11.4 step 5. -/
theorem test_lockNew :
    leaves (.lockNew 0 (body 0)) part fun t =>
      answer 0 t = some (.ok, 0, 0, 0x001F0000) ∧ (t.lock 0).state = .free := by
  decide +kernel

/-- R100: a HELD lock is not returned. -/
theorem test_lockReturn_held :
    leaves (.lockReturn 0 (body 0 0 12)) (lock59 (some (.claim 5 900)) []) fun t =>
      answer 0 t = some (.held, 0, 0, 0) := by
  decide +kernel

/-- R100: a FREE lock is UNALLOCATED again, as all 32 then are. -/
theorem test_lockReturn :
    leaves (.lockReturn 0 (body 0 0 12)) (lock59 none []) fun t =>
      answer 0 t = some (.ok, 0, 0, 0x0020000C) ∧ (t.lock 12).state = .unallocated := by
  decide +kernel

/-- 11.1 after step 5: QUERY-LOCK of lock 7. -/
theorem test_queryLock :
    leaves (.queryLock 0 (body 0 0 7)) ((part.setTask 12 (some (running (fresh 2 509)))).setLock 7
        { heldLock (.claim 12 509) with lastHolder := some 9 }) fun t =>
      (details 0 t).map (·.1) = some (.lock { held := true, holderKind := some .claim, holderTask := some 12,
                                              holderPort := some 2, holderSlot := none, waiters := 0,
                                              lastHolder := some 9 }) := by
  decide +kernel

/-- 11.4 step 6: 12 pages FREE, 1012 SCRUBBING, page 12 in progress. -/
theorem test_queryMemory :
    leaves (.queryMemory 0 (body 0)) { withPages part [0, 1, 2, 3, 4, 5, 6, 7, 8, 9, 10, 11] free with
        scrubbing := some 12, scrubQueue := (List.finRange 1024).drop 13 } fun t =>
      answer 0 t = some (.ok, 0, 0, 0x03F4000C)
        ∧ (details 0 t).map (·.1) = some (.memory { free := 12, reserved := 0, scrubbing := 1012, queueLength := 1011,
                                                    inProgress := some 12, poisoned := 0 }) := by
  decide +kernel

/-- 2.7 step 5: QUERY-TASK during the fill shows depth 0 and in-flight operation FILL, and no token. -/
theorem test_queryTask :
    leaves (.queryTask 3 (body 20)) evict27 fun t =>
      answer 3 t = some (.ok, 20, 0, 0)
        ∧ (details 3 t).map (·.1) = some (.task
            { state := .running, depth := 0, frameLimit := 2, framePages := 2, dataPages := 0, resumeMode := .restore,
              affinity := 0b1111, watch := 0, leasePeriod := 0, entryWord := 0, claimPort := some 0
              claimLevel := some .primary, claimPhase := some .active, claimStart := some .restored
              leaseRemaining := none, inFlight := some .fill, topTagWord := none, topOrigin := none }) := by
  decide +kernel

/-! ### The arbiter and transfers -/

/-- The path given to port p. -/
def granted (s : State) (p : Port) : State := { s with path := some (.port p) }

/-- Two ports with an operation in flight. -/
def twoReads : State :=
  ((withHead (withHead part 0 .dataRead (body 8 640)) 2 .dataRead (body 17 1200)).setTask 8
    (some { running (fresh 0 640) with
      dataPages := 1, dataAreaPages := [309], op := some (.dataRead 0 4 0 []) })).setTask 17
    (some { running (fresh 2 1200) with
      dataPages := 3, dataAreaPages := [310, 311, 312], op := some (.dataRead 1020 8 0 []) })

/-- R136: from port 0, the next claimant in rotation that waits is port 2. -/
theorem test_arbiterGrant :
    leaves .arbiterGrant { twoReads with pointer := .port 0, scrubbing := some 700 } fun t =>
      t.path = some (.port 2) ∧ t.pointer = .port 2 := by
  decide +kernel

/-- Task 40 of 7.12 after its step 3, the scrubber zeroing page 502 or done with it. -/
def fill712 (inProgress : Option PageNo) : State :=
  { ((withHead part 1 .suspend (body 40 77)).setTask 40 (some { running (restored 1 77 0) with
      frameLimit := 1, framePages := 2, slotPages := [[500, 501], [502, 503]]
      slots := [retained (frame 4 0), filling]
      op := some (.fill 1 0 0x2222 (List.replicate 1030 5) false) }))
      |> (withPages · [502] (owned 40 (.slotPart 1 0)))
      |> (withPages · [503] { owned 40 (.slotPart 1 1) with poisoned := true }) with scrubbing := inProgress }

/-- 7.12 step 4: the fill waits for the page that the scrubber has in progress, which gets the path. -/
theorem test_arbiterGrant_fill_waits :
    leaves .arbiterGrant (fill712 (some 502)) fun t => t.path = some .scrubber := by
  decide +kernel

/-- 7.12 step 5, and the fill goes on to part 1. -/
theorem test_fillPageWrite :
    leaves .fillPageWrite (granted (fill712 none) 1) fun t =>
      ((t.task 40).bind (·.op)) = some (.fill 1 1 0x2222 (List.replicate 1030 5) false) ∧ t.path = none
        ∧ t.mem.read (1024 * 502 + 1023) = 5 ∧ t.mem.read (1024 * 503) = 0 := by
  decide +kernel

/-- 2.7 step 6, in one part: the frame is pushed, lock 3 carried, the retained slot emptied, depth 1 and slot 1. -/
theorem test_fillPageWrite_completes :
    leaves .fillPageWrite (granted (((withHead part 2 .suspend (body 20 42)).setTask 20
        (some { running (restored 2 42 0) with
          slotPages := [[100], [102], [104]], watch := 0b0101
          slots := [retained (frame 8 0x1000 [3]), filling, none']
          op := some (.fill 1 0 0x1040 [1, 2, 3, 4] false) })).setLock 3 (heldLock (.claim 20 42))) 2) fun t =>
      answer 2 t = some (.ok, 20, 42, 0x00010001) ∧ (t.lock 3).holder = some (.frame 20 1)
        ∧ (t.task 20).map (·.slots) = some [none', filled { frame 4 0x1040 [3] with pushedBy := 2 }, none']
        ∧ (t.task 20).map (fun k => (k.state, k.stack)) = some (.suspended, [1]) ∧ t.scrubQueue = [100]
        ∧ (t.port 0).notices = [.taskFreed 20 1] ∧ (t.port 2).notices = []
        ∧ t.mem = [(104448, 1), (104449, 2), (104450, 3), (104451, 4)] := by
  decide +kernel

/-- Task 14 of 3.9 at step 5, its HANDLER frame of 4 bytes in page 201. -/
def delivery39 : State :=
  { granted ((withHead part 1 .claim (body 14)).setTask 14 (some { plain with
      state := .running, resumeMode := .notify, slotPages := [[200], [201], [202]], stack := [0, 1]
      slots := [filled (frame 256 0x4400), filled { frame 4 0x2080 with origin := .handler }, none']
      claim := some { fresh 1 301 with phase := .opening, level := .handler, startKind := .restored }
      op := some (.delivery 1 0 []) })) 1 with
    mem := [(1024 * 201, 9), (1024 * 201 + 3, 8)] }

/-- 3.9 step 5: the delivery completes. -/
theorem test_deliveryPartTransfer :
    leaves (.deliveryPartTransfer .sound) delivery39 fun t =>
      answer 1 t = some (.ok, 14, 301, 0x2080) ∧ (details 1 t).map (·.2.2) = some [9, 0, 0, 8]
        ∧ (t.task 14).map (fun k => (k.slots.map (·.status), k.stack)) = some ([.filled, .retained, .empty], [0])
        ∧ (t.claimOf 14).map (fun c => (c.phase, c.retained)) = some (.active, some 1) := by
  decide +kernel

/-- 4.8, last paragraph: an uncorrectable part ends the claim on damage. -/
theorem test_deliveryPartTransfer_damage :
    leaves (.deliveryPartTransfer .uncorrectable) delivery39 fun t =>
      answer 1 t = some (.damaged, 14, 301, 201) ∧ (t.page 201).poisoned = true
        ∧ (t.task 14).map (fun k => (k.state, k.stack, k.claim)) = some (.faulted, [0, 1], none) := by
  decide +kernel

/-- Task 3 of 11.2 during its peek, the frame shortened to 8 bytes. -/
def peeking112 : State :=
  { granted ((withHead part 0 .peekFrame (body 3 800)).setTask 3 (some { running (fresh 0 800) with
      frameLimit := 3, leasePeriod := 50, slotPages := [[60], [61], [62], [63]], stack := [0]
      slots := [filled { frame 8 0x0100 with pushedBy := 1 }, none', none', none']
      op := some (.peek 0 0 0 []) })) 0 with mem := [(1024 * 60 + 1, 7)] }

/-- 11.2 step 2: the frame's record and bytes, and the claim's timer restarted. -/
theorem test_peekPartTransfer :
    leaves (.peekPartTransfer .corrected) peeking112 fun t =>
      (details 0 t).map (fun x => (x.1, x.2.2)) = some (.peek
          { position := 0, slot := 0, length := 8, tagWord := 0x0100, origin := .primary, carried := []
            locksLost := false, pushedBy := 1 }, [0, 7, 0, 0, 0, 0, 0, 0])
        ∧ (t.claimOf 3).bind (·.lease) = some 50 ∧ (t.task 3).bind (·.op) = none := by
  decide +kernel

/-- R43: damage in a peek poisons the page and keeps the claim. -/
theorem test_peekPartTransfer_damage :
    leaves (.peekPartTransfer .uncorrectable) peeking112 fun t =>
      answer 0 t = some (.damaged, 3, 800, 60) ∧ (t.page 60).poisoned = true ∧ (t.claimOf 3).isSome := by
  decide +kernel

/-- R118, R120: a read of bytes 1020 to 1027 covers the end of part 0 and the start of part 1. -/
theorem test_dataReadPartTransfer :
    leaves (.dataReadPartTransfer .sound) { granted twoReads 2 with mem := [(1024 * 310 + 1023, 3)] } fun t =>
      (t.task 17).bind (·.op) = some (.dataRead 1020 8 1 [0, 0, 0, 3]) ∧ t.path = none := by
  decide +kernel

/-- R120: damage at part 0 of task 17, page 310. -/
theorem test_dataReadPartTransfer_damage :
    leaves (.dataReadPartTransfer .uncorrectable) (granted twoReads 2) fun t =>
      answer 2 t = some (.damaged, 17, 1200, 310) ∧ (t.page 310).poisoned = true := by
  decide +kernel

/-- Task 17 of 6.6 in a data write. -/
def writing66 (op : Op) : State :=
  granted ((withHead data66 2 .dataWrite (body 17 1200)).setTask 17 (some { running (fresh 2 1200) with
    frameLimit := 1, dataPages := 3, dataAreaPages := [310, 311, 312], op := some op })) 2

/-- 6.6 step 3: part 1 is written whole and its poison cleared, 1 part and 1 cleared. -/
theorem test_dataWritePageTransfer_full :
    leaves (.dataWritePageTransfer .uncorrectable) (writing66 (.dataWrite 1024 (List.replicate 1024 0xBB) 1 0)) fun t =>
      answer 2 t = some (.ok, 17, 1200, 0x00010001) ∧ (t.page 311).poisoned = false
        ∧ t.mem.read (1024 * 311) = 0xBB ∧ t.mem.read (1024 * 311 + 1023) = 0xBB ∧ t.mem.read (1024 * 312) = 0 := by
  decide +kernel

/-- 6.6 step 5 with two bytes written: the other bytes of the page stay. -/
theorem test_dataWritePageTransfer_part :
    leaves (.dataWritePageTransfer .sound)
        { writing66 (.dataWrite 1020 [1, 2, 3, 4, 5, 6, 7, 8] 0 0) with mem := [(1024 * 310 + 1019, 9)] } fun t =>
      t.mem = [(318459, 9), (318460, 1), (318461, 2), (318462, 3), (318463, 4)]
        ∧ (t.task 17).bind (·.op) = some (.dataWrite 1020 [1, 2, 3, 4, 5, 6, 7, 8] 1 0) := by
  decide +kernel

/-! ### The scrubber -/

/-- 7.12 step 8: the scrubber takes page 503. -/
theorem test_scrubberTakePage :
    leaves .scrubberTakePage { fill712 none with scrubQueue := [503, 7] } fun t =>
      t.scrubbing = some 503 ∧ t.scrubQueue = [7] := by
  decide +kernel

/-- 7.12 step 1: page 700, SCRUBBING without an entry, becomes FREE and is zero. -/
theorem test_scrubCompletion_frees :
    leaves .scrubCompletion { fill712 (some 700) with
        path := some .scrubber, scrubQueue := [701], mem := [(1024 * 700 + 5, 1)] } fun t =>
      (t.page 700).state = .free ∧ t.scrubbing = none ∧ t.mem = [] ∧ t.path = none := by
  decide +kernel

/-- 7.12 step 8: page 503, RESERVED and stale, loses its stale and poison marks. -/
theorem test_scrubCompletion_stale :
    leaves .scrubCompletion { (fill712 (some 503)).onPage 503 Page.markStale with path := some .scrubber } fun t =>
      t.page 503 = owned 40 (.slotPart 1 1) := by
  decide +kernel

/-! ### Resets -/

/-- The part of 11.1 before its step 5. -/
def failover111 : State :=
  (((((part.setPort 3 (.reset .none)).setTask 9 (some { running (restored 1 510 0) with
      affinity := 0b0110, watch := 0b0101, slotPages := [[300], [301], [302]]
      slots := [retained (frame 4 0 [4]), none', none'] })).setTask 12 (some (running (fresh 2 509)))).setLock 4
    (heldLock (.claim 9 510))).setLock 7 (heldLock (.claim 9 510) [⟨12, 509⟩]))

/-- 11.1 step 5 and Table 11-2. -/
theorem test_portReset :
    leaves (.portReset 1) failover111 fun t =>
      (t.task 9).map (fun k => (k.state, k.stack)) = some (.suspended, [0])
        ∧ (t.lock 4).holder = some (.frame 9 0) ∧ (t.lock 7).holder = some (.claim 12 509)
        ∧ (t.port 0).notices = [.taskFreed 9 1, .portDown 1 1]
        ∧ (t.port 2).notices = [.lockGranted 12 7, .taskFreed 9 1, .portDown 1 1] ∧ (t.port 3).notices = []
        ∧ (t.port 1).session = .offline ∧ (t.port 1).held = true := by
  decide +kernel

/-- R165: a message on a port whose reset line is asserted is not taken. -/
theorem test_hello_held :
    leaves (.hello 1 (body 0)) (part.setPort 1 { PortRecord.reset .none with held := true }) fun t =>
      answer 1 t = none ∧ (t.port 1).session = .offline := by
  decide +kernel

/-- R165: released, the port is OFFLINE and keeps its rights. -/
theorem test_portResetRelease :
    leaves (.portResetRelease 0) (part.setPort 0 { PortRecord.reset .all with held := true }) fun t =>
      t.port 0 = .reset .all := by
  decide +kernel

/-- R140, R169: pages SCRUBBING and queued from page 0, every record at its reset value, no notice posted; the bytes of
context memory stay. -/
theorem test_fullReset :
    leaves (.fullReset .line) { failover111 with nextToken := 511, mem := [(5, 5)] } fun t =>
      t.nextToken = 1 ∧ t.task 9 = none ∧ t.lock 7 = .unallocated ∧ t.scrubQueue.take 2 = [0, 1]
        ∧ t.port 0 = .reset .all ∧ t.port 2 = .reset .none ∧ t.mem = [(5, 5)] ∧ t.frst = true := by
  decide +kernel

/-- R169: after the release requests are taken again. -/
theorem test_fullResetRelease :
    leaves .fullResetRelease { failover111 with frst := true } fun t =>
      t.frst = false ∧ t.scrubbing = none ∧ t.pointer = .scrubber ∧ t.port 1 = .reset .none := by
  decide +kernel

/-! ### Witnesses: states and operands that meet the hypotheses of each statement, clause by clause -/

/-- Port p's record with some requests queued. -/
def queued (p : Port) (n : Nat) : State :=
  part.onPort p (fun r => { r with requests := List.replicate n ⟨0x50, body 0⟩ })

/-- A RUNNING task under port 1's claim 510, for one request after another. -/
def kept : Machine.Task :=
  { running (fresh 1 510) with slotPages := [[300], [301], [302]], slots := [none', none', none'], dataPages := 2
                               dataAreaPages := [310, 311], leasePeriod := 20 }

/-- The part with that task as task 9. -/
def live (k : Machine.Task := kept) : State := part.setTask 9 (some k)

theorem witness_StepRunsTheFrontCommand : State.reset.pending = [] := rfl

theorem witness_EveryCommandIsCarriedOut :
    (∀ cause, Instr.arbiterGrant ≠ .fullReset cause) ∧ Instr.arbiterGrant ≠ .fullResetRelease := by
  simp

/-- The part with the sweep over: every port ONLINE, every page FREE, no task. -/
def swept : State := { part with pages := Vector.replicate 1024 free }

theorem swept_inv : swept.Inv := by
  have port : ∀ p, swept.port p = on (swept.port p).rights := by decide +kernel
  have page : ∀ n, swept.page n = free := fun n => by simp [State.page, swept]
  have lock : ∀ l, swept.lock l = .unallocated := by decide +kernel
  have task : ∀ t, swept.task t = none := by decide +kernel
  refine ⟨⟨fun p => ?_, ⟨0, by decide +kernel⟩, fun t k hk => ?_, fun l => ?_, by decide, List.nodup_nil, by decide⟩,
    fun t k hk => ?_, ⟨fun p hp => ?_, fun p _ => ?_, fun p x hx => ?_, fun t k c hk => ?_, fun t k c hk => ?_⟩,
    ⟨fun n => ?_, fun n t r => ?_, fun n hn => ?_, fun n hn => ?_, fun n hn => ?_, fun n _ i _ => rfl⟩, ?_⟩
  · rw [port]; simp [on, PortRecord.reset, PortRecord.Ok]
  · rw [task] at hk; simp at hk
  · rw [lock]; exact ⟨rfl, rfl, rfl⟩
  · rw [task] at hk; simp at hk
  · rw [port] at hp; simp [on, PortRecord.reset] at hp
  · rw [port]; simp [on, PortRecord.reset, PortRecord.Unanswered]
  · rw [port] at hx; simp [on, PortRecord.reset] at hx
  · rw [task] at hk; simp at hk
  · rw [task] at hk; simp at hk
  · rw [page]; simp [free, Page.reset, Page.Ok]
  · rw [page]; simp [free, Page.reset, task]
  · simp [swept, part] at hn
  · rw [page] at hn; simp [free, Page.reset] at hn
  · simp [swept, part, State.reset] at hn
  · refine ⟨fun l t x h => ?_, fun l t i => ?_, fun l w h => ?_, fun l => ?_, fun l m w h => ?_, fun t k i f h => ?_⟩
    · simp [lock, Lock.unallocated] at h
    · simp [lock, task, Lock.unallocated]
    · simp [lock, Lock.unallocated] at h
    · simp [lock, Lock.unallocated]
    · simp [lock, Lock.unallocated] at h
    · simp [task] at h

/-- The part after the DEFINE of task 5 of 1.4.1 has been taken. -/
def defined : State := arrive 0 ⟨0x10, body 5 0 0 params5⟩ swept

/-- A part with a task, its pages reserved, the answer on its way and a CLAIM waiting meets the invariant, and its step
gives a next state, with the task RUNNING. -/
theorem witness_EveryStepKeepsTheInvariant :
    State.Inv { defined with pending := [.claim 1 (body 5)] } ∧ (defined.task 5).map (·.state) = some .ready
      ∧ (defined.page 9).role = some (.dataPart 0) ∧ ∃ t, step { defined with pending := [.claim 1 (body 5)] } = .next t
        ∧ (t.task 5).map (·.state) = some .running := by
  refine ⟨?_, by decide +kernel, by decide +kernel, _, rfl, by decide +kernel⟩
  obtain ⟨r, sl, l, p, pool⟩ := swept_inv
  have e : exec (.define 0 (body 5 0 0 params5)) swept = .next defined := rfl
  have l' := linkedAll_iff.2 l
  exact inv_pending ⟨records_exec r _ e, slots_exec r l' sl _ e, linkedAll_iff.1 (linked_exec r l' _ e), pages_exec p _ e,
    pool_exec r l' sl pool _ e⟩ _

theorem witness_MemoryChangesOnlyThroughThePath :
    Instr.scrubCompletion ≠ .fullReset .powerOn ∧ Instr.fillPageWrite ≠ .fullReset .powerOn
      ∧ (leaves .scrubCompletion { fill712 (some 700) with path := some .scrubber, mem := [(716805, 1)] } fun t =>
          t.mem.read 716805 ≠ 1)
      ∧ (leaves .fillPageWrite (granted (fill712 none) 1) fun t => t.mem.read (1024 * 502) ≠ 0) := by
  refine ⟨by decide, by decide, ?_⟩
  decide +kernel

/-- A GRANT-RIGHTS changes port 1's rights as it arrives, and one that waited changes them as it is taken. -/
theorem witness_RightsChangeOnlyByGrantAndFullReset :
    (part.port 1).rights = .none
      ∧ (leaves (.grantRights 0 (body 0 0 0x0101)) part fun t => (t.port 1).rights ≠ .none)
      ∧ leaves (.responseSent 0) (part.onPort 0 (fun r => { r with
          requests := [⟨0x50, body 0⟩, ⟨0x03, body 0 0 0x0101⟩], sending := some (.answer (answerTo (body 0) .ok 0 0)) }))
          fun t => (t.port 1).rights ≠ .none := by decide +kernel

theorem witness_GeometryAndPagesAreFixed :
    (live).task 9 = some kept ∧ leaves (.release 1 (body 9 510)) live fun t => (t.task 9).isSome := by
  decide +kernel

theorem witness_RequestMessagesDecodeToTheirCommands :
    (Instr.suspend 2 (body 20 41 0 [1])).request = some (2, ⟨0x22, body 20 41 0 [1]⟩)
      ∧ WellFormed (.suspend 2 (body 20 41 0 [1]))
      ∧ (Instr.unknownCode 2 0xFF (body 20)).request = some (2, ⟨0xFF, body 20⟩)
      ∧ WellFormed (.unknownCode 2 0xFF (body 20)) := by decide

theorem witness_LineBitsGiveTheirBytes :
    ([((0x16 : Byte), 0), (0xFF, 9)] : List (Byte × Nat)) ≠ [] ∧ ∀ x ∈ [((0x16 : Byte), 0), (0xFF, 9)], x.2 ≤ 9 := by
  decide

theorem witness_MessageEndBringsItsRequestOrLinkError :
    decodeMessage 3 (msg [0x50, 0x5A, 0, 0, 0, 0, 0, 0, 0, 0, 0, 0, 0x51, 0x76]) = .ok (.queryMemory 3 (body 0))
      ∧ decodeMessage 3 (msg [1]) = .error .tooShort ∧ part.frst = false ∧ (part.port 3).held = false
      ∧ ({ part with frst := true } : State).frst = true
      ∧ ((part.onPort 3 PortRecord.cutOff).port 3).held = true := by decide +kernel

theorem witness_ArrivalJoinsTheQueueOrOverruns :
    (Instr.goodbye 3 (body 0)).request = some (3, ⟨0x02, body 0⟩)
      ∧ ({ part with frst := true } : State).frst = true ∧ ((part.onPort 3 PortRecord.cutOff).port 3).held = true
      ∧ part.frst = false ∧ (part.port 3).held = false ∧ (part.port 3).requests = []
      ∧ (queued 3 1).frst = false ∧ ((queued 3 1).port 3).held = false ∧ ((queued 3 1).port 3).requests.length = 1
      ∧ ((queued 3 3).port 3).held = false ∧ ((queued 3 3).port 3).requests.length = 3
      ∧ ((queued 3 4).port 3).held = false ∧ ((queued 3 4).port 3).requests.length = 4 := by decide +kernel

/-- A link answer, and a port record sending one with some waiting. -/
def anAnswer : LinkAnswer := { overrun := true, tag := 1, task := 2, low := 4 }
def sendingLink (waiting : Nat) : PortRecord :=
  { on .none with sending := some (.link (anAnswer.response 0)), linkAnswers := List.replicate waiting anAnswer }

theorem witness_LinkAnswersGoOldestFirst :
    4 ≤ (sendingLink 4).linkAnswers.length
      ∧ (sendingLink 3).sending = some (.link (anAnswer.response 0)) ∧ (sendingLink 3).linkAnswers.length < 4
      ∧ (on .none).sending = none ∧ (on .none).linkAnswers ++ [anAnswer] = anAnswer :: []
      ∧ (on .none).linkAnswers = [] := by decide

/-- Port 2 while it sends a response to the first of some requests. -/
def responding (qs : List Request) (x : Response) : State :=
  part.onPort 2 (fun r => { r with requests := qs, sending := some (.answer x) })

theorem witness_ResponseSentTakesTheNextRequest :
    (part.port 2).sending = none
      ∧ ((part.setPort 2 (sendingLink 0)).port 2).sending = some (.link (anAnswer.response 0))
      ∧ ((responding [⟨0x50, body 0⟩] (answerTo (body 0) .ok 0 0)).port 2).requests = ⟨0x50, body 0⟩ :: []
      ∧ (0x50 : Byte) ≠ 0x02
      ∧ ((responding [⟨0x02, body 0⟩, ⟨0x01, body 0⟩] (answerTo (body 0) .badParam 0 0)).port 2).sending
          = some (.answer (answerTo (body 0) .badParam 0 0))
      ∧ Status.badParam ≠ .ok := by decide +kernel

theorem witness_StepsTwoToFourRefuseInOrder :
    (Instr.evict 1 (body 31 0 0 [] 8)).request = some (1, ⟨RequestCode.evict.byte, body 31 0 0 [] 8⟩)
      ∧ State.reset.takesAtOnce 1 ∧ (State.reset.port 1).session = .offline ∧ RequestCode.evict ≠ .hello
      ∧ part.takesAtOnce 1 ∧ (part.port 1).session = .online ∧ (part.port 1).rights.allow .evict = false
      ∧ part.takesAtOnce 0 ∧ (part.port 0).session = .online ∧ (part.port 0).rights.allow .evict = true
      ∧ operandsOk (body 31 0 0 [] 8) .evict = false
      ∧ (State.reset.port 1).rights.allow .hello = true ∧ operandsOk (body 31 0 0 [] 8) .hello = false := by
  decide +kernel

theorem witness_StepsFiveAndSixRefuseInOrder :
    (Instr.take 1 (body 9 510 31)).request = some (1, ⟨RequestCode.take.byte, body 9 510 31⟩)
      ∧ part.admits 1 .take ∧ operandsOk (body 9 510 31) .take = true
      ∧ taskOf (body 9 510 31).task = some 9 ∧ part.task 9 = none ∧ RequestCode.take.tokenBearing = true
      ∧ part.admits 0 .evict ∧ operandsOk (body 9) .evict = true
      ∧ RequestCode.evict ∈ [RequestCode.discard, .retune, .queryTask, .salvage, .claim, .evict]
      ∧ lockOf (body 9 510 31).arg = some 31 ∧ ((live).lock 31).state = .unallocated ∧ (live).task 9 ≠ none
      ∧ (live).admits 1 .take ∧ part.admits 0 .lockReturn ∧ operandsOk (body 9 510 31) .lockReturn = true
      ∧ (live).admits 1 .renew ∧ operandsOk (body 9 511) .renew = true ∧ RequestCode.renew.tokenBearing = true
      ∧ (live).task 9 = some kept ∧ kept.claim = some (fresh 1 510) ∧ (fresh 1 510).token ≠ (body 9 511).token
      ∧ (live).admits 2 .renew ∧ (fresh 1 510).port ≠ 2
      ∧ ((part.setTask 9 (some plain)).admits 1 .renew) ∧ plain.state ≠ .running := by decide +kernel

/-- A refusal at step 3 and one at step 7. -/
theorem witness_RefusalsChangeOnlyAnswerAndLease :
    orders.takesAtOnce 1 ∧ (orders.port 1).waiting = none ∧ (orders.port 1).sending = none
      ∧ (leaves (.evict 1 (body 31)) orders fun t => (answer 1 t).map (·.1) = some .noRight)
      ∧ (leaves (.takeWait 1 (body 33 812 10)) orders fun t => (answer 1 t).map (·.1) = some .alreadyWaiting)
      ∧ Status.refusal .noRight = true ∧ Status.refusal .alreadyWaiting = true := by decide +kernel

theorem witness_UnknownCodesHaveNoEffect :
    crc (List.replicate 12 0x00 ++ [0x21, 0x9F]) = 0 ∧ [(0x21 : Byte), 0x9F].length = 2
      ∧ 2 ≤ [(0xE2 : Byte), 0x1B].length
      ∧ RequestCode.ofByte 0x00 = none ∧ RequestCode.ofByte 0xFF = none ∧ State.reset.takesAtOnce 1
      ∧ (State.reset.port 1).session = .offline ∧ part.takesAtOnce 1 ∧ (part.port 1).session = .online := by
  decide +kernel

theorem witness_HelloOpensASession :
    State.reset.takesAtOnce 3 ∧ part.takesAtOnce 3 ∧ (body 0).flags = 0 ∧ (body 0).payload = [] := by decide +kernel

theorem witness_GoodbyeIsAnsweredThenTearsDown :
    part.admits 3 .goodbye ∧ (body 0).flags = 0 ∧ (body 0).payload = []
      ∧ ((responding [⟨0x02, body 0⟩, ⟨0x01, body 0⟩] (answerTo (body 0) .ok 0 0)).port 2).sending
          = some (.answer (answerTo (body 0) .ok 0 0))
      ∧ ((responding [⟨0x02, body 0⟩, ⟨0x01, body 0⟩] (answerTo (body 0) .ok 0 0)).port 2).requests
          = ⟨0x02, body 0⟩ :: [⟨0x01, body 0⟩]
      ∧ (answerTo (body 0) .ok 0 0).status = .ok := by decide +kernel

/-- Port 3 given all rights by the greatest argument word, and port 0, the one GRANT port, given none. -/
theorem witness_GrantRightsReplacesOneSet :
    part.admits 0 .grantRights ∧ (0x0703 : Word) = BitVec.ofNat 32 ((3 : Port).val + 256 * (7 : Fin 8).val)
      ∧ (part.port 0).rights.grant = true ∧ (0 : Port) ≠ 3
      ∧ (0x0000 : Word) = BitVec.ofNat 32 ((0 : Port).val + 256 * (0 : Fin 8).val)
      ∧ ∀ r : Port, (if r = 0 then Rights.none else (part.port r).rights).grant = false := by decide +kernel

/-- An ONLINE port with the given notices and lost count. -/
def noticed (n lost : Nat) : State :=
  part.setPort 2 { on .none with notices := List.replicate n (.taskFreed 20 0), lost := lost, attention := n != 0 }

theorem witness_FetchNoticeTakesTheHead :
    (noticed 0 0).admits 2 .fetchNotice ∧ ((noticed 0 0).port 2).notices = []
      ∧ (noticed 1 0).admits 2 .fetchNotice ∧ ((noticed 1 0).port 2).notices = .taskFreed 20 0 :: []
      ∧ ((noticed 1 0).port 2).lost = 0
      ∧ (noticed 16 255).admits 2 .fetchNotice ∧ ((noticed 16 255).port 2).notices.length = 16
      ∧ ((noticed 16 255).port 2).lost ≠ 0 := by decide +kernel

theorem witness_PostsHaveThreeOutcomes :
    (State.reset.port 2).session = .offline
      ∧ ((noticed 15 0).port 2).session = .online ∧ ((noticed 15 0).port 2).notices.length < 16
      ∧ ((noticed 16 255).port 2).session = .online ∧ 16 ≤ ((noticed 16 255).port 2).notices.length
      ∧ ([0, 3] : List Port).Nodup := by decide +kernel

theorem witness_AttentionFollowsTheQueue :
    (∀ p, ((noticed 16 1).port p).notices.length ≤ 16 ∧ (((noticed 16 1).port p).attention = true ↔
        ((noticed 16 1).port p).session = .online ∧ ((noticed 16 1).port p).notices ≠ []))
      ∧ leaves (.fetchNotice 2 (body 0)) (noticed 16 1) fun _ => true := by decide +kernel

theorem witness_TeardownLeavesThePortOffline :
    (State.reset.port 1).session = .offline ∧ (failover111.port 1).session = .online
      ∧ (2 : Port) ≠ 1 ∧ (failover111.port 2).session = .online ∧ (failover111.claimOf 12).map (·.port) ≠ some 1
      ∧ (failover111.claimOf 9).map (·.port) = some 1 := by decide +kernel

/-- The parameters of the record below: two slots of one page, no data pages. -/
def small : List Byte := [1, 1, 0, 0, 1, 0, 0, 0, 0, 0, 0, 0, 0, 0, 0, 0]
def smallParams : Params :=
  { frameLimit := 1, framePages := 1, dataPages := 0, resumeMode := .restore, affinity := 1, watch := 0
    leasePeriod := 0, entryWord := 0 }

/-- Two FREE pages, just enough for it, or one, and a table full but for task 5, or full. -/
def twoFree : State := withPages part [7, 1023] free
def fullTable : State := { part with tasks := Vector.replicate 64 (some plain) }

theorem witness_DefineMakesAReadyTaskOrRefuses :
    twoFree.admits 0 .define ∧ (body 63 0 0 small).flags = 0 ∧ defineParams (body 63 0 0 small) = some smallParams
      ∧ taskOf (body 63 0 0 small).task = some 63 ∧ twoFree.task 63 = none
      ∧ defineParams (body 0xFF 0 0 small) = some smallParams ∧ (body 0xFF 0 0 small).task = 0xFF
      ∧ (twoFree.setTask 0 (some plain)).task 1 = none
      ∧ (∀ u < (1 : TaskNo), (twoFree.setTask 0 (some plain)).task u ≠ none)
      ∧ (1 + 1) * 1 + 0 = (twoFree.pagesWhere (·.state == .free)).length := by decide +kernel

theorem witness_DefineMakesAReadyTaskOrRefuses_refusals :
    fullTable.admits 0 .define ∧ defineParams (body 63 0 0 small) = some smallParams ∧ fullTable.task 63 ≠ none
      ∧ defineParams (body 0xFF 0 0 small) = some smallParams ∧ (∀ t, fullTable.task t ≠ none)
      ∧ (fullTable.setTask 63 none).admits 0 .define ∧ (fullTable.setTask 63 none).task 63 = none
      ∧ (withPages (fullTable.setTask 63 none) [9] free).admits 0 .define
      ∧ (withPages (fullTable.setTask 63 none) [9] free).countPages (·.state == .free) = 1 ∧ 1 < (1 + 1) * 1 + 0 := by
  decide +kernel

theorem witness_DiscardEmptiesTheRecord :
    discard151.admits 0 .discard ∧ (body 5).flags = 0 ∧ (body 5).payload = [] ∧ taskOf (body 5).task = some 5
      ∧ (∃ k, discard151.task 5 = some k ∧ k.state ≠ .running)
      ∧ discard151.task 8 = some (running (fresh 3 77)) ∧ (running (fresh 3 77)).state = .running :=
  ⟨by decide +kernel, rfl, rfl, rfl, ⟨_, rfl, by decide⟩, by decide +kernel, rfl⟩

/-- The payload of a RETUNE to a lease period of 60000. -/
def retuned : List Byte := [0, 0, 0, 1, 8, 8, 0x60, 0xEA, 1, 2, 3, 4, 0, 0, 0, 0]

theorem witness_RetuneReplacesTheParameters :
    (live).admits 0 .retune ∧ (body 9 0 0 retuned).flags = 0 ∧ (retuneParams (body 9 0 0 retuned)).isSome
      ∧ taskOf (body 9 0 0 retuned).task = some 9 ∧ (live).task 9 = some kept ∧ kept.op = none
      ∧ (live { kept with op := some (.dataRead 0 4 0 []) }).task 9
          = some { kept with op := some (.dataRead 0 4 0 []) } := by
  decide +kernel

theorem witness_QueryTaskReportsTheRecord :
    (live).admits 3 .queryTask ∧ (body 9).flags = 0 ∧ (body 9).payload = [] ∧ taskOf (body 9).task = some 9
      ∧ (live).task 9 = some kept := by decide +kernel

/-- A FAULTED task over a stack of one frame. -/
def broken : Machine.Task :=
  { kept with state := .faulted, claim := none, stack := [2], slots := [none', none', filled (frame 4 0 [31])] }

theorem witness_SalvageDropsTheDamagedFrame :
    (live broken).admits 0 .salvage ∧ (body 9).flags = 0 ∧ (body 9).payload = [] ∧ taskOf (body 9).task = some 9
      ∧ (live broken).task 9 = some broken ∧ broken.state = .faulted ∧ broken.stack = [] ++ [2]
      ∧ broken.frameIn 2 = some (frame 4 0 [31]) ∧ (live).task 9 = some kept ∧ kept.state ≠ .faulted := by
  decide +kernel

/-- A SUSPENDED task with a PRIMARY frame in slot 0, in the given mode and with the given frame limit. -/
def asleep (mode : ResumeMode) (limit : Nat) : Machine.Task :=
  { kept with state := .suspended, claim := none, stack := [0], slots := [filled (frame 4 0), none', none']
              resumeMode := mode, frameLimit := limit, affinity := 0b1000 }

theorem witness_ClaimsAreRefusedOrAnsweredAtOnce :
    (live (asleep .notify 1)).admits 3 .claim ∧ ((body 9).flags = 0 ∨ (body 9).flags = 1) ∧ (body 9).payload = []
      ∧ taskOf (body 9).task = some 9 ∧ (live (asleep .notify 1)).task 9 = some (asleep .notify 1)
      ∧ (live (asleep .notify 1)).admits 2 .claim ∧ ¬ (asleep .notify 1).affinity.getLsbD (2 : Port).val = true
      ∧ (asleep .notify 1).affinity.getLsbD (3 : Port).val = true
      ∧ broken.affinity.getLsbD (3 : Port).val = true ∧ broken.state = .faulted ∧ (live broken).task 9 = some broken
      ∧ kept.affinity.getLsbD (3 : Port).val = true ∧ kept.state = .running ∧ (live).task 9 = some kept
      ∧ plain.affinity.getLsbD (3 : Port).val = true ∧ plain.state = .ready ∧ (live plain).task 9 = some plain
      ∧ (asleep .notify 1).state = .suspended ∧ (asleep .notify 1).resumeMode = .notify
      ∧ (asleep .notify 1).stack = [] ++ [0] ∧ (asleep .notify 1).frameIn 0 = some (frame 4 0)
      ∧ (frame 4 0).origin = .primary ∧ (asleep .notify 1).stack.length = (asleep .notify 1).frameLimit
      ∧ (live (asleep .notify 2)).task 9 = some (asleep .notify 2)
      ∧ (asleep .notify 2).stack.length ≠ (asleep .notify 2).frameLimit := by decide +kernel

theorem witness_ClaimRestoringStartsADelivery :
    (live (asleep .restore 1)).admits 3 .claim ∧ (live (asleep .restore 1)).task 9 = some (asleep .restore 1)
      ∧ (asleep .restore 1).affinity.getLsbD (3 : Port).val = true ∧ (asleep .restore 1).state = .suspended
      ∧ (asleep .restore 1).stack = [] ++ [0] ∧ (asleep .restore 1).frameIn 0 = some (frame 4 0)
      ∧ (asleep .restore 1).resumeMode = .restore ∧ (asleep .restore 1).slotPage 0 0 = some 300
      ∧ ((live (asleep .restore 1)).page 300).poisoned = false
      ∧ (((live (asleep .restore 1)).onPage 300 Page.markPoisoned).page 300).poisoned = true := by decide +kernel

theorem witness_ReleaseEndsTheClaim :
    (live).admits 1 .release ∧ (body 9 510).flags = 0 ∧ (body 9 510).payload = [] ∧ taskOf (body 9 510).task = some 9
      ∧ (live).liveClaim 1 9 kept (fresh 1 510) (body 9 510).token := by decide +kernel

/-- One page is 1024 bytes: a frame of 1028 is longer than the slot, one of 1024 fits; slot 1 is the lowest EMPTY. -/
def halfFull : Machine.Task := { kept with slots := [filled (frame 4 0), none', none'], stack := [0] }

theorem witness_SuspendStartsAFill :
    (live halfFull).admits 1 .suspend ∧ (body 9 510 0 (List.replicate 1028 1)).payload.length = 1028
      ∧ 1028 > halfFull.framePages * 1024 ∧ 1028 ≤ 8192 ∧ 1028 % 4 = 0
      ∧ (body 9 510 0 (List.replicate 1024 1)).payload.length = 1024 ∧ 1024 ≤ halfFull.framePages * 1024
      ∧ 4 ≤ 1024 ∧ 1024 % 4 = 0
      ∧ (live halfFull).liveClaim 1 9 halfFull (fresh 1 510) (body 9 510).token
      ∧ halfFull.slots[1]? = some none' ∧ none'.status = .empty ∧ halfFull.slotPages[1]? = some [301]
      ∧ ∀ j < 1, ∀ y, halfFull.slots[j]? = some y → y.status ≠ .empty := by
  refine ⟨by decide +kernel, by decide +kernel, by decide, by decide, by decide, by decide +kernel, by decide, by decide,
    by decide, by decide +kernel, by decide, by decide, by decide, ?_⟩
  intro j hj y hy; obtain rfl : j = 0 := by omega
  cases hy; decide

theorem witness_RenewReloadsTheLease :
    (live).admits 1 .renew ∧ (body 9 510).payload = [] ∧ taskOf (body 9 510).task = some 9
      ∧ (live).liveClaim 1 9 kept (fresh 1 510) (body 9 510).token := by decide +kernel

/-- Claims for EVICT: none, OPENING, ACTIVE without a retained slot, and ACTIVE with one. -/
def opening : Claim := { fresh 1 510 with phase := .opening, startKind := .restored }
def keptOpening : Machine.Task := { asleep .restore 1 with state := .running, claim := some opening }
def keptRestored : Machine.Task :=
  { kept with claim := some (restored 1 510 0), slots := [retained (frame 4 0 [31]), none', none'] }

theorem witness_EvictEndsTheClaim :
    (live).admits 0 .evict ∧ (body 9).flags = 0 ∧ (body 9).payload = [] ∧ taskOf (body 9).task = some 9
      ∧ (live plain).admits 0 .evict ∧ (live plain).task 9 = some plain ∧ plain.state ≠ .running
      ∧ (live keptOpening).task 9 = some keptOpening ∧ keptOpening.state = .running
      ∧ keptOpening.claim = some opening ∧ opening.phase = .opening
      ∧ (live).task 9 = some kept ∧ kept.claim = some (fresh 1 510) ∧ (fresh 1 510).phase = .active
      ∧ (fresh 1 510).retained = none
      ∧ (live keptRestored).task 9 = some keptRestored ∧ keptRestored.claim = some (restored 1 510 0)
      ∧ (restored 1 510 0).retained = some 0 ∧ keptRestored.frameIn 0 = some (frame 4 0 [31])
      ∧ keptRestored.op = none := by decide +kernel

/-- Task 9 with an operation in flight, and port 1's head request the one that started it. -/
def busy (k : Machine.Task) (o : Op) (c : RequestCode) : State :=
  granted (withHead (live { k with op := some o }) 1 c (body 9 510)) 1

/-- The head request of port 1 in `busy`, by code. -/
def headOf (c : RequestCode) : Request := ⟨c.byte, body 9 510⟩

/-- Each clause, at rest and with an operation in flight. -/
theorem witness_AbnormalEndsInSteps :
    (live).task 9 = some kept ∧ kept.claim = some (fresh 1 510) ∧ kept.op = none ∧ (fresh 1 510).phase = .active
      ∧ (fresh 1 510).retained = none
      ∧ ((busy kept (.fill 0 0 0 [1] true) .suspend).port (fresh 1 510).port).requests.head? = some (headOf .suspend)
      ∧ (busy kept (.fill 0 0 0 [1] true) .suspend).task 9 = some { kept with op := some (.fill 0 0 0 [1] true) }
      ∧ (busy kept (.dataWrite 0 [1] 0 0) .dataWrite).task 9 = some { kept with op := some (.dataWrite 0 [1] 0 0) }
      ∧ keptOpening.claim = some opening ∧ opening.phase = .opening
      ∧ ((busy keptOpening (.delivery 0 0 []) .claim).port opening.port).requests.head? = some (headOf .claim)
      ∧ (busy keptOpening (.delivery 0 0 []) .claim).task 9 = some { keptOpening with op := some (.delivery 0 0 []) }
      ∧ (live keptRestored).task 9 = some keptRestored ∧ keptRestored.claim = some (restored 1 510 0)
      ∧ keptRestored.op = none ∧ (restored 1 510 0).phase = .active ∧ (restored 1 510 0).retained = some 0
      ∧ keptRestored.frameIn 0 = some (frame 4 0 [31])
      ∧ ((busy keptRestored (.fill 1 0 0 [1] true) .suspend).port (restored 1 510 0).port).requests.head?
          = some (headOf .suspend)
      ∧ (busy keptRestored (.fill 1 0 0 [1] true) .suspend).task 9
          = some { keptRestored with op := some (.fill 1 0 0 [1] true) } ∧ 1 ≠ 0 := by decide +kernel

/-- No transfer under way where port 2 holds the path; a fill beyond its slot's pages has none to write. -/
theorem witness_AbortsLeaveWhatTheTableSays :
    (busy kept (.fill 0 0 0 [1] false) .suspend).task 9 = some { kept with op := some (.fill 0 0 0 [1] false) }
      ∧ kept.claim = some (fresh 1 510)
      ∧ (busy kept (.dataWrite 0 [1] 0 0) .dataWrite).task 9 = some { kept with op := some (.dataWrite 0 [1] 0 0) }
      ∧ (Op.dataWrite 0 [1] 0 0).kind ≠ .fill ∧ (Op.fill 0 0 0 [1] false).kind = .fill
      ∧ ((kept.slotPages[0]?).getD []).Nodup
      ∧ (granted (busy kept (.fill 0 0 0 [1] false) .suspend) 2).path ≠ some (.port (fresh 1 510).port)
      ∧ (busy kept (.fill 0 0 0 [1] false) .suspend).path = some (.port (fresh 1 510).port)
      ∧ kept.slotPage 0 0 = some 300 ∧ kept.slotPage 0 1 = none := by decide +kernel

theorem witness_ReinstatementReconcilesTheLocks :
    (live keptRestored).task 9 = some keptRestored ∧ keptRestored.frameIn 0 = some (frame 4 0 [31]) := by decide +kernel

theorem witness_PeekFrameStartsAPeek :
    (live halfFull).admits 1 .peekFrame ∧ (body 9 510 1).arg.toNat = halfFull.stack.length
      ∧ taskOf (body 9 510 1).task = some 9 ∧ (live halfFull).liveClaim 1 9 halfFull (fresh 1 510) (body 9 510 1).token
      ∧ (body 9 510 7).arg.toNat ≤ 7 ∧ halfFull.stack[(body 9 510 0).arg.toNat]? = some 0
      ∧ halfFull.frameIn 0 = some (frame 4 0) ∧ halfFull.slotPage 0 0 = some 300
      ∧ ((live halfFull).page 300).poisoned = false ∧ halfFull.op = none
      ∧ (((live halfFull).onPage 300 Page.markPoisoned).page 300).poisoned = true := by decide +kernel

/-- Offset 2044 and length 4 end the area of two pages; length 8 goes beyond it. -/
theorem witness_DataReadStartsARead :
    (live).admits 1 .dataRead ∧ operandsOk (body 9 510 0x000407FC) .dataRead = true
      ∧ taskOf (body 9 510 0x000407FC).task = some 9
      ∧ (live).liveClaim 1 9 kept (fresh 1 510) (body 9 510 0x000407FC).token
      ∧ (0x000407FC : Word).toNat % 65536 + (0x000407FC : Word).toNat / 65536 = kept.dataPages * 1024
      ∧ operandsOk (body 9 510 0x000807FC) .dataRead = true
      ∧ (0x000807FC : Word).toNat % 65536 + (0x000807FC : Word).toNat / 65536 > kept.dataPages * 1024
      ∧ kept.dataPage 1 = some 311 ∧ ((live).page 311).poisoned = false
      ∧ (((live).onPage 311 Page.markPoisoned).page 311).poisoned = true := by decide +kernel

theorem witness_DataReadStartsARead_covered :
    ∀ part, (2044 / 1024 ≤ part ∧ part ≤ (2044 + 4 - 1) / 1024) →
      (∀ n, kept.dataPage part = some n → ((live).page n).poisoned = false) ∧ ∀ j < part, ¬ 2044 / 1024 ≤ j := by
  intro part h
  obtain rfl : part = 1 := by omega
  exact ⟨fun n hn => by cases hn; decide +kernel, by omega⟩

/-- A write of 4 bytes at offset 2044 covers part 1 partly; 8 bytes there go beyond the area. -/
theorem witness_DataWriteStartsAWrite :
    (live).admits 1 .dataWrite ∧ operandsOk (body 9 510 2044 [1, 2, 3, 4]) .dataWrite = true
      ∧ taskOf (body 9 510 2044 [1, 2, 3, 4]).task = some 9
      ∧ (live).liveClaim 1 9 kept (fresh 1 510) (body 9 510 2044 [1, 2, 3, 4]).token
      ∧ 2044 + [1, 2, 3, 4].length = kept.dataPages * 1024
      ∧ operandsOk (body 9 510 2044 [1, 2, 3, 4, 5, 6, 7, 8]) .dataWrite = true
      ∧ 2044 + [1, 2, 3, 4, 5, 6, 7, 8].length > kept.dataPages * 1024
      ∧ kept.dataPage 1 = some 311 ∧ ((live).page 311).poisoned = false
      ∧ (((live).onPage 311 Page.markPoisoned).page 311).poisoned = true := by decide +kernel

theorem witness_DataWriteStartsAWrite_covered :
    ∀ part, (2044 / 1024 ≤ part ∧ part ≤ (2044 + 4 - 1) / 1024
        ∧ ¬ (2044 ≤ 1024 * part ∧ 1024 * part + 1024 ≤ 2044 + 4)) →
      (∀ n, kept.dataPage part = some n → ((live).page n).poisoned = false) ∧ ∀ j < part, ¬ 2044 / 1024 ≤ j := by
  intro part h
  obtain rfl : part = 1 := by omega
  exact ⟨fun n hn => by cases hn; decide +kernel, by omega⟩

/-- The 32 locks with one record. -/
def allLocks (k : Lock) : State := { part with locks := Vector.replicate 32 k }

theorem witness_LocksAreAllocatedAndReturned :
    (body 0 0 31).flags = 0 ∧ (body 0 0 31).payload = [] ∧ part.admits 0 .lockNew ∧ (part.lock 0).state = .unallocated
      ∧ (∀ j < (0 : LockNo), (part.lock j).state ≠ .unallocated)
      ∧ (∀ l, ((allLocks (heldLock (.frame 9 0))).lock l).state ≠ .unallocated)
      ∧ (allLocks (heldLock (.frame 9 0))).admits 0 .lockNew
      ∧ ((allLocks (heldLock (.frame 9 0))).setLock 31 .unallocated).admits 0 .lockNew
      ∧ (((allLocks (heldLock (.frame 9 0))).setLock 31 .unallocated).lock 31).state = .unallocated
      ∧ (∀ j < (31 : LockNo),
          (((allLocks (heldLock (.frame 9 0))).setLock 31 .unallocated).lock j).state ≠ .unallocated)
      ∧ lockOf (body 0 0 31).arg = some 31
      ∧ (part.setLock 31 { Lock.unallocated with state := .free }).admits 0 .lockReturn
      ∧ ((part.setLock 31 { Lock.unallocated with state := .free }).lock 31).state = .free
      ∧ (allLocks (heldLock (.frame 9 0))).admits 0 .lockReturn
      ∧ ((allLocks (heldLock (.frame 9 0))).lock 31).state = .held := by decide +kernel

/-- Task 9's claim and lock 31 with the given record. -/
def withLock (k : Lock) : State := (live).setLock 31 k

theorem witness_TakesFollowTheHolder :
    (live).admits 1 .take ∧ (body 9 510 31).flags = 0 ∧ (body 9 510 31).payload = []
      ∧ taskOf (body 9 510 31).task = some 9 ∧ lockOf (body 9 510 31).arg = some 31
      ∧ (live).liveClaim 1 9 kept (fresh 1 510) (body 9 510 31).token
      ∧ ((withLock { Lock.unallocated with state := .free }).lock 31).state = .free
      ∧ ((withLock (heldLock (.claim 9 510))).lock 31).holder = some (.claim 9 510)
      ∧ ((withLock (heldLock (.frame 9 0))).lock 31).holder = some (.frame 9 0)
      ∧ ((withLock (heldLock (.frame 8 0))).lock 31).holder = some (.frame 8 0) ∧ (Holder.frame 8 0).task ≠ 9
      ∧ ⟨9, 510⟩ ∈ ((withLock (heldLock (.frame 8 0) [⟨9, 510⟩])).lock 31).waiters
      ∧ ((withLock (heldLock (.frame 8 0) (List.replicate 8 ⟨7, 1⟩))).lock 31).waiters.length = 8
      ∧ ((withLock (heldLock (.frame 8 0) (List.replicate 7 ⟨7, 1⟩))).lock 31).waiters.length = 7
      ∧ (∀ j, (⟨9, 510⟩ : Waiter) ∉ ((withLock (heldLock (.frame 8 0) (List.replicate 8 ⟨7, 1⟩))).lock j).waiters)
      ∧ ∀ j, (⟨9, 510⟩ : Waiter) ∉ ((withLock (heldLock (.frame 8 0) (List.replicate 7 ⟨7, 1⟩))).lock j).waiters := by
  decide +kernel

theorem witness_WithdrawAndGive :
    (live).liveClaim 1 9 kept (fresh 1 510) (body 9 510 31).token ∧ (live).admits 1 .withdraw
      ∧ (∀ l, (⟨9, 510⟩ : Waiter) ∉ ((live).lock l).waiters)
      ∧ (withLock (heldLock (.frame 8 0) [⟨9, 510⟩])).admits 1 .withdraw
      ∧ (⟨9, 510⟩ : Waiter) ∈ ((withLock (heldLock (.frame 8 0) [⟨9, 510⟩])).lock 31).waiters
      ∧ (∀ j < (31 : LockNo), (⟨9, 510⟩ : Waiter) ∉ ((withLock (heldLock (.frame 8 0) [⟨9, 510⟩])).lock j).waiters)
      ∧ (withLock (heldLock (.claim 9 510))).admits 1 .give ∧ lockOf (body 9 510 31).arg = some 31
      ∧ ((withLock (heldLock (.claim 9 510))).lock 31).state = .held
      ∧ ((withLock (heldLock (.claim 9 510))).lock 31).holder = some (.claim 9 510)
      ∧ ((withLock (heldLock (.frame 9 0))).lock 31).state ≠ .unallocated
      ∧ ((withLock (heldLock (.frame 9 0))).lock 31).holder ≠ some (.claim 9 510) := by decide +kernel

theorem witness_QueriesOfLocksAndMemory :
    (withLock (heldLock (.claim 9 510))).admits 3 .queryLock ∧ lockOf (body 0 0 31).arg = some 31
      ∧ ((withLock (heldLock (.claim 9 510))).lock 31).state ≠ .unallocated ∧ (live).admits 3 .queryMemory := by
  decide +kernel

theorem witness_GiveUpPassesLocksOn : ([0, 31] : LockSet).Nodup := by decide

theorem witness_MoveAndWithdrawCommute : (Holder.claim 9 510).task = (Holder.frame 9 0).task := rfl

theorem witness_PagesAreMarkedQueuedAndReleased :
    ([0, 1023] : List PageNo).Nodup ∧ (live).task 9 = some kept ∧ kept.slotPages[2]? = some [302]
      ∧ ([302] : List PageNo).Nodup := by decide +kernel

/-- Nobody waits in the part at rest; with the scrubber and two ports waiting, port 0 comes next after the scrubber. -/
theorem witness_ArbiterGrantsInRotation :
    (granted part 1).path ≠ none ∧ ({ part with frst := true } : State).frst = true
      ∧ part.waits .scrubber = false ∧ (∀ p, part.waits (.port p) = false)
      ∧ twoReads.path = none ∧ twoReads.frst = false ∧ twoReads.waits (.port 0) = true
      ∧ ({ twoReads with scrubbing := some 700 } : State).waits .scrubber = true
      ∧ (∀ p, twoReads.waits (.port p) = true →
          twoReads.pointer.turnsAfter (.port 0) ≤ twoReads.pointer.turnsAfter (.port p)) := by decide +kernel

/-- A frame of 1028 bytes lies in two parts: the read of part 0 goes on to part 1, and that of part 1 is the last. -/
def longFrame : Machine.Task :=
  { keptOpening with framePages := 2, slotPages := [[300, 301], [302, 303]], slots := [filled (frame 1028 0), none'] }

theorem witness_DeliveryMovesOnePartAtATime :
    (busy longFrame (.delivery 0 0 []) .claim).moving 1 (headOf .claim) 9
        { longFrame with op := some (.delivery 0 0 []) } opening (.delivery 0 0 [])
      ∧ (busy longFrame (.delivery 0 1 []) .claim).moving 1 (headOf .claim) 9
        { longFrame with op := some (.delivery 0 1 []) } opening (.delivery 0 1 [])
      ∧ longFrame.frameIn 0 = some (frame 1028 0) ∧ longFrame.slotPage 0 0 = some 300
      ∧ longFrame.slotPage 0 (0 + 1) = some 301 ∧ 0 < ((frame 1028 0).length - 1) / 1024
      ∧ 1 = ((frame 1028 0).length - 1) / 1024 ∧ longFrame.stack = [] ++ [0] := by decide +kernel

theorem witness_FillWritesOnePageAtATime :
    (busy { kept with framePages := 2, slotPages := [[300, 301]] } (.fill 0 0 7 [1] true) .suspend).moving 1
        (headOf .suspend) 9
        { kept with framePages := 2, slotPages := [[300, 301]], op := some (.fill 0 0 7 [1] true) }
        (fresh 1 510) (.fill 0 0 7 [1] true)
      ∧ 0 + 1 < 2 ∧ (headOf .suspend).code = RequestCode.suspend.byte
      ∧ (busy kept (.fill 0 0 7 [1] true) .suspend).moving 1 (headOf .suspend) 9
        { kept with op := some (.fill 0 0 7 [1] true) } (fresh 1 510) (.fill 0 0 7 [1] true)
      ∧ kept.framePages = 0 + 1 ∧ kept.slotPage 0 0 = some 300 := by decide +kernel

theorem witness_PeekMovesOnePartAtATime :
    (busy { longFrame with claim := some (fresh 1 510) } (.peek 0 0 0 []) .peekFrame).moving 1 (headOf .peekFrame) 9
        { longFrame with claim := some (fresh 1 510), op := some (.peek 0 0 0 []) } (fresh 1 510) (.peek 0 0 0 [])
      ∧ (busy { longFrame with claim := some (fresh 1 510) } (.peek 0 0 1 []) .peekFrame).moving 1 (headOf .peekFrame) 9
        { longFrame with claim := some (fresh 1 510), op := some (.peek 0 0 1 []) } (fresh 1 510) (.peek 0 0 1 [])
      ∧ (headOf .peekFrame).code = RequestCode.peekFrame.byte ∧ longFrame.frameIn 0 = some (frame 1028 0)
      ∧ longFrame.slotPage 0 0 = some 300 ∧ longFrame.slotPage 0 1 = some 301
      ∧ 1 = ((frame 1028 0).length - 1) / 1024 := by decide +kernel

theorem witness_DataReadMovesOnePartAtATime :
    (busy kept (.dataRead 1020 8 0 []) .dataRead).moving 1 (headOf .dataRead) 9
        { kept with op := some (.dataRead 1020 8 0 []) } (fresh 1 510) (.dataRead 1020 8 0 [])
      ∧ (busy kept (.dataRead 1020 8 1 []) .dataRead).moving 1 (headOf .dataRead) 9
        { kept with op := some (.dataRead 1020 8 1 []) } (fresh 1 510) (.dataRead 1020 8 1 [])
      ∧ (headOf .dataRead).code = RequestCode.dataRead.byte ∧ kept.dataPage 0 = some 310 ∧ kept.dataPage 1 = some 311
      ∧ 1 ≤ 8 ∧ 1020 / 1024 ≤ 0 ∧ 0 < (1020 + 8 - 1) / 1024 ∧ 1 = (1020 + 8 - 1) / 1024 := by decide +kernel

/-- A write at 1020 of 8 bytes covers two parts partly; one of 1024 bytes at 0 covers part 0 in full. -/
theorem witness_DataWriteMovesOnePageAtATime :
    (busy kept (.dataWrite 1020 [1, 2, 3, 4, 5, 6, 7, 8] 0 0) .dataWrite).moving 1 (headOf .dataWrite) 9
        { kept with op := some (.dataWrite 1020 [1, 2, 3, 4, 5, 6, 7, 8] 0 0) } (fresh 1 510)
        (.dataWrite 1020 [1, 2, 3, 4, 5, 6, 7, 8] 0 0)
      ∧ (busy kept (.dataWrite 0 (List.replicate 1024 1) 0 0) .dataWrite).moving 1 (headOf .dataWrite) 9
        { kept with op := some (.dataWrite 0 (List.replicate 1024 1) 0 0) } (fresh 1 510)
        (.dataWrite 0 (List.replicate 1024 1) 0 0)
      ∧ (headOf .dataWrite).code = RequestCode.dataWrite.byte ∧ kept.dataPage 0 = some 310
      ∧ 1020 / 1024 ≤ 0 ∧ 0 < (1020 + 8 - 1) / 1024
      ∧ ¬ (max 1020 (1024 * 0) = 1024 * 0 ∧ min (1020 + 8) (1024 * 0 + 1024) = 1024 * 0 + 1024)
      ∧ max 0 (1024 * 0) = 1024 * 0 ∧ min (0 + 1024) (1024 * 0 + 1024) = 1024 * 0 + 1024
      ∧ 0 = (0 + 1024 - 1) / 1024 := by decide +kernel

theorem witness_ScrubberTakesAndSettlesPages :
    ({ part with scrubQueue := [3] } : State).frst = false ∧ ({ part with scrubQueue := [3] } : State).scrubbing = none
      ∧ part.scrubQueue = [] ∧ ({ part with path := some .scrubber } : State).path = some .scrubber
      ∧ ({ part with scrubbing := some 1023 } : State).scrubbing = some 1023 := by decide +kernel

theorem witness_LeasesFallAndExpire :
    (lapse48.claimOf 22) = some { restored 1 700 1 with lease := some 1, expiryDue := true }
      ∧ (∀ c, lapse48.claimOf 40 = some c → c.lease = none ∨ c.expiryDue = false) := by
  refine ⟨by decide +kernel, fun c h => ?_⟩
  obtain rfl : fresh 0 640 = c := by
    have : lapse48.claimOf 40 = some (fresh 0 640) := by decide +kernel
    exact Option.some.inj (this.symm.trans h)
  exact .inl rfl

theorem witness_ResetsLeaveTheirValues :
    ((part.onPort 1 PortRecord.cutOff).port 1).held = true ∧ (part.port 1).held = false
      ∧ ({ part with frst := true } : State).frst = true ∧ part.frst = false := by decide +kernel

end Sys2Proof.Tests
end

/-! SUPPORT. The abnormal end of a claim in its steps: what each step reads of the steps before it, and the steps put
together. -/

namespace Sys2Proof.Laws

open Sys2Proof Sys2Proof.Machine

/-! ### The record and the frames that step 1 leaves -/

/-- A task whose claim is removed is READY with an empty stack and otherwise SUSPENDED (R3). -/
theorem endClaim_eq (k : Task) : k.endClaim =
    { k with claim := none, op := none, state := if k.stack = [] then .ready else .suspended } := by
  simp [Task.endClaim, Task.restState]

/-- An abort leaves the frame of every slot but the one an aborted fill was filling. -/
theorem abortedTask_frameIn {k : Task} {slot : Nat}
    (h : ∀ a b w bytes x, k.op = some (.fill a b w bytes x) → a ≠ slot) :
    (abortedTask k).frameIn slot = k.frameIn slot := by
  simp only [abortedTask]
  split
  · next a b w bytes x ho => simp [Task.frameIn, Task.withSlot, List.getElem?_set_ne (h a b w bytes x ho)]
  · rfl
  · rfl

/-- The task's record after steps 1 and 2. -/
theorem aborted_withdrawn_task {s : State} {t : TaskNo} {k : Task} {c : Claim} (w : Waiter) (hk : s.task t = some k)
    (hc : k.claim = some c) : ((s.abortOp t).withdraw w).task t = some (abortedTask k) := by
  rw [withdraw_task, abortOp_tasks hk hc, if_pos rfl]

/-- Steps 1 and 2 leave every lock's holder, and so what each holder holds. -/
theorem heldBy_aborted_withdrawn (s : State) (t : TaskNo) (w : Waiter) (h : Holder) :
    ((s.abortOp t).withdraw w).heldBy h = s.heldBy h := by
  have locks : ∀ l, (s.abortOp t).lock l = s.lock l := fun l => by simp only [State.lock, abortOp_locks]
  have holder : ∀ l, (((s.abortOp t).withdraw w).lock l).holder = (s.lock l).holder := fun l => by
    rw [withdraw_lock, ← locks l]
    split <;> rfl
  simp only [State.heldBy, holder]

/-! ### Steps 4 and 5 and the answer -/

/-- The depth that TASK-FREED tells is the stack's height after step 3. -/
theorem depthOf_endClaim {s : State} {t : TaskNo} {k : Task} (h : s.task t = some k) :
    (s.onTask t Task.endClaim).depthOf t = k.stack.length := by
  simp [State.depthOf, onTask_task, h, Task.depth, Task.endClaim]

/-- Without an aborted operation, or after a teardown, nothing is answered. -/
theorem answerAborted_silent {s : State} {c : Claim} {op : Option Op} {cause : EndCause}
    (h : op = none ∨ cause = .portDown) : s.answerAborted c op cause = s := by
  obtain rfl | rfl := h
  · cases cause <;> rfl
  · cases op <;> rfl

/-- The request at the head of the claim's port is answered ABORTED, with the claim's token and what Table 4-3 gives for
the operation, unless the port is being torn down. -/
theorem answerAborted_of_head {s : State} {c : Claim} {o : Op} {q : Request} {cause : EndCause}
    (hcause : cause ≠ .portDown) (h : (s.port c.port).requests.head? = some q) :
    s.answerAborted c (some o) cause =
      s.respond c.port (answerTo q.ops .aborted c.token o.abortResult .none o.abortNotes) := by
  have head := respondHead_of_head h (abortedReply c o)
  cases cause with
  | evicted => exact head
  | lapsed => exact head
  | portDown => exact absurd rfl hcause

/-- The head request of every port is the same after the notices as before the end. -/
theorem endNotices_head {s v : State} (same : SameLines s v) (t : TaskNo) (watch : PortSet) (owner : Port)
    (cause : EndCause) (depth : Nat) (p : Port) :
    (((v.onTask t Task.endClaim).endNotices t watch owner cause depth).port p).requests.head?
      = (s.port p).requests.head? := by
  have all := (same.trans (same_onTask v t Task.endClaim)).trans (told_endNotices _ t watch owner cause depth).same
  obtain ⟨_, _, head, _⟩ := all.lines p
  exact head

/-- The abnormal end from the state v that its first three steps leave. -/
theorem abnormalEnd_of_endLocks {s v : State} {t : TaskNo} {k k' : Task} {c : Claim} (cause : EndCause)
    (hk : s.task t = some k) (hc : k.claim = some c)
    (hv : ((s.abortOp t).withdraw ⟨t, c.token⟩).endLocks t c = v) (hk' : v.task t = some k') :
    s.abnormalEnd t cause =
      ((v.onTask t Task.endClaim).endNotices t k.watch c.port cause k'.stack.length).answerAborted c k.op cause := by
  simp only [State.abnormalEnd, hk, hc, hv, depthOf_endClaim hk']

/-- The first three steps leave the ports' lines. -/
theorem same_firstSteps (s : State) (t : TaskNo) (w : Waiter) (c : Claim) :
    SameLines s (((s.abortOp t).withdraw w).endLocks t c) :=
  ((same_abortOp s t).trans (told_withdraw ..).same).trans (same_endLocks ..)

/-- Settles O39: the three kinds of claim differ in step 3 alone, so each clause gives the task's record after that step
and leaves the rest to one argument about the notices and the answer. -/
theorem abnormalEndsInSteps : Obligations.AbnormalEndsInSteps := by
  unfold Obligations.AbnormalEndsInSteps
  intro s t k c q cause hk hc hq s1 rest aborted answered notices
  have hs1 : s1.task t = some (abortedTask k) := aborted_withdrawn_task _ hk hc
  have hrest : rest = Task.endClaim := (funext endClaim_eq).symm
  obtain ⟨hstack, _⟩ := abortedTask_rest k
  have fromStep3 : ∀ (v : State) (k' : Task), s1.endLocks t c = v → v.task t = some k' →
      s.abnormalEnd t cause = answered (notices (v.onTask t rest) k'.stack.length) := by
    intro v k' hv hk'
    have same : SameLines s v := hv ▸ same_firstSteps s t _ c
    have told : ∀ u d, u.endNotices t k.watch c.port cause d = notices u d := by
      intro u d; cases cause <;> rfl
    rw [abnormalEnd_of_endLocks cause hk hc hv hk', hrest, ← told]
    have head := endNotices_head same t k.watch c.port cause k'.stack.length c.port
    simp only [answered]
    cases ho : k.op with
    | none => exact answerAborted_silent (.inl rfl)
    | some o =>
      have sent := fun hcause => answerAborted_of_head (o := o) (cause := cause) hcause (head.trans (hq (by simp [ho])))
      cases cause with
      | portDown => exact answerAborted_silent (.inr rfl)
      | evicted => rw [sent (by simp)]; cases o <;> rfl
      | lapsed => rw [sent (by simp)]; cases o <;> rfl
  refine ⟨fun hp => ?_, fun hp hr => ?_, fun slot f hp hr hf hfill => ?_⟩
  · have step3 : s1.endLocks t c = s1 := by simp only [State.endLocks, hp]
    rw [fromStep3 _ _ step3 hs1, hstack]
  · have step3 : s1.endLocks t c = s1.giveUpAll (s.heldBy (.claim t c.token)) := by
      simp only [State.endLocks, hp, hr, s1, heldBy_aborted_withdrawn]
    rw [fromStep3 _ _ step3 ((giveUpAll_task ..).trans hs1), hstack]
  · have step3 : s1.endLocks t c = s1.reinstate t c.token slot := by simp only [State.endLocks, hp, hr]
    have hk' := (reinstate_tasks c.token hs1 ((abortedTask_frameIn hfill).trans hf) t).trans (if_pos rfl)
    rw [fromStep3 _ _ step3 hk']
    simp only [List.length_append, List.length_singleton, hstack]

end Sys2Proof.Laws

/-! SUPPORT. The lock requests of a live claim: how each runs once its checks are passed, what it does with the lock by
its holder, and the lock on which a claim waits. -/

namespace Sys2Proof.Laws

open Sys2Proof Sys2Proof.Machine

/-! ### The lock on which a claim waits (R94) -/

theorem waitOf_eq_none_iff {s : State} {w : Waiter} : s.waitOf w = none ↔ ∀ l, w ∉ (s.lock l).waiters := by
  simp [State.waitOf]

theorem waitOf_isSome_iff {s : State} {w : Waiter} : (s.waitOf w).isSome ↔ ∃ l, w ∈ (s.lock l).waiters := by
  simp [State.waitOf]

/-- The lowest lock in whose list the entry stands is the one found. -/
theorem waitOf_of_first {s : State} {w : Waiter} {l : LockNo} (h : w ∈ (s.lock l).waiters)
    (first : ∀ j < l, w ∉ (s.lock j).waiters) : s.waitOf w = some l := by
  refine List.find?_eq_some_iff_getElem.2 ⟨by simpa using h, l.val, by simp, by simp, fun j hj => ?_⟩
  simpa using first ⟨j, by omega⟩ hj

/-- The withdrawal procedure for a claim that waits on lock l. -/
theorem withdraw_of_waitOf {s : State} {w : Waiter} {l : LockNo} (h : s.waitOf w = some l) :
    s.withdraw w = s.setLock l { s.lock l with waiters := (s.lock l).waiters.erase w } := by
  simp [State.withdraw, h]

/-! ### Answers -/

theorem token_of_live {s : State} {p : Port} {t : TaskNo} {k : Machine.Task} {c : Claim} {token : Half}
    (hl : s.liveClaim p t k c token) : c.token = token := by
  obtain ⟨_, _, _, _, htok⟩ := hl
  exact htok

/-- An answer to a token-bearing request carries the token of the claim it was made for (R157). -/
theorem reply_to_claim {q : Request} {r : RequestCode} {c : Claim} (hq : q.code = r.byte)
    (hr : r.tokenBearing = true) (htok : c.token = q.ops.token) (st : Status) :
    reply q st = answerTo q.ops st c.token 0 := by
  simp [reply, answerTo, echoToken_of_code hq, hr, htok, Notes.none]

/-! ### A lock by its holder (Table 5-4, R103) -/

/-- What TAKE-WAIT does with a lock held elsewhere, the case that `State.takeLock` leaves to it (cases 4 to 6 of
R103). -/
def joinWaiters (p : Port) (q : Request) (s : State) (t : TaskNo) (c : Claim) (l : LockNo) : State :=
  if (s.waitOf ⟨t, c.token⟩).isSome then s.answerClaim p t (reply q .alreadyWaiting)
  else if (s.lock l).waiters.length ≥ Config.waiterMax then s.answerClaim p t (reply q .waitFull)
  else
    (s.setLock l { s.lock l with waiters := (s.lock l).waiters ++ [⟨t, c.token⟩] }).answerClaim p t
      { reply q .queued with result := halves l.val ((s.lock l).waiters.length + 1) }

section Answers

variable {s e : State} {p : Port} {q : Request} {r : RequestCode} {t : TaskNo} {c : Claim} {l : LockNo}

/-- A lock held by another task's claim or frame is the case left to each request. -/
theorem takeLock_of_elsewhere {h : Holder} (hs : (s.lock l).state = .held) (hh : (s.lock l).holder = some h)
    (ht : h.task ≠ t) : s.takeLock p q t c l e = e := by
  cases h with
  | claim u x =>
    have hne : u ≠ t := ht
    simp [State.takeLock, hs, hh, hne]
  | frame u slot =>
    have hne : u ≠ t := ht
    simp [State.takeLock, hs, hh, hne]

variable (hq : q.code = r.byte) (hr : r.tokenBearing = true) (htok : c.token = q.ops.token)

include hq hr htok

theorem takeLock_of_free (hs : (s.lock l).state = .free) :
    s.takeLock p q t c l e =
      ((s.onTask t Task.loadLease).setLock l ((s.lock l).takenBy (.claim t c.token))).respond p
        (answerTo q.ops .ok c.token (halves l.val 0)) := by
  simp only [State.takeLock, hs, if_true, reply_to_claim hq hr htok]
  rfl

theorem takeLock_of_own (hs : (s.lock l).state = .held) (hh : (s.lock l).holder = some (.claim t c.token)) :
    s.takeLock p q t c l e =
      (s.onTask t Task.loadLease).respond p
        { answerTo q.ops .ok c.token (halves l.val 0) with notes := ⟨true, false⟩ } := by
  simp only [State.takeLock, hs, hh, if_true, reduceCtorEq, if_false, reply_to_claim hq hr htok]
  rfl

theorem takeLock_of_ownFrame {slot : Nat} (hs : (s.lock l).state = .held)
    (hh : (s.lock l).holder = some (.frame t slot)) :
    s.takeLock p q t c l e = (s.onTask t Task.loadLease).respond p (answerTo q.ops .ownFrame c.token 0) := by
  simp only [State.takeLock, hs, hh, if_true, reduceCtorEq, if_false, Option.some.injEq, reply_to_claim hq hr htok]
  rfl

theorem joinWaiters_of_waiting (hw : ∃ j, (⟨t, c.token⟩ : Waiter) ∈ (s.lock j).waiters) :
    joinWaiters p q s t c l =
      (s.onTask t Task.loadLease).respond p (answerTo q.ops .alreadyWaiting c.token 0) := by
  simp only [joinWaiters, waitOf_isSome_iff.2 hw, if_true, reply_to_claim hq hr htok]
  rfl

theorem joinWaiters_of_full (hw : ¬ ∃ j, (⟨t, c.token⟩ : Waiter) ∈ (s.lock j).waiters)
    (hl : 8 ≤ (s.lock l).waiters.length) :
    joinWaiters p q s t c l = (s.onTask t Task.loadLease).respond p (answerTo q.ops .waitFull c.token 0) := by
  simp only [joinWaiters, waitOf_isSome_iff, hw, if_false, Config.waiterMax, ge_iff_le, hl, if_true,
    reply_to_claim hq hr htok]
  rfl

theorem joinWaiters_of_room (hw : ¬ ∃ j, (⟨t, c.token⟩ : Waiter) ∈ (s.lock j).waiters)
    (hl : (s.lock l).waiters.length < 8) :
    joinWaiters p q s t c l =
      ((s.onTask t Task.loadLease).setLock l
        { s.lock l with waiters := (s.lock l).waiters ++ [⟨t, c.token⟩] }).respond p
        (answerTo q.ops .queued c.token (halves l.val ((s.lock l).waiters.length + 1))) := by
  simp only [joinWaiters, waitOf_isSome_iff, hw, if_false, Config.waiterMax, ge_iff_le, Nat.not_le.2 hl,
    reply_to_claim hq hr htok]
  rfl

end Answers

/-! ### The lock requests of a live claim -/

section Live

variable {s : State} {p : Port} {q : Request} {t : TaskNo} {k : Machine.Task} {c : Claim} {l : LockNo}
  (ht : taskOf q.ops.task = some t) (hl : s.liveClaim p t k c q.ops.token)

include ht hl

theorem takeTake_of_live (hk : lockOf q.ops.arg = some l) (hu : (s.lock l).state ≠ .unallocated) :
    takeTake p q s = s.takeLock p q t c l (s.answerClaim p t (reply q .held)) :=
  withClaimLock_of_live ht hl hk hu _

theorem takeTakeWait_of_live (hk : lockOf q.ops.arg = some l) (hu : (s.lock l).state ≠ .unallocated) :
    takeTakeWait p q s = s.takeLock p q t c l (joinWaiters p q s t c l) :=
  withClaimLock_of_live ht hl hk hu _

theorem takeWithdraw_of_not_waiting (hq : q.code = RequestCode.withdraw.byte) (hw : s.waitOf ⟨t, c.token⟩ = none) :
    takeWithdraw p q s = (s.onTask t Task.loadLease).respond p (answerTo q.ops .notWaiting c.token 0) := by
  have htok := token_of_live hl
  rw [takeWithdraw, withClaim_of_live ht hl, hw, reply_to_claim hq rfl htok]
  rfl

theorem takeWithdraw_of_waiting (hq : q.code = RequestCode.withdraw.byte) (hw : s.waitOf ⟨t, c.token⟩ = some l) :
    takeWithdraw p q s =
      ((s.onTask t Task.loadLease).setLock l
        { s.lock l with waiters := (s.lock l).waiters.erase ⟨t, c.token⟩ }).respond p
        (answerTo q.ops .ok c.token (halves l.val 0)) := by
  have htok := token_of_live hl
  rw [takeWithdraw, withClaim_of_live ht hl, hw, withdraw_of_waitOf hw, reply_to_claim hq rfl htok .ok]
  rfl

theorem takeGive_of_holder (hq : q.code = RequestCode.give.byte) (hk : lockOf q.ops.arg = some l)
    (hu : (s.lock l).state ≠ .unallocated) (hh : (s.lock l).holder = some (.claim t c.token)) :
    takeGive p q s =
      ((s.giveUp l).onTask t Task.loadLease).respond p
        (answerTo q.ops .ok c.token (halves l.val (s.lock l).nextTask)) := by
  have htok := token_of_live hl
  rw [takeGive, withClaimLock_of_live ht hl hk hu, if_pos hh, reply_to_claim hq rfl htok]
  rfl

theorem takeGive_of_other (hq : q.code = RequestCode.give.byte) (hk : lockOf q.ops.arg = some l)
    (hu : (s.lock l).state ≠ .unallocated) (hh : (s.lock l).holder ≠ some (.claim t c.token)) :
    takeGive p q s = (s.onTask t Task.loadLease).respond p (answerTo q.ops .notHolder c.token 0) := by
  have htok := token_of_live hl
  rw [takeGive, withClaimLock_of_live ht hl hk hu, if_neg hh, reply_to_claim hq rfl htok]
  rfl

end Live

/-! ### The operand checks -/

theorem operandsOk_withdraw {o : Operands} {t : TaskNo} (hf : o.flags = 0) (hp : o.payload = [])
    (ht : taskOf o.task = some t) : operandsOk o .withdraw = true := by
  simp [operandsOk, Operands.bare, Operands.namesTask, hf, hp, ht]

/-- TAKE, TAKE-WAIT and GIVE have the same operand check. -/
theorem operandsOk_claimLock {o : Operands} {t : TaskNo} {l : LockNo} (hf : o.flags = 0) (hp : o.payload = [])
    (ht : taskOf o.task = some t) (hk : lockOf o.arg = some l) :
    operandsOk o .take = true ∧ operandsOk o .takeWait = true ∧ operandsOk o .give = true := by
  simp [operandsOk, Operands.bare, Operands.namesTask, Operands.namesLock, hf, hp, ht, hk]

/-! ### TAKE and TAKE-WAIT as commands -/

section Takes

variable {s : State} {p : Port} {o : Operands} {t : TaskNo} {k : Machine.Task} {c : Claim} {l : LockNo}
  (ha : s.admits p .take) (hf : o.flags = 0) (hp : o.payload = []) (ht : taskOf o.task = some t)
  (hk : lockOf o.arg = some l) (hl : s.liveClaim p t k c o.token) (hu : (s.lock l).state ≠ .unallocated)

include ha hf hp ht hk hl hu

theorem exec_take :
    let q : Request := ⟨0x42, o⟩
    let s1 := s.arrived p q
    exec (.take p o) s = .next (s1.takeLock p q t c l (s1.answerClaim p t (reply q .held))) := by
  obtain ⟨ok, _, _⟩ := operandsOk_claimLock hf hp ht hk
  rw [exec_admitted rfl rfl ha ok]
  exact congrArg _ (takeTake_of_live (q := ⟨0x42, o⟩) ht hl hk hu)

theorem exec_takeWait :
    let q : Request := ⟨0x43, o⟩
    let s1 := s.arrived p q
    exec (.takeWait p o) s = .next (s1.takeLock p q t c l (joinWaiters p q s1 t c l)) := by
  obtain ⟨_, ok, _⟩ := operandsOk_claimLock hf hp ht hk
  rw [exec_admitted (c := .takeWait) rfl rfl ha ok]
  exact congrArg _ (takeTakeWait_of_live (q := ⟨0x43, o⟩) ht hl hk hu)

/-- Both requests carry the claim's token and take the lock by its holder. -/
theorem exec_takeLock {i : Instr} {code : Byte}
    (hi : (i, code) ∈ [(Instr.take p o, (0x42 : Byte)), (.takeWait p o, 0x43)]) :
    ∃ (r : RequestCode) (e : State), code = r.byte ∧ r.tokenBearing = true
      ∧ exec i s = .next ((s.arrived p ⟨code, o⟩).takeLock p ⟨code, o⟩ t c l e) := by
  simp only [List.mem_pair, Prod.mk.injEq] at hi
  rcases hi with ⟨rfl, rfl⟩ | ⟨rfl, rfl⟩
  · exact ⟨.take, _, rfl, rfl, exec_take ha hf hp ht hk hl hu⟩
  · exact ⟨.takeWait, _, rfl, rfl, exec_takeWait ha hf hp ht hk hl hu⟩

end Takes

/-! ### The obligations -/

/-- Settles O46: both requests run `State.takeLock`, which gives the clauses that they share, and differ in the case of
a lock held elsewhere alone. -/
theorem takesFollowTheHolder : Obligations.TakesFollowTheHolder := by
  unfold Obligations.TakesFollowTheHolder
  intro p o s t k c l ha hf hp ht hk hl elsewhere waiting taken joined done
  have htok := token_of_live hl
  have allocated : elsewhere → (s.lock l).state ≠ .unallocated := fun ⟨hs, _⟩ => by simp [hs]
  have left : elsewhere → ∀ q e, (s.arrived p q).takeLock p q t c l e = e := fun ⟨hs, _, hh, hne⟩ q _ =>
    takeLock_of_elsewhere (s := s.arrived p q) hs hh hne
  refine ⟨fun i code hi => ?_, fun he => ?_, fun he hw => ?_, fun he hw hlen => ?_, fun he hw hlen => ?_⟩
  · have run := fun hu => exec_takeLock ha hf hp ht hk hl hu hi
    refine ⟨fun hs => ?_, fun hs hh => ?_, fun slot hs hh => ?_⟩
    · obtain ⟨r, e, hcode, hr, run⟩ := run (by simp [hs])
      exact run.trans (congrArg _ (takeLock_of_free hcode hr htok hs))
    · obtain ⟨r, e, hcode, hr, run⟩ := run (by simp [hs])
      exact run.trans (congrArg _ (takeLock_of_own hcode hr htok hs hh))
    · obtain ⟨r, e, hcode, hr, run⟩ := run (by simp [hs])
      exact run.trans (congrArg _ (takeLock_of_ownFrame hcode hr htok hs hh))
  · rw [exec_take ha hf hp ht hk hl (allocated he), left he, reply_to_claim (r := .take) rfl rfl htok]
    rfl
  all_goals rw [exec_takeWait ha hf hp ht hk hl (allocated he), left he]
  · exact congrArg _ (joinWaiters_of_waiting (r := .takeWait) rfl rfl htok hw)
  · exact congrArg _ (joinWaiters_of_full (r := .takeWait) rfl rfl htok hw hlen)
  · exact congrArg _ (joinWaiters_of_room (r := .takeWait) rfl rfl htok hw hlen)

/-- Settles O47: WITHDRAW by the lock on which the claim waits, GIVE by whether the claim is the lock's holder. -/
theorem withdrawAndGive : Obligations.WithdrawAndGive := by
  unfold Obligations.WithdrawAndGive
  intro p o s t k c hf hp ht hl w s1 s2
  have okWithdraw := operandsOk_withdraw hf hp ht
  refine ⟨fun ha hw => ?_, fun l ha hw first => ?_, fun l ha hk hs hh => ?_, fun l ha hk hu hh => ?_⟩
  · rw [exec_admitted rfl rfl ha okWithdraw]
    exact congrArg _ (takeWithdraw_of_not_waiting (q := ⟨0x44, o⟩) ht hl rfl (waitOf_eq_none_iff.2 hw))
  · rw [exec_admitted rfl rfl ha okWithdraw]
    exact congrArg _ (takeWithdraw_of_waiting (q := ⟨0x44, o⟩) ht hl rfl (waitOf_of_first hw first))
  · obtain ⟨_, _, okGive⟩ := operandsOk_claimLock hf hp ht hk
    rw [exec_admitted rfl rfl ha okGive]
    have hu : (s.lock l).state ≠ .unallocated := by simp [hs]
    refine congrArg _ ((takeGive_of_holder (s := s2) (q := ⟨0x45, o⟩) ht hl rfl hk hu hh).trans ?_)
    rw [arrived_lock, Lock.nextTask]
    cases (s.lock l).waiters <;> rfl
  · obtain ⟨_, _, okGive⟩ := operandsOk_claimLock hf hp ht hk
    rw [exec_admitted rfl rfl ha okGive]
    exact congrArg _ (takeGive_of_other (q := ⟨0x45, o⟩) ht hl rfl hk hu hh)

end Sys2Proof.Laws

/-! SUPPORT. Posts: a port record written back, the outcome of one post, and posts to several ports. -/

namespace Sys2Proof.Laws

open Sys2Proof Sys2Proof.Machine

/-- A port's record written back as it stands changes nothing. -/
theorem setPort_port (s : State) (p : Port) : s.setPort p (s.port p) = s := by
  simp [State.setPort, State.port]

/-- Not posted: an OFFLINE port (R143). -/
theorem post_of_offline {s : State} {p : Port} (h : (s.port p).session = .offline) (n : Notice) : s.post p n = s := by
  simp [State.post, State.onPort, PortRecord.post, h, setPort_port]

/-- Posted: an ONLINE port with room in its queue (R143), whose line is then asserted (R149). -/
theorem post_of_room {s : State} {p : Port} (on : (s.port p).session = .online)
    (room : (s.port p).notices.length < 16) (n : Notice) :
    s.post p n = s.onPort p (fun r => { r with notices := r.notices ++ [n], attention := true }) := by
  have queued : ((s.port p).notices ++ [n]).isEmpty = false := List.isEmpty_eq_false_iff.2 (by simp)
  simp [State.post, State.onPort, PortRecord.post, PortRecord.driveLine, Config.noticeMax, on, room, queued]

/-- Counted as lost: an ONLINE port with a full queue (R143). -/
theorem post_of_full {s : State} {p : Port} (on : (s.port p).session = .online)
    (full : 16 ≤ (s.port p).notices.length) (n : Notice) :
    s.post p n = s.onPort p (fun r => { r with lost := min 255 (r.lost + 1) }) := by
  simp [State.post, State.onPort, PortRecord.post, Config.noticeMax, Config.countMax, on, Nat.not_lt.2 full]

/-- A post writes one port's record and reads no other. -/
theorem post_port_eq (s : State) (p r : Port) (n : Notice) :
    (s.post p n).port r = if r = p then (s.port p).post n else s.port r := port_setPort ..

/-- Posts change port records alone. -/
theorem postAll_frame (s : State) (ps : List Port) (n : Notice) :
    s.postAll ps n = { s with ports := (s.postAll ps n).ports } := by
  simp only [State.postAll]
  induction ps generalizing s with
  | nil => rfl
  | cons p ps ih => rw [List.foldl_cons, ih]; rfl

/-- Each port listed once is posted to as one post would, and no other port's record changes. -/
theorem postAll_port (s : State) (ps : List Port) (nd : ps.Nodup) (n : Notice) (r : Port) :
    (s.postAll ps n).port r = if r ∈ ps then (s.post r n).port r else s.port r := by
  simp only [State.postAll]
  induction ps generalizing s with
  | nil => simp
  | cons p ps ih =>
    obtain ⟨hp, hps⟩ := List.nodup_cons.1 nd
    rw [List.foldl_cons, ih _ hps]
    simp only [post_port_eq, if_true]
    by_cases e : r = p
    · subst e; simp [hp]
    · simp [e]

theorem postAll_eq_ofFn (s : State) (ps : List Port) (nd : ps.Nodup) (n : Notice) :
    s.postAll ps n =
      { s with ports := Vector.ofFn (fun r => if r ∈ ps then (s.post r n).port r else s.port r) } := by
  rw [postAll_frame]
  congr 1
  ext i hi : 1
  rw [Vector.getElem_ofFn]
  exact postAll_port s ps nd n ⟨i, hi⟩

/-- The members of a port set: the ports whose bit is set, less the one left out (R158, R144). -/
theorem mem_members {w : PortSet} {except : Option Port} {r : Port} :
    r ∈ PortSet.members w except ↔ w.getLsbD r.val = true ∧ except ≠ some r := by
  simp [PortSet.members]

theorem members_nodup (w : PortSet) (except : Option Port) : (PortSet.members w except).Nodup :=
  (List.nodup_finRange 4).filter _

/-- Settles O24, by the three outcomes of one post and the members of a port set. -/
theorem postsHaveThreeOutcomes : Obligations.PostsHaveThreeOutcomes := by
  unfold Obligations.PostsHaveThreeOutcomes
  exact fun s p n => ⟨fun off => post_of_offline off n, fun on room => post_of_room on room n,
    fun on full => post_of_full on full n, fun ps nd => postAll_eq_ofFn s ps nd n,
    fun w except => ⟨members_nodup w except, fun _ => mem_members⟩⟩

end Sys2Proof.Laws

/-! SUPPORT. What any command can do to a port record: the operations on one record (`PortStep`), and the shared
operations, the requests and the commands as chains of them (`PortSteps`). -/

namespace Sys2Proof.Laws

open Sys2Proof Sys2Proof.Machine

/-! ### Steps and chains -/

/-- One operation on a port record: a post (R143), a fetch (R147), a session's begin (R163) and end (R151), a reset (R165,
R169), or any that leaves session, notice queue and attention line (`link`: the messages, the rights, the reset line). -/
inductive PortStep : PortRecord → PortRecord → Prop where
  | link {r r' : PortRecord} (session : r'.session = r.session) (notices : r'.notices = r.notices)
      (attention : r'.attention = r.attention) : PortStep r r'
  | post (r : PortRecord) (n : Notice) : PortStep r (r.post n)
  | fetch (r : PortRecord) : PortStep r r.fetch
  | openSession (r : PortRecord) : PortStep r r.openSession
  | close (r : PortRecord) : PortStep r r.close
  | reset (r : PortRecord) (x : Rights) : PortStep r (.reset x)

/-- From s to t every port record changes by such operations alone. -/
structure PortSteps (s t : State) : Prop where
  chain : ∀ p, Relation.ReflTransGen PortStep (s.port p) (t.port p)

theorem PortSteps.of_ports {s t : State} (h : t.ports = s.ports) : PortSteps s t :=
  ⟨fun p => by simp only [State.port, h]; exact .refl⟩

theorem PortSteps.refl (s : State) : PortSteps s s := .of_ports rfl

theorem PortSteps.trans {s t u : State} (a : PortSteps s t) (b : PortSteps t u) : PortSteps s u :=
  ⟨fun p => (a.chain p).trans (b.chain p)⟩

theorem PortSteps.foldl {α : Type} (f : State → α → State) (hf : ∀ s a, PortSteps s (f s a)) (l : List α)
    (s : State) : PortSteps s (l.foldl f s) := by
  induction l generalizing s with
  | nil => exact .refl s
  | cons a l ih => exact (hf s a).trans (ih _)

/-- A chain that begins after an operation that touches no port record. -/
theorem PortSteps.after {s t u : State} (a : PortSteps t u) (h : t.ports = s.ports) : PortSteps s u :=
  (PortSteps.of_ports h).trans a

/-- One port's record under one operation. -/
theorem portSteps_onPort (s : State) (p : Port) (f : PortRecord → PortRecord) (h : ∀ r, PortStep r (f r)) :
    PortSteps s (s.onPort p f) :=
  ⟨fun r => by
    simp only [State.onPort, port_setPort]
    split
    · next e => subst e; exact .single (h _)
    · exact .refl⟩

/-! ### The response line and posts -/

/-- Starting SDOn, on a record whose queues or answers may just have been rewritten. -/
theorem startSending_link {r r' : PortRecord} (session : r'.session = r.session) (notices : r'.notices = r.notices)
    (attention : r'.attention = r.attention) : PortStep r r'.startSending := by
  obtain ⟨-, e⟩ | ⟨_, _, -, -, e⟩ | ⟨_, -, -, -, e⟩ | ⟨-, -, -, e⟩ := startSending_cases r'
  all_goals rw [e]; exact .link session notices attention

theorem addLinkAnswer_step (a : LinkAnswer) (r : PortRecord) : PortStep r (r.addLinkAnswer a) := by
  simp only [PortRecord.addLinkAnswer]
  split
  · exact startSending_link rfl rfl rfl
  · exact .link rfl rfl rfl

theorem portSteps_respond (s : State) (p : Port) (x : Response) : PortSteps s (s.respond p x) :=
  portSteps_onPort s p _ fun _ => startSending_link rfl rfl rfl

theorem portSteps_refuse (s : State) (p : Port) (q : Request) (st : Status) : PortSteps s (s.refuse p q st) :=
  portSteps_respond ..

theorem portSteps_respondHead (s : State) (p : Port) (f : Request → Response) : PortSteps s (s.respondHead p f) := by
  simp only [State.respondHead]
  split
  · exact .refl s
  · exact portSteps_respond ..

theorem portSteps_post (s : State) (p : Port) (n : Notice) : PortSteps s (s.post p n) :=
  portSteps_onPort s p _ fun r => .post r n

theorem portSteps_postAll (s : State) (ps : List Port) (n : Notice) : PortSteps s (s.postAll ps n) :=
  .foldl _ (fun s p => portSteps_post s p n) ps s

/-! ### Operations that touch no port record -/

theorem portSteps_onTask (s : State) (t : TaskNo) (f : Task → Task) : PortSteps s (s.onTask t f) := .of_ports rfl

theorem portSteps_setLock (s : State) (l : LockNo) (k : Lock) : PortSteps s (s.setLock l k) := .of_ports rfl

theorem withdraw_ports (s : State) (w : Waiter) : (s.withdraw w).ports = s.ports := by
  simp only [State.withdraw]; split <;> rfl

theorem withdrawClaim_ports (s : State) (t : TaskNo) : (s.withdrawClaim t).ports = s.ports := by
  simp only [State.withdrawClaim]
  split
  · rfl
  · exact withdraw_ports ..

theorem moveAll_ports (s : State) (ls : LockSet) (h h' : Holder) : (s.moveAll ls h h').ports = s.ports :=
  foldl_frame State.ports (fun s l => s.move l h h') (fun s l => by simp only [State.move]; split <;> rfl) ls s

theorem emptySlot_ports (s : State) (t : TaskNo) (slot : Nat) : (s.emptySlot t slot).ports = s.ports := by
  simp only [State.emptySlot]
  split
  · rfl
  · rw [markStale_frame]; rfl

theorem dropRetained_ports (s : State) (t : TaskNo) (c : Claim) : (s.dropRetained t c).ports = s.ports := by
  simp only [State.dropRetained]
  split
  · rfl
  · exact emptySlot_ports ..

theorem withdrawPages_ports (s : State) (ns : List PageNo) : (s.withdrawPages ns).ports = s.ports := by
  rw [withdrawPages_frame]

theorem releasePages_ports (s : State) (ns : List PageNo) : (s.releasePages ns).ports = s.ports := by
  rw [releasePages_frame]

theorem reserve_ports (s : State) (t : TaskNo) (x : Params) (ns : List PageNo) :
    (s.reserve t x ns).ports = s.ports := by
  rw [reserve_frame]

theorem writeDataPart_ports (s : State) (n : PageNo) (offset : Nat) (bytes : List Byte) (part : Nat) :
    (s.writeDataPart n offset bytes part).ports = s.ports := by
  simp only [State.writeDataPart]; split <;> rfl

theorem abortEffect_ports (s : State) (t : TaskNo) (k : Task) (c : Claim) (o : Op) :
    (s.abortEffect t k c o).ports = s.ports := by
  cases o with
  | fill =>
    simp only [State.abortEffect, emptySlot_ports]
    split
    · rw [abandonFill_frame]
    · rfl
  | delivery | peek | dataRead | dataWrite => rfl

theorem abandon_ports (s : State) (p : Port) : (s.abandon p).ports = s.ports := by
  simp only [State.abandon]; split <;> rfl

theorem abortOp_ports (s : State) (t : TaskNo) : (s.abortOp t).ports = s.ports := by
  simp only [State.abortOp]
  split
  · rfl
  · split
    · rw [abandon_ports]; exact abortEffect_ports ..
    · rfl

/-! ### The lock pool and the ends of claims -/

theorem portSteps_giveUp (s : State) (l : LockNo) : PortSteps s (s.giveUp l) := by
  simp only [State.giveUp]
  split
  · exact .refl s
  · split
    · exact .of_ports rfl
    · simp only [State.postGrant]
      split
      · exact .of_ports rfl
      · exact (portSteps_post ..).after rfl

theorem portSteps_giveUpAll (s : State) (ls : LockSet) : PortSteps s (s.giveUpAll ls) := .foldl _ portSteps_giveUp ls s

theorem portSteps_endLocks (s : State) (t : TaskNo) (c : Claim) : PortSteps s (s.endLocks t c) := by
  simp only [State.endLocks]
  split
  · exact .refl s
  · simp only [State.reinstate]
    split
    · exact .refl s
    · split
      · exact .refl s
      · exact (portSteps_giveUpAll ..).after (moveAll_ports ..)
  · exact portSteps_giveUpAll ..

theorem portSteps_endNotices (s : State) (t : TaskNo) (w : PortSet) (p : Port) (cause : EndCause) (d : Nat) :
    PortSteps s (s.endNotices t w p cause d) := by
  cases cause with
  | portDown => exact portSteps_postAll ..
  | evicted | lapsed => exact (portSteps_post ..).trans (portSteps_postAll ..)

theorem portSteps_answerAborted (s : State) (c : Claim) (op : Option Op) (cause : EndCause) :
    PortSteps s (s.answerAborted c op cause) := by
  cases op with
  | none => rw [answerAborted_silent (.inl rfl)]; exact .refl s
  | some o =>
    cases cause with
    | portDown => exact .refl s
    | evicted | lapsed => exact portSteps_respondHead ..

theorem portSteps_abnormalEnd (s : State) (t : TaskNo) (cause : EndCause) : PortSteps s (s.abnormalEnd t cause) := by
  simp only [State.abnormalEnd]
  split
  · exact .refl s
  · split
    · exact .refl s
    · next c _ =>
      have locks : PortSteps s (((s.abortOp t).withdraw ⟨t, c.token⟩).endLocks t c) :=
        (portSteps_endLocks ..).after ((withdraw_ports ..).trans (abortOp_ports ..))
      exact locks.trans (((portSteps_endNotices ..).trans (portSteps_answerAborted ..)).after rfl)

theorem portSteps_teardown (s : State) (p : Port) : PortSteps s (s.teardown p) := by
  simp only [State.teardown]
  split
  · have withdrawn := PortSteps.foldl State.withdrawClaim (fun s t => .of_ports (withdrawClaim_ports s t))
    have ended := PortSteps.foldl _ fun s t => portSteps_abnormalEnd s t .portDown
    exact (((withdrawn ..).trans (ended ..)).trans (portSteps_onPort _ p _ .close)).trans (portSteps_postAll ..)
  · exact .refl s

/-! ### The long operations -/

/-- A task's record rewritten and the request of its claim's port answered. -/
theorem portSteps_answered (s : State) (t : TaskNo) (k : Option Task) (p : Port)
    (f : Request → Response) : PortSteps s ((s.setTask t k).respondHead p f) :=
  (portSteps_respondHead ..).after rfl

section LongOperations

variable (s : State) (t : TaskNo) (k : Task) (c : Claim)

theorem portSteps_damageInRead (n : PageNo) (part : Nat) : PortSteps s (s.damageInRead t k c n part) :=
  (portSteps_answered (s.onPage n Page.markPoisoned) ..).after rfl

theorem portSteps_damageInDelivery (n : PageNo) (part : Nat) : PortSteps s (s.damageInDelivery t k c n part) :=
  ((portSteps_postAll ..).trans (portSteps_respondHead ..)).after rfl

theorem portSteps_reachDelivery (slot : Nat) (f : FrameRecord) (part : Nat) (b : List Byte) :
    PortSteps s (s.reachDeliveryPart t k c slot f part b) := by
  simp only [State.reachDeliveryPart]
  split
  · split
    · exact portSteps_damageInDelivery ..
    · exact .of_ports rfl
  · exact (portSteps_respondHead ..).after (moveAll_ports ..)

theorem portSteps_reachPeek (position slot : Nat) (f : FrameRecord) (part : Nat) (b : List Byte) :
    PortSteps s (s.reachPeekPart t k c position slot f part b) := by
  simp only [State.reachPeekPart]
  split
  · split
    · exact portSteps_damageInRead ..
    · exact .of_ports rfl
  · exact portSteps_answered ..

theorem portSteps_completeFill (slot : Nat) (w : Word) (b : List Byte) (x : Bool) :
    PortSteps s (s.completeFill t k c slot w b x) :=
  ((portSteps_postAll ..).trans (portSteps_respondHead ..)).after
    ((dropRetained_ports ..).trans (moveAll_ports ..))

end LongOperations

/-! ### Transfers -/

section Transfers

variable {s u : State}

theorem portSteps_deliveryPart (e : ReadOutcome) (hu : execDeliveryPartTransfer e s = .next u) : PortSteps s u := by
  simp only [execDeliveryPartTransfer, Host.Outcome.next.injEq] at hu
  subst hu
  split
  · split
    · split
      · split
        · exact (portSteps_damageInDelivery s.freePath ..).after rfl
        · exact (portSteps_reachDelivery s.freePath ..).after rfl
      · exact .refl s
    · exact .refl s
  · exact .refl s

theorem portSteps_peekPart (e : ReadOutcome) (hu : execPeekPartTransfer e s = .next u) : PortSteps s u := by
  simp only [execPeekPartTransfer, Host.Outcome.next.injEq] at hu
  subst hu
  split
  · split
    · split
      · split
        · exact (portSteps_damageInRead s.freePath ..).after rfl
        · exact (portSteps_reachPeek s.freePath ..).after rfl
      · exact .refl s
    · exact .refl s
  · exact .refl s

theorem portSteps_fillPage (hu : execFillPageWrite s = .next u) : PortSteps s u := by
  simp only [execFillPageWrite, Host.Outcome.next.injEq] at hu
  subst hu
  split
  · split
    · split
      · split
        · exact .of_ports rfl
        · exact (portSteps_completeFill ..).after rfl
      · exact .refl s
    · exact .refl s
  · exact .refl s

theorem portSteps_dataReadPart (e : ReadOutcome) (hu : execDataReadPartTransfer e s = .next u) : PortSteps s u := by
  simp only [execDataReadPartTransfer, Host.Outcome.next.injEq] at hu
  subst hu
  split
  · split
    · split
      · split
        · exact (portSteps_damageInRead s.freePath ..).after rfl
        · split
          · exact .of_ports rfl
          · exact (portSteps_answered s.freePath ..).after rfl
      · exact .refl s
    · exact .refl s
  · exact .refl s

theorem portSteps_dataWritePage (e : ReadOutcome) (hu : execDataWritePageTransfer e s = .next u) : PortSteps s u := by
  simp only [execDataWritePageTransfer, Host.Outcome.next.injEq] at hu
  subst hu
  split
  · split
    · split
      · split
        · exact (portSteps_damageInRead s.freePath ..).after rfl
        · split
          · exact .of_ports (writeDataPart_ports s.freePath ..)
          · exact (portSteps_answered ..).after (writeDataPart_ports s.freePath ..)
      · exact .refl s
    · exact .refl s
  · exact .refl s

end Transfers

/-! ### Requests -/

section Requests

variable {s : State} {p : Port} {q : Request}

theorem portSteps_answerClaim {v : State} (h : PortSteps s v) (p : Port) (t : TaskNo) (x : Response) :
    PortSteps s (v.answerClaim p t x) :=
  h.trans ((portSteps_respond ..).after rfl)

theorem portSteps_refuseClaim (t : TaskNo) (st : Status) : PortSteps s (s.refuseClaim p q t st) :=
  (portSteps_refuse ..).after rfl

theorem portSteps_takeHello : PortSteps s (takeHello p q s) := by
  refine .trans ?_ (portSteps_respond ..)
  split
  · exact .refl s
  · exact portSteps_onPort s p _ .openSession

theorem portSteps_withRights (s : State) (p : Port) (x : Rights) : PortSteps s (s.onPort p (·.withRights x)) :=
  portSteps_onPort s p _ fun _ => .link rfl rfl rfl

theorem portSteps_takeGrantRights : PortSteps s (takeGrantRights p q s) := by
  simp only [takeGrantRights]
  split
  · exact (portSteps_withRights ..).trans (portSteps_respond ..)
  · exact portSteps_refuse ..

theorem portSteps_takeFetchNotice : PortSteps s (takeFetchNotice p q s) := by
  simp only [takeFetchNotice]
  split
  · exact portSteps_respond ..
  · exact (portSteps_onPort s p _ .fetch).trans (portSteps_respond ..)

theorem portSteps_takeDefine : PortSteps s (takeDefine p q s) := by
  simp only [takeDefine]
  split
  · exact portSteps_refuse ..
  · exact portSteps_refuse ..
  · split
    · exact portSteps_respond ..
    · exact (portSteps_respond ..).after (reserve_ports ..)

theorem portSteps_takeDiscard : PortSteps s (takeDiscard p q s) := by
  refine withTask_ind (portSteps_refuse s p q) fun t k _ _ => ?_
  split
  · exact portSteps_refuse ..
  · exact (portSteps_giveUpAll ..).trans
      ((portSteps_respond ..).after ((setTask_ports ..).trans (releasePages_ports ..)))

theorem portSteps_takeRetune : PortSteps s (takeRetune p q s) := by
  simp only [takeRetune]
  split
  · exact portSteps_refuse ..
  · refine withTask_ind (portSteps_refuse s p q) fun t k _ _ => ?_
    split
    · exact portSteps_refuse ..
    · exact (portSteps_respond ..).after rfl

theorem portSteps_takeSalvage : PortSteps s (takeSalvage p q s) := by
  refine withTask_ind (portSteps_refuse s p q) fun t k _ _ => ?_
  split
  · exact (portSteps_giveUpAll ..).trans
      (((portSteps_postAll ..).trans (portSteps_respond ..)).after (emptySlot_ports ..))
  · exact portSteps_refuse ..

theorem portSteps_takeClaim : PortSteps s (takeClaim p q s) := by
  refine withTask_ind (portSteps_refuse s p q) fun t k _ _ => ?_
  split
  · exact portSteps_refuse ..
  · simp only [State.acceptClaim]
    split
    · exact (portSteps_reachDelivery ..).after rfl
    · exact (portSteps_respond ..).after rfl

theorem portSteps_takeRelease : PortSteps s (takeRelease p q s) :=
  withClaim_ind (portSteps_refuse s p q) fun _ _ _ _ _ =>
    ((portSteps_giveUpAll ..).after (withdraw_ports ..)).trans
      (((portSteps_postAll ..).trans (portSteps_respond ..)).after (dropRetained_ports ..))

theorem portSteps_takeSuspend : PortSteps s (takeSuspend p q s) := by
  refine withClaim_ind (portSteps_refuse s p q) fun t k c _ _ => ?_
  split
  · exact portSteps_refuseClaim ..
  · exact .of_ports ((withdrawPages_ports ..).trans (withdraw_ports ..))

theorem portSteps_takeEvict : PortSteps s (takeEvict p q s) := by
  refine withTask_ind (portSteps_refuse s p q) fun t k _ _ => ?_
  split
  · exact (portSteps_abnormalEnd ..).trans (portSteps_respond ..)
  · exact portSteps_refuse ..

theorem portSteps_takePeekFrame : PortSteps s (takePeekFrame p q s) := by
  refine withClaim_ind (portSteps_refuse s p q) fun t k c _ _ => ?_
  split
  · exact portSteps_refuseClaim ..
  · split
    · exact portSteps_refuseClaim ..
    · exact (portSteps_reachPeek ..).after rfl

theorem portSteps_takeDataRead : PortSteps s (takeDataRead p q s) := by
  refine withClaim_ind (portSteps_refuse s p q) fun t k c _ _ => ?_
  dsimp only
  split
  · exact portSteps_refuseClaim ..
  · split
    · exact (portSteps_respond ..).after rfl
    · exact .of_ports rfl

theorem portSteps_takeDataWrite : PortSteps s (takeDataWrite p q s) := by
  refine withClaim_ind (portSteps_refuse s p q) fun t k c _ _ => ?_
  dsimp only
  split
  · exact portSteps_refuseClaim ..
  · split
    · exact (portSteps_respond ..).after rfl
    · exact .of_ports rfl

theorem portSteps_takeLockNew : PortSteps s (takeLockNew p q s) := by
  simp only [takeLockNew]
  split
  · exact portSteps_refuse ..
  · exact (portSteps_respond ..).after rfl

theorem portSteps_takeLockReturn : PortSteps s (takeLockReturn p q s) := by
  refine withLock_ind (portSteps_refuse s p q) fun l _ => ?_
  split
  · exact portSteps_refuse ..
  · exact (portSteps_respond ..).after rfl

/-- TAKE and TAKE-WAIT, by what each does with a lock held elsewhere. -/
theorem portSteps_takeLock {t : TaskNo} {c : Claim} {l : LockNo} {e : State} (he : PortSteps s e) :
    PortSteps s (s.takeLock p q t c l e) :=
  takeLock_ind (fun _ _ => portSteps_answerClaim (portSteps_setLock ..) ..)
    (fun _ => portSteps_answerClaim (.refl s) ..) fun _ _ => he

theorem portSteps_takeTake : PortSteps s (takeTake p q s) :=
  withClaimLock_ind (portSteps_refuse s p q) fun _ _ _ _ _ _ => portSteps_takeLock (portSteps_answerClaim (.refl s) ..)

theorem portSteps_takeTakeWait : PortSteps s (takeTakeWait p q s) := by
  refine withClaimLock_ind (portSteps_refuse s p q) fun t k c l _ _ => portSteps_takeLock ?_
  split
  · exact portSteps_answerClaim (.refl s) ..
  · split
    · exact portSteps_answerClaim (.refl s) ..
    · exact portSteps_answerClaim (portSteps_setLock ..) ..

theorem portSteps_takeWithdraw : PortSteps s (takeWithdraw p q s) := by
  refine withClaim_ind (portSteps_refuse s p q) fun t k c _ _ => ?_
  split
  · exact portSteps_answerClaim (.refl s) ..
  · exact portSteps_answerClaim (.of_ports (withdraw_ports ..)) ..

theorem portSteps_takeGive : PortSteps s (takeGive p q s) := by
  refine withClaimLock_ind (portSteps_refuse s p q) fun t k c l _ _ => ?_
  split
  · exact portSteps_answerClaim (portSteps_giveUp ..) ..
  · exact portSteps_answerClaim (.refl s) ..

/-- Every request that has passed steps 2 to 4. -/
theorem portSteps_carryOut (c : RequestCode) : PortSteps s (carryOut p q s c) := by
  cases c with
  | hello => exact portSteps_takeHello
  | goodbye => exact portSteps_respond ..
  | grantRights => exact portSteps_takeGrantRights
  | fetchNotice => exact portSteps_takeFetchNotice
  | define => exact portSteps_takeDefine
  | discard => exact portSteps_takeDiscard
  | retune => exact portSteps_takeRetune
  | queryTask => exact withTask_ind (portSteps_refuse s p q) fun _ _ _ _ => portSteps_respond ..
  | salvage => exact portSteps_takeSalvage
  | claim => exact portSteps_takeClaim
  | release => exact portSteps_takeRelease
  | suspend => exact portSteps_takeSuspend
  | renew => exact withClaim_ind (portSteps_refuse s p q) fun _ _ _ _ _ => (portSteps_respond ..).after rfl
  | evict => exact portSteps_takeEvict
  | peekFrame => exact portSteps_takePeekFrame
  | dataRead => exact portSteps_takeDataRead
  | dataWrite => exact portSteps_takeDataWrite
  | lockNew => exact portSteps_takeLockNew
  | lockReturn => exact portSteps_takeLockReturn
  | take => exact portSteps_takeTake
  | takeWait => exact portSteps_takeTakeWait
  | withdraw => exact portSteps_takeWithdraw
  | give => exact portSteps_takeGive
  | queryLock => exact withLock_ind (portSteps_refuse s p q) fun _ _ => portSteps_respond ..
  | queryMemory => exact portSteps_respond ..

theorem portSteps_takeRequest : PortSteps s (takeRequest p q s) := by
  simp only [takeRequest]
  split
  · split
    · exact portSteps_refuse ..
    · exact portSteps_refuse ..
  · split
    · exact portSteps_refuse ..
    · split
      · exact portSteps_refuse ..
      · split
        · exact portSteps_refuse ..
        · exact portSteps_carryOut _

end Requests

/-! ### Commands -/

theorem portSteps_addLinkAnswer (s : State) (p : Port) (a : LinkAnswer) :
    PortSteps s (s.onPort p (·.addLinkAnswer a)) :=
  portSteps_onPort s p _ (addLinkAnswer_step a)

theorem portSteps_arrive (s : State) (p : Port) (q : Request) : PortSteps s (arrive p q s) := by
  have queued : PortSteps s (s.onPort p (·.queueRequest q)) := portSteps_onPort s p _ fun _ => .link rfl rfl rfl
  simp only [arrive]
  split
  · exact .refl s
  · split
    · split
      · exact queued.trans portSteps_takeRequest
      · exact queued
    · exact portSteps_addLinkAnswer ..

theorem portSteps_responseSent {s u : State} (p : Port) (hu : execResponseSent p s = .next u) : PortSteps s u := by
  simp only [execResponseSent, Host.Outcome.next.injEq] at hu
  subst hu
  split
  · exact .refl s
  · exact portSteps_onPort s p _ fun _ => startSending_link rfl rfl rfl
  · have dropped : PortSteps s (s.onPort p PortRecord.dropHead) := portSteps_onPort s p _ fun _ => .link rfl rfl rfl
    have next : ∀ v : State, PortSteps v (v.takeNext p) := fun v => by
      simp only [State.takeNext]
      split
      · exact .refl v
      · exact portSteps_takeRequest
    refine .trans (.trans ?_ (next _)) (portSteps_onPort _ p _ fun _ => startSending_link rfl rfl rfl)
    split
    · exact dropped.trans (portSteps_teardown ..)
    · exact dropped

/-- At reset every port record is at its reset values, and they differ in the rights alone (R152). -/
theorem reset_port (p : Port) : State.reset.port p = .reset (State.reset.port p).rights := by
  revert p; decide

/-- A full reset puts every port at its reset values and leaves its reset line. -/
theorem portSteps_fullyReset (s : State) (m : Memory) (b : Bool) : PortSteps s (s.fullyReset m b) := by
  refine ⟨fun p => ?_⟩
  have port : (s.fullyReset m b).port p = { State.reset.port p with held := (s.port p).held } := by
    simp [State.port, State.fullyReset]
  rw [port, reset_port]
  refine .tail (.single (.reset _ (State.reset.port p).rights)) ?_
  exact .link rfl rfl rfl

/-- A command of the part or of a link other than a request's arrival. -/
theorem portSteps_event {s u : State} {i : Instr} (hr : i.request = none) (hu : exec i s = .next u) :
    PortSteps s u := by
  cases i <;> simp only [Instr.request, reduceCtorEq] at hr <;> simp only [exec] at hu
  case responseSent p => exact portSteps_responseSent p hu
  case deliveryPartTransfer e => exact portSteps_deliveryPart e hu
  case fillPageWrite => exact portSteps_fillPage hu
  case peekPartTransfer e => exact portSteps_peekPart e hu
  case dataReadPartTransfer e => exact portSteps_dataReadPart e hu
  case dataWritePageTransfer e => exact portSteps_dataWritePage e hu
  all_goals simp only [execMessageEnd, execArbiterGrant, execLeaseExpiry, execPortReset, execPortResetRelease,
    execFullReset, execFullResetRelease, execLeaseTimerMillisecond, execScrubberTakePage, execScrubCompletion,
    Host.Outcome.next.injEq] at hu
  all_goals subst hu
  case messageEnd p m =>
    split
    · exact portSteps_arrive ..
    · split
      · exact .refl s
      · exact portSteps_addLinkAnswer ..
  case arbiterGrant =>
    split
    · exact .refl s
    · split
      · exact .refl s
      · exact .of_ports rfl
  case scrubberTakePage =>
    split
    · exact .refl s
    · split
      · exact .refl s
      · exact .of_ports rfl
  case scrubCompletion =>
    split
    · exact .of_ports rfl
    · exact .refl s
  case leaseExpiry t =>
    split
    · exact portSteps_abnormalEnd ..
    · exact .refl s
  case portReset p =>
    have cut : PortSteps s (s.onPort p PortRecord.cutOff) := portSteps_onPort s p _ fun _ => .link rfl rfl rfl
    exact cut.trans (portSteps_teardown ..)
  case portResetRelease p =>
    split
    · exact portSteps_onPort s p _ fun _ => .reset _ _
    · exact .refl s
  case fullReset c => exact portSteps_fullyReset ..
  case fullResetRelease =>
    split
    · exact portSteps_fullyReset ..
    · exact .refl s
  case leaseTimerMillisecond => exact .foldl _ (fun s t => portSteps_onTask s t _) _ s

/-- Every command changes port records by their operations alone. -/
theorem portSteps_exec {s u : State} (i : Instr) (hu : exec i s = .next u) : PortSteps s u := by
  cases hr : i.request with
  | some x =>
    obtain ⟨p, q⟩ := x
    rw [exec_request s hr, Host.Outcome.next.injEq] at hu
    subst hu
    exact portSteps_arrive ..
  | none => exact portSteps_event hr hu

end Sys2Proof.Laws

/-! SUPPORT. The attention line and the notice queue of a port (R149) under the operations on a port record. -/

namespace Sys2Proof.Laws

open Sys2Proof Sys2Proof.Machine

/-- The line of a port record follows its notice queue, which holds at most 16 (R149). -/
abbrev LineFollows (r : PortRecord) : Prop :=
  r.notices.length ≤ 16 ∧ (r.attention = true ↔ r.session = .online ∧ r.notices ≠ [])

/-- Driving the line makes it follow any queue of at most 16. -/
theorem driveLine_follows {r : PortRecord} (h : r.notices.length ≤ 16) : LineFollows r.driveLine :=
  ⟨h, by simp [PortRecord.driveLine]⟩

theorem post_follows {r : PortRecord} (h : LineFollows r) (n : Notice) : LineFollows (r.post n) := by
  simp only [PortRecord.post]
  split
  · split
    · next room =>
      simp only [Config.noticeMax] at room
      exact driveLine_follows (by simpa using room)
    · exact h
  · exact h

/-- A fetch removes the head, so that a NOTICES-LOST has room (R147). -/
theorem fetch_follows {r : PortRecord} (h : LineFollows r) : LineFollows r.fetch := by
  obtain ⟨bound, -⟩ := h
  refine driveLine_follows ?_
  split
  · simp only [List.length_tail]; omega
  · simp only [List.length_append, List.length_tail, List.length_singleton]; omega

theorem PortStep.follows {r r' : PortRecord} (e : PortStep r r') (h : LineFollows r) : LineFollows r' := by
  cases e with
  | link session notices attention => simpa only [LineFollows, session, notices, attention] using h
  | post n => exact post_follows h n
  | fetch => exact fetch_follows h
  | openSession => exact driveLine_follows (by simp)
  | close => exact driveLine_follows (by simp)
  | reset x => simp [LineFollows, PortRecord.reset]

theorem chain_follows {r r' : PortRecord} (e : Relation.ReflTransGen PortStep r r') (h : LineFollows r) :
    LineFollows r' := by
  induction e with
  | refl => exact h
  | tail _ step ih => exact step.follows ih

/-- Settles O25: the reset records meet it, and every command changes port records by operations that keep it. -/
theorem attentionFollowsTheQueue : Obligations.AttentionFollowsTheQueue := by
  unfold Obligations.AttentionFollowsTheQueue
  refine ⟨fun p => ?_, fun i s t h hi p => chain_follows ((portSteps_exec i hi).chain p) (h p)⟩
  rw [reset_port]
  simp [PortRecord.reset]

end Sys2Proof.Laws

/-! SUPPORT. What a post leaves of the ports' records and the token counter (R143, R144), and the operations that change
no more than that. -/

namespace Sys2Proof.Laws

open Sys2Proof Sys2Proof.Machine

/-- From s to t the token counter stays, and of the ports' records only notice queues, lost counts and attention lines
change. -/
structure Posted (s t : State) : Prop where
  token : t.nextToken = s.nextToken
  port : ∀ r, t.port r = { s.port r with
    notices := (t.port r).notices, lost := (t.port r).lost, attention := (t.port r).attention }

theorem Posted.of_ports {s t : State} (hp : t.ports = s.ports) (ht : t.nextToken = s.nextToken) : Posted s t :=
  ⟨ht, fun r => by simp only [State.port, hp]⟩

theorem Posted.refl (s : State) : Posted s s := .of_ports rfl rfl

theorem Posted.trans {s t u : State} (a : Posted s t) (b : Posted t u) : Posted s u :=
  ⟨b.token.trans a.token, fun r => by rw [b.port r, a.port r]⟩

/-- Posts that come after a change of other tables. -/
theorem Posted.after {s t u : State} (a : Posted t u) (hp : t.ports = s.ports) (ht : t.nextToken = s.nextToken) :
    Posted s u :=
  (Posted.of_ports hp ht).trans a

theorem Posted.foldl {α : Type} (f : State → α → State) (hf : ∀ s a, Posted s (f s a)) (l : List α) (s : State) :
    Posted s (l.foldl f s) := by
  induction l generalizing s with
  | nil => exact .refl s
  | cons a l ih => exact (hf s a).trans (ih _)

theorem Posted.link {s t : State} (h : Posted s t) (r : Port) : (t.port r).session = (s.port r).session
    ∧ (t.port r).rights = (s.port r).rights ∧ (t.port r).requests = (s.port r).requests := by
  rw [h.port r]
  exact ⟨rfl, rfl, rfl⟩

/-- What leaves the port records as they are and, by `Told`, the token counter. -/
theorem Posted.of_told {s t : State} (h : Told s t) (hp : t.ports = s.ports) : Posted s t :=
  .of_ports hp (by rw [h.frame])

theorem posted_post (s : State) (p : Port) (n : Notice) : Posted s (s.post p n) := ⟨rfl, fun r => post_port s p r n⟩

theorem posted_postAll (s : State) (ps : List Port) (n : Notice) : Posted s (s.postAll ps n) :=
  .foldl _ (fun s p => posted_post s p n) ps s

theorem posted_giveUp (s : State) (l : LockNo) : Posted s (s.giveUp l) := by
  simp only [State.giveUp]
  split
  · exact .refl s
  · split
    · exact .of_ports rfl rfl
    · simp only [State.postGrant]
      split
      · exact .of_ports rfl rfl
      · exact (posted_post ..).after rfl rfl

theorem posted_giveUpAll (s : State) (ls : LockSet) : Posted s (s.giveUpAll ls) := .foldl _ posted_giveUp ls s

theorem posted_withdraw (s : State) (w : Waiter) : Posted s (s.withdraw w) :=
  .of_told (told_withdraw ..) (withdraw_ports ..)

theorem posted_moveAll (s : State) (ls : LockSet) (h h' : Holder) : Posted s (s.moveAll ls h h') :=
  .of_told (told_moveAll ..) (moveAll_ports ..)

theorem posted_withdrawClaim (s : State) (t : TaskNo) : Posted s (s.withdrawClaim t) :=
  .of_told (told_withdrawClaim ..) (withdrawClaim_ports ..)

theorem posted_endLocks (s : State) (t : TaskNo) (c : Claim) : Posted s (s.endLocks t c) := by
  simp only [State.endLocks]
  split
  · exact .refl s
  · simp only [State.reinstate]
    split
    · exact .refl s
    · split
      · exact .refl s
      · exact (posted_giveUpAll ..).after (moveAll_ports ..) (posted_moveAll ..).token
  · exact posted_giveUpAll ..

theorem emptySlot_token (s : State) (t : TaskNo) (slot : Nat) : (s.emptySlot t slot).nextToken = s.nextToken := by
  simp only [State.emptySlot]
  split
  · rfl
  · rw [markStale_frame]; rfl

theorem abortEffect_token (s : State) (t : TaskNo) (k : Machine.Task) (c : Claim) (o : Op) :
    (s.abortEffect t k c o).nextToken = s.nextToken := by
  cases o with
  | fill =>
    simp only [State.abortEffect, emptySlot_token]
    split
    · rw [abandonFill_frame]
    · rfl
  | delivery | peek | dataRead | dataWrite => rfl

theorem posted_abortOp (s : State) (t : TaskNo) : Posted s (s.abortOp t) := by
  refine .of_ports (abortOp_ports ..) ?_
  simp only [State.abortOp]
  split
  · rfl
  · split
    · simp only [State.abandon]
      split <;> exact abortEffect_token ..
    · rfl

/-- A claim's end with cause PORT-DOWN answers nothing: all that it does to ports is posts (R80, R84). -/
theorem posted_abnormalEnd (s : State) (t : TaskNo) : Posted s (s.abnormalEnd t .portDown) := by
  simp only [State.abnormalEnd]
  split
  · exact .refl s
  · split
    · exact .refl s
    · rw [answerAborted_silent (.inr rfl)]
      exact (((posted_abortOp ..).trans (posted_withdraw ..)).trans (posted_endLocks ..)).trans
        (Posted.after (posted_postAll ..) rfl rfl)

end Sys2Proof.Laws

/-! SUPPORT. The invariant under every command and at reset, and what every command leaves of the command queue and
FRST_N. -/

namespace Sys2Proof.Laws

open Sys2Proof Sys2Proof.Machine

/-- The invariant is its five parts, each of which the laws speak of under a name of its own. -/
theorem inv_iff {s : State} : s.Inv ↔ s.RecordsOk ∧ SlotsAll s ∧ LinkedAll s ∧ s.PagesOk ∧ s.PoolOk := by
  rw [linkedAll_iff]
  exact ⟨fun ⟨r, sl, l, g, p⟩ => ⟨r, sl, l, g, p⟩, fun ⟨r, sl, l, g, p⟩ => ⟨r, sl, l, g, p⟩⟩

/-- Every command keeps the invariant: each part rests on itself and on the parts before it. -/
theorem inv_exec {s u : State} (h : s.Inv) (i : Instr) (hu : exec i s = .next u) : u.Inv := by
  obtain ⟨records, slots, linked, pages, pool⟩ := inv_iff.1 h
  exact inv_iff.2 ⟨records_exec records i hu, slots_exec records linked slots i hu, linked_exec records linked i hu,
    pages_exec pages i hu, pool_exec records linked slots pool i hu⟩

theorem step_of_pending {s : State} {c : Instr} {rest : List Instr} (h : s.pending = c :: rest) :
    step s = exec c { s with pending := rest } := by
  simp only [step, h]

theorem step_of_idle {s : State} (h : s.pending = []) : step s = .next s := by
  simp only [step, h]

/-- Settles O3: a step idles, or carries out one command on the state with the rest of the queue. -/
theorem everyStepKeepsTheInvariant : Obligations.EveryStepKeepsTheInvariant := by
  unfold Obligations.EveryStepKeepsTheInvariant
  intro s t h hs
  cases hq : s.pending with
  | nil =>
    obtain rfl : s = t := by simpa [step_of_idle hq] using hs
    exact h
  | cons c rest => exact inv_exec (inv_pending h rest) c (step_of_pending hq ▸ hs)

/-- Settles O4: the reset state is what a full reset leaves of it, and there are no tasks in it. -/
theorem resetMeetsTheInvariant : Obligations.ResetMeetsTheInvariant := by
  unfold Obligations.ResetMeetsTheInvariant
  have records := records_fullyReset State.reset (m := []) ⟨.nil, by simp⟩ false
  have linked := linked_fullyReset State.reset [] false
  have pages := pages_fullyReset State.reset [] false
  have pool := pool_fullyReset State.reset [] false
  have slots : SlotsAll State.reset := fun t k hk => by simp [State.task, State.reset] at hk
  rw [fullyReset_reset] at records linked pages pool
  exact inv_iff.2 ⟨records, slots, linked, pages, pool⟩

/-- Settles O1, by the two equations of a step. -/
theorem stepRunsTheFrontCommand : Obligations.StepRunsTheFrontCommand := by
  unfold Obligations.StepRunsTheFrontCommand
  exact ⟨fun _ _ _ => step_of_pending rfl, fun _ => step_of_idle⟩

/-! ### What a command leaves of the command queue and FRST_N -/

/-- An event of the part other than a full reset. -/
theorem keeps_event {s u : State} {i : Instr} (hr : i.request = none) (hf : ∀ cause, i ≠ .fullReset cause)
    (hl : i ≠ .fullResetRelease) (hu : exec i s = .next u) : Keeps s u := by
  cases i <;> simp only [Instr.request, reduceCtorEq] at hr <;> simp only [exec] at hu
  case responseSent p => exact keeps_responseSent p hu
  case deliveryPartTransfer e => exact keeps_deliveryPart e hu
  case fillPageWrite => exact keeps_fillPage hu
  case peekPartTransfer e => exact keeps_peekPart e hu
  case dataReadPartTransfer e => exact keeps_dataReadPart e hu
  case dataWritePageTransfer e => exact keeps_dataWritePage e hu
  case scrubCompletion => exact keeps_scrubCompletion hu
  case fullReset cause => exact absurd rfl (hf cause)
  case fullResetRelease => exact absurd rfl hl
  all_goals simp only [execMessageEnd, execArbiterGrant, execLeaseExpiry, execPortReset, execPortResetRelease,
    execLeaseTimerMillisecond, execScrubberTakePage, Host.Outcome.next.injEq] at hu
  all_goals subst hu
  case messageEnd p m =>
    split
    · exact keeps_arrive
    · split
      · exact .refl s
      · next hd => exact keeps_addLinkAnswer _ _ _ (by simpa using hd)
  case arbiterGrant =>
    split
    · exact .refl s
    · split
      · exact .refl s
      · exact ⟨fun h => ⟨h.ports, h.grant, h.tasks, h.locks, h.token, h.queue, h.memory⟩, rfl, rfl⟩
  case scrubberTakePage =>
    split
    · exact .refl s
    · split
      · exact .refl s
      · next e =>
        refine ⟨fun h => ⟨h.ports, h.grant, h.tasks, h.locks, h.token, ?_, h.memory⟩, rfl, rfl⟩
        exact (List.nodup_cons.1 (e ▸ h.queue)).2
  case leaseExpiry t =>
    split
    · exact keeps_abnormalEnd ..
    · exact .refl s
  case portReset p => exact (keeps_cutOff s p).trans (keeps_teardown ..)
  case portResetRelease p =>
    split
    · exact keeps_onPort s p PortRecord.restart (fun r _ => portRecord_reset_ok _) fun _ => rfl
    · exact .refl s
  case leaseTimerMillisecond => exact .foldl _ (fun s t => keeps_onTask s t _ tick_ok) _ _

/-- A full reset leaves the command queue. -/
theorem fullyReset_pending (s : State) (m : Memory) (b : Bool) : (s.fullyReset m b).pending = s.pending := rfl

/-- No command faults and none is refused. -/
theorem exec_next (i : Instr) (s : State) : ∃ t, exec i s = .next t := by
  cases i <;> exact ⟨_, rfl⟩

/-- Settles O2: a command gives a next state, and all but the two full-reset events keep queue and line. -/
theorem everyCommandIsCarriedOut : Obligations.EveryCommandIsCarriedOut := by
  unfold Obligations.EveryCommandIsCarriedOut
  intro i s
  obtain ⟨t, ht⟩ := exec_next i s
  refine ⟨t, ht, ?_⟩
  have kept (k : Keeps s t) : t.pending = s.pending
      ∧ ((∀ cause, i ≠ .fullReset cause) → i ≠ .fullResetRelease → t.frst = s.frst) :=
    ⟨k.pending, fun _ _ => k.frst⟩
  cases hr : i.request with
  | some x =>
    rw [exec_request s hr, Host.Outcome.next.injEq] at ht
    subst ht
    exact kept keeps_arrive
  | none =>
    by_cases hf : ∃ cause, i = .fullReset cause
    · obtain ⟨cause, rfl⟩ := hf
      cases ht
      exact ⟨fullyReset_pending .., fun h => absurd rfl (h cause)⟩
    · by_cases hl : i = .fullResetRelease
      · subst hl
        cases ht
        refine ⟨?_, fun _ h => absurd rfl h⟩
        split
        · exact fullyReset_pending ..
        · rfl
      · exact kept (keeps_event hr (fun cause e => hf ⟨cause, e⟩) hl ht)

end Sys2Proof.Laws

/-! SUPPORT. The link of a port: the arrival of a request by the length of its queue, the end of a message by its link
check, and what SDOn sends next. -/

namespace Sys2Proof.Laws

open Sys2Proof Sys2Proof.Machine

/-! ### Arrival (R161, R165, R169) -/

theorem deaf_iff {s : State} {p : Port} : s.deaf p = true ↔ s.frst = true ∨ (s.port p).held = true := by
  simp [State.deaf]

theorem not_deaf {s : State} {p : Port} (hf : s.frst = false) (hh : (s.port p).held = false) : s.deaf p = false := by
  simp [State.deaf, hf, hh]

theorem arrive_of_deaf {s : State} {p : Port} (h : s.frst = true ∨ (s.port p).held = true) (q : Request) :
    arrive p q s = s := by
  simp [arrive, deaf_iff.2 h]

theorem arrive_of_room {s : State} {p : Port} (hd : s.deaf p = false) (h1 : 1 ≤ (s.port p).requests.length)
    (h2 : (s.port p).requests.length ≤ 3) (q : Request) : arrive p q s = s.onPort p (·.queueRequest q) := by
  have room : (s.port p).requests.length < Config.requestQueueMax := by simp only [Config.requestQueueMax]; omega
  have queued : (s.port p).requests.isEmpty = false := by
    rw [List.isEmpty_eq_false_iff, ← List.length_pos_iff]; exact h1
  simp [arrive, hd, room, queued]

theorem arrive_of_full {s : State} {p : Port} (hd : s.deaf p = false) (h : 4 ≤ (s.port p).requests.length)
    (q : Request) : arrive p q s = s.onPort p (·.addLinkAnswer (overrunAnswer q)) := by
  have full : ¬ (s.port p).requests.length < Config.requestQueueMax := by simp only [Config.requestQueueMax]; omega
  simp [arrive, hd, full]

/-- Settles O12: a request command is an arrival, which the state of the port's queue decides. -/
theorem arrivalJoinsTheQueueOrOverruns : Obligations.ArrivalJoinsTheQueueOrOverruns := by
  unfold Obligations.ArrivalJoinsTheQueueOrOverruns
  intro i p q s hi
  refine ⟨fun hd => ?_, fun hf hh => ⟨fun he => exec_taken hi ⟨hf, hh, he⟩, fun h1 h2 => ?_, fun h => ?_⟩⟩
  · rw [exec_request s hi, arrive_of_deaf hd]
  · rw [exec_request s hi, arrive_of_room (not_deaf hf hh) h1 h2]; rfl
  · rw [exec_request s hi, arrive_of_full (not_deaf hf hh) h]; rfl

/-! ### The end of a message (R160) -/

/-- A message that passes its link check stands for the command of the request in it. -/
theorem decodeMessage_ok {p : Port} {m : LineMessage} {i : Instr} (h : decodeMessage p m = .ok i) :
    ∃ q, linkCheck m = .ok q ∧ i = Instr.ofRequest p q := by
  simp only [decodeMessage] at h
  cases hq : linkCheck m with
  | error f => simp [hq, Except.map] at h
  | ok q => exact ⟨q, rfl, by simpa [hq, Except.map] using h.symm⟩

theorem decodeMessage_error {p : Port} {m : LineMessage} {f : LinkFault} (h : decodeMessage p m = .error f) :
    linkCheck m = .error f := by
  simp only [decodeMessage] at h
  cases hq : linkCheck m with
  | error f' => simpa [hq, Except.map] using h
  | ok q => simp [hq, Except.map] at h

theorem exec_messageEnd_of_ok {m : LineMessage} {q : Request} (h : linkCheck m = .ok q) (p : Port) (s : State) :
    exec (.messageEnd p m) s = .next (arrive p q s) := by
  simp only [exec, execMessageEnd, h]

theorem exec_messageEnd_of_error {m : LineMessage} {f : LinkFault} (h : linkCheck m = .error f) (p : Port)
    (s : State) : exec (.messageEnd p m) s =
      .next (if s.deaf p then s else s.onPort p (·.addLinkAnswer (linkErrorAnswer m))) := by
  simp only [exec, execMessageEnd, h]

/-- Settles O11, by the outcome of the link check. -/
theorem messageEndBringsItsRequestOrLinkError : Obligations.MessageEndBringsItsRequestOrLinkError := by
  unfold Obligations.MessageEndBringsItsRequestOrLinkError
  intro p m s
  refine ⟨fun i hi => ?_, fun f hf frst held => ?_, fun hd => ?_⟩
  · obtain ⟨q, hq, rfl⟩ := decodeMessage_ok hi
    exact ⟨_, exec_request s (ofRequest_request p q), exec_messageEnd_of_ok hq p s⟩
  · rw [exec_messageEnd_of_error (decodeMessage_error hf), not_deaf frst held]
    rfl
  · cases hq : linkCheck m with
    | error f => rw [exec_messageEnd_of_error hq, deaf_iff.2 hd]; rfl
    | ok q => rw [exec_messageEnd_of_ok hq, arrive_of_deaf hd]

/-! ### What SDOn sends next (R161, R162) -/

theorem startSending_of_busy {r : PortRecord} {m : Outgoing} (h : r.sending = some m) : r.startSending = r := by
  simp only [PortRecord.startSending, h]

theorem startSending_of_link {r : PortRecord} {a : LinkAnswer} {rest : List LinkAnswer} (h : r.sending = none)
    (ha : r.linkAnswers = a :: rest) : r.startSending =
      { r with sending := some (.link (a.response r.unanswered)), linkAnswers := rest, unanswered := 0 } := by
  simp only [PortRecord.startSending, h, ha]

theorem startSending_of_waiting {r : PortRecord} {x : Response} (h : r.sending = none) (ha : r.linkAnswers = [])
    (hw : r.waiting = some x) : r.startSending = { r with sending := some (.answer x), waiting := none } := by
  simp only [PortRecord.startSending, h, ha, hw]

theorem addLinkAnswer_of_room {r : PortRecord} (h : r.linkAnswers.length < 4) (a : LinkAnswer) :
    r.addLinkAnswer a = PortRecord.startSending { r with linkAnswers := r.linkAnswers ++ [a] } :=
  if_pos h

theorem addLinkAnswer_of_full {r : PortRecord} (h : 4 ≤ r.linkAnswers.length) (a : LinkAnswer) :
    r.addLinkAnswer a = { r with unanswered := min 255 (r.unanswered + 1) } :=
  if_neg (Nat.not_lt.2 h)

/-- Settles O13: an answer joins a list with room, and then SDOn starts what it can. -/
theorem linkAnswersGoOldestFirst : Obligations.LinkAnswersGoOldestFirst := by
  unfold Obligations.LinkAnswersGoOldestFirst
  refine fun r a => ⟨fun full => addLinkAnswer_of_full full a, fun m busy room => ?_, fun b rest idle joined room => ?_,
    fun x idle none => ?_, fun m x busy => ?_⟩
  · rw [addLinkAnswer_of_room room]
    exact startSending_of_busy (m := m) busy
  · rw [addLinkAnswer_of_room room]
    exact startSending_of_link (r := { r with linkAnswers := r.linkAnswers ++ [a] }) idle joined
  · exact startSending_of_waiting (r := { r with waiting := some x }) idle none rfl
  · exact startSending_of_busy (r := { r with waiting := some x }) busy

/-! ### The departure of a response (R162, R164) -/

theorem exec_responseSent_of_idle {s : State} {p : Port} (h : (s.port p).sending = none) :
    exec (.responseSent p) s = .next s := by
  simp only [exec, execResponseSent, h]

theorem exec_responseSent_of_link {s : State} {p : Port} {x : Response} (h : (s.port p).sending = some (.link x)) :
    exec (.responseSent p) s = .next (s.onPort p (fun r => { r with sending := none }.startSending)) := by
  simp only [exec, execResponseSent, h]

theorem exec_responseSent_of_answer {s : State} {p : Port} {x : Response}
    (h : (s.port p).sending = some (.answer x)) :
    exec (.responseSent p) s = .next (((if (s.port p).closing x then (s.onPort p PortRecord.dropHead).teardown p
      else s.onPort p PortRecord.dropHead).takeNext p).onPort p PortRecord.startSending) := by
  simp only [exec, execResponseSent, h]

/-- A response ends the session exactly where it is the OK of a GOODBYE (R164). -/
theorem closing_of_head {r : PortRecord} {q : Request} {rest : List Request} (h : r.requests = q :: rest)
    (x : Response) : r.closing x = true ↔ q.code = 0x02 ∧ x.status = .ok := by
  simp [PortRecord.closing, h, RequestCode.byte]

theorem dropHead_of_head {s : State} {p : Port} {q : Request} {rest : List Request}
    (h : (s.port p).requests = q :: rest) :
    s.onPort p PortRecord.dropHead = s.onPort p (fun r => { r with sending := none, requests := rest }) := by
  simp [State.onPort, PortRecord.dropHead, h]

theorem takeNext_of_nil {s : State} {p : Port} (h : (s.port p).requests = []) : s.takeNext p = s := by
  simp only [State.takeNext, h]

theorem takeNext_of_cons {s : State} {p : Port} {q : Request} {rest : List Request}
    (h : (s.port p).requests = q :: rest) : s.takeNext p = takeRequest p q s := by
  simp only [State.takeNext, h]

/-- Settles O14, by what SDOn was sending. -/
theorem responseSentTakesTheNextRequest : Obligations.ResponseSentTakesTheNextRequest := by
  unfold Obligations.ResponseSentTakesTheNextRequest
  refine fun p s => ⟨exec_responseSent_of_idle, fun x => exec_responseSent_of_link, ?_⟩
  intro x q rest hx hq stays s1
  have notClosing : ¬ (s.port p).closing x = true := by rw [closing_of_head hq]; tauto
  have requests : (s1.port p).requests = rest := by simp [s1, State.onPort]
  rw [exec_responseSent_of_answer hx, if_neg notClosing, dropHead_of_head hq]
  cases rest with
  | nil => rw [takeNext_of_nil requests]
  | cons q' rest => rw [takeNext_of_cons requests]

end Sys2Proof.Laws

/-! SUPPORT. Messages as bits and bytes: the receiver over a run of link bytes (R154), the cyclic check over a message
with its trailer (R155), the link check (R160) and the request header (Table 9-2) back from the bytes that a host
sends. -/

namespace Sys2Proof.Laws

open Sys2Proof Sys2Proof.Machine

/-! ### The receiver (R154) -/

/-- The lowest bits of a number, read back from the lowest up. -/
theorem foldr_testBit (n x : Nat) : ((List.range n).map x.testBit).foldr (fun b v => (if b then 1 else 0) + 2 * v) 0 =
    x % 2 ^ n := by
  induction n generalizing x with
  | zero => simp [Nat.mod_one]
  | succ n ih =>
    have upper : (x.testBit ∘ Nat.succ) = (x / 2).testBit := funext fun i => Nat.testBit_succ ..
    have lowest : (if x.testBit 0 then 1 else 0) = x % 2 := by
      rcases Nat.mod_two_eq_zero_or_one x with h | h <;> simp [h]
    rw [List.range_succ_eq_map, List.map_cons, List.map_map, upper, List.foldr_cons, ih, lowest, Nat.pow_succ',
      Nat.mod_mul]

/-- The data bits of a byte, least significant first, give the byte back. -/
theorem byteOfBits_getLsbD (b : Byte) : byteOfBits ((List.range 8).map fun i => b.getLsbD i) = b := by
  have value := foldr_testBit 8 b.toNat
  rw [Nat.mod_eq_of_lt b.isLt] at value
  exact (congrArg (BitVec.ofNat 8) value).trans (BitVec.ofNat_toNat 8 b |>.trans (BitVec.setWidth_eq b))

/-- The rest of a byte's data bits, up to its stop bit. -/
theorem receive_data (bits l : List Bool) (bs : List Bool) (acc : List Byte) (h : l.length + bits.length = 8)
    (hb : bits ≠ []) : receive (bits ++ bs) acc (.data l) = receive bs acc (.stop (byteOfBits (l ++ bits))) := by
  induction bits generalizing l with
  | nil => exact absurd rfl hb
  | cons b bits ih =>
    simp only [List.length_cons] at h
    rw [List.cons_append, receive]
    split
    · next last =>
      obtain rfl : bits = [] := List.length_eq_zero_iff.1 (by omega)
      rfl
    · next more =>
      have rest : bits ≠ [] := by rintro rfl; simp only [List.length_nil] at h; omega
      rw [ih (l ++ [b]) (by simp only [List.length_append, List.length_singleton]; omega) rest, List.append_assoc,
        List.singleton_append]

/-- The bits of one byte after its start bit. -/
theorem receive_started (b : Byte) (bs : List Bool) (acc : List Byte) :
    receive ((List.range 8).map (fun i => b.getLsbD i) ++ true :: bs) acc (.data []) =
      receive bs (acc ++ [b]) (.gap 0) := by
  rw [receive_data _ _ _ _ (by simp) (by simp), List.nil_append, byteOfBits_getLsbD]
  rfl

/-- The bits of one byte, wherever in a gap it begins. -/
theorem receive_byte (b : Byte) (bs : List Bool) (acc : List Byte) (k : Nat) :
    receive (byteBits b ++ bs) acc (.gap k) = receive bs (acc ++ [b]) (.gap 0) := by
  rw [← receive_started]
  simp [byteBits, receive]

/-- Periods of 1 that do not yet end the message. -/
theorem receive_ones (n k : Nat) (h : k + n ≤ 9) (bs : List Bool) (acc : List Byte) :
    receive (List.replicate n true ++ bs) acc (.gap k) = receive bs acc (.gap (k + n)) := by
  induction n generalizing k with
  | zero => rfl
  | succ n ih =>
    have early : k + 1 ≠ 10 := by omega
    rw [List.replicate_succ, List.cons_append, receive, if_pos rfl, if_neg early, ih (k + 1) (by omega)]
    congr 2; omega

/-- The ten periods of 1 that end the message, some of which may have gone by. -/
theorem receive_end (k : Nat) (h : k ≤ 9) (after : List Bool) (acc : List Byte) :
    receive (List.replicate 10 true ++ after) acc (.gap k) = some ⟨acc, false⟩ := by
  have split : List.replicate 10 true = List.replicate (9 - k) true ++ true :: List.replicate k true := by
    rw [← List.replicate_succ, List.replicate_append_replicate]; congr 1; omega
  have tenth : k + (9 - k) + 1 = 10 := by omega
  rw [split, List.append_assoc, receive_ones _ _ (by omega), List.cons_append, receive, if_pos rfl, if_pos tenth]

/-- A run of bytes and the ten periods of 1 after it. -/
theorem receive_run (run : List (Byte × Nat)) (h : ∀ x ∈ run, x.2 ≤ 9) (k : Nat) (hk : k ≤ 9) (after : List Bool)
    (acc : List Byte) :
    receive (runBits run ++ after) acc (.gap k) = some ⟨acc ++ run.map (·.1), false⟩ := by
  simp only [runBits]
  induction run generalizing k acc with
  | nil => simpa using receive_end k hk after acc
  | cons x run ih =>
    have gap : x.2 ≤ 9 := h x (by simp)
    simp only [List.flatMap_cons, List.append_assoc] at ih ⊢
    rw [receive_byte, receive_ones _ _ (by omega), ih (fun y hy => h y (by simp [hy])) _ (by omega)]
    simp

/-- Settles O9: the line's rest at 1 is passed over, and the first start bit begins the run. -/
theorem lineBitsGiveTheirBytes : Obligations.LineBitsGiveTheirBytes := by
  unfold Obligations.LineBitsGiveTheirBytes
  intro rest run after hne h
  induction rest with
  | succ n ih => simpa [List.replicate_succ, LineMessage.ofLine] using ih
  | zero =>
    obtain ⟨x, run, rfl⟩ := List.exists_cons_of_ne_nil hne
    have received := receive_run (x :: run) h 0 (by omega) after []
    simpa [runBits, byteBits, LineMessage.ofLine, receive] using received

/-! ### The cyclic check (R155) -/

/-- A register whose low bits are 0 only shifts. -/
theorem crcShift_iterate (k : Nat) (r : Half) (h : ∀ i < k, r.getLsbD i = false) :
    Nat.iterate crcShift k r = r >>> k := by
  induction k generalizing r with
  | zero => simp
  | succ k ih =>
    have shift : crcShift r = r >>> 1 := if_neg (by simpa using h 0 (by omega))
    rw [Function.iterate_succ_apply, shift, ih _ fun i hi => by simpa [Nat.add_comm] using h (i + 1) (by omega)]
    rw [← BitVec.shiftRight_add, Nat.add_comm]

/-- A byte equal to the register's low byte takes that byte out of it. -/
theorem crcByte_low (r : Half) (b : Byte) (h : b = r.extractLsb' 0 8) : crcByte r b = r >>> 8 := by
  subst h
  have low : ∀ i < 8, (r ^^^ (r.extractLsb' 0 8).zeroExtend 16).getLsbD i = false := by
    intro i hi
    have : i < 16 := by omega
    simp [hi, this]
  rw [crcByte, crcShift_iterate 8 _ low]
  ext i hi
  simp only [BitVec.getElem_ushiftRight, BitVec.getLsbD_xor, BitVec.getLsbD_setWidth, BitVec.getLsbD_extractLsb']
  have : ¬ 8 + i < 8 := by omega
  simp [this]

/-- The check over a message, its trailer included, ends at 0. -/
theorem crc_withTrailer (bytes : List Byte) : crc (withTrailer bytes) = 0 := by
  have both : ∀ r : Half, crcByte (crcByte r (r.extractLsb' 0 8)) (r.extractLsb' 8 8) = 0 := by
    intro r
    rw [crcByte_low r _ rfl, crcByte_low]
    · rw [← BitVec.shiftRight_add]
      exact BitVec.ushiftRight_eq_zero (by omega)
    · ext i hi
      simp [BitVec.getElem_extractLsb', Nat.add_comm]
  simp only [crc, withTrailer, bytes16, List.foldl_append, List.foldl_cons, List.foldl_nil]
  exact both _

/-! ### Fields of a header -/

theorem word16_bytes16 (h : Half) : word16 (h.extractLsb' 0 8) (h.extractLsb' 8 8) = h :=
  (BitVec.extractLsb'_append_extractLsb'_eq_extractLsb' rfl).trans BitVec.extractLsb'_eq_self

theorem word32_bytes32 (w : Word) :
    word32 (w.extractLsb' 0 8) (w.extractLsb' 8 8) (w.extractLsb' 16 8) (w.extractLsb' 24 8) = w := by
  have high : w.extractLsb' 24 8 ++ w.extractLsb' 16 8 = w.extractLsb' 16 16 :=
    BitVec.extractLsb'_append_extractLsb'_eq_extractLsb' rfl
  have upper : w.extractLsb' 16 16 ++ w.extractLsb' 8 8 = w.extractLsb' 8 24 :=
    BitVec.extractLsb'_append_extractLsb'_eq_extractLsb' rfl
  rw [word32, high, upper]
  exact (BitVec.extractLsb'_append_extractLsb'_eq_extractLsb' rfl).trans BitVec.extractLsb'_eq_self

/-! ### The link check (R160) -/

/-- A message of 12 bytes or more begins with a header's twelve. -/
theorem exists_header {bytes : List Byte} (h : 12 ≤ bytes.length) :
    ∃ code tag task flags t0 t1 l0 l1 a0 a1 a2 a3 rest,
      bytes = code :: tag :: task :: flags :: t0 :: t1 :: l0 :: l1 :: a0 :: a1 :: a2 :: a3 :: rest := by
  match bytes, h with
  | code :: tag :: task :: flags :: t0 :: t1 :: l0 :: l1 :: a0 :: a1 :: a2 :: a3 :: rest, _ =>
    exact ⟨code, tag, task, flags, t0, t1, l0, l1, a0, a1, a2, a3, rest, rfl⟩

/-- The link check of a message that has a header: its length field, its length and its CRC decide. -/
theorem linkCheck_of_header {m : LineMessage} {code tag task flags t0 t1 l0 l1 a0 a1 a2 a3 : Byte} {rest : List Byte}
    (hm : m.bytes = code :: tag :: task :: flags :: t0 :: t1 :: l0 :: l1 :: a0 :: a1 :: a2 :: a3 :: rest)
    (hf : m.framingFault = false) (hl : 14 ≤ m.bytes.length) :
    linkCheck m =
      if (word16 l0 l1).toNat > Config.payloadMax then .error .payloadTooLong
      else if m.bytes.length ≠ 14 + (word16 l0 l1).toNat then .error .wrongLength
      else if crc m.bytes ≠ 0 then .error .badCrc
      else .ok { code := code,
                 ops := { tag := tag, task := task, flags := flags, token := word16 t0 t1, arg := word32 a0 a1 a2 a3,
                          payload := rest.take (word16 l0 l1).toNat } } := by
  have long : ¬ m.bytes.length < 14 := by omega
  rw [linkCheck, if_neg (by simp [hf]), if_neg long]
  simp only [hm]

/-- Settles O10: without a fault and with a header's bytes the last three conditions decide. -/
theorem linkCheckPassesExactlySoundMessages : Obligations.LinkCheckPassesExactlySoundMessages := by
  unfold Obligations.LinkCheckPassesExactlySoundMessages
  intro m n
  by_cases hf : m.framingFault = false
  · by_cases hl : 14 ≤ m.bytes.length
    · have long : 12 ≤ m.bytes.length := by omega
      obtain ⟨code, tag, task, flags, t0, t1, l0, l1, a0, a1, a2, a3, rest, hm⟩ := exists_header long
      have hn : n = (word16 l0 l1).toNat := by simp [n, hm]
      rw [linkCheck_of_header hm hf hl, ← hn]
      rw [show Config.payloadMax = 8192 from rfl]
      by_cases h1 : n ≤ 8192
      · rw [if_neg (Nat.not_lt.2 h1)]
        by_cases h2 : m.bytes.length = 14 + n
        · rw [if_neg (not_not.2 h2)]
          by_cases h3 : crc m.bytes = 0
          · rw [if_neg (not_not.2 h3)]
            exact iff_of_true ⟨_, rfl⟩ ⟨hf, hl, h1, h2, h3⟩
          · rw [if_pos h3]
            exact iff_of_false (by simp) fun ⟨_, _, _, _, h⟩ => h3 h
        · simp [h2]
      · rw [if_pos (Nat.not_le.1 h1)]
        simp [h1]
    · have short : linkCheck m = .error .tooShort := by
        rw [linkCheck, if_neg (by simp [hf]), if_pos (by omega)]
      simp [short, hl]
  · have fault : linkCheck m = .error .framing := by rw [linkCheck, if_pos (by simpa using hf)]
    simp [fault, hf]

/-! ### A host's message back (R155, R156) -/

theorem length_encodeRequest (q : Request) : (encodeRequest q).length = 14 + q.ops.payload.length := by
  simp [encodeRequest, withTrailer, Request.header, bytes16, bytes32]; omega

/-- The message of a request whose payload fits passes the link check and holds that request. -/
theorem linkCheck_encodeRequest {q : Request} (h : q.ops.payload.length ≤ Config.payloadMax) :
    linkCheck { bytes := encodeRequest q, framingFault := false } = .ok q := by
  have length : (word16 ((BitVec.ofNat 16 q.ops.payload.length).extractLsb' 0 8)
      ((BitVec.ofNat 16 q.ops.payload.length).extractLsb' 8 8)).toNat = q.ops.payload.length := by
    simp only [Config.payloadMax] at h
    rw [word16_bytes16, BitVec.toNat_ofNat]
    omega
  rw [linkCheck_of_header (m := ⟨encodeRequest q, false⟩) rfl rfl (by rw [length_encodeRequest]; omega), length,
    if_neg (by omega), if_neg (by simp [length_encodeRequest]), if_neg (by simp [encodeRequest, crc_withTrailer])]
  simp [word16_bytes16, word32_bytes32]

/-- A well-formed request command is the one its request stands for. -/
theorem ofRequest_of_request {i : Instr} {p : Port} {q : Request} (hi : i.request = some (p, q)) (hw : WellFormed i) :
    Instr.ofRequest p q = i := by
  cases i <;> simp only [Instr.request, Option.some.injEq, Prod.mk.injEq, reduceCtorEq] at hi <;>
    obtain ⟨rfl, rfl⟩ := hi
  case unknownCode p code o =>
    simp only [WellFormed, Instr.wellFormed, Bool.and_eq_true, Option.isNone_iff_eq_none] at hw
    simp [Instr.ofRequest, hw.2]
  all_goals simp [Instr.ofRequest]

theorem fits_of_wellFormed {i : Instr} {p : Port} {q : Request} (hi : i.request = some (p, q)) (hw : WellFormed i) :
    q.ops.payload.length ≤ Config.payloadMax := by
  cases i <;> simp only [Instr.request, Option.some.injEq, Prod.mk.injEq, reduceCtorEq] at hi <;>
    obtain ⟨rfl, rfl⟩ := hi <;> simp_all [WellFormed, Instr.wellFormed, Operands.fits]

/-- Settles O8: the header, the payload and the trailer are read back as they were written. -/
theorem requestMessagesDecodeToTheirCommands : Obligations.RequestMessagesDecodeToTheirCommands := by
  unfold Obligations.RequestMessagesDecodeToTheirCommands
  refine ⟨by decide, fun i p q hi hw => ⟨encodeRequest q, by simp [encode, hi], length_encodeRequest q,
    crc_withTrailer _, ?_⟩⟩
  rw [decodeMessage, linkCheck_encodeRequest (fits_of_wellFormed hi hw), ← ofRequest_of_request hi hw]
  rfl

/-! ### Codes that name no request (R170) -/

theorem reply_of_unknown {q : Request} (h : RequestCode.ofByte q.code = none) (st : Status) :
    reply q st = answerTo q.ops st 0 0 := by
  simp [reply, answerTo, Request.echoToken, h, Notes.none]

/-- The header of zeros is that of a request with code 00h and every operand 0. -/
theorem linkCheck_zeros {rest : List Byte} (hl : rest.length = 2) (hc : crc (List.replicate 12 0x00 ++ rest) = 0) :
    linkCheck { bytes := List.replicate 12 0x00 ++ rest, framingFault := false } =
      .ok ⟨0x00, { tag := 0, task := 0, flags := 0, token := 0, arg := 0, payload := [] }⟩ := by
  rw [linkCheck_of_header (m := ⟨List.replicate 12 0x00 ++ rest, false⟩) rfl rfl (by simp [hl])]
  have zero : (word16 0 0).toNat = 0 := rfl
  rw [zero, if_neg (by decide), if_neg (by simp [hl]), if_neg (not_not.2 hc)]
  rfl

theorem takeRequest_of_unknown {p : Port} {q : Request} (h : RequestCode.ofByte q.code = none) (s : State) :
    takeRequest p q s = s.refuse p q (if (s.port p).session = .online then .badParam else .notOnline) := by
  simp only [takeRequest, h, takeUnknownCode]
  split <;> rfl

/-- Settles O19: the two headers are read by the link check, and a code that is not in the table is refused at step 2 or
at step 4. -/
theorem unknownCodesHaveNoEffect : Obligations.UnknownCodesHaveNoEffect := by
  unfold Obligations.UnknownCodesHaveNoEffect
  refine ⟨by decide, by decide, fun p rest hl hc => ?_, fun p rest hl => ?_, fun p code o s hs hcode => ?_⟩
  · rw [decodeMessage, linkCheck_zeros hl hc]
    rfl
  · rw [decodeMessage, linkCheck_of_header (m := ⟨List.replicate 12 0xFF ++ rest, false⟩) rfl rfl (by simp; omega)]
    rfl
  · have run : exec (.unknownCode p code o) s = .next ((s.arrived p ⟨code, o⟩).respond p
        (answerTo o (if (s.port p).session = .online then .badParam else .notOnline) 0 0)) := by
      rw [exec_taken rfl hs, takeRequest_of_unknown hcode, State.refuse, reply_of_unknown hcode]
      simp only [arrived_port, if_true]
    exact ⟨fun off => by simpa [off] using run, fun on => by simpa [on] using run⟩

end Sys2Proof.Laws

/-! SUPPORT. What the part sends: fields, records and messages on the wire (R155, R157 to R159) and the line that
carries them (R154). -/

namespace Sys2Proof.Laws

open Sys2Proof Sys2Proof.Machine

/-! ### Fields -/

theorem bytes16_eq (h : Half) : bytes16 h = [BitVec.ofNat 8 h.toNat, BitVec.ofNat 8 (h.toNat / 256)] := by
  have low : h.extractLsb' 0 8 = BitVec.ofNat 8 h.toNat := by
    apply BitVec.eq_of_toNat_eq; simp
  have high : h.extractLsb' 8 8 = BitVec.ofNat 8 (h.toNat / 256) := by
    apply BitVec.eq_of_toNat_eq; simp [Nat.shiftRight_eq_div_pow]
  rw [bytes16, low, high]

theorem wire16_eq (n : Nat) : wire16 n = [BitVec.ofNat 8 n, BitVec.ofNat 8 (n / 256)] := by
  rw [wire16, bytes16_eq, BitVec.toNat_ofNat]
  congr 1
  · apply BitVec.eq_of_toNat_eq; simp only [BitVec.toNat_ofNat]; omega
  · congr 1
    apply BitVec.eq_of_toNat_eq; simp only [BitVec.toNat_ofNat]; omega

theorem bytes32_eq (w : Word) : bytes32 w = wire16 (w.toNat % 65536) ++ wire16 (w.toNat / 65536) := by
  have byte : ∀ i n, n % 256 = w.toNat / 2 ^ i % 256 → w.extractLsb' i 8 = BitVec.ofNat 8 n := by
    intro i n h
    apply BitVec.eq_of_toNat_eq
    rw [BitVec.extractLsb'_toNat, BitVec.toNat_ofNat, Nat.shiftRight_eq_div_pow, h]
  rw [bytes32, wire16_eq, wire16_eq, byte 0 (w.toNat % 65536) (by omega), byte 8 (w.toNat % 65536 / 256) (by omega),
    byte 16 (w.toNat / 65536) (by omega), byte 24 (w.toNat / 65536 / 256) (by omega)]
  rfl

/-- A set of ports is a byte with port n as bit n. -/
theorem wirePorts_eq (w : PortSet) : wirePorts w = wire8 w.toNat := by
  have byte : w.zeroExtend 8 = BitVec.ofNat 8 w.toNat := by
    apply BitVec.eq_of_toNat_eq; simp
  rw [wirePorts, byte, wire8]

/-- An optional one-byte field holds its number, or FFh. -/
theorem wireOpt_one {α : Type} {f : α → List Byte} {g : α → Nat} (h : ∀ a, f a = wire8 (g a)) (x : Option α) :
    wireOpt 1 f x = ((x.map g).map wire8).getD [0xFF] := by
  cases x with
  | none => rfl
  | some a => exact h a

/-- A set of locks has lock n as bit n. -/
theorem lockBits (ls among : LockSet) (l : LockNo) :
    (among.foldr (fun l w => if l ∈ ls then w ||| (1#32 <<< l.val) else w) 0#32).getLsbD l.val =
      decide (l ∈ among ∧ l ∈ ls) := by
  induction among with
  | nil => simp
  | cons m among ih =>
    have bit : (1#32 <<< m.val).getLsbD l.val = decide (l = m) := by
      have := l.isLt
      rw [BitVec.getLsbD_shiftLeft, BitVec.getLsbD_one, Bool.eq_iff_iff]
      simp only [Bool.and_eq_true, Bool.not_eq_true', decide_eq_true_eq, decide_eq_false_iff_not, Fin.ext_iff]
      omega
    rw [List.foldr_cons]
    simp only [List.mem_cons, or_and_right]
    split
    · next hm =>
      have own : l = m → l ∈ ls := fun e => e ▸ hm
      rw [BitVec.getLsbD_or, ih, bit, Bool.eq_iff_iff]
      simp only [Bool.or_eq_true, decide_eq_true_eq]
      tauto
    · next hm =>
      have other : ¬ (l = m ∧ l ∈ ls) := fun ⟨e, h⟩ => hm (e ▸ h)
      rw [ih]
      simp only [other, false_or]

theorem wireLocks_bits (ls : LockSet) :
    ∃ w : Word, wireLocks ls = bytes32 w ∧ ∀ l : LockNo, w.getLsbD l.val = decide (l ∈ ls) :=
  ⟨_, rfl, fun l => by rw [lockBits]; simp⟩

/-! ### Messages on the line -/

/-- The bits that carry a message are received as its bytes, however they are spaced. -/
theorem ofLine_sendRun {bytes : List Byte} (h : bytes ≠ []) :
    LineMessage.ofLine (runBits (sendRun bytes)) = some { bytes := bytes, framingFault := false } := by
  have sent : (sendRun bytes).map (·.1) = bytes := by
    simp only [sendRun, List.map_map, Function.comp_def, List.zipIdx_map_fst]
  have spaced : ∀ x ∈ sendRun bytes, x.2 ≤ 9 := by
    intro x hx
    obtain ⟨y, -, rfl⟩ := List.mem_map.1 hx
    exact Nat.le_of_lt_succ (Config.sendGap bytes y.2).isLt
  have some_ : sendRun bytes ≠ [] := fun e => h (by rw [← sent, e]; rfl)
  simpa [sent] using lineBitsGiveTheirBytes 0 (sendRun bytes) [] some_ spaced

theorem wire_ne_nil (r : Response) : r.wire ≠ [] := by simp [Response.wire, withTrailer, Response.header]

/-- Settles O28: each record is its fields in order, and each field is written by the rule for its width. -/
theorem responsesGoOutByTheirTables : Obligations.ResponsesGoOutByTheirTables := by
  unfold Obligations.ResponsesGoOutByTheirTables
  intro one two four opt1 opt2 opt4 bit level start
  have eight : wire8 = one := rfl
  have sixteen : wire16 = two := funext wire16_eq
  have thirtyTwo : bytes32 = four := funext fun w => by rw [bytes32_eq, sixteen]
  have half : ∀ h : Half, bytes16 h = two h.toNat := bytes16_eq
  have ports : ∀ w : PortSet, wirePorts w = one w.toNat := wirePorts_eq
  have bools : ∀ b, wireBool b = one (bit b 1) := fun _ => rfl
  have levels : ∀ o, Origin.wire o = one (level o) := fun o => by cases o <;> rfl
  have starts : ∀ o, StartKind.wire o = one (start o) := fun o => by cases o <;> rfl
  have opts {α : Type} {f : α → List Byte} (g : α → Nat) (h : ∀ a, f a = one (g a)) (x : Option α) :
      wireOpt 1 f x = opt1 (x.map g) := wireOpt_one h x
  have numbers {n : Nat} (x : Option (Fin n)) : wireOpt 1 (fun a => one a.val) x = opt1 (x.map (·.val)) :=
    wireOpt_one (fun _ => rfl) x
  have bytes (x : Option Nat) : wireOpt 1 one x = opt1 x := by cases x <;> rfl
  have pairs (x : Option Nat) : wireOpt 2 two x = opt2 x := by cases x <;> rfl
  have pages (x : Option PageNo) : wireOpt 2 (fun n => two n.val) x = opt2 (x.map (·.val)) := by cases x <;> rfl
  have words (x : Option Word) : wireOpt 4 four x = opt4 x := by cases x <;> rfl
  have sets (x : Option LockSet) : wireOpt 4 wireLocks x = (x.map wireLocks).getD (opt4 none) := by cases x <;> rfl
  refine ⟨fun r => ?_, by decide, fun ls => ?_, fun x => ?_, fun x => ?_, fun x => ?_, fun x => ?_, fun x => ?_,
    fun x => ?_, fun x => ?_, fun n => ?_, fun r => ⟨fun h => ?_, fun x h => ?_⟩⟩
  · refine ⟨?_, crc_withTrailer _⟩
    simp only [Response.wire, withTrailer, half, Response.header, sixteen, thirtyTwo, Response.payload]
    rfl
  · rw [← thirtyTwo]
    exact wireLocks_bits ls
  · cases x <;> simp [ResultRecord.section_, ResultRecord.inPayload]
  · simp only [ResultRecord.inPayload, HelloRecord.wire, half, sixteen]
    rfl
  · intro state mode phase op
    have states : ∀ a, TaskState.wire a = one (state a) := fun a => by cases a <;> rfl
    have modes : ∀ a, ResumeMode.wire a = one (mode a) := fun a => by cases a <;> rfl
    have phases : ∀ a, Phase.wire a = one (phase a) := fun a => by cases a <;> rfl
    have ops : ∀ a, OpKind.wire a = one (op a) := fun a => by cases a <;> rfl
    simp only [ResultRecord.inPayload]
    -- `delta`, since the equation lemma of so wide a record takes seconds to make
    delta TaskRecord.wire
    simp only [eight, sixteen, thirtyTwo, ports, states, modes, opts _ levels, opts _ starts, opts _ phases,
      opts _ ops, numbers, pairs, words]
  · simp only [ResultRecord.section_, ClaimRecord.wire, eight, sixteen, thirtyTwo, levels, starts, opts _ levels,
      opts _ bools, numbers, bytes, pairs, words, sets]
  · simp only [ResultRecord.section_, PeekRecord.wire, eight, sixteen, thirtyTwo, levels, bools]
  · intro kind
    have kinds : ∀ a, HolderKind.wire a = one (kind a) := fun a => by cases a <;> rfl
    simp only [ResultRecord.inPayload, LockRecord.wire, eight, opts _ kinds, numbers, bytes]
  · simp only [ResultRecord.inPayload, MemoryRecord.wire, sixteen, pages]
  · cases n <;> simp only [ResultRecord.inPayload, Notice.wire, sixteen] <;> rfl
  · simp only [PortRecord.sdo, h]
  · simp only [PortRecord.sdo, h]
    exact ofLine_sendRun (wire_ne_nil _)

end Sys2Proof.Laws

/-! SUPPORT. The requests that a port engine carries out itself: HELLO, GOODBYE, GRANT-RIGHTS and FETCH-NOTICE. -/

namespace Sys2Proof.Laws

open Sys2Proof Sys2Proof.Machine

/-! ### Answers -/

/-- The answer to a request of the table, its token echoed where it bears one (R157). -/
theorem reply_of_code {q : Request} {c : RequestCode} (hq : q.code = c.byte) (st : Status) :
    reply q st = answerTo q.ops st (if c.tokenBearing then q.ops.token else 0) 0 := by
  simp [reply, answerTo, echoToken_of_code hq, Notes.none]

/-- The answer to a request that bears no token. -/
theorem reply_plain {q : Request} {c : RequestCode} (hq : q.code = c.byte) (hc : c.tokenBearing = false) (st : Status) :
    reply q st = answerTo q.ops st 0 0 := by
  rw [reply_of_code hq, hc]
  rfl

theorem bare_iff {o : Operands} : o.bare = true ↔ o.flags = 0 ∧ o.payload = [] := by
  simp [Operands.bare]

theorem bare_of {o : Operands} (hf : o.flags = 0) (hp : o.payload = []) : o.bare = true := bare_iff.2 ⟨hf, hp⟩

/-! ### HELLO -/

/-- HELLO passes steps 2 and 3 on every port (R163, R167). -/
theorem exec_hello {s : State} {p : Port} {o : Operands} (hs : s.takesAtOnce p) (ho : o.bare = true) :
    exec (.hello p o) s = .next (takeHello p ⟨0x01, o⟩ (s.arrived p ⟨0x01, o⟩)) := by
  rw [exec_taken rfl hs, takeRequest, show RequestCode.ofByte RequestCode.hello.byte = some .hello from rfl]
  simp [Rights.allow, neededRight, operandsOk, ho, carryOut, RequestCode.byte]

/-- Settles O20, by the port's session. -/
theorem helloOpensASession : Obligations.HelloOpensASession := by
  unfold Obligations.HelloOpensASession
  intro p o s hs hf hp s1 s2
  rw [exec_hello hs (bare_of hf hp), takeHello, reply_plain (c := .hello) rfl rfl]
  simp only [arrived_port, if_true, s2]
  rfl

/-! ### GOODBYE -/

theorem claimsOf_eq (s : State) (p : Port) :
    s.claimsOf p = (List.finRange 64).filter (fun t => (s.claimOf t).map (·.port) = some p) := by
  refine List.filter_congr fun t _ => ?_
  rw [Bool.eq_iff_iff, Option.any_eq_true]
  simp only [State.claimOf, Option.map_eq_some_iff, decide_eq_true_eq, beq_iff_eq]

/-- Settles O21: the taking answers, and the departure of that answer tears down. -/
theorem goodbyeIsAnsweredThenTearsDown : Obligations.GoodbyeIsAnsweredThenTearsDown := by
  unfold Obligations.GoodbyeIsAnsweredThenTearsDown
  refine ⟨?_, fun p s x q rest hx hq hcode hst => ?_⟩
  · intro p o s ha hf hp n
    rw [exec_admitted rfl rfl ha (bare_of hf hp), carryOut, takeGoodbye, reply_plain (c := .goodbye) rfl rfl,
      claimsOf_eq]
    rfl
  · rw [exec_responseSent_of_answer hx, if_pos ((closing_of_head hq x).2 ⟨hcode, hst⟩), dropHead_of_head hq]

/-! ### GRANT-RIGHTS (R168) -/

/-- The fields of a GRANT-RIGHTS argument word. -/
theorem grantFields {o : Operands} {target : Port} {b : Fin 8}
    (h : o.arg = BitVec.ofNat 32 (target.val + 256 * b.val)) :
    o.grantTarget.toNat = target.val ∧ o.grantByte = BitVec.ofNat 8 b.val ∧ highHalf o.arg = 0 := by
  simp only [Operands.grantTarget, Operands.grantByte, highHalf, h]
  clear h
  revert target b
  decide

theorem operandsOk_grantRights {o : Operands} {target : Port} {b : Fin 8} (hb : o.bare = true)
    (h : o.arg = BitVec.ofNat 32 (target.val + 256 * b.val)) : operandsOk o .grantRights = true := by
  obtain ⟨h1, h2, h3⟩ := grantFields h
  have := target.isLt
  have := b.isLt
  simp [operandsOk, hb, h1, h2, h3]
  omega

/-- A rights byte of Table 9-4 as a set, and back. -/
theorem rights_of_byte (b : Fin 8) :
    Rights.ofByte (BitVec.ofNat 8 b.val) =
        { define := b.val.testBit 0, evict := b.val.testBit 1, grant := b.val.testBit 2 }
      ∧ (Rights.ofByte (BitVec.ofNat 8 b.val)).toByte.toNat = b.val := by
  revert b; decide

/-- Some port would hold GRANT with the target's set replaced. -/
theorem someGrant_withRights (s : State) (target : Port) (x : Rights) :
    (s.onPort target (·.withRights x)).someGrant = true ↔
      ∃ r, (if r = target then x else (s.port r).rights).grant = true := by
  simp only [State.someGrant, List.any_eq_true, List.mem_finRange, true_and, State.onPort, port_setPort]
  refine exists_congr fun r => ?_
  split <;> rfl

theorem takeGrantRights_eq {p target : Port} {b : Fin 8} {o : Operands} {s : State}
    (h : o.arg = BitVec.ofNat 32 (target.val + 256 * b.val)) (x : Rights) (hx : Rights.ofByte o.grantByte = x) :
    takeGrantRights p ⟨0x03, o⟩ s =
      if (s.onPort target (·.withRights x)).someGrant then
        (s.onPort target (·.withRights x)).respond p
          (answerTo o .ok 0 (halves (s.port target).rights.toByte.toNat b.val))
      else s.respond p (answerTo o .lastGrant 0 0) := by
  obtain ⟨h1, h2, -⟩ := grantFields h
  obtain ⟨-, back⟩ := rights_of_byte b
  have ht : Fin.ofNat 4 target.val = target := Fin.ext (Nat.mod_eq_of_lt target.isLt)
  subst hx
  simp only [takeGrantRights, h1, ht, State.refuse, reply_plain (q := ⟨0x03, o⟩) (c := .grantRights) rfl rfl]
  rw [h2, back]
  rfl

/-- Settles O22, by whether some port would still hold GRANT. -/
theorem grantRightsReplacesOneSet : Obligations.GrantRightsReplacesOneSet := by
  unfold Obligations.GrantRightsReplacesOneSet
  intro p target b o s ha hf hp harg x s1
  have hx : Rights.ofByte o.grantByte = x := by
    obtain ⟨-, h2, -⟩ := grantFields harg
    rw [h2]
    exact (rights_of_byte b).1
  have rights : ∀ r, (s1.port r).rights = (s.port r).rights := fun r => by
    simp only [s1, arrived_port]
    split
    · next e => rw [e]
    · rfl
  have some_ := someGrant_withRights s1 target x
  simp only [rights] at some_
  rw [exec_admitted rfl rfl ha (operandsOk_grantRights (bare_of hf hp) harg), carryOut]
  refine ⟨fun h => ?_, fun h => ?_⟩
  · refine congrArg _ ((takeGrantRights_eq (s := s1) harg x hx).trans ?_)
    rw [if_pos (some_.2 h), rights]
    rfl
  · refine congrArg _ ((takeGrantRights_eq (s := s1) harg x hx).trans (if_neg fun g => ?_))
    obtain ⟨r, hr⟩ := some_.1 g
    rw [h r] at hr
    cases hr

/-! ### FETCH-NOTICE (R147, R149) -/

theorem fetch_of_none_lost {r : PortRecord} {x : Notice} {rest : List Notice} (on : r.session = .online)
    (h : r.notices = x :: rest) (hl : r.lost = 0) :
    r.fetch = { r with notices := rest, attention := !rest.isEmpty } := by
  simp [PortRecord.fetch, PortRecord.driveLine, hl, h, on]

theorem fetch_of_lost {r : PortRecord} {x : Notice} {rest : List Notice} (on : r.session = .online)
    (h : r.notices = x :: rest) (hl : r.lost ≠ 0) :
    r.fetch = { r with notices := rest ++ [.noticesLost r.lost], lost := 0, attention := true } := by
  have queued : (rest ++ [Notice.noticesLost r.lost]).isEmpty = false := List.isEmpty_eq_false_iff.2 (by simp)
  simp [PortRecord.fetch, PortRecord.driveLine, hl, h, on, queued]

theorem takeFetchNotice_of_nil {p : Port} {s : State} (h : (s.port p).notices = []) (o : Operands) :
    takeFetchNotice p ⟨0x04, o⟩ s = s.respond p { answerTo o .none 0 0 with task := 0xFF } := by
  simp only [takeFetchNotice, h, reply_plain (q := ⟨0x04, o⟩) (c := .fetchNotice) rfl rfl]

theorem takeFetchNotice_of_cons {p : Port} {s : State} {x : Notice} {rest : List Notice}
    (h : (s.port p).notices = x :: rest) (o : Operands) :
    takeFetchNotice p ⟨0x04, o⟩ s = (s.onPort p PortRecord.fetch).respond p
      { answerTo o .ok 0 (halves (s.port p).fetch.notices.length 0) (.notice x) with task := 0xFF } := by
  simp only [takeFetchNotice, h, reply_plain (q := ⟨0x04, o⟩) (c := .fetchNotice) rfl rfl]
  rfl

/-- Settles O23, by the port's queue and its lost count. -/
theorem fetchNoticeTakesTheHead : Obligations.FetchNoticeTakesTheHead := by
  unfold Obligations.FetchNoticeTakesTheHead
  intro p o s ha hf hp s1 answer
  have ⟨_, on, _⟩ := ha
  have port : s1.port p = { s.port p with requests := (s.port p).requests ++ [⟨0x04, o⟩] } := by simp [s1]
  have run : exec (.fetchNotice p o) s = .next (takeFetchNotice p ⟨0x04, o⟩ s1) :=
    exec_admitted rfl rfl ha (bare_of hf hp)
  have fetched {r : PortRecord} (h : (s1.port p).fetch = r) : s1.onPort p PortRecord.fetch = s1.setPort p r := by
    rw [State.onPort, h]
  refine ⟨fun h => ?_, fun x rest h hl => ?_, fun x rest h hl => ?_⟩
  · rw [run, takeFetchNotice_of_nil (by rw [port, h])]
    rfl
  · have e := fetch_of_none_lost (r := s1.port p) (by rw [port, on]) (by rw [port, h]) (by rw [port, hl])
    rw [run, takeFetchNotice_of_cons (by rw [port, h]), fetched e, e]
    rfl
  · have e := fetch_of_lost (r := s1.port p) (by rw [port, on]) (by rw [port, h]) (by rw [port]; exact hl)
    rw [run, takeFetchNotice_of_cons (by rw [port, h]), fetched e, e]
    simp only [List.length_append, List.length_singleton, port]
    simp only [State.onPort, port]
    rfl

end Sys2Proof.Laws

/-! SUPPORT. The checks of a request in the order of Table 10-2: session and right, operands, objects, token. -/

namespace Sys2Proof.Laws

open Sys2Proof Sys2Proof.Machine

/-! ### Steps 2 to 4 -/

/-- The taking of a request of the table. -/
theorem takeRequest_of_code {q : Request} {c : RequestCode} (hq : q.code = c.byte) (p : Port) (s : State) :
    takeRequest p q s =
      if (s.port p).session = .offline ∧ c ≠ .hello then s.refuse p q .notOnline
      else if !(s.port p).rights.allow c then s.refuse p q .noRight
      else if !operandsOk q.ops c then s.refuse p q .badParam
      else carryOut p q s c := by
  simp only [takeRequest, hq, ofByte_byte]

/-- The column of rights in Table 10-1 (R167). -/
theorem allow_iff (x : Rights) (c : RequestCode) : x.allow c = match c with
    | .define | .discard | .retune | .salvage | .lockNew | .lockReturn => x.define
    | .evict => x.evict
    | .grantRights => x.grant
    | _ => true := by
  cases c <;> simp [Rights.allow, neededRight, Rights.has]

/-- Settles O15: each clause passes the tests before its own. -/
theorem stepsTwoToFourRefuseInOrder : Obligations.StepsTwoToFourRefuseInOrder := by
  unfold Obligations.StepsTwoToFourRefuseInOrder
  refine ⟨fun x => ?_, ?_⟩
  · simp [allow_iff]
  · intro i p q c s hi hq hs answered
    have session : ((s.arrived p q).port p).session = (s.port p).session := by simp
    have rights : ((s.arrived p q).port p).rights = (s.port p).rights := by simp
    have refused : ∀ st, (s.arrived p q).refuse p q st = answered st := fun st => by
      rw [State.refuse, reply_of_code hq]
    rw [exec_taken hi hs, takeRequest_of_code hq, session, rights]
    simp only [refused]
    refine ⟨fun off hc => ?_, fun on hr => ?_, fun on hr ho => ?_⟩
    · rw [if_pos ⟨off, hc⟩]
    · rw [if_neg (by simp [on]), if_pos (by simp [hr])]
    · have passed : ¬ ((s.port p).session = .offline ∧ c ≠ .hello) := by
        rintro ⟨off, hc⟩
        rcases on with on | rfl
        · rw [off] at on; cases on
        · exact hc rfl
      rw [if_neg passed, if_neg (by simp [hr]), if_pos (by simp [ho])]

/-! ### Fields of the operands -/

theorem namesTask_iff {o : Operands} : o.namesTask = true ↔ o.task.toNat ≤ 63 := by
  simp only [Operands.namesTask, taskOf]
  split <;> simp <;> omega

theorem namesLock_iff {o : Operands} : o.namesLock = true ↔ o.arg.toNat ≤ 31 := by
  simp only [Operands.namesLock, lockOf]
  split <;> simp <;> omega

theorem offset_eq (o : Operands) : o.offset = o.arg.toNat % 65536 := by
  simp [Operands.offset, lowHalf]

theorem highHalf_toNat (w : Word) : (highHalf w).toNat = w.toNat / 65536 := by
  have := w.isLt
  simp only [highHalf, BitVec.extractLsb'_toNat, Nat.shiftRight_eq_div_pow]
  omega

theorem readLength_eq (o : Operands) : o.readLength = o.arg.toNat / 65536 := highHalf_toNat o.arg

theorem highHalf_zero_iff {w : Word} : highHalf w = 0 ↔ w.toNat / 65536 = 0 := by
  rw [← highHalf_toNat, BitVec.toNat_eq]
  rfl

theorem lengthOk_iff {n : Nat} : lengthOk n = true ↔ 4 ≤ n ∧ n ≤ 8192 ∧ n % 4 = 0 := by
  simp only [lengthOk, Bool.and_eq_true, decide_eq_true_eq, beq_iff_eq]
  simp only [Config.payloadMax]
  omega

theorem flags_le_one_iff {b : Byte} : b.toNat ≤ 1 ↔ b = 0 ∨ b = 1 := by
  rw [BitVec.toNat_eq, BitVec.toNat_eq]
  simp
  omega

/-- The target port and the rights byte of a GRANT-RIGHTS and the zero above them (R168). -/
theorem grantOperands_iff {o : Operands} :
    o.grantTarget.toNat ≤ 3 ∧ o.grantByte.toNat ≤ 7 ∧ highHalf o.arg = 0 ↔
      o.arg.toNat % 256 ≤ 3 ∧ o.arg.toNat / 256 ≤ 7 := by
  have := o.arg.isLt
  simp only [highHalf_zero_iff, Operands.grantTarget, Operands.grantByte, BitVec.extractLsb'_toNat,
    Nat.shiftRight_eq_div_pow]
  omega

/-! ### The parameter record (Table 9-6) -/

theorem word16_toNat (a b : Byte) : (word16 a b).toNat = a.toNat + 256 * b.toNat := by
  simp only [word16, BitVec.toNat_append]
  have := a.isLt
  rw [← Nat.shiftLeft_add_eq_or_of_lt this, Nat.shiftLeft_eq]
  omega

theorem word32_toNat (a b c d : Byte) :
    (word32 a b c d).toNat = a.toNat + 256 * b.toNat + 65536 * c.toNat + 16777216 * d.toNat := by
  simp only [word32, BitVec.toNat_append]
  rw [← Nat.shiftLeft_add_eq_or_of_lt a.isLt, ← Nat.shiftLeft_add_eq_or_of_lt b.isLt,
    ← Nat.shiftLeft_add_eq_or_of_lt c.isLt]
  simp only [Nat.shiftLeft_eq]
  omega

/-- What a parameter record must hold and is read as, byte by byte (R11, R19, Table 9-6). -/
def Reads16 (bytes : List Byte) (x : Params) : Prop :=
  let b := fun i => (bytes.getD i 0).toNat
  bytes.length = 16 ∧ x.frameLimit = b 0 ∧ x.framePages = b 1 ∧ x.dataPages = b 2
    ∧ (b 3 = 0 ∧ x.resumeMode = .restore ∨ b 3 = 1 ∧ x.resumeMode = .notify)
    ∧ x.affinity.toNat = b 4 ∧ 1 ≤ b 4 ∧ b 4 ≤ 15 ∧ x.watch.toNat = b 5 ∧ b 5 ≤ 15
    ∧ x.leasePeriod = b 6 + 256 * b 7 ∧ x.leasePeriod ≤ 60000
    ∧ x.entryWord.toNat = b 8 + 256 * b 9 + 65536 * b 10 + 16777216 * b 11
    ∧ b 12 = 0 ∧ b 13 = 0 ∧ b 14 = 0 ∧ b 15 = 0

/-- A list of 16 bytes, byte by byte. -/
theorem exists_sixteen {bytes : List Byte} (h : bytes.length = 16) :
    ∃ b0 b1 b2 b3 b4 b5 b6 b7 b8 b9 b10 b11 b12 b13 b14 b15,
      bytes = [b0, b1, b2, b3, b4, b5, b6, b7, b8, b9, b10, b11, b12, b13, b14, b15] := by
  match bytes, h with
  | [b0, b1, b2, b3, b4, b5, b6, b7, b8, b9, b10, b11, b12, b13, b14, b15], _ =>
    exact ⟨b0, b1, b2, b3, b4, b5, b6, b7, b8, b9, b10, b11, b12, b13, b14, b15, rfl⟩

theorem toNat_eq_zero_iff {w : Nat} {b : BitVec w} : b.toNat = 0 ↔ b = 0 := by
  rw [BitVec.toNat_eq]; simp

theorem readParams_iff {bytes : List Byte} {x : Params} : readParams bytes = some x ↔ Reads16 bytes x := by
  by_cases h : bytes.length = 16
  · obtain ⟨limit, pages, data, mode, aff, watch, l0, l1, e0, e1, e2, e3, z0, z1, z2, z3, rfl⟩ := exists_sixteen h
    have lease := word16_toNat l0 l1
    have entry := word32_toNat e0 e1 e2 e3
    simp only [readParams, Option.ite_none_right_eq_some, Option.some.injEq]
    simp only [Config.leaseMax]
    constructor
    · rintro ⟨⟨h1, h2, h3, h4, h5, rfl, rfl, rfl, rfl⟩, rfl⟩
      refine ⟨h, rfl, rfl, rfl, ?_, ?_, ?_, ?_, ?_, ?_, lease, h5, entry, rfl, rfl, rfl, rfl⟩
      · by_cases hm : mode = 0
        · exact .inl ⟨by simp [hm], if_pos hm⟩
        · have : mode.toNat ≠ 0 := fun e => hm (toNat_eq_zero_iff.1 e)
          exact .inr ⟨by simp; omega, if_neg hm⟩
      all_goals simp
      all_goals omega
    · rintro ⟨-, h0, h1, h2, h3, h4, h5, h6, h7, h8, h9, h10, h11, h12, h13, h14, h15⟩
      obtain ⟨frameLimit, framePages, dataPages, resumeMode, affinity, watchSet, leasePeriod, entryWord⟩ := x
      simp only [List.getD_cons_zero, List.getD_cons_succ] at h0 h1 h2 h3 h4 h5 h6 h7 h8 h9 h10 h11 h12 h13 h14 h15
      have hmode : (if mode = 0 then ResumeMode.restore else .notify) = resumeMode := by
        rcases h3 with ⟨hz, rfl⟩ | ⟨ho, rfl⟩
        · exact if_pos (toNat_eq_zero_iff.1 hz)
        · exact if_neg fun e => by simp [e] at ho
      have haff : aff.truncate 4 = affinity := by apply BitVec.eq_of_toNat_eq; simp; omega
      have hwatch : watch.truncate 4 = watchSet := by apply BitVec.eq_of_toNat_eq; simp; omega
      have hentry : word32 e0 e1 e2 e3 = entryWord := BitVec.eq_of_toNat_eq (entry.trans h11.symm)
      refine ⟨⟨by omega, by omega, by omega, by omega, by omega, toNat_eq_zero_iff.1 h12, toNat_eq_zero_iff.1 h13,
        toNat_eq_zero_iff.1 h14, toNat_eq_zero_iff.1 h15⟩, ?_⟩
      simp only [Params.mk.injEq]
      exact ⟨h0.symm, h1.symm, h2.symm, hmode, haff, hwatch, lease.trans h9.symm, hentry⟩
  · have none_ : readParams bytes = none := by
      unfold readParams
      split
      · exact absurd rfl h
      · rfl
    simp [none_, Reads16, h]

/-- The parameter record of a DEFINE (R11). -/
theorem defineParams_iff {o : Operands} {x : Params} :
    defineParams o = some x ↔ Reads16 o.payload x ∧ 1 ≤ x.frameLimit ∧ x.frameLimit ≤ 8 ∧ 1 ≤ x.framePages
      ∧ x.framePages ≤ 8 ∧ x.dataPages ≤ 16 := by
  simp only [defineParams, Option.filter_eq_some_iff, readParams_iff, Params.geometryInRange, Bool.and_eq_true,
    decide_eq_true_eq, and_assoc]

/-- The parameter record of a RETUNE (R19). -/
theorem retuneParams_iff {o : Operands} {x : Params} :
    retuneParams o = some x ↔ Reads16 o.payload x ∧ x.frameLimit = 0 ∧ x.framePages = 0 ∧ x.dataPages = 0 := by
  simp only [retuneParams, Option.filter_eq_some_iff, readParams_iff, Params.geometryZero, Bool.and_eq_true,
    beq_iff_eq, and_assoc]

/-- Settles O16: each row of Table 10-3 is the conjunction of its fields' checks. -/
theorem operandChecksReadTheTableFields : Obligations.OperandChecksReadTheTableFields := by
  unfold Obligations.OperandChecksReadTheTableFields
  intro o bare task lock low high length b reads
  have hbare : o.bare = true ↔ bare := bare_iff
  have htask : o.namesTask = true ↔ task := namesTask_iff
  have hlock : o.namesLock = true ↔ lock := namesLock_iff
  have hlow : o.offset = low := offset_eq o
  have hhigh : o.readLength = high := readLength_eq o
  have hzero : highHalf o.arg = 0 ↔ high = 0 := highHalf_zero_iff
  have hlength : ∀ n, lengthOk n = true ↔ length n := fun _ => lengthOk_iff
  clear_value bare task lock low high length
  refine ⟨?_, ?_, ?_, ?_, ?_, ?_, ?_, ?_, ?_, ?_, ?_, ?_, ?_, fun x => defineParams_iff, fun x => retuneParams_iff⟩
  · simp [operandsOk, hbare]
  · simp [operandsOk, hbare, htask, and_comm]
  · simp [operandsOk, hbare, htask, hlock, and_left_comm, and_assoc]
  · simp [operandsOk, hbare, hlock]
  · simp only [operandsOk, Bool.and_eq_true, decide_eq_true_eq, beq_iff_eq, hbare, and_assoc]
    rw [grantOperands_iff]
  · simp only [operandsOk, Bool.and_eq_true, decide_eq_true_eq, htask, List.isEmpty_iff, flags_le_one_iff, and_assoc]
  · simp [operandsOk, htask, hlength, and_assoc]
  · simp [operandsOk, htask]
  · simp [operandsOk, hbare, htask, and_left_comm, and_assoc]
  · simp [operandsOk, hbare, htask, hlow, hhigh, hlength, Config.dataAreaMax, and_left_comm, and_assoc]
  · simp only [operandsOk, Bool.and_eq_true, decide_eq_true_eq, beq_iff_eq, htask, hzero, hlow, hlength,
      Config.dataAreaMax, and_assoc]
  · simp only [operandsOk, Bool.and_eq_true, Bool.or_eq_true, beq_iff_eq, htask, anyTask, Option.isSome_iff_exists]
    rw [and_comm (a := o.flags = 0), and_assoc]
  · simp only [operandsOk, Bool.and_eq_true, beq_iff_eq, htask, Option.isSome_iff_exists]
    rw [and_comm (a := o.flags = 0), and_assoc]

end Sys2Proof.Laws

/-! SUPPORT. Steps 5 and 6 of Table 10-2: the objects a request names and the token check; and what a refused request
leaves. -/

namespace Sys2Proof.Laws

open Sys2Proof Sys2Proof.Machine

/-! ### Objects and tokens -/

section Objects

variable {s : State} {p : Port} {q : Request} {t : TaskNo} {l : LockNo}

theorem withTask_of_empty (ht : taskOf q.ops.task = some t) (hk : s.task t = none) (f : TaskNo → Machine.Task → State) :
    s.withTask p q f = s.refuse p q .noTask := by
  simp only [State.withTask, ht, hk]

theorem withLock_of_unallocated (hl : lockOf q.ops.arg = some l) (hu : (s.lock l).state = .unallocated)
    (f : LockNo → State) : s.withLock p q f = s.refuse p q .noLock := by
  simp only [State.withLock, hl, hu, if_true]

theorem withLock_of_allocated (hl : lockOf q.ops.arg = some l) (hu : (s.lock l).state ≠ .unallocated)
    (f : LockNo → State) : s.withLock p q f = f l := by
  simp only [State.withLock, hl, if_neg hu]

/-- The token check fails unless the task is RUNNING under a claim of the port with the token (R51). -/
theorem claimFor_of_stale {k : Machine.Task} (hk : s.task t = some k)
    (hs : k.state ≠ .running ∨ ∀ x, k.claim = some x → x.port ≠ p ∨ x.token ≠ q.ops.token) :
    s.claimFor p q t = none := by
  cases hc : s.claimFor p q t with
  | none => rfl
  | some x =>
    obtain ⟨hk', hr, hc', hp, ht⟩ := claimFor_spec hc
    obtain rfl : k = x.1 := Option.some.inj (hk.symm.trans hk')
    rcases hs with hs | hs
    · exact absurd hr hs
    · rcases hs _ hc' with h | h
      · exact absurd hp h
      · exact absurd ht h

theorem withClaim_of_empty (ht : taskOf q.ops.task = some t) (hk : s.task t = none)
    (f : TaskNo → Machine.Task → Claim → State) : s.withClaim p q f = s.refuse p q .noTask :=
  withTask_of_empty ht hk _

theorem withClaim_of_stale {k : Machine.Task} (ht : taskOf q.ops.task = some t) (hk : s.task t = some k)
    (hc : s.claimFor p q t = none) (f : TaskNo → Machine.Task → Claim → State) :
    s.withClaim p q f = s.refuse p q .stale := by
  simp only [State.withClaim, withTask_of_task ht hk, hc]

theorem withClaimLock_of_empty (ht : taskOf q.ops.task = some t) (hk : s.task t = none)
    (f : TaskNo → Claim → LockNo → State) : s.withClaimLock p q f = s.refuse p q .noTask :=
  withTask_of_empty ht hk _

theorem withClaimLock_of_unallocated {k : Machine.Task} (ht : taskOf q.ops.task = some t) (hk : s.task t = some k)
    (hl : lockOf q.ops.arg = some l) (hu : (s.lock l).state = .unallocated) (f : TaskNo → Claim → LockNo → State) :
    s.withClaimLock p q f = s.refuse p q .noLock := by
  rw [State.withClaimLock, withTask_of_task ht hk, withLock_of_unallocated hl hu]

theorem withClaimLock_of_stale {k : Machine.Task} (ht : taskOf q.ops.task = some t) (hk : s.task t = some k)
    (hl : lockOf q.ops.arg = some l) (hu : (s.lock l).state ≠ .unallocated) (hc : s.claimFor p q t = none)
    (f : TaskNo → Claim → LockNo → State) : s.withClaimLock p q f = s.refuse p q .stale := by
  simp only [State.withClaimLock, withTask_of_task ht hk, withLock_of_allocated hl hu, hc]

end Objects

/-- The ten token-bearing requests, by whether they name a lock (Table 10-1). -/
theorem tokenBearing_iff {c : RequestCode} : c.tokenBearing = true ↔
    c ∈ [RequestCode.release, .suspend, .renew, .peekFrame, .dataRead, .dataWrite, .withdraw]
      ∨ c ∈ [RequestCode.take, .takeWait, .give] := by
  cases c <;> decide

section Carried

variable {s : State} {p : Port} {q : Request} {c : RequestCode} {t : TaskNo} {l : LockNo}

/-- Seven of them find their claim by task and token, whatever they then do with it. -/
theorem carryOut_withClaim
    (hc : c ∈ [RequestCode.release, .suspend, .renew, .peekFrame, .dataRead, .dataWrite, .withdraw]) :
    ∃ f, carryOut p q s c = s.withClaim p q f := by
  fin_cases hc <;> exact ⟨_, rfl⟩

/-- The other three by task, lock and token. -/
theorem carryOut_withClaimLock (hc : c ∈ [RequestCode.take, .takeWait, .give]) :
    ∃ f, carryOut p q s c = s.withClaimLock p q f := by
  fin_cases hc <;> exact ⟨_, rfl⟩

/-- Six further requests find their task. -/
theorem carryOut_withTask (hc : c ∈ [RequestCode.discard, .retune, .queryTask, .salvage, .claim, .evict])
    (ho : operandsOk q.ops c = true) : ∃ f, carryOut p q s c = s.withTask p q f := by
  by_cases e : c = .retune
  · subst e
    obtain ⟨x, hx⟩ : ∃ x, retuneParams q.ops = some x := by
      simp only [operandsOk, Bool.and_eq_true, Option.isSome_iff_exists] at ho
      exact ho.2
    simp only [carryOut, takeRetune, hx]
    exact ⟨_, rfl⟩
  · have other : c ∈ [RequestCode.discard, .queryTask, .salvage, .claim, .evict] := by simpa [e] using hc
    fin_cases other <;> exact ⟨_, rfl⟩

theorem carryOut_withLock (hc : c ∈ [RequestCode.lockReturn, .queryLock]) :
    ∃ f, carryOut p q s c = s.withLock p q f := by
  fin_cases hc <;> exact ⟨_, rfl⟩

theorem lockOf_of_operandsOk (hc : c ∈ [RequestCode.take, .takeWait, .give]) (ho : operandsOk q.ops c = true) :
    ∃ l, lockOf q.ops.arg = some l := by
  fin_cases hc <;>
    simp only [operandsOk, Operands.namesLock, Bool.and_eq_true, Option.isSome_iff_exists] at ho <;> exact ho.2

end Carried

/-- Settles O17: every request that names an object looks it up before it does anything else. -/
theorem stepsFiveAndSixRefuseInOrder : Obligations.StepsFiveAndSixRefuseInOrder := by
  unfold Obligations.StepsFiveAndSixRefuseInOrder
  refine ⟨fun c => by cases c <;> decide, ?_⟩
  intro i p q c s hi hq ha ho answered namesLock
  have refused : ∀ st, (s.arrived p q).refuse p q st = answered st := fun st => by
    rw [State.refuse, reply_of_code hq]
  rw [exec_admitted hi hq ha ho]
  refine ⟨fun t ht hk hc => ?_, fun l hl hu hc => ?_, fun t k hc ht hk hu hs => ?_⟩
  · rw [← refused]
    have hk' : (s.arrived p q).task t = none := hk
    rcases hc with hc | hc
    · rcases tokenBearing_iff.1 hc with hc | hc
      · obtain ⟨f, e⟩ := carryOut_withClaim (s := s.arrived p q) (p := p) (q := q) hc
        rw [e, withClaim_of_empty ht hk']
      · obtain ⟨f, e⟩ := carryOut_withClaimLock (s := s.arrived p q) (p := p) (q := q) hc
        rw [e, withClaimLock_of_empty ht hk']
    · obtain ⟨f, e⟩ := carryOut_withTask (s := s.arrived p q) (p := p) hc ho
      rw [e, withTask_of_empty ht hk']
  · rw [← refused]
    have hu' : ((s.arrived p q).lock l).state = .unallocated := hu
    rcases hc with hc | ⟨hc, t, ht, hk⟩
    · obtain ⟨f, e⟩ := carryOut_withLock (s := s.arrived p q) (p := p) (q := q) hc
      rw [e, withLock_of_unallocated hl hu']
    · obtain ⟨k, hk⟩ := Option.ne_none_iff_exists'.1 hk
      have hk' : (s.arrived p q).task t = some k := hk
      obtain ⟨f, e⟩ := carryOut_withClaimLock (s := s.arrived p q) (p := p) (q := q) hc
      rw [e, withClaimLock_of_unallocated ht hk' hl hu']
  · rw [← refused]
    have hk' : (s.arrived p q).task t = some k := hk
    have stale := claimFor_of_stale hk' hs
    rcases tokenBearing_iff.1 hc with hc | hc
    · obtain ⟨f, e⟩ := carryOut_withClaim (s := s.arrived p q) (p := p) (q := q) hc
      rw [e, withClaim_of_stale ht hk' stale]
    · obtain ⟨l, hl⟩ := lockOf_of_operandsOk hc ho
      have hu' : ((s.arrived p q).lock l).state ≠ .unallocated := hu l hl hc
      obtain ⟨f, e⟩ := carryOut_withClaimLock (s := s.arrived p q) (p := p) (q := q) hc
      rw [e, withClaimLock_of_stale ht hk' hl hu' stale]

end Sys2Proof.Laws

/-! SUPPORT. What a refused request leaves (R178): every request either is refused, with its claim's timer restarted or
without, or leaves no refusal on its port's line. -/

namespace Sys2Proof.Laws

open Sys2Proof Sys2Proof.Machine

/-! ### Lines without a refusal -/

/-- No answer that waits for port p's line or stands on it is a refusal. -/
def Quiet (p : Port) (s : State) : Prop :=
  ∀ x, ((s.port p).waiting = some x ∨ (s.port p).sending = some (.answer x)) → x.status.refusal = false

section Quiet

variable {p : Port} {s t : State}

theorem Quiet.of_unanswered (h : (s.port p).Unanswered) : Quiet p s := by
  rintro x (hw | hs)
  · rw [h.1] at hw; cases hw
  · exact absurd hs (h.2 x)

theorem Quiet.same (h : Quiet p s) (e : SameLines s t) : Quiet p t := by
  obtain ⟨-, -, -, hw, hs⟩ := e.lines p
  intro x hx
  rw [hw, hs] at hx
  exact h x hx

theorem Quiet.ports (h : Quiet p s) (e : t.ports = s.ports) : Quiet p t := h.same (.of_ports e)

/-- A port record rewritten off its line. -/
theorem Quiet.onPort (h : Quiet p s) (r : Port) (f : PortRecord → PortRecord)
    (hf : ∀ r, (f r).waiting = r.waiting ∧ (f r).sending = r.sending) : Quiet p (s.onPort r f) := by
  intro x hx
  refine h x ?_
  simp only [State.onPort, port_setPort] at hx
  split at hx
  · next e =>
    subst e
    rwa [(hf _).1, (hf _).2] at hx
  · exact hx

/-- What stands on a line after an answer stood there before or is that answer. -/
theorem respond_on_line (r : PortRecord) (x y : Response)
    (h : (r.respond x).waiting = some y ∨ (r.respond x).sending = some (.answer y)) :
    y = x ∨ r.sending = some (.answer y) := by
  simp only [PortRecord.respond] at h
  obtain ⟨-, e⟩ | ⟨_, _, hs, -, e⟩ | ⟨z, hs, -, hz, e⟩ | ⟨-, -, hz, -⟩ :=
    startSending_cases { r with waiting := some x }
  · rw [e] at h
    exact h.imp_left fun h => (Option.some.inj h).symm
  · rw [e] at h
    rcases h with h | h
    · exact .inl (Option.some.inj h).symm
    · cases h
  · obtain rfl := Option.some.inj hz
    rw [e] at h
    rcases h with h | h
    · cases h
    · exact .inl (Outgoing.answer.inj (Option.some.inj h)).symm
  · cases hz

theorem Quiet.respond (h : Quiet p s) (r : Port) {x : Response} (hx : x.status.refusal = false) :
    Quiet p (s.respond r x) := by
  intro y hy
  simp only [State.respond, State.onPort, port_setPort] at hy
  split at hy
  · next e =>
    subst e
    rcases respond_on_line _ _ _ hy with rfl | hs
    · exact hx
    · exact h y (.inr hs)
  · exact h y hy

theorem Quiet.respondHead (h : Quiet p s) (r : Port) {f : Request → Response}
    (hf : ∀ q, (f q).status.refusal = false) : Quiet p (s.respondHead r f) := by
  simp only [State.respondHead]
  split
  · exact h
  · exact h.respond r (hf _)

theorem Quiet.abnormalEnd (h : Quiet p s) (u : TaskNo) (cause : EndCause) : Quiet p (s.abnormalEnd u cause) := by
  cases hk : s.task u with
  | none => simpa only [State.abnormalEnd, hk] using h
  | some k =>
    cases hc : k.claim with
    | none => simpa only [State.abnormalEnd, hk, hc] using h
    | some c =>
      obtain ⟨n, less, -, e⟩ := abnormalEnd_form cause hk hc
      have hn : Quiet p n := h.same less.toSameLines
      rw [e]
      cases ho : k.op with
      | none => rw [answerAborted_silent (.inl rfl)]; exact hn
      | some o =>
        cases cause with
        | portDown => exact hn
        | evicted => exact hn.respondHead _ (by intro; rfl)
        | lapsed => exact hn.respondHead _ (by intro; rfl)

variable {k : Machine.Task} {c : Claim}

theorem Quiet.damageInDelivery (h : Quiet p s) (u : TaskNo) (n : PageNo) (part : Nat) :
    Quiet p (s.damageInDelivery u k c n part) :=
  Quiet.respondHead ((h.ports (by rfl)).same (told_postAll ..).same) _ (by intro; rfl)

theorem Quiet.reachDelivery (h : Quiet p s) (u : TaskNo) (slot : Nat) (f : FrameRecord) (part : Nat) (b : List Byte) :
    Quiet p (s.reachDeliveryPart u k c slot f part b) := by
  simp only [State.reachDeliveryPart]
  split
  · split
    · exact h.damageInDelivery _ _ _
    · exact h.ports (by rfl)
  · refine Quiet.respondHead ?_ _ (by intro; rfl)
    exact h.ports (moveAll_ports ..)

theorem Quiet.reachPeek (h : Quiet p s) (u : TaskNo) (position slot : Nat) (f : FrameRecord) (part : Nat)
    (b : List Byte) : Quiet p (s.reachPeekPart u k c position slot f part b) := by
  simp only [State.reachPeekPart]
  split
  · split
    · exact Quiet.respondHead (h.ports (by rfl)) _ (by intro; rfl)
    · exact h.ports (by rfl)
  · exact Quiet.respondHead (h.ports (by rfl)) _ (by intro; rfl)

end Quiet

/-! ### What a request comes to -/

/-- An answer with the request's tag and task field and nothing in its notes, record and payload. -/
structure Plain (q : Request) (x : Response) : Prop where
  tag    : x.tag = q.ops.tag
  task   : x.task = q.ops.task
  notes  : x.notes = ⟨false, false⟩
  record : x.record = .none
  bytes  : x.bytes = []

theorem plain_reply (q : Request) (st : Status) : Plain q (reply q st) := ⟨rfl, rfl, rfl, rfl, rfl⟩

/-- What the taking of a request comes to: refused, nothing else changed; refused at step 7 with the timer of its claim
restarted (R176); or no refusal. -/
inductive Outcome (p : Port) (q : Request) (s t : State) : Prop where
  | refused (x : Response) (plain : Plain q x) (eq : t = s.respond p x)
  | restarted (u : TaskNo) (k : Machine.Task) (c : Claim) (x : Response) (named : taskOf q.ops.task = some u)
      (live : s.liveClaim p u k c q.ops.token) (plain : Plain q x)
      (eq : t = (s.onTask u Machine.Task.loadLease).respond p x)
  | done (quiet : Quiet p t)

theorem outcome_refuse (p : Port) (q : Request) (s : State) (st : Status) : Outcome p q s (s.refuse p q st) :=
  .refused _ (plain_reply q st) (by rfl)

section Restarted

variable {p : Port} {q : Request} {s : State} {u : TaskNo} {k : Machine.Task} {c : Claim}
  (ht : taskOf q.ops.task = some u) (hl : s.liveClaim p u k c q.ops.token)

include ht hl

theorem outcome_answerClaim (st : Status) : Outcome p q s (s.answerClaim p u (reply q st)) :=
  .restarted u k c _ ht hl (plain_reply q st) (by rfl)

theorem outcome_refuseClaim (st : Status) : Outcome p q s (s.refuseClaim p q u st) :=
  outcome_answerClaim ht hl st

end Restarted

/-- The claim and the lock of a lock request, with the task that it names. -/
theorem withClaimLock_named {P : State → Prop} {s : State} {p : Port} {q : Request}
    {f : TaskNo → Claim → LockNo → State}
    (hr : ∀ st, P (s.refuse p q st))
    (hf : ∀ t k c l, taskOf q.ops.task = some t → s.liveClaim p t k c q.ops.token → P (f t c l)) :
    P (s.withClaimLock p q f) := by
  refine withTask_ind hr fun t _ ht _ => withLock_ind hr fun l _ => ?_
  split
  · exact hr _
  · next h => exact hf _ _ _ _ ht (claimFor_spec h)

section Requests

variable {p : Port} {q : Request} {s : State} (h : Quiet p s)

include h

/-- The request answered in a way that is no refusal, over lines that stand as before. -/
theorem outcome_answered {v : State} (hv : SameLines s v) {x : Response} (hx : x.status.refusal = false) :
    Outcome p q s (v.respond p x) :=
  .done ((h.same hv).respond p hx)

theorem outcome_takeHello : Outcome p q s (takeHello p q s) := by
  refine .done (Quiet.respond ?_ p (by rfl))
  split
  · exact h
  · exact h.onPort p _ fun _ => ⟨rfl, rfl⟩

theorem outcome_takeGrantRights : Outcome p q s (takeGrantRights p q s) := by
  simp only [takeGrantRights]
  split
  · refine .done (Quiet.respond ?_ p (by rfl))
    exact h.onPort _ (·.withRights (Rights.ofByte q.ops.grantByte)) fun _ => ⟨rfl, rfl⟩
  · exact outcome_refuse ..

theorem outcome_takeFetchNotice : Outcome p q s (takeFetchNotice p q s) := by
  simp only [takeFetchNotice]
  split
  · exact outcome_answered h (.refl s) (by rfl)
  · refine .done (Quiet.respond (h.onPort p _ fun r => ?_) p (by rfl))
    simp only [PortRecord.fetch]
    split <;> exact ⟨rfl, rfl⟩

theorem outcome_takeDefine : Outcome p q s (takeDefine p q s) := by
  simp only [takeDefine]
  split
  · exact outcome_refuse ..
  · exact outcome_refuse ..
  · split
    · exact .refused _ ⟨rfl, rfl, rfl, rfl, rfl⟩ rfl
    · refine outcome_answered h ?_ (by rfl)
      exact .of_ports (reserve_ports ..)

theorem outcome_takeDiscard : Outcome p q s (takeDiscard p q s) := by
  refine withTask_ind (outcome_refuse p q s) fun t k _ _ => ?_
  split
  · exact outcome_refuse ..
  · exact outcome_answered h
      (((told_giveUpAll ..).same.trans (.of_ports (releasePages_ports ..))).trans (same_setTask ..))
      (by rfl)

theorem outcome_takeRetune : Outcome p q s (takeRetune p q s) := by
  simp only [takeRetune]
  split
  · exact outcome_refuse ..
  · refine withTask_ind (outcome_refuse p q s) fun t k _ _ => ?_
    split
    · exact outcome_refuse ..
    · exact outcome_answered h (same_setTask ..) (by rfl)

theorem outcome_takeSalvage : Outcome p q s (takeSalvage p q s) := by
  refine withTask_ind (outcome_refuse p q s) fun t k _ _ => ?_
  split
  · exact outcome_answered h ((((told_giveUpAll ..).same.trans (same_emptySlot ..)).trans (same_onTask ..)).trans
      (told_postAll ..).same) (by rfl)
  · exact outcome_refuse ..

theorem outcome_takeClaim : Outcome p q s (takeClaim p q s) := by
  refine withTask_ind (outcome_refuse p q s) fun t k _ _ => ?_
  split
  · exact outcome_refuse ..
  · simp only [State.acceptClaim]
    split
    · exact .done (Quiet.reachDelivery (h.ports (by rfl)) _ _ _ _ _)
    · exact outcome_answered h (.of_ports (by rfl)) (by rfl)

theorem outcome_takeRelease : Outcome p q s (takeRelease p q s) :=
  withClaim_ind (outcome_refuse p q s) fun _ _ _ _ _ => outcome_answered h
    ((((told_withdraw ..).same.trans (told_giveUpAll ..).same).trans (.of_ports (dropRetained_ports ..))).trans
      ((same_onTask ..).trans (told_postAll ..).same)) (by rfl)

theorem outcome_takeSuspend : Outcome p q s (takeSuspend p q s) := by
  refine withClaim_ind (outcome_refuse p q s) fun t k c ht hl => ?_
  split
  · exact outcome_refuseClaim ht hl _
  · exact .done (h.ports ((withdrawPages_ports ..).trans (withdraw_ports ..)))

theorem outcome_takeEvict : Outcome p q s (takeEvict p q s) := by
  refine withTask_ind (outcome_refuse p q s) fun t k _ _ => ?_
  split
  · exact .done ((h.abnormalEnd t .evicted).respond p (by rfl))
  · exact outcome_refuse ..

theorem outcome_takePeekFrame : Outcome p q s (takePeekFrame p q s) := by
  refine withClaim_ind (outcome_refuse p q s) fun t k c ht hl => ?_
  split
  · exact outcome_refuseClaim ht hl _
  · split
    · exact outcome_refuseClaim ht hl _
    · exact .done (Quiet.reachPeek (h.ports (by rfl)) _ _ _ _ _ _)

theorem outcome_takeDataRead : Outcome p q s (takeDataRead p q s) := by
  refine withClaim_ind (outcome_refuse p q s) fun t k c ht hl => ?_
  dsimp only
  split
  · exact outcome_refuseClaim ht hl _
  · split
    · exact outcome_answered h (same_onTask ..) (by rfl)
    · exact .done (h.ports (by rfl))

theorem outcome_takeDataWrite : Outcome p q s (takeDataWrite p q s) := by
  refine withClaim_ind (outcome_refuse p q s) fun t k c ht hl => ?_
  dsimp only
  split
  · exact outcome_refuseClaim ht hl _
  · split
    · exact outcome_answered h (same_onTask ..) (by rfl)
    · exact .done (h.ports (by rfl))

theorem outcome_takeLockNew : Outcome p q s (takeLockNew p q s) := by
  simp only [takeLockNew]
  split
  · exact outcome_refuse ..
  · exact outcome_answered h (.of_ports (by rfl)) (by rfl)

theorem outcome_takeLockReturn : Outcome p q s (takeLockReturn p q s) := by
  refine withLock_ind (outcome_refuse p q s) fun l _ => ?_
  split
  · exact outcome_refuse ..
  · exact outcome_answered h (.of_ports (by rfl)) (by rfl)

/-- TAKE and TAKE-WAIT, by what each comes to over a lock held elsewhere. -/
theorem outcome_takeLock {t : TaskNo} {k : Machine.Task} {c : Claim} {l : LockNo} {e : State}
    (ht : taskOf q.ops.task = some t) (hl : s.liveClaim p t k c q.ops.token) (he : Outcome p q s e) :
    Outcome p q s (s.takeLock p q t c l e) := by
  simp only [State.takeLock]
  split
  · exact outcome_answered h (.of_ports (by rfl)) (by rfl)
  · split
    · exact outcome_answered h (same_onTask ..) (by rfl)
    · split
      · split
        · exact outcome_answerClaim ht hl _
        · exact he
      · exact he
      · exact he

theorem outcome_takeTake : Outcome p q s (takeTake p q s) :=
  withClaimLock_named (outcome_refuse p q s) fun _ _ _ _ ht hl =>
    outcome_takeLock h ht hl (outcome_answerClaim ht hl _)

theorem outcome_takeTakeWait : Outcome p q s (takeTakeWait p q s) := by
  refine withClaimLock_named (outcome_refuse p q s) fun t k c l ht hl => outcome_takeLock h ht hl ?_
  split
  · exact outcome_answerClaim ht hl _
  · split
    · exact outcome_answerClaim ht hl _
    · exact outcome_answered h (.of_ports (by rfl)) (by rfl)

theorem outcome_takeWithdraw : Outcome p q s (takeWithdraw p q s) := by
  refine withClaim_ind (outcome_refuse p q s) fun t k c ht hl => ?_
  split
  · exact outcome_answerClaim ht hl _
  · exact outcome_answered h ((told_withdraw ..).same.trans (same_onTask ..)) (by rfl)

theorem outcome_takeGive : Outcome p q s (takeGive p q s) := by
  refine withClaimLock_named (outcome_refuse p q s) fun t k c l ht hl => ?_
  split
  · exact outcome_answered h ((told_giveUp ..).same.trans (same_onTask ..)) (by rfl)
  · exact outcome_answerClaim ht hl _

theorem outcome_carryOut (c : RequestCode) : Outcome p q s (carryOut p q s c) := by
  cases c with
  | hello => exact outcome_takeHello h
  | goodbye => exact outcome_answered h (.refl s) (by rfl)
  | grantRights => exact outcome_takeGrantRights h
  | fetchNotice => exact outcome_takeFetchNotice h
  | define => exact outcome_takeDefine h
  | discard => exact outcome_takeDiscard h
  | retune => exact outcome_takeRetune h
  | queryTask =>
    exact withTask_ind (outcome_refuse p q s) fun _ _ _ _ => outcome_answered h (.refl s) (by rfl)
  | salvage => exact outcome_takeSalvage h
  | claim => exact outcome_takeClaim h
  | release => exact outcome_takeRelease h
  | suspend => exact outcome_takeSuspend h
  | renew =>
    exact withClaim_ind (outcome_refuse p q s) fun _ _ _ _ _ => outcome_answered h (same_onTask ..) (by rfl)
  | evict => exact outcome_takeEvict h
  | peekFrame => exact outcome_takePeekFrame h
  | dataRead => exact outcome_takeDataRead h
  | dataWrite => exact outcome_takeDataWrite h
  | lockNew => exact outcome_takeLockNew h
  | lockReturn => exact outcome_takeLockReturn h
  | take => exact outcome_takeTake h
  | takeWait => exact outcome_takeTakeWait h
  | withdraw => exact outcome_takeWithdraw h
  | give => exact outcome_takeGive h
  | queryLock => exact withLock_ind (outcome_refuse p q s) fun _ _ => outcome_answered h (.refl s) (by rfl)
  | queryMemory => exact outcome_answered h (.refl s) (by rfl)

theorem outcome_takeRequest : Outcome p q s (takeRequest p q s) := by
  cases hc : RequestCode.ofByte q.code with
  | none => rw [takeRequest_of_unknown hc]; exact outcome_refuse ..
  | some c =>
    rw [takeRequest_of_code (byte_of_ofByte hc).symm]
    split
    · exact outcome_refuse ..
    · split
      · exact outcome_refuse ..
      · split
        · exact outcome_refuse ..
        · exact outcome_carryOut h c

end Requests

/-- The answer found on the line of a port that had none is the answer just given. -/
theorem answer_on_line {v : State} {p : Port} {x y : Response} (u : (v.port p).Unanswered)
    (h : ((v.respond p x).port p).waiting = some y ∨ ((v.respond p x).port p).sending = some (.answer y)) : y = x := by
  simp only [State.respond, State.onPort, port_setPort_same] at h
  exact (respond_on_line _ _ _ h).resolve_right (u.2 y)

/-- Settles O18: a refusal on the line rules out every outcome but the two refusals. -/
theorem refusalsChangeOnlyAnswerAndLease : Obligations.RefusalsChangeOnlyAnswerAndLease := by
  unfold Obligations.RefusalsChangeOnlyAnswerAndLease
  intro i p q s t x hi hs hw hsend ht hx href
  rw [exec_taken hi hs, Host.Outcome.next.injEq] at ht
  have unanswered : ((s.arrived p q).port p).Unanswered := by simpa using ⟨hw, hsend⟩
  have outcome : Outcome p q (s.arrived p q) t := ht ▸ outcome_takeRequest (.of_unanswered unanswered)
  cases outcome with
  | refused y plain e =>
    subst e
    obtain rfl := answer_on_line unanswered hx
    exact ⟨plain.tag, plain.task, plain.notes, plain.record, plain.bytes, .inl rfl⟩
  | restarted u k c y named live plain e =>
    subst e
    obtain rfl := answer_on_line (v := (s.arrived p q).onTask u Machine.Task.loadLease) unanswered hx
    exact ⟨plain.tag, plain.task, plain.notes, plain.record, plain.bytes, .inr ⟨u, k, c, named, live, rfl⟩⟩
  | done quiet =>
    rw [quiet x hx] at href
    cases href

end Sys2Proof.Laws

/-! SUPPORT. What every command leaves of the rights sets, the fixed parts of the tasks and the bytes of context memory
(R10, R132, R136, R167): each shared operation, request and event as a step that is steady in the three, or that changes
one of them as the manual says. -/

namespace Sys2Proof.Laws

open Sys2Proof Sys2Proof.Machine

/-! ### Steady steps -/

/-- What a task keeps as long as it exists: its geometry and page lists (R2, R9, R10). -/
def fixedPart (k : Machine.Task) : Nat × Nat × Nat × List (List PageNo) × List PageNo :=
  (k.frameLimit, k.framePages, k.dataPages, k.slotPages, k.dataAreaPages)

/-- Address a lies where the holder of the path may write (R136). -/
def Writable (s : State) (a : Nat) : Prop :=
  ∃ n : PageNo, 1024 * n.val ≤ a ∧ a < 1024 * n.val + 1024
    ∧ (s.path = some .scrubber ∧ s.scrubbing = some n
      ∨ ∃ p u k c, s.path = some (.port p) ∧ s.task u = some k ∧ k.claim = some c ∧ c.port = p
          ∧ (n ∈ k.slotPages.flatten ∨ n ∈ k.dataAreaPages))

/-- From s to t no rights set and no task's fixed part changes, no session opens, nobody comes to hold the path, and no
byte changes but those of W. -/
structure Steady (W : Nat → Prop) (s t : State) : Prop where
  rights  : ∀ p, (t.port p).rights = (s.port p).rights
  online  : ∀ p, (t.port p).session = .online → (s.port p).session = .online
  shapes  : ∀ u, (t.task u).map fixedPart = (s.task u).map fixedPart
  path    : t.path = s.path ∨ t.path = none
  taken   : t.scrubbing = s.scrubbing ∨ t.scrubbing = none
  written : ∀ a, Memory.read t.mem a ≠ Memory.read s.mem a → W a

section Steady

variable {W : Nat → Prop} {s t v : State}

theorem Steady.trans (a : Steady W s t) (b : Steady W t v) : Steady W s v where
  rights p := (b.rights p).trans (a.rights p)
  online p h := a.online p (b.online p h)
  shapes u := (b.shapes u).trans (a.shapes u)
  path := b.path.elim (fun e => e ▸ a.path) .inr
  taken := b.taken.elim (fun e => e ▸ a.taken) .inr
  written x h := by
    by_cases e : Memory.read t.mem x = Memory.read s.mem x
    · exact b.written x (e ▸ h)
    · exact a.written x e

theorem Steady.mono {W' : Nat → Prop} (a : Steady W s t) (h : ∀ x, W x → W' x) : Steady W' s t :=
  { a with written := fun x hx => h x (a.written x hx) }

/-- A step that leaves the ports and the tasks. -/
theorem Steady.of_rest (ports : t.ports = s.ports) (tasks : t.tasks = s.tasks) (path : t.path = s.path ∨ t.path = none)
    (taken : t.scrubbing = s.scrubbing ∨ t.scrubbing = none)
    (written : ∀ a, Memory.read t.mem a ≠ Memory.read s.mem a → W a) : Steady W s t where
  rights p := by rw [State.port, ports, State.port]
  online p h := by rwa [State.port, ports] at h
  shapes u := by rw [State.task, tasks, State.task]
  path := path
  taken := taken
  written := written

/-- A step that leaves the memory too. -/
theorem Steady.of_tables (ports : t.ports = s.ports) (tasks : t.tasks = s.tasks)
    (path : t.path = s.path ∨ t.path = none) (taken : t.scrubbing = s.scrubbing) (mem : t.mem = s.mem) : Steady W s t :=
  .of_rest ports tasks path (.inl taken) fun a h => absurd (by rw [mem]) h

theorem Steady.refl (s : State) : Steady W s s := .of_tables rfl rfl (.inl rfl) rfl rfl

theorem Steady.foldl {α : Type} (f : State → α → State) (hf : ∀ s a, Steady W s (f s a)) (l : List α) (s : State) :
    Steady W s (l.foldl f s) := by
  induction l generalizing s with
  | nil => exact .refl s
  | cons a l ih => exact (hf s a).trans (ih _)

theorem steady_told (h : Told s t) : Steady W s t where
  rights p := by obtain ⟨-, e, -⟩ := h.lines p; exact e
  online p hp := by obtain ⟨e, -⟩ := h.lines p; exact e ▸ hp
  shapes u := by rw [h.task]
  path := .inl (by rw [h.frame])
  taken := .inl (by rw [h.frame])
  written a ha := absurd (by rw [h.frame]) ha

variable (s)

theorem steady_onPort (p : Port) (f : PortRecord → PortRecord) (hr : ∀ r, (f r).rights = r.rights)
    (ho : ∀ r, (f r).session = .online → r.session = .online) : Steady W s (s.onPort p f) where
  rights r := by
    rw [State.onPort, port_setPort]
    split
    · next e => rw [hr, e]
    · rfl
  online r h := by
    rw [State.onPort, port_setPort] at h
    split at h
    · next e => exact e ▸ ho _ h
    · exact h
  shapes _ := rfl
  path := .inl rfl
  taken := .inl rfl
  written _ h := absurd rfl h

theorem startSending_session (r : PortRecord) : r.startSending.session = r.session := by
  obtain ⟨-, e⟩ | ⟨_, _, -, -, e⟩ | ⟨_, -, -, -, e⟩ | ⟨-, -, -, e⟩ := startSending_cases r <;> rw [e]

theorem steady_startSending (p : Port) (f : PortRecord → PortRecord) (hr : ∀ r, (f r).rights = r.rights)
    (ho : ∀ r, (f r).session = r.session) : Steady W s (s.onPort p fun r => (f r).startSending) :=
  steady_onPort s p _ (fun r => (startSending_rights _).trans (hr r)) fun r h => by
    rwa [startSending_session, ho] at h

theorem steady_respond (p : Port) (x : Response) : Steady W s (s.respond p x) :=
  steady_startSending s p (fun r => { r with waiting := some x }) (fun _ => rfl) fun _ => rfl

theorem steady_refuse (p : Port) (q : Request) (st : Status) : Steady W s (s.refuse p q st) := steady_respond ..

theorem steady_respondHead (p : Port) (f : Request → Response) : Steady W s (s.respondHead p f) := by
  simp only [State.respondHead]
  split
  · exact .refl s
  · exact steady_respond ..

variable {s}

/-- A task's record rewritten with its fixed part as it was. -/
theorem steady_setTask {u : TaskNo} {k k' : Machine.Task} (hk : s.task u = some k) (h : fixedPart k' = fixedPart k) :
    Steady W s (s.setTask u (some k')) where
  rights _ := rfl
  online _ h := h
  shapes x := by
    rw [task_setTask]
    split
    · next e => rw [e, hk, Option.map_some, Option.map_some, h]
    · rfl
  path := .inl rfl
  taken := .inl rfl
  written _ h := absurd rfl h

variable (s) in
theorem steady_onTask (u : TaskNo) (f : Machine.Task → Machine.Task) (h : ∀ k, fixedPart (f k) = fixedPart k) :
    Steady W s (s.onTask u f) := by
  cases hk : s.task u with
  | none =>
    refine ⟨fun _ => rfl, fun _ h => h, fun x => ?_, .inl rfl, .inl rfl, fun _ h => absurd rfl h⟩
    rw [onTask_task]
    split
    · next e => rw [e, hk, Option.map_none]
    · rfl
  | some k =>
    rw [State.onTask, hk]
    exact steady_setTask hk (h k)

variable (s)

theorem steady_markStale (ns : List PageNo) : Steady W s (s.markStale ns) := by
  rw [markStale_frame]
  exact .of_tables rfl rfl (.inl rfl) rfl rfl

theorem steady_emptySlot (u : TaskNo) (slot : Nat) : Steady W s (s.emptySlot u slot) := by
  cases hk : s.task u with
  | none =>
    simp only [State.emptySlot, hk]
    exact .refl s
  | some k =>
    rw [emptySlot_eq slot hk]
    exact (steady_setTask hk (by rfl)).trans (steady_markStale ..)

theorem steady_dropRetained (u : TaskNo) (c : Claim) : Steady W s (s.dropRetained u c) := by
  simp only [State.dropRetained]
  split
  · exact .refl s
  · exact steady_emptySlot ..

theorem steady_freePath : Steady W s s.freePath := .of_tables rfl rfl (.inr rfl) rfl rfl

theorem steady_onPage (n : PageNo) (f : Page → Page) : Steady W s (s.onPage n f) :=
  .of_tables rfl rfl (.inl rfl) rfl rfl

/-- A write within page n changes no other byte. -/
theorem steady_writePage {n : PageNo} {off len : Nat} (b : List Byte) (hl : len = 0 ∨ off + len ≤ 1024)
    (hw : ∀ a, 1024 * n.val ≤ a → a < 1024 * n.val + 1024 → W a) : Steady W s (s.writePage n off len b) :=
  .of_rest rfl rfl (.inl rfl) (.inl rfl) fun a ha => by
    by_cases h : a < pageBase n + off ∨ pageBase n + off + len ≤ a
    · exact absurd (read_writeRange_outside _ _ _ _ _ h) ha
    · rw [pageBase_eq] at h
      exact hw a (by omega) (by omega)

end Steady

/-! ### The ends of claims -/

section Ends

variable {s t : State}

theorem slotPage_mem {k : Machine.Task} {slot part : Nat} {n : PageNo} (h : k.slotPage slot part = some n) :
    n ∈ k.slotPages.flatten := by
  obtain ⟨l, hl, hn⟩ := Option.bind_eq_some_iff.1 h
  exact List.mem_flatten.2 ⟨l, List.mem_of_getElem? hl, List.mem_of_getElem? hn⟩

theorem dataPage_mem {k : Machine.Task} {part : Nat} {n : PageNo} (h : k.dataPage part = some n) :
    n ∈ k.dataAreaPages := List.mem_of_getElem? h

/-- The pages of a task whose port holds the path are writable. -/
theorem writable_of_task {u : TaskNo} {k : Machine.Task} {c : Claim} {n : PageNo} (hk : s.task u = some k)
    (hc : k.claim = some c) (hp : s.path = some (.port c.port)) (hn : n ∈ k.slotPages.flatten ∨ n ∈ k.dataAreaPages)
    {a : Nat} (h1 : 1024 * n.val ≤ a) (h2 : a < 1024 * n.val + 1024) : Writable s a :=
  ⟨n, h1, h2, .inr ⟨c.port, u, k, c, hp, hk, hc, rfl, hn⟩⟩

/-- What was writable after a steady step in which no claim began was so before. -/
theorem Steady.writable {W : Nat → Prop} (h : Steady W s t)
    (hc : ∀ u k c, t.task u = some k → k.claim = some c → s.task u = some k) {a : Nat} (ha : Writable t a) :
    Writable s a := by
  obtain ⟨n, h1, h2, ⟨hp, ht⟩ | ⟨p, u, k, c, hp, hk, hkc, e, hn⟩⟩ := ha
  · refine ⟨n, h1, h2, .inl ⟨?_, ?_⟩⟩
    · exact (h.path.resolve_right (by rw [hp]; simp)).symm.trans hp
    · exact (h.taken.resolve_right (by rw [ht]; simp)).symm.trans ht
  · exact ⟨n, h1, h2, .inr ⟨p, u, k, c, (h.path.resolve_right (by rw [hp]; simp)).symm.trans hp, hc u k c hk hkc,
      hkc, e, hn⟩⟩

theorem steady_abandonFill {u : TaskNo} {k : Machine.Task} {c : Claim} (hk : s.task u = some k) (hc : k.claim = some c)
    (hp : s.path = some (.port c.port)) (slot part : Nat) (b : List Byte) :
    Steady (Writable s) s (s.abandonFill k slot part b) := by
  simp only [State.abandonFill]
  split
  · exact .refl s
  · next n hn =>
    exact (steady_writePage s _ (.inr (by simp [Config.pageBytes])) fun _ =>
      writable_of_task hk hc hp (.inl (slotPage_mem hn))).trans (.of_tables rfl rfl (.inl rfl) rfl rfl)

theorem steady_abortOp (s : State) (u : TaskNo) : Steady (Writable s) s (s.abortOp u) := by
  cases hk : s.task u with
  | none => simp only [State.abortOp, hk]; exact .refl s
  | some k =>
    cases hc : k.claim with
    | none => simp only [State.abortOp, hk, hc]; exact .refl s
    | some c =>
      cases ho : k.op with
      | none => simp only [State.abortOp, hk, hc, ho]; exact .refl s
      | some o =>
        have effect : Steady (Writable s) s (s.abortEffect u k c o) := by
          cases o with
          | fill slot next w b x =>
            simp only [State.abortEffect]
            split
            · next hp => exact (steady_abandonFill hk hc hp ..).trans (steady_emptySlot ..)
            · exact steady_emptySlot ..
          | delivery | peek | dataRead | dataWrite => exact .refl s
        have freed : ∀ v : State, Steady (Writable s) v (v.abandon c.port) := fun v => by
          simp only [State.abandon]
          split
          · exact steady_freePath v
          · exact .refl v
        simp only [State.abortOp, hk, hc, ho]
        exact (effect.trans (steady_onTask _ u _ (by intro; rfl))).trans (freed _)

variable {W : Nat → Prop}

theorem steady_endLocks (s : State) (u : TaskNo) (c : Claim) : Steady W s (s.endLocks u c) := by
  simp only [State.endLocks]
  split
  · exact .refl s
  · simp only [State.reinstate]
    split
    · exact .refl s
    · next k hk =>
      split
      · exact .refl s
      · exact ((steady_setTask hk (by rfl)).trans (steady_told (told_moveAll ..))).trans
          (steady_told (told_giveUpAll ..))
  · exact steady_told (told_giveUpAll ..)

theorem steady_answerAborted (s : State) (c : Claim) (o : Option Op) (cause : EndCause) :
    Steady W s (s.answerAborted c o cause) := by
  cases o with
  | none => rw [answerAborted_silent (.inl rfl)]; exact .refl s
  | some o =>
    cases cause with
    | portDown => rw [answerAborted_silent (.inr rfl)]; exact .refl s
    | evicted | lapsed => exact steady_respondHead ..

theorem steady_abnormalEnd (s : State) (u : TaskNo) (cause : EndCause) :
    Steady (Writable s) s (s.abnormalEnd u cause) := by
  cases hk : s.task u with
  | none => simp only [State.abnormalEnd, hk]; exact .refl s
  | some k =>
    cases hc : k.claim with
    | none => simp only [State.abnormalEnd, hk, hc]; exact .refl s
    | some c =>
      simp only [State.abnormalEnd, hk, hc]
      have locks := ((steady_abortOp s u).trans (steady_told (told_withdraw _ ⟨u, c.token⟩))).trans
        (steady_endLocks _ u c)
      exact ((locks.trans (steady_onTask _ u _ (by intro; rfl))).trans (steady_told (told_endNotices ..))).trans
        (steady_answerAborted ..)

/-- The ends of several claims, each over what the ends before it left. -/
theorem steady_abnormalEnds (ts : List TaskNo) (s : State) :
    Steady (Writable s) s (ts.foldl (fun s t => s.abnormalEnd t .portDown) s) := by
  induction ts generalizing s with
  | nil => exact .refl s
  | cons u ts ih =>
    have one := steady_abnormalEnd s u .portDown
    exact one.trans ((ih _).mono fun a => one.writable fun v k c hv hc => (abnormalEnd_claims hv hc).2)

theorem steady_teardown (s : State) (p : Port) : Steady (Writable s) s (s.teardown p) := by
  simp only [State.teardown]
  split
  · have withdrawn := Told.foldl State.withdrawClaim told_withdrawClaim (s.claimsOf p) s
    have before := steady_told (W := Writable s) withdrawn
    have ended := (steady_abnormalEnds (s.claimsOf p) _).mono fun a =>
      before.writable fun u k c hu _ => (withdrawn.task u).symm.trans hu
    have closed := fun v => steady_onPort (W := Writable s) v p PortRecord.close (fun _ => rfl) fun _ h => by cases h
    exact ((before.trans ended).trans (closed _)).trans (steady_told (told_postAll ..))
  · exact .refl s

end Ends

/-! ### Transfers -/

section Transfers

variable {W : Nat → Prop} {s : State} {t : TaskNo} {k : Machine.Task} {c : Claim} (hk : s.task t = some k)

include hk

/-- A task's record rewritten, and the request of a port answered. -/
theorem steady_answered {k' : Machine.Task} (h : fixedPart k' = fixedPart k) (p : Port) (f : Request → Response) :
    Steady W s ((s.setTask t (some k')).respondHead p f) := (steady_setTask hk h).trans (steady_respondHead ..)

theorem steady_damageInRead (n : PageNo) (part : Nat) : Steady W s (s.damageInRead t k c n part) :=
  (steady_onPage s n _).trans (steady_answered (s := s.onPage n _) hk (by rfl) ..)

theorem steady_damageInDelivery (n : PageNo) (part : Nat) : Steady W s (s.damageInDelivery t k c n part) :=
  (((steady_onPage s n _).trans (steady_setTask (s := s.onPage n _) hk (by rfl))).trans
    (steady_told (told_postAll ..))).trans (steady_respondHead ..)

theorem steady_reachDelivery (slot : Nat) (f : FrameRecord) (part : Nat) (b : List Byte) :
    Steady W s (s.reachDeliveryPart t k c slot f part b) := by
  simp only [State.reachDeliveryPart]
  split
  · split
    · exact steady_damageInDelivery hk ..
    · exact steady_setTask hk (by rfl)
  · exact ((steady_setTask hk (by rfl)).trans (steady_told (told_moveAll _ _ _ _))).trans (steady_respondHead ..)

theorem steady_reachPeek (position slot : Nat) (f : FrameRecord) (part : Nat) (b : List Byte) :
    Steady W s (s.reachPeekPart t k c position slot f part b) := by
  simp only [State.reachPeekPart]
  split
  · split
    · exact steady_damageInRead hk ..
    · exact steady_setTask hk (by rfl)
  · exact steady_answered hk (by rfl) ..

theorem steady_completeFill (slot : Nat) (w : Word) (b : List Byte) (x : Bool) :
    Steady W s (s.completeFill t { k with op := none } c slot w b x) :=
  (((((steady_setTask hk (by rfl)).trans (steady_told (told_moveAll _ _ _ _))).trans (steady_dropRetained ..)).trans
    (steady_onTask _ t _ (by intro; rfl))).trans (steady_told (told_postFreed ..))).trans (steady_respondHead ..)

/-- A data write's part lies within its page. -/
theorem steady_writeDataPart {n : PageNo} (hw : ∀ a, 1024 * n.val ≤ a → a < 1024 * n.val + 1024 → W a) (offset : Nat)
    (bytes : List Byte) (part : Nat) :
    Steady W s (s.writeDataPart n offset bytes part) ∧ (s.writeDataPart n offset bytes part).task t = some k := by
  have write := steady_writePage s (writePart offset bytes part)
    (off := partFrom offset part - part * Config.pageBytes)
    (len := partTo offset bytes.length part - partFrom offset part)
    (by simp only [partFrom, partTo, Config.pageBytes]; omega) hw
  simp only [State.writeDataPart]
  split
  · exact ⟨write.trans (steady_onPage ..), hk⟩
  · exact ⟨write, hk⟩

end Transfers

section Events

variable {W : Nat → Prop} {s u : State}

theorem steady_deliveryPart (e : ReadOutcome) (hu : execDeliveryPartTransfer e s = .next u) : Steady W s u := by
  simp only [execDeliveryPartTransfer, Host.Outcome.next.injEq] at hu
  subst hu
  split
  · split
    · next ho =>
      obtain ⟨hk, -⟩ := opOf_spec ho
      split
      · split
        · exact (steady_freePath s).trans (steady_damageInDelivery (s := s.freePath) hk ..)
        · exact (steady_freePath s).trans (steady_reachDelivery (s := s.freePath) hk ..)
      · exact .refl s
    · exact .refl s
  · exact .refl s

theorem steady_peekPart (e : ReadOutcome) (hu : execPeekPartTransfer e s = .next u) : Steady W s u := by
  simp only [execPeekPartTransfer, Host.Outcome.next.injEq] at hu
  subst hu
  split
  · split
    · next ho =>
      obtain ⟨hk, -⟩ := opOf_spec ho
      split
      · split
        · exact (steady_freePath s).trans (steady_damageInRead (s := s.freePath) hk ..)
        · exact (steady_freePath s).trans (steady_reachPeek (s := s.freePath) hk ..)
      · exact .refl s
    · exact .refl s
  · exact .refl s

theorem steady_dataReadPart (e : ReadOutcome) (hu : execDataReadPartTransfer e s = .next u) : Steady W s u := by
  simp only [execDataReadPartTransfer, Host.Outcome.next.injEq] at hu
  subst hu
  split
  · split
    · next ho =>
      obtain ⟨hk, -⟩ := opOf_spec ho
      split
      · split
        · exact (steady_freePath s).trans (steady_damageInRead (s := s.freePath) hk ..)
        · split
          · exact (steady_freePath s).trans (steady_setTask (s := s.freePath) hk (by rfl))
          · exact (steady_freePath s).trans (steady_answered (s := s.freePath) hk (by rfl) ..)
      · exact .refl s
    · exact .refl s
  · exact .refl s

theorem steady_fillPage (hu : execFillPageWrite s = .next u) : Steady (Writable s) s u := by
  simp only [execFillPageWrite, Host.Outcome.next.injEq] at hu
  subst hu
  split
  · next hp =>
    split
    · next ho =>
      obtain ⟨hk, hc, -, e⟩ := opOf_spec ho
      split
      · next n hn =>
        have write := fun b => ((steady_freePath s).trans (steady_writePage s.freePath b (off := 0)
          (len := Config.pageBytes) (.inr (by rfl)) fun _ =>
            writable_of_task hk hc (e ▸ hp) (.inl (slotPage_mem hn)))).trans (steady_onPage _ n Page.clearPoison)
        split
        · exact (write _).trans (steady_setTask hk (by rfl))
        · exact (write _).trans (steady_completeFill
            (s := (s.freePath.writePage n 0 Config.pageBytes _).onPage n Page.clearPoison) hk ..)
      · exact .refl s
    · exact .refl s
  · exact .refl s

theorem steady_dataWritePage (e : ReadOutcome) (hu : execDataWritePageTransfer e s = .next u) :
    Steady (Writable s) s u := by
  simp only [execDataWritePageTransfer, Host.Outcome.next.injEq] at hu
  subst hu
  split
  · next hp =>
    split
    · next ho =>
      obtain ⟨hk, hc, -, e⟩ := opOf_spec ho
      split
      · next n hn =>
        split
        · exact (steady_freePath s).trans (steady_damageInRead (s := s.freePath) hk ..)
        · have write := steady_writeDataPart (s := s.freePath) hk fun _ =>
            writable_of_task hk hc (e ▸ hp) (.inr (dataPage_mem hn))
          split
          · obtain ⟨one, hk'⟩ := write _ _ _
            exact ((steady_freePath s).trans one).trans (steady_setTask hk' (by rfl))
          · obtain ⟨one, hk'⟩ := write _ _ _
            exact ((steady_freePath s).trans one).trans (steady_answered hk' (by rfl) ..)
      · exact .refl s
    · exact .refl s
  · exact .refl s

theorem steady_scrubCompletion (hu : execScrubCompletion s = .next u) : Steady (Writable s) s u := by
  simp only [execScrubCompletion, Host.Outcome.next.injEq] at hu
  subst hu
  split
  · next n hp ht =>
    have write := (steady_freePath s).trans (steady_writePage (W := Writable s) s.freePath [] (n := n) (off := 0)
      (len := Config.pageBytes) (.inr (by rfl)) fun _ h1 h2 => ⟨n, h1, h2, .inl ⟨hp, ht⟩⟩)
    exact write.trans (.of_rest rfl rfl (.inl rfl) (.inr rfl) fun _ h => absurd rfl h)
  · exact .refl s

end Events

/-! ### Requests -/

/-- From s to t a task keeps its fixed part or is gone, only bytes of W change, and a rights set only if G. -/
structure Change (W : Nat → Prop) (G : Prop) (s t : State) : Prop where
  rights  : ∀ p, (t.port p).rights ≠ (s.port p).rights → G
  shapes  : ∀ u k k', s.task u = some k → t.task u = some k' → fixedPart k' = fixedPart k
  written : ∀ a, Memory.read t.mem a ≠ Memory.read s.mem a → W a

theorem Steady.then {W : Nat → Prop} {G : Prop} {s t v : State} (a : Steady W s t) (b : Change W G t v) :
    Change W G s v where
  rights p h := b.rights p (a.rights p ▸ h)
  shapes u k k' hk hk' := by
    have e := a.shapes u
    rw [hk] at e
    obtain ⟨k1, h1, e⟩ := Option.map_eq_some_iff.1 e
    exact (b.shapes u k1 k' h1 hk').trans e
  written x h := by
    by_cases e : Memory.read t.mem x = Memory.read s.mem x
    · exact b.written x (e ▸ h)
    · exact a.written x e

theorem Steady.change {W : Nat → Prop} {G : Prop} {s t : State} (a : Steady W s t) : Change W G s t :=
  a.then
    { rights := fun _ h => absurd rfl h
      shapes := fun _ _ _ h h' => by rw [h] at h'; rw [Option.some.inj h']
      written := fun _ h => absurd rfl h }

theorem Change.then {W : Nat → Prop} {G : Prop} {s t v : State} (a : Change W G s t) (b : Steady W t v) :
    Change W G s v where
  rights p h := a.rights p (b.rights p ▸ h)
  shapes u k k' hk hk' := by
    have e := b.shapes u
    rw [hk'] at e
    obtain ⟨k1, h1, e⟩ := Option.map_eq_some_iff.1 e.symm
    exact e.symm.trans (a.shapes u k k1 hk h1)
  written x h := by
    by_cases e : Memory.read t.mem x = Memory.read s.mem x
    · exact b.written x (e ▸ h)
    · exact a.written x e

/-- A task's record emptied, or made where there was none. -/
theorem change_setTask {W : Nat → Prop} {G : Prop} {s : State} {t : TaskNo} {k : Option Machine.Task}
    (h : k = none ∨ s.task t = none) : Change W G s (s.setTask t k) where
  rights _ h := absurd rfl h
  shapes u k1 k' h1 h' := by
    rw [task_setTask] at h'
    split at h'
    · next e =>
      subst e
      rcases h with h | h
      · rw [h] at h'; cases h'
      · rw [h] at h1; cases h1
    · rw [h1] at h'; rw [Option.some.inj h']
  written _ h := absurd rfl h

/-- A step that leaves the ports, the tasks and the memory. -/
theorem change_of_tables {W : Nat → Prop} {G : Prop} {s t : State} (ports : t.ports = s.ports)
    (tasks : t.tasks = s.tasks) (mem : t.mem = s.mem) : Change W G s t where
  rights p h := absurd (by rw [State.port, ports, State.port]) h
  shapes u k k' hk hk' := by
    rw [State.task, tasks, ← State.task, hk] at hk'
    rw [Option.some.inj hk']
  written a h := absurd (by rw [mem]) h

/-- A port record rewritten, its rights set only if G. -/
theorem change_onPort {W : Nat → Prop} {G : Prop} (s : State) (p : Port) (f : PortRecord → PortRecord)
    (h : ∀ r, (f r).rights ≠ r.rights → G) : Change W G s (s.onPort p f) where
  rights r hr := by
    rw [State.onPort, port_setPort] at hr
    split at hr
    · next e => exact h _ (e ▸ hr)
    · exact absurd rfl hr
  shapes u k k' hk hk' := by
    have hk' : s.task u = some k' := hk'
    rw [hk] at hk'
    rw [Option.some.inj hk']
  written _ h := absurd rfl h

theorem Change.mono {W W' : Nat → Prop} {G G' : Prop} {s t : State} (a : Change W G s t) (hw : ∀ x, W x → W' x)
    (hg : G → G') : Change W' G' s t :=
  { a with rights := fun p h => hg (a.rights p h), written := fun x h => hw x (a.written x h) }

section Requests

variable {W : Nat → Prop} {G : Prop} {p : Port} {q : Request} {s : State}

theorem change_refuse (st : Status) : Change W G s (s.refuse p q st) := (steady_refuse ..).change

theorem change_takeHello : Change W G s (takeHello p q s) := by
  refine Change.then ?_ (steady_respond ..)
  split
  · exact (Steady.refl s).change
  · exact change_onPort s p _ fun _ h => absurd rfl h

theorem change_takeGrantRights (hg : G) : Change W G s (takeGrantRights p q s) := by
  simp only [takeGrantRights]
  split
  · refine Change.then ?_ (steady_respond ..)
    exact change_onPort s _ (·.withRights (Rights.ofByte q.ops.grantByte)) fun _ _ => hg
  · exact change_refuse _

theorem steady_takeFetchNotice : Steady W s (takeFetchNotice p q s) := by
  simp only [takeFetchNotice]
  split
  · exact steady_respond ..
  · refine (steady_onPort s p PortRecord.fetch (fun r => ?_) fun r h => ?_).trans (steady_respond ..)
    · simp only [PortRecord.fetch]; split <;> rfl
    · simp only [PortRecord.fetch] at h; split at h <;> exact h

theorem change_takeDefine : Change W G s (takeDefine p q s) := by
  simp only [takeDefine]
  split
  · exact change_refuse _
  · exact change_refuse _
  · next t _ ht =>
    split
    · exact (steady_respond ..).change
    · have reserved : ∀ x ns, Steady W s (s.reserve t x ns) := fun x ns => by
        rw [reserve_frame]
        exact .of_tables rfl rfl (.inl rfl) rfl rfl
      refine ((reserved _ _).then (change_setTask (.inr ?_))).then (steady_respond ..)
      rw [reserve_task]
      exact chooseRecord_empty ht

theorem change_takeDiscard : Change W G s (takeDiscard p q s) := by
  refine withTask_ind change_refuse fun t k _ _ => ?_
  split
  · exact change_refuse _
  · have released : ∀ v ns, Steady W v (v.releasePages ns) := fun v ns => by
      rw [releasePages_frame]
      exact .of_tables rfl rfl (.inl rfl) rfl rfl
    exact (((steady_told (told_giveUpAll ..)).trans (released ..)).then (change_setTask (.inl rfl))).then
      (steady_respond ..)

theorem steady_takeRetune : Steady W s (takeRetune p q s) := by
  simp only [takeRetune]
  split
  · exact steady_refuse ..
  · refine withTask_ind (steady_refuse s p q) fun t k _ hk => ?_
    split
    · exact steady_refuse ..
    · exact (steady_setTask hk (by rfl)).trans (steady_respond ..)

theorem steady_takeSalvage : Steady W s (takeSalvage p q s) := by
  refine withTask_ind (steady_refuse s p q) fun t k _ _ => ?_
  split
  · exact ((((steady_told (told_giveUpAll _ _)).trans (steady_emptySlot ..)).trans
      (steady_onTask _ t _ (by intro; rfl))).trans (steady_told (told_postAll ..))).trans (steady_respond ..)
  · exact steady_refuse ..

theorem steady_takeClaim : Steady W s (takeClaim p q s) := by
  refine withTask_ind (steady_refuse s p q) fun t k _ hk => ?_
  split
  · exact steady_refuse ..
  · simp only [State.acceptClaim]
    have issued : Steady W s { s with nextToken := tokenAfter s.nextToken } := .of_tables rfl rfl (.inl rfl) rfl rfl
    split
    · exact (issued.trans (steady_setTask hk (by rfl))).trans (steady_reachDelivery (task_setTask_same ..) ..)
    · exact (issued.trans (steady_setTask hk (by rfl))).trans (steady_respond ..)

theorem steady_takeRelease : Steady W s (takeRelease p q s) :=
  withClaim_ind (steady_refuse s p q) fun t _ _ _ _ =>
    (((((steady_told (told_withdraw _ _)).trans (steady_told (told_giveUpAll _ _))).trans
      (steady_dropRetained ..)).trans (steady_onTask _ t _ (by intro; rfl))).trans
      (steady_told (told_postFreed ..))).trans (steady_respond ..)

/-- A request refused at step 7, or answered for a claim whose timer restarts. -/
theorem steady_answerClaim {v : State} (h : Steady W s v) (t : TaskNo) (x : Response) :
    Steady W s (v.answerClaim p t x) :=
  (h.trans (steady_onTask v t _ (by intro; rfl))).trans (steady_respond ..)

theorem steady_takeSuspend : Steady W s (takeSuspend p q s) := by
  refine withClaim_ind (steady_refuse s p q) fun t k c _ hl => ?_
  obtain ⟨hk, -⟩ := hl
  split
  · exact steady_answerClaim (.refl s) ..
  · have withdrawn : ∀ v ns, Steady W v (v.withdrawPages ns) := fun v ns => by
      rw [withdrawPages_frame]
      exact .of_tables rfl rfl (.inl rfl) rfl rfl
    exact ((steady_told (told_withdraw ..)).trans
      (steady_setTask (((told_withdraw ..).task t).trans hk) (by rfl))).trans (withdrawn ..)

theorem steady_takeEvict : Steady (Writable s) s (takeEvict p q s) := by
  refine withTask_ind (steady_refuse s p q) fun t k _ _ => ?_
  split
  · exact (steady_abnormalEnd ..).trans (steady_respond ..)
  · exact steady_refuse ..

theorem steady_takePeekFrame : Steady W s (takePeekFrame p q s) := by
  refine withClaim_ind (steady_refuse s p q) fun t k c _ hl => ?_
  obtain ⟨hk, -⟩ := hl
  split
  · exact steady_answerClaim (.refl s) ..
  · split
    · exact steady_answerClaim (.refl s) ..
    · exact (steady_setTask hk (by rfl)).trans (steady_reachPeek (task_setTask_same ..) ..)

theorem steady_takeDataRead : Steady W s (takeDataRead p q s) := by
  refine withClaim_ind (steady_refuse s p q) fun t k c _ hl => ?_
  obtain ⟨hk, -⟩ := hl
  dsimp only
  split
  · exact steady_answerClaim (.refl s) ..
  · split
    · exact steady_answerClaim (.refl s) ..
    · exact steady_setTask hk (by rfl)

theorem steady_takeDataWrite : Steady W s (takeDataWrite p q s) := by
  refine withClaim_ind (steady_refuse s p q) fun t k c _ hl => ?_
  obtain ⟨hk, -⟩ := hl
  dsimp only
  split
  · exact steady_answerClaim (.refl s) ..
  · split
    · exact steady_answerClaim (.refl s) ..
    · exact steady_setTask hk (by rfl)

theorem steady_takeLockNew : Steady W s (takeLockNew p q s) := by
  simp only [takeLockNew]
  split
  · exact steady_refuse ..
  · exact (steady_told (told_setLock ..)).trans (steady_respond ..)

theorem steady_takeLockReturn : Steady W s (takeLockReturn p q s) := by
  refine withLock_ind (steady_refuse s p q) fun l _ => ?_
  split
  · exact steady_refuse ..
  · exact (steady_told (told_setLock ..)).trans (steady_respond ..)

theorem steady_takeLock {t : TaskNo} {c : Claim} {l : LockNo} {e : State} (he : Steady W s e) :
    Steady W s (s.takeLock p q t c l e) :=
  takeLock_ind (fun _ _ => steady_answerClaim (steady_told (told_setLock ..)) ..)
    (fun _ => steady_answerClaim (.refl s) ..) fun _ _ => he

theorem steady_takeTake : Steady W s (takeTake p q s) :=
  withClaimLock_ind (steady_refuse s p q) fun _ _ _ _ _ _ => steady_takeLock (steady_answerClaim (.refl s) ..)

theorem steady_takeTakeWait : Steady W s (takeTakeWait p q s) := by
  refine withClaimLock_ind (steady_refuse s p q) fun t k c l _ _ => steady_takeLock ?_
  split
  · exact steady_answerClaim (.refl s) ..
  · split
    · exact steady_answerClaim (.refl s) ..
    · exact steady_answerClaim (steady_told (told_setLock ..)) ..

theorem steady_takeWithdraw : Steady W s (takeWithdraw p q s) := by
  refine withClaim_ind (steady_refuse s p q) fun t k c _ _ => ?_
  split
  · exact steady_answerClaim (.refl s) ..
  · exact steady_answerClaim (steady_told (told_withdraw ..)) ..

theorem steady_takeGive : Steady W s (takeGive p q s) := by
  refine withClaimLock_ind (steady_refuse s p q) fun t k c l _ _ => ?_
  split
  · exact steady_answerClaim (steady_told (told_giveUp ..)) ..
  · exact steady_answerClaim (.refl s) ..

theorem change_carryOut (c : RequestCode) (hg : c = .grantRights → G) :
    Change (Writable s) G s (carryOut p q s c) := by
  cases c with
  | hello => exact change_takeHello
  | goodbye => exact (steady_respond ..).change
  | grantRights => exact change_takeGrantRights (hg rfl)
  | fetchNotice => exact steady_takeFetchNotice.change
  | define => exact change_takeDefine
  | discard => exact change_takeDiscard
  | retune => exact steady_takeRetune.change
  | queryTask => exact withTask_ind change_refuse fun _ _ _ _ => (steady_respond ..).change
  | salvage => exact steady_takeSalvage.change
  | claim => exact steady_takeClaim.change
  | release => exact steady_takeRelease.change
  | suspend => exact steady_takeSuspend.change
  | renew => exact (withClaim_ind (steady_refuse s p q) fun _ _ _ _ _ => steady_answerClaim (.refl s) ..).change
  | evict => exact steady_takeEvict.change
  | peekFrame => exact steady_takePeekFrame.change
  | dataRead => exact steady_takeDataRead.change
  | dataWrite => exact steady_takeDataWrite.change
  | lockNew => exact steady_takeLockNew.change
  | lockReturn => exact steady_takeLockReturn.change
  | take => exact steady_takeTake.change
  | takeWait => exact steady_takeTakeWait.change
  | withdraw => exact steady_takeWithdraw.change
  | give => exact steady_takeGive.change
  | queryLock => exact withLock_ind change_refuse fun _ _ => (steady_respond ..).change
  | queryMemory => exact (steady_respond ..).change

/-- Request q, taken on port p in state s, may change a rights set: it is a GRANT-RIGHTS of an ONLINE port that holds
the GRANT right (R168). -/
def Granting (s : State) (p : Port) (q : Request) : Prop :=
  q.code = 0x03 ∧ (s.port p).session = .online ∧ (s.port p).rights.grant = true

theorem change_takeRequest : Change (Writable s) (Granting s p q) s (takeRequest p q s) := by
  cases hc : RequestCode.ofByte q.code with
  | none => rw [takeRequest_of_unknown hc]; exact change_refuse _
  | some c =>
    have code := (byte_of_ofByte hc).symm
    rw [takeRequest_of_code code]
    split
    · exact change_refuse _
    · next online =>
      split
      · exact change_refuse _
      · next right =>
        split
        · exact change_refuse _
        · refine change_carryOut c fun e => ?_
          subst e
          refine ⟨code, ?_, ?_⟩
          · cases hs : (s.port p).session with
            | online => rfl
            | offline => exact absurd ⟨hs, by decide⟩ online
          · simpa [allow_iff] using right

/-- Requests and answers leave who may write, and a request joined to a queue leaves who may grant. -/
theorem granting_onPort {f : PortRecord → PortRecord} (h : Granting (s.onPort p f) p q)
    (hf : ∀ r, (f r).session = r.session ∧ (f r).rights = r.rights) : Granting s p q := by
  obtain ⟨code, online, right⟩ := h
  simp only [State.onPort, port_setPort_same, hf] at online right
  exact ⟨code, online, right⟩

theorem change_arrive : Change (Writable s) (Granting s p q) s (arrive p q s) := by
  have queued : Steady (Writable s) s (s.onPort p (·.queueRequest q)) :=
    steady_onPort s p _ (fun _ => rfl) fun _ h => h
  simp only [arrive]
  split
  · exact (Steady.refl s).change
  · split
    · split
      · exact queued.then (change_takeRequest.mono (fun _ h => h) fun h => granting_onPort h fun _ => ⟨rfl, rfl⟩)
      · exact queued.change
    · refine change_onPort s p _ fun r h => absurd ?_ h
      simp only [PortRecord.addLinkAnswer]
      split <;> simp

end Requests

/-! ### Every command -/

/-- RESPONSE_SENT: the request that it takes is the one behind the head, over a state in which nobody has come to hold
the path and no session has opened. -/
theorem change_responseSent (p : Port) {s u : State} (hu : execResponseSent p s = .next u) :
    Change (Writable s) (∃ q, Granting s p q ∧ (s.port p).requests.tail.head? = some q) s u := by
  simp only [execResponseSent, Host.Outcome.next.injEq] at hu
  subst hu
  split
  · exact (Steady.refl s).change
  · exact (steady_startSending s p (fun r => { r with sending := none }) (fun _ => rfl) fun _ => rfl).change
  · have dropped : Steady (Writable s) s (s.onPort p PortRecord.dropHead) :=
      steady_onPort s p _ (fun _ => rfl) fun _ h => h
    have head : ((s.onPort p PortRecord.dropHead).port p).requests.head? = (s.port p).requests.tail.head? := by
      simp [State.onPort, PortRecord.dropHead]
    have next : ∀ v : State, Steady (Writable s) s v → (∀ a, Writable v a → Writable s a) →
        (v.port p).requests.head? = (s.port p).requests.tail.head? →
        Change (Writable s) (∃ q, Granting s p q ∧ (s.port p).requests.tail.head? = some q) s
          ((v.takeNext p).onPort p PortRecord.startSending) := by
      intro v hv hw hr
      refine Change.then ?_ (steady_startSending _ p id (fun _ => rfl) fun _ => rfl)
      simp only [State.takeNext]
      split
      · exact hv.change
      · next q rest e =>
        rw [e, List.head?_cons] at hr
        refine hv.then (change_takeRequest.mono hw fun h => ?_)
        obtain ⟨code, online, right⟩ := h
        exact ⟨q, ⟨code, hv.online p online, hv.rights p ▸ right⟩, hr.symm⟩
    split
    · obtain ⟨⟨-, same, -⟩, claims⟩ := teardown_spec (s.onPort p PortRecord.dropHead) p
      have torn : Steady (Writable s) s ((s.onPort p PortRecord.dropHead).teardown p) :=
        dropped.trans (steady_teardown (s.onPort p PortRecord.dropHead) p)
      exact next _ torn (fun a => torn.writable claims) (same.trans head)
    · exact next _ dropped (fun _ h => h) head

/-- A command that is neither a full-reset event nor a request: who may have changed a rights set with it. -/
theorem change_event {s u : State} {i : Instr} (hr : i.request = none) (hf : ∀ c, i ≠ .fullReset c)
    (hl : i ≠ .fullResetRelease) (hu : exec i s = .next u) :
    Change (Writable s) (∃ p q, Granting s p q
      ∧ ((∃ m, i = .messageEnd p m ∧ linkCheck m = .ok q)
        ∨ i = .responseSent p ∧ (s.port p).requests.tail.head? = some q)) s u := by
  cases i <;> simp only [Instr.request, reduceCtorEq] at hr <;> simp only [exec] at hu
  case responseSent p =>
    exact (change_responseSent p hu).mono (fun _ h => h) fun ⟨q, hg, hq⟩ => ⟨p, q, hg, .inr ⟨rfl, hq⟩⟩
  case deliveryPartTransfer e => exact (steady_deliveryPart e hu).change
  case fillPageWrite => exact (steady_fillPage hu).change
  case peekPartTransfer e => exact (steady_peekPart e hu).change
  case dataReadPartTransfer e => exact (steady_dataReadPart e hu).change
  case dataWritePageTransfer e => exact (steady_dataWritePage e hu).change
  case scrubCompletion => exact (steady_scrubCompletion hu).change
  case fullReset c => exact absurd rfl (hf c)
  case fullResetRelease => exact absurd rfl hl
  all_goals simp only [execMessageEnd, execArbiterGrant, execLeaseExpiry, execPortReset, execPortResetRelease,
    execLeaseTimerMillisecond, execScrubberTakePage, Host.Outcome.next.injEq] at hu
  all_goals subst hu
  case messageEnd p m =>
    split
    · next q hq => exact change_arrive.mono (fun _ h => h) fun hg => ⟨p, q, hg, .inl ⟨m, rfl, hq⟩⟩
    · split
      · exact (Steady.refl s).change
      · refine change_onPort s p _ fun r h => absurd ?_ h
        simp only [PortRecord.addLinkAnswer]
        split <;> simp
  case arbiterGrant =>
    split
    · exact (Steady.refl s).change
    · split
      · exact (Steady.refl s).change
      · exact change_of_tables rfl rfl rfl
  case scrubberTakePage =>
    split
    · exact (Steady.refl s).change
    · split
      · exact (Steady.refl s).change
      · exact change_of_tables rfl rfl rfl
  case leaseExpiry t =>
    split
    · exact (steady_abnormalEnd ..).change
    · exact (Steady.refl s).change
  case portReset p =>
    have cut : Steady (Writable s) s (s.onPort p PortRecord.cutOff) :=
      steady_onPort s p _ (fun _ => rfl) fun _ h => h
    exact (cut.trans (steady_teardown (s.onPort p PortRecord.cutOff) p)).change
  case portResetRelease p =>
    split
    · exact change_onPort s p _ fun _ h => absurd rfl h
    · exact (Steady.refl s).change
  case leaseTimerMillisecond => exact (Steady.foldl _ (fun s t => steady_onTask s t _ (by intro; rfl)) _ s).change

/-- A full-reset event leaves no task. -/
theorem fullyReset_task (s : State) (m : Memory) (b : Bool) (u : TaskNo) : (s.fullyReset m b).task u = none := by
  simp [State.fullyReset, State.task, State.reset]

/-- What a command changes, unless it is a full-reset event. -/
theorem change_exec {s u : State} {i : Instr} (hf : ∀ c, i ≠ .fullReset c) (hl : i ≠ .fullResetRelease)
    (hu : exec i s = .next u) :
    Change (Writable s) (∃ p q, Granting s p q
      ∧ (i.request = some (p, q) ∨ (∃ m, i = .messageEnd p m ∧ linkCheck m = .ok q)
        ∨ i = .responseSent p ∧ (s.port p).requests.tail.head? = some q)) s u := by
  cases hr : i.request with
  | none => exact (change_event hr hf hl hu).mono (fun _ h => h) fun ⟨p, q, hg, hi⟩ => ⟨p, q, hg, .inr hi⟩
  | some x =>
    rw [exec_request s hr, Host.Outcome.next.injEq] at hu
    subst hu
    exact change_arrive.mono (fun _ h => h) fun hg => ⟨x.1, x.2, hg, .inl rfl⟩

/-- Settles O5: only the holder of the path writes, and a full reset keeps the memory unless the supply has failed. -/
theorem memoryChangesOnlyThroughThePath : Obligations.MemoryChangesOnlyThroughThePath := by
  unfold Obligations.MemoryChangesOnlyThroughThePath
  intro i s t a hp ht hm
  by_cases hf : ∃ c, i = .fullReset c
  · obtain ⟨c, rfl⟩ := hf
    cases c with
    | powerOn => exact absurd rfl hp
    | line => cases ht; exact absurd rfl hm
  · by_cases hl : i = .fullResetRelease
    · subst hl
      simp only [exec, execFullResetRelease, Host.Outcome.next.injEq] at ht
      subst ht
      split at hm <;> exact absurd rfl hm
    · exact (change_exec (fun c e => hf ⟨c, e⟩) hl ht).written a hm

/-- Settles O6: GRANT-RIGHTS is the one request that changes a rights set, taken as it arrives or from the queue. -/
theorem rightsChangeOnlyByGrantAndFullReset : Obligations.RightsChangeOnlyByGrantAndFullReset := by
  unfold Obligations.RightsChangeOnlyByGrantAndFullReset
  intro i s t p ht hr
  by_cases hf : ∃ c, i = .fullReset c
  · exact .inl hf
  · by_cases hl : i = .fullResetRelease
    · exact .inr (.inl hl)
    · obtain ⟨r, q, ⟨code, online, right⟩, hi⟩ := (change_exec (fun c e => hf ⟨c, e⟩) hl ht).rights p hr
      exact .inr (.inr ⟨r, q, code, online, right, hi⟩)

/-- Settles O7: a task's fixed part stays, and a full reset leaves no task. -/
theorem geometryAndPagesAreFixed : Obligations.GeometryAndPagesAreFixed := by
  unfold Obligations.GeometryAndPagesAreFixed
  intro i s t u k k' ht hk hk'
  have shapes : fixedPart k' = fixedPart k := by
    by_cases hf : ∃ c, i = .fullReset c
    · obtain ⟨c, rfl⟩ := hf
      simp only [exec, execFullReset, Host.Outcome.next.injEq] at ht
      rw [← ht, fullyReset_task] at hk'
      cases hk'
    · by_cases hl : i = .fullResetRelease
      · subst hl
        simp only [exec, execFullResetRelease, Host.Outcome.next.injEq] at ht
        subst ht
        split at hk'
        · rw [fullyReset_task] at hk'; cases hk'
        · rw [hk] at hk'; rw [Option.some.inj hk']
      · exact (change_exec (fun c e => hf ⟨c, e⟩) hl ht).shapes u k k' hk hk'
  simpa [fixedPart] using shapes

end Sys2Proof.Laws

/-! SUPPORT. The requests that manage tasks as objects (DEFINE, DISCARD, RETUNE, QUERY-TASK, SALVAGE), lock allocation
and the two queries of locks and memory. -/

namespace Sys2Proof.Laws

open Sys2Proof Sys2Proof.Machine

/-! ### Requests that find their objects -/

section Named

variable {i : Instr} {p : Port} {o : Operands} {c : RequestCode} {s : State} {t : TaskNo}

/-- The six requests whose operand check asks for a task number alone. -/
theorem operandsOk_bareTask (hc : c ∈ [RequestCode.discard, .queryTask, .salvage, .release, .evict, .withdraw])
    (hf : o.flags = 0) (hp : o.payload = []) (ht : taskOf o.task = some t) : operandsOk o c = true := by
  fin_cases hc <;> simp [operandsOk, bare_of hf hp, Operands.namesTask, ht]

variable (b : Byte) (hr : i.request = some (p, ⟨b, o⟩)) (hb : b = c.byte) (ha : s.admits p c)
  (ok : operandsOk o c = true) (ht : taskOf o.task = some t) {k : Machine.Task}

include hr hb ha ok ht

/-- An admitted request that names an existing task comes to what it does with the task's record. -/
theorem exec_named {f : TaskNo → Machine.Task → State}
    (hc : carryOut p ⟨b, o⟩ (s.arrived p ⟨b, o⟩) c = (s.arrived p ⟨b, o⟩).withTask p ⟨b, o⟩ f)
    (hk : s.task t = some k) : exec i s = .next (f t k) := by
  rw [exec_admitted hr hb ha ok, hc]
  exact congrArg _ (withTask_of_task (s := s.arrived p ⟨b, o⟩) (q := ⟨b, o⟩) ht hk f)

/-- An admitted request with a live token comes to what it does with the claim. -/
theorem exec_claimed {f : TaskNo → Machine.Task → Claim → State}
    (hc : carryOut p ⟨b, o⟩ (s.arrived p ⟨b, o⟩) c = (s.arrived p ⟨b, o⟩).withClaim p ⟨b, o⟩ f)
    {x : Claim} (hl : s.liveClaim p t k x o.token) : exec i s = .next (f t k x) := by
  rw [exec_admitted hr hb ha ok, hc]
  exact congrArg _ (withClaim_of_live (s := s.arrived p ⟨b, o⟩) (q := ⟨b, o⟩) ht hl f)

end Named

/-! ### Tables by their entries -/

theorem vector_eq_ofFn {α : Type} {n : Nat} (v : Vector α n) (f : Fin n → α) (h : ∀ i : Fin n, v[i] = f i) :
    v = Vector.ofFn f :=
  Vector.ext fun i hi => by rw [Vector.getElem_ofFn]; exact h ⟨i, hi⟩

/-- The lowest number with a property is the one found. -/
theorem find_first {n : Nat} {f : Fin n → Bool} {i : Fin n} (h : f i = true) (first : ∀ j < i, f j = false) :
    (List.finRange n).find? f = some i := by
  refine List.find?_eq_some_iff_getElem.2 ⟨h, i.val, by simp, by simp, fun j hj => ?_⟩
  simpa using first ⟨j, by omega⟩ hj

theorem find_none {n : Nat} {f : Fin n → Bool} (h : ∀ i, f i = false) : (List.finRange n).find? f = none :=
  List.find?_eq_none.2 fun i _ => by simp [h i]

theorem setTask_eq_onTask {s : State} {t : TaskNo} {k : Machine.Task} (hk : s.task t = some k)
    (f : Machine.Task → Machine.Task) : s.onTask t f = s.setTask t (some (f k)) := by
  rw [State.onTask, hk, Option.map_some]

/-- Two changes of a task that agree on its record. -/
theorem onTask_congr {s : State} {t : TaskNo} {k : Machine.Task} (hk : s.task t = some k)
    {f g : Machine.Task → Machine.Task} (h : f k = g k) : s.onTask t f = s.onTask t g := by
  rw [setTask_eq_onTask hk, setTask_eq_onTask hk, h]

/-! ### DEFINE -/

section Define

variable {s : State} {b : Byte} {t : TaskNo}

theorem chooseRecord_named (ht : taskOf b = some t) (hk : s.task t = none) : s.chooseRecord b = .ok t := by
  simp [State.chooseRecord, ht, hk]

theorem chooseRecord_used (ht : taskOf b = some t) (hk : s.task t ≠ none) : s.chooseRecord b = .error .exists_ := by
  simp [State.chooseRecord, ht, hk]

theorem chooseRecord_lowest (hb : b = 0xFF) (hk : s.task t = none) (first : ∀ u < t, s.task u ≠ none) :
    s.chooseRecord b = .ok t := by
  subst hb
  have found : (List.finRange 64).find? (fun u : TaskNo => (s.task u).isNone) = some t :=
    find_first (by simp [hk]) fun j hj => by simpa using Option.isSome_iff_ne_none.2 (first j hj)
  rw [State.chooseRecord, show taskOf 0xFF = none from rfl]
  simp only [found]

theorem chooseRecord_full (hb : b = 0xFF) (full : ∀ u, s.task u ≠ none) : s.chooseRecord b = .error .tableFull := by
  subst hb
  have found : (List.finRange 64).find? (fun u : TaskNo => (s.task u).isNone) = none :=
    find_none fun j => by simpa using Option.isSome_iff_ne_none.2 (full j)
  rw [State.chooseRecord, show taskOf 0xFF = none from rfl]
  simp only [found]

/-- Some record is chosen where one that may be taken is EMPTY. -/
theorem chooseRecord_some (h : taskOf b = some t ∨ b = 0xFF) (hk : s.task t = none) :
    ∃ u, s.chooseRecord b = .ok u := by
  rcases h with ht | hb
  · exact ⟨t, chooseRecord_named ht hk⟩
  · subst hb
    rw [State.chooseRecord, show taskOf 0xFF = none from rfl]
    cases e : (List.finRange 64).find? (fun t => (s.task t).isNone) with
    | some u => exact ⟨u, rfl⟩
    | none => exact absurd hk (by simpa using List.find?_eq_none.1 e t (List.mem_finRange t))

theorem operandsOk_define {o : Operands} {x : Params} (hf : o.flags = 0) (hx : defineParams o = some x)
    (h : (∃ t, taskOf o.task = some t) ∨ o.task = 0xFF) : operandsOk o .define = true := by
  rcases h with ⟨t, ht⟩ | h
  · simp [operandsOk, hf, hx, Operands.namesTask, ht]
  · simp [operandsOk, hf, hx, h, anyTask]

/-- The number of pages that meet a condition, by list and by count. -/
theorem length_pagesWhere (s : State) (f : Page → Bool) : (s.pagesWhere f).length = s.countPages f := by
  have h : ∀ (l : List PageNo) (g : List Page), l.length = g.length →
      ((l.zip g).filterMap (fun x => if f x.2 then some x.1 else none)).length = g.countP f := by
    intro l
    induction l with
    | nil => intro g hg; rw [List.length_eq_zero_iff.1 hg.symm]; rfl
    | cons a l ih =>
      intro g hg
      cases g with
      | nil => cases hg
      | cons b g =>
        simp only [List.length_cons, Nat.add_right_cancel_iff] at hg
        by_cases hb : f b = true <;> simp [hb, ih g hg]
  exact h _ _ (by simp)

/-- The page map after a reservation. -/
theorem reserve_eq (s : State) (t : TaskNo) (x : Params) {ns : List PageNo} (nd : ns.Nodup) :
    s.reserve t x ns = { s with pages := Vector.ofFn (fun n =>
      match ns.idxOf? n with
      | none => s.page n
      | some i => ⟨.reserved, some t, some (x.roleOf i), false, false⟩) } := by
  rw [reserve_frame]
  refine congrArg (fun v => { s with pages := v }) (vector_eq_ofFn _ _ fun n => ?_)
  obtain ⟨other, listed⟩ := reserve_page s t x ns nd n
  show (s.reserve t x ns).page n = _
  cases e : ns.idxOf? n with
  | none => exact other (List.idxOf?_eq_none_iff.1 e)
  | some i =>
    obtain ⟨hi, hn, -⟩ := List.idxOf?_eq_some_iff.1 e
    exact listed i (List.getElem?_eq_some_iff.2 ⟨hi, by simpa using hn⟩)

theorem exec_define {p : Port} {o : Operands} {s : State} {x : Params} (ha : s.admits p .define) (hf : o.flags = 0)
    (hx : defineParams o = some x) (h : (∃ t, taskOf o.task = some t) ∨ o.task = 0xFF) :
    exec (.define p o) s = .next (takeDefine p ⟨0x10, o⟩ (s.arrived p ⟨0x10, o⟩)) :=
  exec_admitted rfl rfl ha (operandsOk_define hf hx h)

variable {p : Port} {o : Operands} {x : Params}

theorem takeDefine_of_error {st : Status} (hx : defineParams o = some x) (h : s.chooseRecord o.task = .error st) :
    takeDefine p ⟨0x10, o⟩ s = s.respond p (answerTo o st 0 0) := by
  simp only [takeDefine, hx, h, State.refuse]
  rw [reply_plain (c := .define) rfl rfl]

theorem takeDefine_of_short (hx : defineParams o = some x) (h : s.chooseRecord o.task = .ok t)
    (short : s.countPages (·.state == .free) < x.pageCount) :
    takeDefine p ⟨0x10, o⟩ s =
      s.respond p (answerTo o .noPages 0 (halves x.pageCount (s.countPages (·.state == .scrubbing)))) := by
  simp only [takeDefine, hx, h, length_pagesWhere, if_pos short]
  rw [reply_plain (c := .define) rfl rfl]
  rfl

theorem takeDefine_of_room (hx : defineParams o = some x) (h : s.chooseRecord o.task = .ok t) {free : List PageNo}
    (hfree : s.pagesWhere (·.state == .free) = free) (room : x.pageCount ≤ free.length) :
    takeDefine p ⟨0x10, o⟩ s = ((s.reserve t x (free.take x.pageCount)).setTask t
      (some (x.newTask (free.take x.pageCount)))).respond p
        { answerTo o .ok 0 (halves x.pageCount (free.length - x.pageCount)) with task := BitVec.ofNat 8 t.val } := by
  simp only [takeDefine, hx, h, hfree, if_neg (Nat.not_lt.2 room)]
  rw [reply_plain (c := .define) rfl rfl]
  rfl

end Define

/-- Settles O27: the record chosen, the pages FREE and the reservation decide the clauses. -/
theorem defineMakesAReadyTaskOrRefuses : Obligations.DefineMakesAReadyTaskOrRefuses := by
  unfold Obligations.DefineMakesAReadyTaskOrRefuses
  refine ⟨fun p o s x t ha hf hx ht => ?_, fun p o s x ha hf hx => ?_⟩
  · intro free slotTotal count room pages k map
    have choice : s.chooseRecord o.task = .ok t := by
      rcases ht with ⟨ht, hk⟩ | ⟨hb, hk, first⟩
      · exact chooseRecord_named ht hk
      · exact chooseRecord_lowest hb hk first
    have named : (∃ t, taskOf o.task = some t) ∨ o.task = 0xFF := ht.imp (fun h => ⟨t, h.1⟩) (·.1)
    have nd : pages.Nodup := ((pagesWhere_sorted s _).imp fun h => ne_of_lt h).sublist (List.take_sublist _ _)
    rw [exec_define ha hf hx named,
      takeDefine_of_room (s := s.arrived p ⟨0x10, o⟩) (free := free) hx choice rfl room]
    have reserved := reserve_eq (s.arrived p ⟨0x10, o⟩) t x nd
    refine congrArg (fun u : State => Host.Outcome.next ((u.setTask t (some k)).respond p _)) (reserved.trans ?_)
    rfl
  · intro s1 count
    refine ⟨fun t ht hk => ?_, fun hb full => ?_, fun ⟨t, named, hk⟩ short => ?_⟩
    · rw [exec_define ha hf hx (.inl ⟨t, ht⟩)]
      exact congrArg _ (takeDefine_of_error hx (chooseRecord_used (s := s1) ht hk))
    · rw [exec_define ha hf hx (.inr hb)]
      exact congrArg _ (takeDefine_of_error hx (chooseRecord_full (s := s1) hb full))
    · rw [exec_define ha hf hx (named.imp_left fun h => ⟨t, h⟩)]
      obtain ⟨u, hu⟩ := chooseRecord_some (s := s1) named hk
      exact congrArg _ (takeDefine_of_short hx hu short)

/-! ### DISCARD, RETUNE and QUERY-TASK -/

theorem carriedLocks_eq (k : Machine.Task) : k.carriedLocks =
    (List.finRange 32).filter (fun l => ∃ x ∈ k.slots, x.status = .filled ∧ ∃ f ∈ x.frame, l ∈ f.carried) := by
  refine List.filter_congr fun l _ => ?_
  rw [Bool.eq_iff_iff]
  simp [Option.any_eq_true]

theorem PortsLocks.pagesWhere {s t : State} (h : PortsLocks s t) (f : Page → Bool) :
    t.pagesWhere f = s.pagesWhere f := by rw [h.frame]; rfl

/-- Settles O29: by the task's state. -/
theorem discardEmptiesTheRecord : Obligations.DiscardEmptiesTheRecord := by
  unfold Obligations.DiscardEmptiesTheRecord
  intro p o s t k ha hf hp ht hk s1 carried pages
  have run := exec_named (i := .discard p o) 0x11 rfl rfl ha (operandsOk_bareTask (by simp) hf hp ht) ht rfl hk
  have locks : k.carriedLocks = carried := carriedLocks_eq k
  have owned : (s1.giveUpAll carried).pagesOf t = pages := (told_giveUpAll s1 carried).pagesWhere _
  rw [locks] at run
  refine ⟨fun h => run.trans (congrArg _ ?_), fun h => run.trans (congrArg _ ?_)⟩
  · dsimp only
    rw [if_neg h, owned, reply_plain (c := .discard) rfl rfl]
    rfl
  · rw [if_pos h, State.refuse, reply_plain (c := .discard) rfl rfl]

/-- Settles O30: by the operation in flight. -/
theorem retuneReplacesTheParameters : Obligations.RetuneReplacesTheParameters := by
  unfold Obligations.RetuneReplacesTheParameters
  intro p o s x t k ha hf hx ht hk s1
  have ok : operandsOk o .retune = true := by simp [operandsOk, hf, hx, Operands.namesTask, ht]
  have run := exec_named (i := .retune p o) 0x12 rfl rfl ha ok ht (f := fun t k =>
      if k.op.isSome then s1.refuse p ⟨0x12, o⟩ .conflict
      else (s1.setTask t (some (k.retuned x))).respond p (reply ⟨0x12, o⟩ .ok))
    (by simp only [carryOut, takeRetune, hx]; rfl) hk
  refine ⟨fun h => run.trans (congrArg _ ?_), fun h => run.trans (congrArg _ ?_)⟩
  · rw [if_neg (by simp [h]), reply_plain (c := .retune) rfl rfl]
    rfl
  · rw [if_pos (Option.isSome_iff_ne_none.2 h), State.refuse, reply_plain (c := .retune) rfl rfl]

/-- The top frame of a task, by its stack (R33). -/
theorem top_map (k : Machine.Task) {α : Type} (g : FrameRecord → α) :
    k.top.map (fun x => g x.2) = (k.stack.getLast?.bind k.frameIn).map g := by
  cases h : k.stack.getLast? with
  | none => simp [Task.top, h]
  | some i => cases hf : k.frameIn i <;> simp [Task.top, h, hf]

/-- Settles O31. -/
theorem queryTaskReportsTheRecord : Obligations.QueryTaskReportsTheRecord := by
  unfold Obligations.QueryTaskReportsTheRecord
  intro p o s t k ha hf hp ht hk
  rw [exec_named (i := .queryTask p o) 0x13 rfl rfl ha (operandsOk_bareTask (by simp) hf hp ht) ht rfl hk,
    reply_plain (c := .queryTask) rfl rfl, Task.report, top_map k (·.tagWord), top_map k (·.origin)]
  rfl

/-! ### SALVAGE -/

/-- The top slot and its frame, by the stack's end. -/
theorem top_of_stack {k : Machine.Task} {below : List Nat} {slot : Nat} {f : FrameRecord}
    (hs : k.stack = below ++ [slot]) (hf : k.frameIn slot = some f) : k.top = some (slot, f) := by
  simp [Task.top, hs, hf]

/-- Settles O32: by the task's state, its top frame being the one dropped. -/
theorem salvageDropsTheDamagedFrame : Obligations.SalvageDropsTheDamagedFrame := by
  unfold Obligations.SalvageDropsTheDamagedFrame
  intro p o s t k ha hf hp ht hk s1
  have run := exec_named (i := .salvage p o) 0x14 rfl rfl ha (operandsOk_bareTask (by simp) hf hp ht) ht rfl hk
  refine ⟨fun below slot f faulted hstack hframe => run.trans (congrArg _ ?_), fun h => run.trans (congrArg _ ?_)⟩
  · rw [faulted, top_of_stack hstack hframe, reply_plain (c := .salvage) rfl rfl]
    let emptied : Machine.Task := k.withSlot slot { status := .empty, frame := none }
    have dropped : ((s1.giveUpAll f.carried).emptySlot t slot).task t = some emptied := by
      rw [emptySlot_task, if_pos rfl, (told_giveUpAll ..).task, arrived_task, hk, Option.map_some]
    have rest : emptied.popToRest =
        { emptied with stack := below, state := if below = [] then .ready else .suspended } := by
      simp [emptied, Task.popToRest, Task.restState, Task.withSlot, hstack]
    have same := onTask_congr dropped (f := Task.popToRest)
      (g := fun k => { k with stack := below, state := if below = [] then .ready else .suspended }) rest
    have depth : ((((s1.giveUpAll f.carried).emptySlot t slot).onTask t Task.popToRest)).depthOf t = below.length := by
      rw [State.depthOf, onTask_task, if_pos rfl, dropped, Option.map_some, Option.map_some, rest]
      rfl
    dsimp only
    rw [depth, same]
    rfl
  · cases hs : k.state with
    | faulted => exact absurd hs h
    | ready | suspended | running =>
      dsimp only
      rw [State.refuse, reply_plain (c := .salvage) rfl rfl]

/-! ### LOCK-NEW, LOCK-RETURN and the queries -/

/-- A condition that one number alone loses. -/
theorem length_filter_lost {n : Nat} {f g : Fin n → Bool} {i : Fin n} (hf : f i = true) (hg : g i = false)
    (other : ∀ j ≠ i, g j = f j) : ((List.finRange n).filter f).length = ((List.finRange n).filter g).length + 1 := by
  have nd : ((List.finRange n).filter f).Nodup := (List.nodup_finRange n).filter _
  have lost : (List.finRange n).filter g = ((List.finRange n).filter f).erase i := by
    rw [nd.erase_eq_filter, List.filter_filter]
    refine List.filter_congr fun j _ => ?_
    by_cases e : j = i
    · simp [e, hg]
    · simp [e, other j e]
  have mem : i ∈ (List.finRange n).filter f := List.mem_filter.2 ⟨List.mem_finRange i, hf⟩
  have := List.length_pos_of_mem mem
  rw [lost, List.length_erase_of_mem mem]
  omega

section LockTable

variable {p : Port} {o : Operands} {s : State} {l : LockNo}

theorem takeLockNew_of_first (hl : (s.lock l).state = .unallocated) (first : ∀ j < l, (s.lock j).state ≠ .unallocated) :
    takeLockNew p ⟨0x40, o⟩ s = (s.setLock l ⟨.free, none, [], none⟩).respond p
      (answerTo o .ok 0 (halves l.val (s.unallocatedCount - 1))) := by
  have found : (List.finRange 32).find? (fun j : LockNo => (s.lock j).state = .unallocated) = some l :=
    find_first (by simp [hl]) fun j hj => by simp [first j hj]
  have fewer : s.unallocatedCount = (s.setLock l ⟨.free, none, [], none⟩).unallocatedCount + 1 :=
    length_filter_lost (i := l) (by simp [hl]) (by simp) fun j hj => by simp [lock_setLock, hj]
  simp only [takeLockNew, found]
  rw [reply_plain (c := .lockNew) rfl rfl, fewer, Nat.add_sub_cancel]
  rfl

theorem takeLockNew_of_full (full : ∀ l, (s.lock l).state ≠ .unallocated) :
    takeLockNew p ⟨0x40, o⟩ s = s.respond p (answerTo o .locksExhausted 0 0) := by
  have found : (List.finRange 32).find? (fun j : LockNo => (s.lock j).state = .unallocated) = none :=
    find_none fun j => by simp [full j]
  simp only [takeLockNew, found, State.refuse]
  rw [reply_plain (c := .lockNew) rfl rfl]

theorem takeLockReturn_of_free (ht : lockOf o.arg = some l) (hl : (s.lock l).state = .free) :
    takeLockReturn p ⟨0x41, o⟩ s =
      (s.setLock l .unallocated).respond p (answerTo o .ok 0 (halves l.val (s.unallocatedCount + 1))) := by
  have more : (s.setLock l .unallocated).unallocatedCount = s.unallocatedCount + 1 :=
    length_filter_lost (i := l) (by simp [Lock.unallocated]) (by simp [hl]) fun j hj => by simp [lock_setLock, hj]
  rw [takeLockReturn, withLock_of_allocated ht (by simp [hl]), if_neg (by simp [hl]),
    reply_plain (c := .lockReturn) rfl rfl, ← more]
  rfl

theorem takeLockReturn_of_held (ht : lockOf o.arg = some l) (hl : (s.lock l).state = .held) :
    takeLockReturn p ⟨0x41, o⟩ s = s.respond p (answerTo o .held 0 0) := by
  rw [takeLockReturn, withLock_of_allocated ht (by simp [hl]), if_pos hl, State.refuse,
    reply_plain (c := .lockReturn) rfl rfl]

end LockTable

/-- Settles O45: by the lowest UNALLOCATED lock, and by the state of the lock returned. -/
theorem locksAreAllocatedAndReturned : Obligations.LocksAreAllocatedAndReturned := by
  unfold Obligations.LocksAreAllocatedAndReturned
  intro p o s hf hp count
  have new : s.admits p .lockNew → exec (.lockNew p o) s = .next (takeLockNew p ⟨0x40, o⟩ (s.arrived p ⟨0x40, o⟩)) :=
    fun ha => exec_admitted rfl rfl ha (bare_of hf hp)
  have back : ∀ l, s.admits p .lockReturn → lockOf o.arg = some l →
      exec (.lockReturn p o) s = .next (takeLockReturn p ⟨0x41, o⟩ (s.arrived p ⟨0x41, o⟩)) := fun l ha ht =>
    exec_admitted rfl rfl ha (by simp [operandsOk, bare_of hf hp, Operands.namesLock, ht])
  refine ⟨fun l ha hl first => ?_, fun ha full => ?_, fun l ha ht hl => ?_, fun l ha ht hl => ?_⟩
  · exact (new ha).trans (congrArg _ (takeLockNew_of_first hl first))
  · exact (new ha).trans (congrArg _ (takeLockNew_of_full full))
  · exact (back l ha ht).trans (congrArg _ (takeLockReturn_of_free ht hl))
  · exact (back l ha ht).trans (congrArg _ (takeLockReturn_of_held ht hl))

/-- Settles O48: the lock's holder decides the fields of its report. -/
theorem queriesOfLocksAndMemory : Obligations.QueriesOfLocksAndMemory := by
  unfold Obligations.QueriesOfLocksAndMemory
  intro p o s hf hp
  have bare := bare_of hf hp
  refine ⟨fun l ha ht hl => ?_, fun ha => ?_⟩
  · rw [exec_admitted (i := .queryLock p o) rfl rfl ha (by simp [operandsOk, bare, Operands.namesLock, ht])]
    simp only [carryOut, takeQueryLock]
    rw [withLock_of_allocated (s := s.arrived p _) (q := ⟨_, o⟩) ht hl, reply_plain (c := .queryLock) rfl rfl]
    simp only [State.lockReport, arrived_lock]
    cases (s.lock l).holder with
    | none => rfl
    | some h => cases h <;> rfl
  · rw [exec_admitted (i := .queryMemory p o) rfl rfl ha (by simpa [operandsOk] using bare)]
    simp only [carryOut, takeQueryMemory]
    rw [reply_plain (c := .queryMemory) rfl rfl]
    rfl

end Sys2Proof.Laws

/-! SUPPORT. The requests that open, keep and end claims: CLAIM by its decision table, RELEASE, SUSPEND, RENEW and
EVICT. -/

namespace Sys2Proof.Laws

open Sys2Proof Sys2Proof.Machine

/-! ### CLAIM -/

section Accept

variable {p : Port} {o : Operands} {s : State} {t : TaskNo} {k : Machine.Task}

theorem operandsOk_claim (hf : o.flags = 0 ∨ o.flags = 1) (hp : o.payload = []) (ht : taskOf o.task = some t) :
    operandsOk o .claim = true := by
  rcases hf with hf | hf <;> simp [operandsOk, Operands.namesTask, hf, hp, ht]

theorem force_of_zero (hf : o.flags = 0) : o.force = false := by
  rw [Operands.force, hf]
  rfl

/-- CLAIM, once its task is found. -/
theorem exec_claim (ha : s.admits p .claim) (hf : o.flags = 0 ∨ o.flags = 1) (hp : o.payload = [])
    (ht : taskOf o.task = some t) (hk : s.task t = some k) :
    exec (.claim p o) s = .next (match k.claimRefusal p o.force with
      | some st => (s.arrived p ⟨0x20, o⟩).respond p (answerTo o st 0 0)
      | none => (s.arrived p ⟨0x20, o⟩).acceptClaim p ⟨0x20, o⟩ t k) := by
  rw [exec_named (i := .claim p o) 0x20 rfl rfl ha (operandsOk_claim hf hp ht) ht rfl hk]
  cases h : k.claimRefusal p o.force with
  | none => simp only
  | some st => simp only [State.refuse]; rw [reply_plain (c := .claim) rfl rfl]

theorem exec_claim_of_refused (ha : s.admits p .claim) (hf : o.flags = 0 ∨ o.flags = 1) (hp : o.payload = [])
    (ht : taskOf o.task = some t) (hk : s.task t = some k) {st : Status} (h : k.claimRefusal p o.force = some st) :
    exec (.claim p o) s = .next ((s.arrived p ⟨0x20, o⟩).respond p (answerTo o st 0 0)) := by
  rw [exec_claim ha hf hp ht hk, h]

theorem exec_claim_of_accepted (ha : s.admits p .claim) (hf : o.flags = 0 ∨ o.flags = 1) (hp : o.payload = [])
    (ht : taskOf o.task = some t) (hk : s.task t = some k) (h : k.claimRefusal p o.force = none) :
    exec (.claim p o) s = .next ((s.arrived p ⟨0x20, o⟩).acceptClaim p ⟨0x20, o⟩ t k) := by
  rw [exec_claim ha hf hp ht hk, h]

theorem claimRefusal_outside {force : Bool} (h : ¬ k.affinity.getLsbD p.val = true) :
    k.claimRefusal p force = some .denied := by
  rw [Task.claimRefusal, if_pos (Bool.eq_false_of_not_eq_true h)]

theorem claimRefusal_inside {force : Bool} (h : k.affinity.getLsbD p.val = true) : k.claimRefusal p force =
    if k.state = .faulted then some .faulted
    else if k.state = .running then some .busy
    else if (k.startFor force).1 = .notified ∧ k.depth = k.frameLimit then some .noRoom
    else none := by
  rw [Task.claimRefusal, if_neg (by rw [h]; simp)]

/-- The checks of a CLAIM are passed where the task is at rest within its affinity and, for a NOTIFIED start, has room
for another frame. -/
theorem claimRefusal_none {force : Bool} (hin : k.affinity.getLsbD p.val = true)
    (hs : k.state = .ready ∨ k.state = .suspended) (room : (k.startFor force).1 = .notified → k.depth ≠ k.frameLimit) :
    k.claimRefusal p force = none := by
  have idle : k.state ≠ .faulted ∧ k.state ≠ .running := by rcases hs with h | h <;> simp [h]
  rw [claimRefusal_inside hin, if_neg idle.1, if_neg idle.2, if_neg fun h => room h.1 h.2]

/-- A CLAIM that does not restore is answered at once. -/
theorem acceptClaim_of_answered {q : Request} (hq : q.code = RequestCode.claim.byte) {kind : StartKind} {level : Origin}
    (h : k.startFor q.ops.force = (kind, level)) (hr : kind ≠ .restored) :
    s.acceptClaim p q t k = State.respond (State.setTask { s with nextToken := tokenAfter s.nextToken } t
      (some (k.claimed (newClaim p s.nextToken kind level)).loadLease)) p
        (answerTo q.ops .ok s.nextToken k.entryWord (.claim (k.startReport kind level))) := by
  simp only [State.acceptClaim, h]
  rw [reply_plain hq rfl]
  cases kind with
  | restored => exact absurd rfl hr
  | fresh | notified => rfl

/-- A CLAIM that restores goes on to the first part of the top frame. -/
theorem acceptClaim_of_restored {q : Request} {level : Origin} (h : k.startFor q.ops.force = (.restored, level))
    {slot : Nat} {f : FrameRecord} (top : k.top = some (slot, f)) :
    s.acceptClaim p q t k = State.reachDeliveryPart (State.setTask { s with nextToken := tokenAfter s.nextToken } t
      (some (k.claimed (newClaim p s.nextToken .restored level)))) t
        (k.claimed (newClaim p s.nextToken .restored level)) (newClaim p s.nextToken .restored level) slot f 0 [] := by
  simp only [State.acceptClaim, h, top]

theorem startFor_of_ready (force : Bool) (hs : k.state = .ready) : k.startFor force = (.fresh, .primary) := by
  simp [Task.startFor, startKindOf, hs]

theorem startFor_of_notify {slot : Nat} {f : FrameRecord} (hs : k.state = .suspended) (hm : k.resumeMode = .notify)
    (top : k.top = some (slot, f)) (ho : f.origin = .primary) : k.startFor false = (.notified, .handler) := by
  simp [Task.startFor, startKindOf, hs, hm, top, ho]

theorem startFor_of_restore {force : Bool} {slot : Nat} {f : FrameRecord} (hs : k.state = .suspended)
    (top : k.top = some (slot, f)) (h : k.resumeMode = .restore ∨ f.origin = .handler ∨ force = true) :
    k.startFor force = (.restored, f.origin) := by
  simp only [Task.startFor, hs, top, Option.map_some]
  cases hm : k.resumeMode with
  | restore => rfl
  | notify =>
    cases ho : f.origin with
    | handler => rfl
    | primary =>
      obtain rfl : force = true := by simpa [hm, ho] using h
      rfl

end Accept

/-- Settles O33: the checks in their order, and the decision table's two starts that are answered at once. -/
theorem claimsAreRefusedOrAnsweredAtOnce : Obligations.ClaimsAreRefusedOrAnsweredAtOnce := by
  unfold Obligations.ClaimsAreRefusedOrAnsweredAtOnce
  intro p o s t k ha hf hp ht hk s1 admitted lease claimed
  have refused := fun st => exec_claim_of_refused ha hf hp ht hk (st := st)
  have accepted := exec_claim_of_accepted ha hf hp ht hk
  refine ⟨fun hin => refused _ ?_, fun hin hs => refused _ ?_, fun hin hs => refused _ ?_, fun hin hs => ?_,
    fun below slot f flags hin hs hm hstack hframe ho => ⟨fun full => refused _ ?_, fun room => ?_⟩⟩
  · exact claimRefusal_outside hin
  · rw [claimRefusal_inside hin, if_pos hs]
  · rw [claimRefusal_inside hin, if_neg (by simp [hs]), if_pos hs]
  · have start := startFor_of_ready o.force hs
    refine (accepted (claimRefusal_none hin (.inl hs) fun h => ?_)).trans
      (congrArg _ (acceptClaim_of_answered (q := ⟨0x20, o⟩) rfl start (by simp)))
    rw [start] at h
    cases h
  · have start := startFor_of_notify hs hm (top_of_stack hstack hframe) ho
    rw [force_of_zero flags, claimRefusal_inside hin, if_neg (by simp [hs]), if_neg (by simp [hs]),
      if_pos ⟨by rw [start], full⟩]
  · have top := top_of_stack hstack hframe
    have start := startFor_of_notify hs hm top ho
    rw [← force_of_zero flags] at start
    refine (accepted (claimRefusal_none hin (.inr hs) fun _ => room)).trans
      (congrArg _ ((acceptClaim_of_answered (q := ⟨0x20, o⟩) rfl start (by simp)).trans ?_))
    simp only [Task.startReport, top, if_true, Option.map_some]
    rfl

section Delivery

variable {s : State} {t : TaskNo} {k : Machine.Task} {c : Claim} {slot part : Nat} {f : FrameRecord} {b : List Byte}
  {n : PageNo}

/-- Some part holds the bytes of every frame (R31). -/
theorem partCount_pos (length : Nat) : 0 < partCount length := Nat.succ_pos _

/-- The page of a slot part, where it is poisoned. -/
theorem poisonedPart_of_page (h : k.slotPage slot part = some n) :
    s.poisonedPart k slot part = if (s.page n).poisoned = true then some n else none := by
  simp [State.poisonedPart, h, Option.filter]

theorem reachDelivery_of_poisoned (h : part < partCount f.length) (hn : k.slotPage slot part = some n)
    (bad : (s.page n).poisoned = true) :
    s.reachDeliveryPart t k c slot f part b = s.damageInDelivery t k c n part := by
  rw [State.reachDeliveryPart, if_pos h, poisonedPart_of_page hn, if_pos bad]

theorem reachDelivery_of_clean (h : part < partCount f.length) (hn : k.slotPage slot part = some n)
    (clean : (s.page n).poisoned = false) :
    s.reachDeliveryPart t k c slot f part b = s.setTask t (some { k with op := some (.delivery slot part b) }) := by
  rw [State.reachDeliveryPart, if_pos h, poisonedPart_of_page hn, if_neg (by simp [clean])]

theorem reachDelivery_of_last (h : ¬ part < partCount f.length) :
    s.reachDeliveryPart t k c slot f part b = s.completeDelivery t k c slot f b := by
  rw [State.reachDeliveryPart, if_neg h]

/-- Damage in delivery, answered to the head request of the claim's port. -/
theorem damageInDelivery_of_head {q : Request} (h : (s.port c.port).requests.head? = some q) :
    s.damageInDelivery t k c n part = State.respond
      (State.postAll ((s.onPage n (fun g => { g with poisoned := true })).setTask t
          (some { k with state := .faulted, claim := none, op := none }))
        (PortSet.members k.watch none) (.taskFaulted t k.stack.length)) c.port
      (answerTo q.ops .damaged c.token (halves n.val part)) := by
  refine respondHead_of_head ?_ _
  obtain ⟨-, -, e, -⟩ := (told_postAll ((s.onPage n Page.markPoisoned).setTask t (some k.fault))
    (PortSet.members k.watch none) (.taskFaulted t k.depth)).lines c.port
  rw [e]
  exact h

end Delivery

/-- The request that has just arrived on an empty queue is its port's head request. -/
theorem arrived_head {s : State} {p : Port} {c : RequestCode} (ha : s.admits p c) (q : Request) :
    ((s.arrived p q).port p).requests.head? = some q := by
  obtain ⟨⟨-, -, empty⟩, -⟩ := ha
  simp [State.arrived, State.onPort, PortRecord.queueRequest, empty]

/-- Settles O34: by the poison of the page of part 0. -/
theorem claimRestoringStartsADelivery : Obligations.ClaimRestoringStartsADelivery := by
  unfold Obligations.ClaimRestoringStartsADelivery
  intro p o s t k below slot f n ha hf hp ht hk hin hs hstack hframe hr hn s1
  have top := top_of_stack hstack hframe
  have start : k.startFor o.force = (.restored, f.origin) :=
    startFor_of_restore hs top (hr.imp_right (.imp_right fun h => by
    rw [Operands.force, h]; rfl))
  let c := newClaim p s.nextToken .restored f.origin
  have run : exec (.claim p o) s =
      .next ((s1.setTask t (some (k.claimed c))).reachDeliveryPart t (k.claimed c) c slot f 0 []) :=
    (exec_claim_of_accepted ha hf hp ht hk (claimRefusal_none hin (.inr hs) fun h => by rw [start] at h; cases h)).trans
      (congrArg _ (acceptClaim_of_restored (q := ⟨0x20, o⟩) start top))
  refine ⟨fun clean => run.trans (congrArg _ ?_), fun bad => run.trans (congrArg _ ?_)⟩
  · exact (reachDelivery_of_clean (s := s1.setTask t _) (k := k.claimed c) (partCount_pos _) hn clean).trans
      (setTask_setTask ..)
  · refine (reachDelivery_of_poisoned (s := s1.setTask t _) (k := k.claimed c) (partCount_pos _) hn bad).trans
      ((damageInDelivery_of_head (s := s1.setTask t _) (c := c) (arrived_head ha ⟨0x20, o⟩)).trans ?_)
    exact congrArg (fun v : State => (v.postAll _ _).respond p _) (setTask_setTask (s1.onPage n Page.markPoisoned) ..)

/-! ### RELEASE, SUSPEND and RENEW -/

/-- Settles O35. -/
theorem releaseEndsTheClaim : Obligations.ReleaseEndsTheClaim := by
  unfold Obligations.ReleaseEndsTheClaim
  intro p o s t k c ha hf hp ht hl held s1 s2 s3
  obtain ⟨-, -, -, hport, htok⟩ := id hl
  have ended : Task.endClaim = fun k : Machine.Task =>
      { k with claim := none, op := none, state := if k.stack = [] then .ready else .suspended } := funext endClaim_eq
  have dropped : s1.dropRetained t c = s2 := by
    rfl
  rw [exec_claimed (i := .release p o) 0x21 rfl rfl ha (operandsOk_bareTask (by simp) hf hp ht) ht rfl hl]
  refine congrArg _ ?_
  dsimp only
  rw [reply_to_claim (q := ⟨0x21, o⟩) (r := .release) rfl rfl htok, ended, hport]
  exact congrArg (fun v : State => State.respond ((v.onTask t _).postFreed t k p k.depth) p _) dropped

/-- Settles O36: by the frame's length against the slot's size. -/
theorem suspendStartsAFill : Obligations.SuspendStartsAFill := by
  unfold Obligations.SuspendStartsAFill
  intro p o s t k c ha hf h4 hmax hmod ht hl s1
  obtain ⟨hk, -, hc, -, htok⟩ := id hl
  have ok : operandsOk o .suspend = true := by
    simp [operandsOk, Operands.namesTask, ht, hf, lengthOk_iff, h4, hmax, hmod]
  have run := exec_claimed (i := .suspend p o) 0x22 rfl rfl ha ok ht rfl hl
  refine ⟨fun long => run.trans (congrArg _ ?_),
    fun slot x pages short hx empty first hpages => run.trans (congrArg _ ?_)⟩
  · rw [if_pos (by simpa [Task.slotSize, Config.pageBytes] using long)]
    rw [State.refuseClaim, State.refuse, reply_to_claim (q := ⟨0x22, o⟩) (r := .suspend) rfl rfl htok]
  · have lowest : k.emptySlot = slot := by
      obtain ⟨hlt, rfl⟩ := List.getElem?_eq_some_iff.1 hx
      refine (List.findIdx_eq hlt).2 ⟨by simpa using empty, fun j hj => ?_⟩
      simpa using first j hj _ (List.getElem?_eq_getElem (by omega))
    have start : k.startFill o.arg o.payload (s.waitOf ⟨t, c.token⟩).isSome =
        { k with slots := k.slots.set slot { status := .filling, frame := none }
                 claim := some { c with lease := none, expiryDue := false }
                 op := some (.fill slot 0 o.arg o.payload (s.waitOf ⟨t, c.token⟩).isSome) } := by
      simp only [Task.startFill, lowest, Task.withSlot, Task.stopLease, hc, Option.map_some]
      rfl
    rw [if_neg (by simpa [Task.slotSize, Config.pageBytes] using short), lowest, hpages, ← start]
    rfl

/-- Settles O37. -/
theorem renewReloadsTheLease : Obligations.RenewReloadsTheLease := by
  unfold Obligations.RenewReloadsTheLease
  intro p o s t k c ha hp ht hl c'
  obtain ⟨hk, -, hc, -, htok⟩ := id hl
  have ok : operandsOk o .renew = true := by simp [operandsOk, Operands.namesTask, ht, hp]
  have period : k.leaseLoad.getD 0 = k.leasePeriod := by
    simp only [Task.leaseLoad]
    split
    · next h => rw [h]; rfl
    · rfl
  have loaded : k.loadLease = { k with claim := some c' } := by
    simp only [Task.loadLease, hc, Option.map_some]
    rfl
  rw [exec_claimed (i := .renew p o) 0x23 rfl rfl ha ok ht rfl hl,
    reply_to_claim (q := ⟨0x23, o⟩) (r := .renew) rfl rfl htok, period,
    setTask_eq_onTask (s := s.arrived p ⟨0x23, o⟩) hk, loaded]
  rfl

/-! ### EVICT -/

/-- The depth after the abnormal end is the stack's height after its first three steps. -/
theorem depthOf_abnormalEnd {s v : State} {t : TaskNo} {k k' : Machine.Task} {c : Claim} (cause : EndCause)
    (hk : s.task t = some k) (hc : k.claim = some c)
    (hv : ((s.abortOp t).withdraw ⟨t, c.token⟩).endLocks t c = v) (hk' : v.task t = some k') :
    (s.abnormalEnd t cause).depthOf t = k'.stack.length := by
  have answered : ∀ (w : State) (o : Option Op), (w.answerAborted c o cause).task t = w.task t := by
    intro w o
    cases cause <;> cases o <;> simp [State.answerAborted]
  rw [abnormalEnd_of_endLocks cause hk hc hv hk', State.depthOf, answered, (told_endNotices ..).task, onTask_task,
    if_pos rfl, hk']
  rfl

/-- Settles O38: the end's three kinds differ in the stack that step 3 leaves and the locks that it gives up. -/
theorem evictEndsTheClaim : Obligations.EvictEndsTheClaim := by
  unfold Obligations.EvictEndsTheClaim
  intro p o s t k ha hf hp ht hk s1
  have run := exec_named (i := .evict p o) 0x24 rfl rfl ha (operandsOk_bareTask (by simp) hf hp ht) ht rfl hk
  obtain ⟨hstack, -⟩ := abortedTask_rest k
  have evicted : ∀ (c : Claim) (v : State) (k' : Machine.Task) (lost : LockSet), k.state = .running → k.claim = some c →
      ((s1.abortOp t).withdraw ⟨t, c.token⟩).endLocks t c = v → v.task t = some k' → s1.endLosses t = lost →
      exec (.evict p o) s = .next ((s1.abnormalEnd t .evicted).respond p
        (answerTo o .ok 0 (halves k'.stack.length lost.length))) := by
    intro c v k' lost hs hc hv hk' hlost
    refine run.trans (congrArg _ ?_)
    rw [if_pos hs]
    dsimp only
    rw [depthOf_abnormalEnd .evicted (s := s1) hk hc hv hk', hlost, reply_plain (c := .evict) rfl rfl]
    rfl
  refine ⟨fun hs => run.trans (congrArg _ ?_), fun c hs hc hph => ?_, fun c hs hc hph hr => ?_,
    fun c slot f hs hc hph hr hframe hfill => ?_⟩
  · rw [if_neg hs, State.refuse, reply_plain (c := .evict) rfl rfl]
  all_goals
    have hs1 : ((s1.abortOp t).withdraw ⟨t, c.token⟩).task t = some (abortedTask k) :=
      aborted_withdrawn_task _ (s := s1) hk hc
    have hk1 : s1.task t = some k := hk
  · have step3 : ((s1.abortOp t).withdraw ⟨t, c.token⟩).endLocks t c = (s1.abortOp t).withdraw ⟨t, c.token⟩ := by
      simp only [State.endLocks, hph]
    have lost : s1.endLosses t = [] := by simp only [State.endLosses, hk1, hc, hph]
    rw [evicted c _ _ _ hs hc step3 hs1 lost, hstack]
    rfl
  · have step3 : ((s1.abortOp t).withdraw ⟨t, c.token⟩).endLocks t c =
        ((s1.abortOp t).withdraw ⟨t, c.token⟩).giveUpAll (s1.heldBy (.claim t c.token)) := by
      simp only [State.endLocks, hph, hr, heldBy_aborted_withdrawn]
    have lost : s1.endLosses t = s1.heldBy (.claim t c.token) := by simp only [State.endLosses, hk1, hc, hph, hr]
    rw [evicted c _ _ _ hs hc step3 ((giveUpAll_task ..).trans hs1) lost, hstack]
    rfl
  · have step3 : ((s1.abortOp t).withdraw ⟨t, c.token⟩).endLocks t c =
        ((s1.abortOp t).withdraw ⟨t, c.token⟩).reinstate t c.token slot := by simp only [State.endLocks, hph, hr]
    have lost : s1.endLosses t = (s1.heldBy (.claim t c.token)).filter (fun l => l ∉ f.carried) := by
      simp [State.endLosses, hk1, hc, hph, hr, hframe]
    rw [evicted c _ _ _ hs hc step3
      ((reinstate_tasks c.token hs1 ((abortedTask_frameIn hfill).trans hframe) t).trans (if_pos rfl)) lost]
    simp only [List.length_append, List.length_singleton, hstack]
    rfl

end Sys2Proof.Laws

/-! SUPPORT. The requests that read and write a running task's frames and data area: PEEK-FRAME, DATA-READ and
DATA-WRITE, with the covered parts of a data request (R119). -/

namespace Sys2Proof.Laws

open Sys2Proof Sys2Proof.Machine

/-! ### Reads that keep the claim -/

section Peek

variable {s : State} {t : TaskNo} {k : Machine.Task} {c : Claim} {position slot part : Nat} {f : FrameRecord}
  {b : List Byte} {n : PageNo}

theorem reachPeek_of_poisoned (h : part < partCount f.length) (hn : k.slotPage slot part = some n)
    (bad : (s.page n).poisoned = true) :
    s.reachPeekPart t k c position slot f part b = s.damageInRead t k c n part := by
  rw [State.reachPeekPart, if_pos h, poisonedPart_of_page hn, if_pos bad]

theorem reachPeek_of_clean (h : part < partCount f.length) (hn : k.slotPage slot part = some n)
    (clean : (s.page n).poisoned = false) :
    s.reachPeekPart t k c position slot f part b =
      s.setTask t (some { k with op := some (.peek position slot part b) }) := by
  rw [State.reachPeekPart, if_pos h, poisonedPart_of_page hn, if_neg (by simp [clean])]

theorem reachPeek_of_last (h : ¬ part < partCount f.length) :
    s.reachPeekPart t k c position slot f part b = s.completePeek t k c position slot f b := by
  rw [State.reachPeekPart, if_neg h]

/-- Damage in a read that keeps the claim, answered to the head request of the claim's port. -/
theorem damageInRead_of_head {q : Request} {r : RequestCode} (h : (s.port c.port).requests.head? = some q)
    (hq : q.code = r.byte) (hr : r.tokenBearing = true) : s.damageInRead t k c n part = State.respond
      ((s.onPage n (fun g => { g with poisoned := true })).setTask t
        (some (Machine.Task.loadLease { k with op := none }))) c.port
      (answerTo q.ops .damaged q.ops.token (halves n.val part)) := by
  refine (respondHead_of_head (s := (s.onPage n Page.markPoisoned).setTask t _) h (damagedReply n part)).trans ?_
  rw [damagedReply, reply_of_code hq, hr]
  rfl

end Peek

/-- A timer stopped at the arrival of a request and loaded at its answer is a timer loaded. -/
theorem loadLease_stopLease {k : Machine.Task} (ho : k.op = none) :
    Machine.Task.loadLease { k.stopLease with op := none } = k.loadLease := by
  obtain ⟨state, fl, fp, dp, rm, aff, watch, lp, ew, sp, da, slots, stack, claim, op⟩ := k
  obtain rfl : op = none := ho
  cases claim <;> rfl

theorem stopLease_of_claim {k : Machine.Task} {c : Claim} (hc : k.claim = some c) :
    k.stopLease = { k with claim := some { c with lease := none, expiryDue := false } } := by
  simp only [Task.stopLease, hc, Option.map_some]
  rfl

/-- Settles O42: by the stack position, and by the poison of the page of part 0. -/
theorem peekFrameStartsAPeek : Obligations.PeekFrameStartsAPeek := by
  unfold Obligations.PeekFrameStartsAPeek
  intro p o s t k c ha hf hp h7 ht hl s1
  obtain ⟨hk, -, hc, hport, htok⟩ := id hl
  have ok : operandsOk o .peekFrame = true := by
    simp [operandsOk, bare_of hf hp, Operands.namesTask, ht, h7]
  have run := exec_claimed (i := .peekFrame p o) 0x30 rfl rfl ha ok ht rfl hl
  have found : ∀ slot f, k.stack[o.arg.toNat]? = some slot → k.frameIn slot = some f → exec (.peekFrame p o) s =
      .next ((s1.setTask t (some k.stopLease)).reachPeekPart t k.stopLease c.stopLease o.arg.toNat slot f 0 []) := by
    intro slot f hslot hframe
    refine run.trans (congrArg _ ?_)
    rw [hslot]
    dsimp only
    rw [hframe]
  refine ⟨fun beyond => run.trans (congrArg _ ?_), fun slot f n hslot hframe hn clean => ?_,
    fun slot f n hslot hframe hn bad ho => ?_⟩
  · rw [List.getElem?_eq_none beyond]
    dsimp only
    rw [State.refuseClaim, State.refuse, reply_to_claim (q := ⟨0x30, o⟩) (r := .peekFrame) rfl rfl htok]
  · refine (found slot f hslot hframe).trans (congrArg _ ?_)
    refine (reachPeek_of_clean (s := s1.setTask t _) (k := k.stopLease) (partCount_pos _) hn clean).trans ?_
    rw [setTask_setTask, stopLease_of_claim hc]
  · refine (found slot f hslot hframe).trans (congrArg _ ?_)
    refine (reachPeek_of_poisoned (s := s1.setTask t _) (k := k.stopLease) (partCount_pos _) hn bad).trans ?_
    have head : ((s1.setTask t (some k.stopLease)).port c.stopLease.port).requests.head? = some ⟨0x30, o⟩ :=
      hport ▸ arrived_head ha _
    refine (damageInRead_of_head (s := s1.setTask t _) head (r := .peekFrame) rfl rfl).trans ?_
    rw [loadLease_stopLease ho, setTask_eq_onTask (s := s1.onPage n (fun g => { g with poisoned := true })) hk, ← htok]
    exact congrArg₂ (fun (v : State) r => v.respond r _) (setTask_setTask (s1.onPage n Page.markPoisoned) ..) hport

/-! ### The covered parts of a data request (R119) -/

section Parts

variable {offset length part : Nat}

theorem mem_coveredParts (h : 1 ≤ length) :
    part ∈ coveredParts offset length ↔ offset / 1024 ≤ part ∧ part ≤ (offset + length - 1) / 1024 := by
  have := Nat.div_le_div_right (c := 1024) (show offset ≤ offset + length - 1 by omega)
  simp only [coveredParts, firstPart, lastPart, Config.pageBytes, List.mem_map, List.mem_range]
  constructor
  · rintro ⟨i, hi, rfl⟩
    omega
  · rintro ⟨h1, h2⟩
    exact ⟨part - offset / 1024, by omega, by omega⟩

theorem coveredParts_sorted (offset length : Nat) : (coveredParts offset length).Pairwise (· < ·) :=
  List.pairwise_map.2 (List.pairwise_lt_range.imp fun h => Nat.add_lt_add_left h _)

theorem coveredFull_iff : coveredFull offset length part = true ↔
    offset ≤ 1024 * part ∧ 1024 * part + 1024 ≤ offset + length := by
  simp only [coveredFull, partFrom, partTo, Config.pageBytes, Bool.and_eq_true, beq_iff_eq]
  omega

/-- Whether a data part's page is poisoned. -/
def PoisonedPart (s : State) (k : Machine.Task) (part : Nat) : Prop :=
  ∃ n, k.dataPage part = some n ∧ (s.page n).poisoned = true

variable {s : State} {k : Machine.Task} {parts : List Nat}

theorem poisonedData_none (h : ∀ j ∈ parts, ¬ PoisonedPart s k j) : s.poisonedData k parts = none := by
  refine List.findSome?_eq_none_iff.2 fun j hj => ?_
  cases hn : k.dataPage j with
  | none => rfl
  | some n =>
    have clean : (s.page n).poisoned = false := Bool.eq_false_of_not_eq_true fun hp => h j hj ⟨n, hn, hp⟩
    simp [Option.filter, clean]

/-- The lowest poisoned part of a rising list is the one found. -/
theorem poisonedData_first {n : PageNo} (sorted : parts.Pairwise (· < ·)) (hp : part ∈ parts)
    (hn : k.dataPage part = some n) (bad : (s.page n).poisoned = true)
    (first : ∀ j < part, j ∈ parts → ¬ PoisonedPart s k j) : s.poisonedData k parts = some (part, n) := by
  induction parts with
  | nil => cases hp
  | cons j parts ih =>
    obtain ⟨below, sorted⟩ := List.pairwise_cons.1 sorted
    rw [State.poisonedData, List.findSome?_cons]
    rcases List.mem_cons.1 hp with rfl | later
    · simp [hn, Option.filter, bad]
    · have here := poisonedData_none (s := s) (k := k) (parts := [j]) fun i hi => by
        rw [List.mem_singleton.1 hi]
        exact first j (below part later) List.mem_cons_self
      rw [State.poisonedData, List.findSome?_cons, List.findSome?_nil] at here
      split at here
      · cases here
      · exact ih sorted later fun i hi hm => first i hi (List.mem_cons_of_mem _ hm)

end Parts

/-! ### DATA-READ and DATA-WRITE -/

section Data

variable {p : Port} {s : State} {t : TaskNo} {c : Claim} {q : Request} {r : RequestCode}
  (hq : q.code = r.byte) (hr : r.tokenBearing = true) (htok : c.token = q.ops.token)

include hq hr htok

theorem refuseClaim_eq (st : Status) :
    s.refuseClaim p q t st = (s.onTask t Machine.Task.loadLease).respond p (answerTo q.ops st c.token 0) := by
  rw [State.refuseClaim, State.refuse, reply_to_claim hq hr htok]

theorem refuseDamaged_eq (part : Nat) (n : PageNo) : s.refuseDamaged p q t part n =
    (s.onTask t Machine.Task.loadLease).respond p (answerTo q.ops .damaged c.token (halves n.val part)) := by
  rw [State.refuseDamaged, damagedReply, reply_to_claim hq hr htok]
  rfl

end Data

/-- Settles O43: by the bound of the area and the covered parts whose page is poisoned. -/
theorem dataReadStartsARead : Obligations.DataReadStartsARead := by
  unfold Obligations.DataReadStartsARead
  intro p o s t k c ha ok ht hl s1 offset length covered poisoned
  obtain ⟨-, -, hc, -, htok⟩ := id hl
  have run := exec_claimed (i := .dataRead p o) 0x31 rfl rfl ha ok ht rfl hl
  have len : 4 ≤ length := by
    simp only [operandsOk, Bool.and_eq_true, lengthOk_iff, readLength_eq] at ok
    exact ok.1.2.1
  have parts : ∀ j, j ∈ coveredParts offset length ↔ covered j := fun j => mem_coveredParts (by omega)
  dsimp only at run
  rw [offset_eq, readLength_eq, refuseClaim_eq (q := ⟨0x31, o⟩) (r := .dataRead) rfl rfl htok] at run
  refine ⟨fun beyond => run.trans (congrArg _ ?_), fun within clean => run.trans (congrArg _ ?_),
    fun part n within hp hn bad first => run.trans (congrArg _ ?_)⟩
  · rw [if_pos (by simpa [Task.areaSize, Config.pageBytes] using beyond)]
  · rw [if_neg (by simpa [Task.areaSize, Config.pageBytes] using within),
      poisonedData_none (s := s1) (k := k) fun j hj => clean j ((parts j).1 hj), stopLease_of_claim hc]
    rfl
  · rw [if_neg (by simpa [Task.areaSize, Config.pageBytes] using within),
      poisonedData_first (s := s1) (k := k) (coveredParts_sorted ..) ((parts part).2 hp) hn bad
        fun j hj hm => first j hj ((parts j).1 hm)]
    exact refuseDamaged_eq (q := ⟨0x31, o⟩) (r := .dataRead) rfl rfl htok ..

/-- Settles O44: as O43, for the parts covered in part alone. -/
theorem dataWriteStartsAWrite : Obligations.DataWriteStartsAWrite := by
  unfold Obligations.DataWriteStartsAWrite
  intro p o s t k c ha ok ht hl s1 offset length partly poisoned
  obtain ⟨-, -, hc, -, htok⟩ := id hl
  have run := exec_claimed (i := .dataWrite p o) 0x32 rfl rfl ha ok ht rfl hl
  obtain ⟨len, small⟩ : 4 ≤ length ∧ offset < 65536 := by
    simp only [operandsOk, Bool.and_eq_true, lengthOk_iff, beq_iff_eq, highHalf_zero_iff] at ok
    exact ⟨ok.1.2.1, by have := ok.1.1.1.2; omega⟩
  have low : o.offset = offset := (offset_eq o).trans (Nat.mod_eq_of_lt small)
  have parts : ∀ j,
      j ∈ (coveredParts offset length).filter (fun part => !coveredFull offset length part) ↔ partly j := by
    intro j
    rw [List.mem_filter, mem_coveredParts (by omega), and_assoc]
    simp only [Bool.not_eq_true', ← Bool.not_eq_true, coveredFull_iff, partly]
  dsimp only at run
  rw [low, refuseClaim_eq (q := ⟨0x32, o⟩) (r := .dataWrite) rfl rfl htok] at run
  refine ⟨fun beyond => run.trans (congrArg _ ?_), fun within clean => run.trans (congrArg _ ?_),
    fun part n within hp hn bad first => run.trans (congrArg _ ?_)⟩
  · rw [if_pos (by simpa [Task.areaSize, Config.pageBytes] using beyond)]
  · rw [if_neg (by simpa [Task.areaSize, Config.pageBytes] using within),
      poisonedData_none (s := s1) (k := k) fun j hj => clean j ((parts j).1 hj), stopLease_of_claim hc]
    rfl
  · rw [if_neg (by simpa [Task.areaSize, Config.pageBytes] using within),
      poisonedData_first (s := s1) (k := k) ((coveredParts_sorted ..).filter _) ((parts part).2 hp) hn bad
        fun j hj hm => first j hj ((parts j).1 hm)]
    exact refuseDamaged_eq (q := ⟨0x32, o⟩) (r := .dataWrite) rfl rfl htok ..

end Sys2Proof.Laws

/-! SUPPORT. The rotation of the memory arbiter. -/

namespace Sys2Proof.Laws

open Sys2Proof Sys2Proof.Machine

/-! ### The arbiter (R136) -/

/-- The element of a list, rising in f, that meets a condition with the least f, is the first that meets it. -/
theorem find_of_rising {α : Type} {f : α → Nat} {g : α → Bool} {l : List α} {x : α}
    (rising : l.Pairwise fun a b => f a < f b) (hx : x ∈ l) (h : g x = true) (least : ∀ y, g y = true → f x ≤ f y) :
    l.find? g = some x := by
  induction l with
  | nil => cases hx
  | cons a l ih =>
    obtain ⟨below, rising⟩ := List.pairwise_cons.1 rising
    rcases List.mem_cons.1 hx with rfl | later
    · exact List.find?_cons_of_pos h
    · have here : ¬ g a = true := fun ha => absurd (least a ha) (Nat.not_le.2 (below x later))
      rw [List.find?_cons_of_neg here]
      exact ih rising later

theorem rotationAfter_rising (y : Claimant) :
    (rotationAfter y).Pairwise fun a b => y.turnsAfter a < y.turnsAfter b := by
  cases y with
  | port p => fin_cases p <;> decide
  | scrubber => decide

theorem mem_rotationAfter (y x : Claimant) : x ∈ rotationAfter y := by
  cases y with
  | port p => cases x with
    | port r => fin_cases p <;> fin_cases r <;> decide
    | scrubber => fin_cases p <;> decide
  | scrubber => cases x with
    | port r => fin_cases r <;> decide
    | scrubber => decide

/-- Who a port's head request has an operation in flight for (R162). -/
theorem opOf_iff {s : State} {p : Port} {t : TaskNo} {k : Machine.Task} {c : Claim} {o : Op} :
    s.opOf p = some (t, k, c, o) ↔ ∃ q, (s.port p).requests.head? = some q ∧ taskOf q.ops.task = some t
      ∧ s.task t = some k ∧ k.claim = some c ∧ c.port = p ∧ k.op = some o := by
  constructor
  · intro h
    obtain ⟨hk, hc, ho, hp⟩ := opOf_spec h
    simp only [State.opOf] at h
    split at h
    · cases h
    · next q rest hr =>
      split at h
      · cases h
      · next u hu =>
        refine ⟨q, by rw [hr]; rfl, ?_, hk, hc, hp, ho⟩
        split at h
        · cases h
        · split at h
          · split at h
            · obtain ⟨rfl, -⟩ := Prod.mk.inj (Option.some.inj h)
              exact hu
            · cases h
          · cases h
  · rintro ⟨q, h2, h3, h4, h5, h6, h7⟩
    exact opOf_moving (s := { s with path := some (.port p) }) ⟨rfl, h2, h3, h4, h5, h6, h7⟩

/-- Settles O52: the rotation lists the claimants by their turns after the pointer. -/
theorem arbiterGrantsInRotation : Obligations.ArbiterGrantsInRotation := by
  unfold Obligations.ArbiterGrantsInRotation
  intro s
  refine ⟨fun h => ?_, fun x free on waiting least => ?_, Option.isSome_iff_ne_none, fun p => ?_⟩
  · simp only [exec, execArbiterGrant]
    by_cases held : s.frst = true ∨ s.path ≠ none
    · rw [if_pos held]
    · rw [if_neg held]
      have nobody := (h.resolve_left fun e => held (.inr e)).resolve_left fun e => held (.inl e)
      have none_ : s.nextGrant = none := List.find?_eq_none.2 fun x _ => by simp [nobody x]
      rw [none_]
  · have next : s.nextGrant = some x := find_of_rising (rotationAfter_rising _) (mem_rotationAfter _ _) waiting least
    simp only [exec, execArbiterGrant]
    rw [if_neg (by simp [free, on]), next]
  · simp only [State.waits, State.portReady]
    constructor
    · intro h
      split at h
      · cases h
      · next t k c slot next w bytes x ho =>
        obtain ⟨q, h2, h3, h4, h5, h6, h7⟩ := opOf_iff.1 ho
        refine ⟨q, t, k, c, _, h2, h3, h4, h5, h6, h7, ?_⟩
        intro slot' next' w' bytes' x' n e hn
        obtain ⟨rfl, rfl, -⟩ := Op.fill.inj e
        simpa [hn] using h
      · next a hfill ho =>
        obtain ⟨t, k, c, o⟩ := a
        obtain ⟨q, h2, h3, h4, h5, h6, h7⟩ := opOf_iff.1 ho
        refine ⟨q, t, k, c, o, h2, h3, h4, h5, h6, h7, ?_⟩
        rintro slot next w bytes x n rfl
        exact absurd rfl (hfill t k c slot next w bytes x)
    · rintro ⟨q, t, k, c, o, h2, h3, h4, h5, h6, h7, ready⟩
      rw [opOf_iff.2 ⟨q, h2, h3, h4, h5, h6, h7⟩]
      cases o with
      | fill slot next w bytes x =>
        dsimp only
        cases hn : k.slotPage slot next with
        | none => rfl
        | some n => simpa using ready slot next w bytes x n rfl hn
      | delivery | peek | dataRead | dataWrite => rfl

end Sys2Proof.Laws

/-! SUPPORT. The transfers of the long operations: delivery, fill, peek, data read and data write, each by what its
part's transfer comes to. -/

namespace Sys2Proof.Laws

open Sys2Proof Sys2Proof.Machine

/-! ### Parts and pages -/

theorem readPage_eq (s : State) (n : PageNo) (off len : Nat) :
    s.readPage n off len = s.mem.readRange (1024 * n.val + off) len := by
  rw [State.readPage, pageBase_eq]

theorem writePage_eq (s : State) (n : PageNo) (off len : Nat) (b : List Byte) :
    s.writePage n off len b = { s with mem := s.mem.writeRange (1024 * n.val + off) len b } := by
  rw [State.writePage, pageBase_eq]

theorem readFramePart_eq (s : State) (n : PageNo) (length part : Nat) :
    s.readFramePart n length part = s.mem.readRange (1024 * n.val) (min 1024 (length - 1024 * part)) := by
  rw [State.readFramePart, readPage_eq, partLength, Nat.mul_comm part]
  rfl

theorem next_lt_partCount {length part : Nat} : part + 1 < partCount length ↔ part < (length - 1) / 1024 :=
  Nat.succ_lt_succ_iff

/-- The head request of a port after a step that leaves the lines. -/
theorem SameLines.head {s t : State} (h : SameLines s t) (p : Port) :
    (t.port p).requests.head? = (s.port p).requests.head? := by
  obtain ⟨-, -, e, -⟩ := h.lines p
  exact e

section Transfers

variable {s : State} {p : Port} {q : Request} {t : TaskNo} {k : Machine.Task} {c : Claim} {n : PageNo}

/-! ### Delivery -/

section Delivery

variable {slot next : Nat} {buffer : List Byte} {f : FrameRecord}
  (h : s.moving p q t k c (.delivery slot next buffer)) (hf : k.frameIn slot = some f)
  (hn : k.slotPage slot next = some n)

include h hf hn

theorem exec_deliveryPart (e : ReadOutcome) : exec (.deliveryPartTransfer e) s = .next (
    if e = .uncorrectable then s.freePath.damageInDelivery t k c n next
    else s.freePath.reachDeliveryPart t k c slot f (next + 1)
      (buffer ++ s.mem.readRange (1024 * n.val) (min 1024 (f.length - 1024 * next)))) := by
  have ho := opOf_moving h
  obtain ⟨hp, -⟩ := h
  simp only [exec, execDeliveryPartTransfer, hp, ho, hf, hn, readFramePart_eq]

omit hf hn in
/-- Delivery completion, answered to the head request. -/
theorem completeDelivery_of_moving {below : List Nat} (hs : k.stack = below ++ [slot]) (b : List Byte) :
    s.freePath.completeDelivery t k c slot f b = State.respond
      ((s.freePath.setTask t (some
        { k with slots := k.slots.set slot { status := .retained, frame := some f }, stack := below, op := none
                 claim := some { c with phase := .active, retained := some slot, expiryDue := false
                                        lease := if k.leasePeriod = 0 then none else some k.leasePeriod } })).moveAll
        f.carried (.frame t slot) (.claim t c.token)) p
      (answerTo q.ops .ok c.token f.tagWord
        (.claim { startKind := .restored, level := f.origin, depth := below.length, entryWord := none,
                  tagWord := some f.tagWord, frameLength := some f.length, origin := some f.origin,
                  slot := some slot, locksLost := some f.locksLost, pushedBy := some f.pushedBy,
                  heldLocks := some f.carried }) ⟨false, false⟩ b) := by
  obtain ⟨-, hq, -, -, -, hport, -⟩ := h
  subst hport
  simp only [State.completeDelivery, hs, List.dropLast_concat]
  refine respondHead_of_head ?_ _
  exact ((told_moveAll ..).same.head c.port).trans hq

end Delivery

/-! ### Fill -/

section Fill

variable {slot next : Nat} {w : Word} {bytes : List Byte} {waited : Bool}
  (h : s.moving p q t k c (.fill slot next w bytes waited)) (hn : k.slotPage slot next = some n)

include h hn

theorem exec_fillPage {s1 : State} (hs1 : s1 = State.onPage
      { s with path := none, mem := s.mem.writeRange (1024 * n.val) 1024 ((bytes.drop (1024 * next)).take 1024) } n
      (fun g => { g with poisoned := false })) :
    exec .fillPageWrite s = .next (
      if next + 1 < k.framePages then s1.setTask t (some { k with op := some (.fill slot (next + 1) w bytes waited) })
      else s1.completeFill t { k with op := none } c slot w bytes waited) := by
  have ho := opOf_moving h
  obtain ⟨hp, -⟩ := h
  simp only [exec, execFillPageWrite, hp, ho, hn, writePage_eq, framePart, hs1, Nat.mul_comm next]
  rfl

end Fill

/-! ### Peek -/

section Peek

variable {position slot next : Nat} {buffer : List Byte} {f : FrameRecord}
  (h : s.moving p q t k c (.peek position slot next buffer)) (hf : k.frameIn slot = some f)
  (hn : k.slotPage slot next = some n)

include h hf hn

theorem exec_peekPart (e : ReadOutcome) : exec (.peekPartTransfer e) s = .next (
    if e = .uncorrectable then s.freePath.damageInRead t k c n next
    else s.freePath.reachPeekPart t k c position slot f (next + 1)
      (buffer ++ s.mem.readRange (1024 * n.val) (min 1024 (f.length - 1024 * next)))) := by
  have ho := opOf_moving h
  obtain ⟨hp, -⟩ := h
  simp only [exec, execPeekPartTransfer, hp, ho, hf, hn, readFramePart_eq]

end Peek

/-! ### Data read -/

section DataRead

variable {offset length next : Nat} {buffer : List Byte}
  (h : s.moving p q t k c (.dataRead offset length next buffer)) (hn : k.dataPage next = some n)

include h hn

theorem exec_dataReadPart (e : ReadOutcome) : exec (.dataReadPartTransfer e) s = .next (
    if e = .uncorrectable then s.freePath.damageInRead t k c n next
    else if next < lastPart offset length then
      s.freePath.setTask t
        (some { k with op := some (.dataRead offset length (next + 1)
          (buffer ++ s.readDataPart n offset length next)) })
    else s.freePath.completeDataRead t k c offset length (buffer ++ s.readDataPart n offset length next)) := by
  have ho := opOf_moving h
  obtain ⟨hp, -⟩ := h
  simp only [exec, execDataReadPartTransfer, hp, ho, hn]

end DataRead

/-! ### Data write -/

section DataWrite

variable {offset next cleared : Nat} {bytes : List Byte}
  (h : s.moving p q t k c (.dataWrite offset bytes next cleared)) (hn : k.dataPage next = some n)

include h hn

theorem exec_dataWritePage (e : ReadOutcome) : exec (.dataWritePageTransfer e) s = .next (
    if e = .uncorrectable ∧ coveredFull offset bytes.length next = false then s.freePath.damageInRead t k c n next
    else if next < lastPart offset bytes.length then
      (s.freePath.writeDataPart n offset bytes next).setTask t
        (some { k with op := some (.dataWrite offset bytes (next + 1)
          (if coveredFull offset bytes.length next && (s.page n).poisoned then cleared + 1 else cleared)) })
    else (s.freePath.writeDataPart n offset bytes next).completeDataWrite t k c offset bytes.length
      (if coveredFull offset bytes.length next && (s.page n).poisoned then cleared + 1 else cleared)) := by
  have ho := opOf_moving h
  obtain ⟨hp, -⟩ := h
  simp only [exec, execDataWritePageTransfer, hp, ho, hn]

end DataWrite

end Transfers

/-- Settles O53: by what the read reports, and by the part that it was. -/
theorem deliveryMovesOnePartAtATime : Obligations.DeliveryMovesOnePartAtATime := by
  unfold Obligations.DeliveryMovesOnePartAtATime
  intro s e p q t k c slot next buffer f n h hf hn hnext s1 bytes damaged
  have run := exec_deliveryPart h hf hn e
  obtain ⟨-, hq, -, -, -, hport, -⟩ := id h
  have fault : ∀ g part, s.freePath.damageInDelivery t k c g part = damaged g part := fun g part => by
    subst hport
    exact damageInDelivery_of_head (s := s.freePath) hq
  refine ⟨fun bad => run.trans (congrArg _ ?_), fun g sound more hg => run.trans (congrArg _ ?_),
    fun below sound last hs => run.trans (congrArg _ ?_)⟩
  · rw [if_pos bad, fault]
  · rw [if_neg sound]
    split
    · next bad => rw [reachDelivery_of_poisoned (s := s.freePath) (next_lt_partCount.2 more) hg bad, fault]
    · next clean =>
      exact reachDelivery_of_clean (next_lt_partCount.2 more) hg (Bool.eq_false_of_not_eq_true clean)
  · rw [if_neg sound, reachDelivery_of_last (by rw [next_lt_partCount]; omega)]
    exact completeDelivery_of_moving h hs _

/-- Settles O54: by the part of the slot that was written. -/
theorem fillWritesOnePageAtATime : Obligations.FillWritesOnePageAtATime := by
  unfold Obligations.FillWritesOnePageAtATime
  intro s p q t k c slot next w bytes waited n h hcode hn part s1
  have run := exec_fillPage h hn (s1 := s1) rfl
  obtain ⟨-, hq, -, hk, -, hport, -⟩ := id h
  refine ⟨fun more => run.trans (congrArg _ (if_pos more)), fun last => ?_⟩
  intro held f k' s2 s3
  refine run.trans (congrArg _ ((if_neg (Nat.not_lt.2 last)).trans ?_))
  subst hport
  have depth : (k.stack ++ [slot]).length = k.stack.length + 1 := List.length_append
  obtain ⟨j, hj, hstack, hop⟩ : ∃ j : Machine.Task, s3.task t = some j ∧ j.stack ≠ [] ∧ j.op = none := by
    have moved : s2.task t = some k' := by rw [(told_moveAll ..).task, task_setTask_same]
    simp only [s3]
    split
    · exact ⟨k', moved, by simp [k'], rfl⟩
    · exact ⟨_, by rw [emptySlot_task, if_pos rfl, moved, Option.map_some], by simp [k', Task.withSlot], rfl⟩
  have rest : s3.onTask t Machine.Task.endClaim =
      s3.onTask t (fun k => { k with claim := none, state := .suspended }) :=
    onTask_congr hj (by rw [endClaim_eq, if_neg hstack, ← hop])
  have lines : SameLines s s3 := by
    have moved : SameLines s s2 := SameLines.trans (t := s1.setTask t (some k')) (.of_ports rfl) (told_moveAll ..).same
    simp only [s3]
    split
    · exact moved
    · exact moved.trans (same_emptySlot ..)
  have head := (((lines.trans (same_onTask s3 t Machine.Task.endClaim)).trans
    (told_postAll _ (PortSet.members k.watch (some c.port)) (.taskFreed t k'.depth)).same).head c.port).trans hq
  refine (respondHead_of_head head _).trans ?_
  rw [rest, reply_of_code hcode, ← depth]
  rfl

/-- Settles O55: by what the read reports, and by the part that it was. -/
theorem peekMovesOnePartAtATime : Obligations.PeekMovesOnePartAtATime := by
  unfold Obligations.PeekMovesOnePartAtATime
  intro s e p q t k c position slot next buffer f n h hcode hf hn hnext s1 bytes ended damaged
  have run := exec_peekPart h hf hn e
  obtain ⟨-, hq, -, -, -, hport, -⟩ := id h
  have found : ∀ g part, s.freePath.damageInRead t k c g part = damaged g part := fun g part => by
    subst hport
    exact damageInRead_of_head (s := s.freePath) hq hcode rfl
  refine ⟨fun bad => run.trans (congrArg _ ?_), fun g sound more hg => run.trans (congrArg _ ?_),
    fun sound last => run.trans (congrArg _ ?_)⟩
  · rw [if_pos bad, found]
  · rw [if_neg sound]
    split
    · next bad => rw [reachPeek_of_poisoned (s := s.freePath) (next_lt_partCount.2 more) hg bad, found]
    · next clean => exact reachPeek_of_clean (next_lt_partCount.2 more) hg (Bool.eq_false_of_not_eq_true clean)
  · rw [if_neg sound, reachPeek_of_last (by rw [next_lt_partCount]; omega)]
    subst hport
    refine (respondHead_of_head (s := s.freePath.setTask t (some ended)) hq _).trans ?_
    rw [reply_of_code hcode]
    rfl

/-- Settles O56: by what the read reports, and by the part that it was. -/
theorem dataReadMovesOnePartAtATime : Obligations.DataReadMovesOnePartAtATime := by
  unfold Obligations.DataReadMovesOnePartAtATime
  intro s e p q t k c offset length next buffer n h hcode hn h1 hfirst hlast s1 lo hi bytes ended
  have run := exec_dataReadPart h hn e
  obtain ⟨-, hq, -, -, -, hport, -⟩ := id h
  have covered : s.readDataPart n offset length next =
      s.mem.readRange (1024 * n.val + (lo - 1024 * next)) (hi - lo) := by
    rw [State.readDataPart, readPage_eq, partFrom, partTo, Nat.mul_comm next, Nat.mul_comm (next + 1)]
    rfl
  rw [covered] at run
  subst hport
  refine ⟨fun bad => run.trans (congrArg _ ?_), fun sound more => run.trans (congrArg _ ?_),
    fun sound last => run.trans (congrArg _ ?_)⟩
  · rw [if_pos bad]
    exact damageInRead_of_head (s := s.freePath) hq hcode rfl
  · rw [if_neg sound]
    exact if_pos more
  · rw [if_neg sound, if_neg (by rw [last]; exact Nat.lt_irrefl _)]
    refine (respondHead_of_head (s := s.freePath.setTask t (some ended)) hq _).trans ?_
    rw [reply_of_code hcode]
    rfl

/-- Settles O57: by what the read reports, and by the part that it was. -/
theorem dataWriteMovesOnePageAtATime : Obligations.DataWriteMovesOnePageAtATime := by
  unfold Obligations.DataWriteMovesOnePageAtATime
  intro s e p q t k c offset next cleared bytes n h hcode hn h1 hfirst hlast last lo hi full written s1 cleared' ended
  have run := exec_dataWritePage h hn e
  obtain ⟨-, hq, -, -, -, hport, -⟩ := id h
  have whole : coveredFull offset bytes.length next = true ↔ full := by
    rw [coveredFull_iff]
    simp only [full, lo, hi]
    omega
  have page : s.freePath.writeDataPart n offset bytes next = s1 := by
    have covered : s.freePath.writePage n (partFrom offset next - next * Config.pageBytes)
        (partTo offset bytes.length next - partFrom offset next) (writePart offset bytes next) = written := by
      rw [writePage_eq, writePart, partFrom, partTo, Nat.mul_comm next, Nat.mul_comm (next + 1)]
      rfl
    simp only [State.writeDataPart, covered, s1]
    by_cases hfull : full
    · rw [if_pos hfull, if_pos (whole.2 hfull)]
      rfl
    · rw [if_neg hfull, if_neg fun e => hfull (whole.1 e)]
  have count :
      (if coveredFull offset bytes.length next && (s.page n).poisoned then cleared + 1 else cleared) = cleared' := by
    simp only [cleared', Bool.and_eq_true, whole]
  have written_ : e ≠ .uncorrectable ∨ full →
      ¬ (e = .uncorrectable ∧ coveredFull offset bytes.length next = false) := by
    rintro (he | hfull) ⟨h1, h2⟩
    · exact he h1
    · rw [whole.2 hfull] at h2; cases h2
  rw [page, count] at run
  subst hport
  refine ⟨fun bad part => run.trans (congrArg _ ?_), fun sound more => run.trans (congrArg _ ?_),
    fun sound end_ => run.trans (congrArg _ ?_)⟩
  · rw [if_pos ⟨bad, Bool.eq_false_of_not_eq_true fun e => part (whole.1 e)⟩]
    exact damageInRead_of_head (s := s.freePath) hq hcode rfl
  · rw [if_neg (written_ sound)]
    exact if_pos more
  · rw [if_neg (written_ sound), if_neg (by rw [end_]; exact Nat.lt_irrefl _)]
    have lines : SameLines s s1 := by
      rw [← page]
      exact .of_ports (writeDataPart_ports s.freePath ..)
    refine (respondHead_of_head (s := s1.setTask t (some ended)) ((lines.head c.port).trans hq) _).trans ?_
    rw [reply_of_code hcode]
    rfl

end Sys2Proof.Laws

/-! SUPPORT. The lock pool's procedures on several locks: the give-up with the notices of its grants, the move and the
withdrawal, and the reinstatement of a retained frame. -/

namespace Sys2Proof.Laws

open Sys2Proof Sys2Proof.Machine

/-! ### Several posts -/

/-- Notices posted one after another. -/
def postEach (s : State) (xs : List (Port × Notice)) : State := xs.foldl (fun u x => u.post x.1 x.2) s

theorem postEach_append (s : State) (xs ys : List (Port × Notice)) :
    postEach s (xs ++ ys) = postEach (postEach s xs) ys := List.foldl_append

/-- Posts change port records alone. -/
theorem postEach_frame (s : State) (xs : List (Port × Notice)) :
    postEach s xs = { s with ports := (postEach s xs).ports } := by
  simp only [postEach]
  induction xs generalizing s with
  | nil => rfl
  | cons x xs ih => rw [List.foldl_cons, ih]; rfl

/-- Posts read port records alone. -/
theorem postEach_ports {s t : State} (h : t.ports = s.ports) (xs : List (Port × Notice)) :
    (postEach t xs).ports = (postEach s xs).ports := by
  simp only [postEach]
  induction xs generalizing s t with
  | nil => exact h
  | cons x xs ih =>
    rw [List.foldl_cons, List.foldl_cons]
    exact ih (by simp only [State.post, State.onPort, State.setPort, State.port, h])

/-- Posts leave the locks as they find them. -/
theorem postEach_locks (s : State) (xs : List (Port × Notice)) (v : Vector Lock 32) :
    { postEach s xs with locks := v } = postEach { s with locks := v } xs := by
  rw [postEach_frame { s with locks := v }, postEach_ports (t := { s with locks := v }) (s := s) rfl, postEach_frame]

/-! ### Give-ups (R96, R115) -/

/-- The notice of lock l's give-up: to the port of the claim that receives the lock, if it has a waiter. -/
def grantOf (s : State) (l : LockNo) : Option (Port × Notice) :=
  match (s.lock l).holder, (s.lock l).waiters with
  | some _, w :: _ => (s.claimOf w.task).map (fun c => (c.port, Notice.lockGranted w.task l))
  | _, _ => none

theorem setLock_lock (s : State) (l : LockNo) : s.setLock l (s.lock l) = s := by
  simp [State.setLock, State.lock]

theorem grantOf_congr {s t : State} {l : LockNo} (hl : t.lock l = s.lock l) (hc : ∀ u, t.claimOf u = s.claimOf u) :
    grantOf t l = grantOf s l := by
  simp only [grantOf, hl, hc]

/-- The give-up procedure on one lock. -/
theorem giveUp_eq (s : State) (l : LockNo) :
    s.giveUp l = postEach (s.setLock l (gaveUp (s.lock l))) (grantOf s l).toList := by
  simp only [State.giveUp, gaveUp, grantOf]
  cases hh : (s.lock l).holder with
  | none =>
    conv_lhs => rw [← setLock_lock s l]
    rfl
  | some h =>
    cases hw : (s.lock l).waiters with
    | nil => rfl
    | cons w rest =>
      have same : ∀ k, ((s.setLock l k).task w.task).bind (·.claim) = s.claimOf w.task := fun _ => rfl
      simp only [State.postGrant, same]
      cases s.claimOf w.task <;> rfl

/-- The give-up procedure on several locks, each listed once. -/
theorem giveUpAll_eq (s : State) {ls : LockSet} (nd : ls.Nodup) : s.giveUpAll ls = postEach
    { s with locks := Vector.ofFn (fun l => if l ∈ ls then gaveUp (s.lock l) else s.lock l) }
    (ls.filterMap (grantOf s)) := by
  simp only [State.giveUpAll]
  induction ls generalizing s with
  | nil =>
    rw [← vector_eq_ofFn s.locks _ fun l => by simp [State.lock]]
    rfl
  | cons l ls ih =>
    obtain ⟨hl, nd⟩ := List.nodup_cons.1 nd
    have grants : ls.filterMap (grantOf (s.giveUp l)) = ls.filterMap (grantOf s) :=
      List.filterMap_congr fun m hm => grantOf_congr
        (by rw [giveUp_lock, if_neg fun e : m = l => hl (e ▸ hm)]) fun u => by simp only [State.claimOf, giveUp_task]
    have locks : (Vector.ofFn fun m => if m ∈ ls then gaveUp ((s.giveUp l).lock m) else (s.giveUp l).lock m) =
        Vector.ofFn fun m => if m ∈ l :: ls then gaveUp (s.lock m) else s.lock m := by
      refine congrArg _ (funext fun m => ?_)
      rw [giveUp_lock]
      by_cases e : m = l
      · subst e; simp [hl]
      · simp [e]
    have first : (l :: ls).filterMap (grantOf s) = (grantOf s l).toList ++ ls.filterMap (grantOf s) := by
      rw [List.filterMap_cons]
      cases grantOf s l <;> rfl
    rw [List.foldl_cons, ih _ nd, grants, locks, first, postEach_append, giveUp_eq, postEach_locks]
    rfl

/-- The posts of several give-ups, over any state with the same ports. -/
theorem giveUpAll_ports {s v : State} {ls : LockSet} (nd : ls.Nodup) (h : s.ports = v.ports) :
    (s.giveUpAll ls).ports = (postEach v (ls.filterMap (grantOf s))).ports := by
  rw [giveUpAll_eq s nd, postEach_ports (s := v)]
  exact h

/-- Settles O49: the give-ups one after another, with their notices in the order of the list. -/
theorem giveUpPassesLocksOn : Obligations.GiveUpPassesLocksOn := by
  unfold Obligations.GiveUpPassesLocksOn
  intro s ls nd grants
  exact giveUpAll_eq s nd

/-! ### Moves and withdrawals (R97, R98) -/

/-- Two states that differ from a third in their locks alone, and have the same locks. -/
theorem eq_of_locks {s t v : State} (hs : s = { v with locks := s.locks }) (ht : t = { v with locks := t.locks })
    (h : ∀ l, s.lock l = t.lock l) : s = t := by
  have : s.locks = t.locks := Vector.ext fun i hi => h ⟨i, hi⟩
  rw [hs, ht, this]

/-- Port and lock records changed over lock records changed. -/
theorem eq_of_portsLocks {s v u : State} (hu : u = { v with ports := u.ports, locks := u.locks })
    (hv : v = { s with locks := v.locks }) : u = { s with ports := u.ports, locks := u.locks } := by
  rw [hu, hv]

theorem moveAll_frame (s : State) (ls : LockSet) (h h' : Holder) :
    s.moveAll ls h h' = { s with locks := (s.moveAll ls h h').locks } := by
  simp only [State.moveAll]
  induction ls generalizing s with
  | nil => rfl
  | cons l ls ih =>
    rw [List.foldl_cons, ih]
    simp only [State.move]
    split <;> rfl

theorem withdraw_frame (s : State) (w : Waiter) : s.withdraw w = { s with locks := (s.withdraw w).locks } := by
  simp only [State.withdraw]
  split <;> rfl

/-- A move leaves the lock on which a claim waits. -/
theorem waitOf_moveAll (s : State) (ls : LockSet) (h h' : Holder) (w : Waiter) :
    (s.moveAll ls h h').waitOf w = s.waitOf w := by
  simp only [State.waitOf, moveAll_waiters]

/-- Settles O50: each procedure changes its own field of a lock's record. -/
theorem moveAndWithdrawCommute : Obligations.MoveAndWithdrawCommute := by
  unfold Obligations.MoveAndWithdrawCommute
  intro s w ls h h' _ u
  have frame : u = { s with locks := u.locks } :=
    (withdraw_frame ..).trans (congrArg (fun v : State => { v with locks := u.locks }) (moveAll_frame s ls h h'))
  have after : ∀ l, u.lock l = if s.waitOf w = some l
      then { (s.moveAll ls h h').lock l with waiters := (s.lock l).waiters.erase w }
      else (s.moveAll ls h h').lock l := by
    intro l
    rw [withdraw_lock, waitOf_moveAll, moveAll_waiters]
  refine ⟨waitOf_moveAll .., eq_of_locks frame ?_ fun l => ?_, frame, fun l => ?_⟩
  · exact (moveAll_frame ..).trans 
      (congrArg (fun v : State => { v with locks := ((s.withdraw w).moveAll ls h h').locks }) (withdraw_frame s w))
  · rw [after, moveAll_lock, moveAll_lock, withdraw_lock]
    by_cases waits : s.waitOf w = some l
    · simp only [waits, if_true]
      split <;> rfl
    · simp only [waits, if_false]
  · rw [after, moveAll_lock]
    by_cases waits : s.waitOf w = some l
    · simp only [waits, if_true]
      by_cases moves : l ∈ ls ∧ (s.lock l).holder = some h
      · simp only [if_pos moves, and_self]
      · simp only [if_neg moves, and_self]
    · simp only [waits, if_false]
      by_cases moves : l ∈ ls ∧ (s.lock l).holder = some h
      · simp only [if_pos moves, and_self]
      · simp only [if_neg moves, and_self]

/-! ### Reinstatement (R81, R112) -/

/-- Settles O41: the locks that both hold move, and the others are given up over the task's new record. -/
theorem reinstatementReconcilesTheLocks : Obligations.ReinstatementReconcilesTheLocks := by
  unfold Obligations.ReinstatementReconcilesTheLocks
  intro s t k token slot f hk hf held u f' grants
  let k' : Machine.Task := { k with stack := k.stack ++ [slot]
                                    slots := k.slots.set slot { status := .filled, frame := some f' } }
  let moved := (s.setTask t (some k')).moveAll f'.carried (.claim t token) (.frame t slot)
  let others := held.filter (fun l => l ∉ f.carried)
  have hu : u = moved.giveUpAll others := by
    simp only [u, State.reinstate, hk, hf]
    rfl
  have nd : others.Nodup := (heldBy_nodup s _).filter _
  have mem_held : ∀ {l}, l ∈ held ↔ (s.lock l).holder = some (.claim t token) := mem_heldBy
  have mem_others : ∀ l, l ∈ others ↔ l ∈ held ∧ l ∉ f.carried := fun l => by simp [others]
  have lock_moved : ∀ l, moved.lock l =
      if l ∈ held ∧ l ∈ f.carried then { s.lock l with holder := some (.frame t slot) } else s.lock l := by
    intro l
    have carried : l ∈ f'.carried ↔ l ∈ held ∧ l ∈ f.carried := by simp [f']
    rw [moveAll_lock]
    by_cases h : l ∈ held ∧ l ∈ f.carried
    · rw [if_pos h, if_pos ⟨carried.2 h, mem_held.1 h.1⟩]
      rfl
    · rw [if_neg h, if_neg fun e => h (carried.1 e.1)]
      rfl
  have claims : ∀ x, moved.claimOf x = s.claimOf x := by
    intro x
    simp only [State.claimOf, moved, moveAll_task, task_setTask]
    split
    · next e => rw [e, hk]; rfl
    · rfl
  have told : others.filterMap (grantOf moved) = grants := by
    refine List.filterMap_congr fun l hl => ?_
    obtain ⟨holds, free⟩ := (mem_others l).1 hl
    rw [grantOf_congr ((lock_moved l).trans (if_neg fun e => free e.2)) claims, grantOf, mem_held.1 holds]
    cases (s.lock l).waiters <;> rfl
  have hmoved : moved = { s.setTask t (some k') with locks := moved.locks } := moveAll_frame _ _ _ _
  have base : moved.ports = s.ports :=
    moveAll_ports (s.setTask t (some k')) f'.carried (.claim t token) (.frame t slot)
  have ports : u.ports = (postEach s grants).ports := by
    rw [hu, giveUpAll_ports nd base, told]
  have frame : u = { moved with ports := u.ports, locks := u.locks } := by
    rw [hu]
    exact (told_giveUpAll moved others).frame
  refine ⟨?_, fun l => ⟨fun h => ?_, fun h h' => ?_, fun h h' => ?_⟩⟩
  · have all := eq_of_portsLocks frame hmoved
    rw [ports] at all
    exact all
  all_goals rw [hu, giveUpAll_lock moved others nd, lock_moved]
  · rw [if_neg fun e => h ((mem_others l).1 e).1, if_neg fun e => h e.1]
  · rw [if_neg fun e => ((mem_others l).1 e).2 h', if_pos ⟨h, h'⟩]
  · rw [if_pos ((mem_others l).2 ⟨h, h'⟩), if_neg fun e => h' e.2, gaveUp, mem_held.1 h]
    cases (s.lock l).waiters <;> rfl

end Sys2Proof.Laws

/-! SUPPORT. The page map's procedures in closed form, what an abort leaves, the scrubber, the lease timers' events and
the resets. -/

namespace Sys2Proof.Laws

open Sys2Proof Sys2Proof.Machine

/-! ### The scrub queue (R129 to R131) -/

/-- Released pages, each listed once, join the scrub queue unless they stand in it or are in progress. -/
theorem releasePages_queue (s : State) {ns : List PageNo} (nd : ns.Nodup) : (s.releasePages ns).scrubQueue =
    s.scrubQueue ++ ns.filter (fun n => n ∉ s.scrubQueue ∧ s.scrubbing ≠ some n) := by
  simp only [State.releasePages]
  induction ns generalizing s with
  | nil => simp
  | cons n ns ih =>
    obtain ⟨hn, nd⟩ := List.nodup_cons.1 nd
    have queue : ((s.onPage n Page.release).queueReleased n).scrubQueue =
        if n ∈ s.scrubQueue ∨ s.scrubbing = some n then s.scrubQueue else s.scrubQueue ++ [n] :=
      queueReleased_queue (s.onPage n Page.release) n
    have taken : ((s.onPage n Page.release).queueReleased n).scrubbing = s.scrubbing := by
      simp only [State.queueReleased]
      split
      · rfl
      · split <;> rfl
    have rest : ns.filter (fun m => m ∉ ((s.onPage n Page.release).queueReleased n).scrubQueue ∧ s.scrubbing ≠ some m) =
        ns.filter (fun m => m ∉ s.scrubQueue ∧ s.scrubbing ≠ some m) := by
      refine List.filter_congr fun m hm => ?_
      have ne : m ≠ n := fun e => hn (e ▸ hm)
      have same : m ∈ ((s.onPage n Page.release).queueReleased n).scrubQueue ↔ m ∈ s.scrubQueue := by
        rw [queue]
        split
        · rfl
        · simp [ne]
      simp only [same]
    rw [List.foldl_cons, ih _ nd, taken, rest, queue]
    by_cases h : n ∈ s.scrubQueue ∨ s.scrubbing = some n
    · rw [if_pos h, List.filter_cons_of_neg (by simpa using or_iff_not_imp_left.1 h)]
    · rw [if_neg h, List.filter_cons_of_pos (by simpa using not_or.1 h), List.append_assoc]
      rfl

theorem markStale_eq (s : State) {ns : List PageNo} (nd : ns.Nodup) : s.markStale ns = { s with
    pages := Vector.ofFn (fun n => if n ∈ ns then { s.page n with stale := true } else s.page n)
    scrubQueue := s.scrubQueue ++ ns.filter (fun n => n ∉ s.scrubQueue) } := by
  rw [markStale_frame, markStale_queue s ns nd, vector_eq_ofFn _ _ (markStale_page s ns)]

/-- Settles O51: the page map and the queue after each procedure, page by page. -/
theorem pagesAreMarkedQueuedAndReleased : Obligations.PagesAreMarkedQueuedAndReleased := by
  unfold Obligations.PagesAreMarkedQueuedAndReleased
  intro s ns nd stale
  refine ⟨markStale_eq s nd, ?_, ?_, fun t k slot hk hpages => ?_⟩
  · rw [withdrawPages_frame, vector_eq_ofFn _ _ (withdrawPages_page s ns)]
  · rw [releasePages_frame, releasePages_queue s nd, vector_eq_ofFn _ _ (releasePages_page s ns)]
  · rw [emptySlot_eq slot hk, hpages]
    exact markStale_eq (s.setTask t _) nd

/-- Marking pages stale reads their records and the queue alone. -/
theorem markStale_tables {s t : State} (hp : t.pages = s.pages) (hq : t.scrubQueue = s.scrubQueue) (ns : List PageNo) :
    (t.markStale ns).pages = (s.markStale ns).pages ∧ (t.markStale ns).scrubQueue = (s.markStale ns).scrubQueue := by
  simp only [State.markStale]
  induction ns generalizing s t with
  | nil => exact ⟨hp, hq⟩
  | cons n ns ih =>
    rw [List.foldl_cons, List.foldl_cons]
    have pages : ∀ u : State, (u.joinQueue n).pages = u.pages := fun u => by
      simp only [State.joinQueue]
      split <;> rfl
    have queue : ∀ u : State, (u.onPage n Page.markStale).scrubQueue = u.scrubQueue := fun _ => rfl
    refine ih ?_ ?_
    · simp only [pages, State.onPage, State.setPage, State.page, hp]
    · rw [joinQueue_queue, joinQueue_queue, queue, queue, hq]

/-! ### The abort of an operation (R78, R79, R39) -/

/-- What an abandoned write leaves of each byte of its page: the old one or the new one. -/
theorem partlyWritten_getD (index : Nat) (old new : List Byte) {i : Nat} (hi : i < 1024) :
    (partlyWritten index old new).getD i 0 = old.getD i 0 ∨ (partlyWritten index old new).getD i 0 = new.getD i 0 := by
  have value : (partlyWritten index old new).getD i 0 =
      if Config.partialWrite index i then new.getD i 0 else old.getD i 0 := by
    simp [partlyWritten, List.getD_eq_getElem?_getD, Config.pageBytes, hi]
  rw [value]
  split
  · exact .inr rfl
  · exact .inl rfl

theorem readPage_getD (s : State) (n : PageNo) {i : Nat} (hi : i < 1024) :
    (s.readPage n 0 Config.pageBytes).getD i 0 = Memory.read s.mem (1024 * n.val + i) := by
  rw [readPage_eq, Memory.readRange]
  simp [List.getD_eq_getElem?_getD, Config.pageBytes, hi]

theorem framePart_getD (bytes : List Byte) (part : Nat) {i : Nat} (hi : i < 1024) :
    (framePart bytes part).getD i 0 = bytes.getD (1024 * part + i) 0 := by
  simp [framePart, List.getD_eq_getElem?_getD, Config.pageBytes, hi, Nat.mul_comm]

/-- The bytes that an abandoned write of page n leaves. -/
theorem abandonFill_mem {s : State} {k : Machine.Task} {slot part : Nat} {n : PageNo}
    (hn : k.slotPage slot part = some n) (bytes : List Byte) :
    (s.abandonFill k slot part bytes).freeIndex = s.freeIndex + 1
      ∧ (∀ a, a < 1024 * n.val ∨ 1024 * n.val + 1024 ≤ a →
          Memory.read (s.abandonFill k slot part bytes).mem a = Memory.read s.mem a)
      ∧ ∀ i < 1024, Memory.read (s.abandonFill k slot part bytes).mem (1024 * n.val + i) =
            Memory.read s.mem (1024 * n.val + i)
          ∨ Memory.read (s.abandonFill k slot part bytes).mem (1024 * n.val + i) = bytes.getD (1024 * part + i) 0 := by
  simp only [State.abandonFill, hn, writePage_eq, Nat.add_zero]
  refine ⟨trivial, fun a ha => read_writeRange_outside _ _ _ _ _ ha, fun i hi => ?_⟩
  rw [read_writeRange_inside _ _ _ _ _ (by simpa [Config.pageBytes] using hi), ← readPage_getD s n hi,
    ← framePart_getD bytes part hi]
  exact partlyWritten_getD _ _ _ hi

/-- The path after an abort: free where the claim's port held it. -/
def pathAfter (path : Option Claimant) (c : Claim) : Option Claimant :=
  if path = some (.port c.port) then none else path

theorem abandon_eq (s : State) (c : Claim) : s.abandon c.port = { s with path := pathAfter s.path c } := by
  simp only [State.abandon, pathAfter]
  split <;> rfl

section Abort

variable {s : State} {t : TaskNo} {k : Machine.Task} {c : Claim} (hk : s.task t = some k) (hc : k.claim = some c)

include hk hc

theorem abortOp_inFlight {o : Op} (ho : k.op = some o) : s.abortOp t =
    ((s.abortEffect t k c o).onTask t (fun k => { k with op := none })).abandon c.port := by
  simp only [State.abortOp, hk, hc, ho]

/-- Every operation but a fill leaves its mark alone to the abort. -/
theorem abortOp_of_other {o : Op} (ho : k.op = some o) (h : o.kind ≠ .fill) :
    s.abortOp t = { s.setTask t (some { k with op := none }) with path := pathAfter s.path c } := by
  have effect : s.abortEffect t k c o = s := by
    cases o with
    | fill => exact absurd rfl h
    | delivery | peek | dataRead | dataWrite => rfl
  rw [abortOp_inFlight hk hc ho, effect, abandon_eq, setTask_eq_onTask hk]
  rfl

/-- The abort of a fill, over the memory that the abandoned write left. -/
theorem abortOp_of_fill {slot next : Nat} {w : Word} {bytes : List Byte} {x : Bool}
    (ho : k.op = some (.fill slot next w bytes x)) {m : Memory} {i : Nat}
    (hv : (if s.path = some (.port c.port) then s.abandonFill k slot next bytes else s) =
      { s with mem := m, freeIndex := i }) :
    s.abortOp t = { s.setTask t (some { k with op := none
                                               slots := k.slots.set slot { status := .empty, frame := none } }) with
      pages := (s.markStale ((k.slotPages[slot]?).getD [])).pages
      scrubQueue := (s.markStale ((k.slotPages[slot]?).getD [])).scrubQueue
      mem := m, freeIndex := i, path := pathAfter s.path c } := by
  let k1 := k.withSlot slot { status := .empty, frame := none }
  let v := State.setTask { s with mem := m, freeIndex := i } t (some k1)
  have emptied : State.emptySlot { s with mem := m, freeIndex := i } t slot =
      v.markStale ((k.slotPages[slot]?).getD []) :=
    emptySlot_eq slot hk
  have record : (v.markStale ((k.slotPages[slot]?).getD [])).task t = some k1 :=
    (markStale_task ..).trans (task_setTask_same ..)
  obtain ⟨pages, queue⟩ := markStale_tables (s := s) (t := v) rfl rfl ((k.slotPages[slot]?).getD [])
  have effect : s.abortEffect t k c (.fill slot next w bytes x) = v.markStale ((k.slotPages[slot]?).getD []) := by
    rw [← emptied, ← hv, State.abortEffect]
  rw [abortOp_inFlight hk hc ho, effect, abandon_eq, setTask_eq_onTask record, markStale_frame v, pages, queue]
  exact congrArg (fun r => { s with
      tasks := r, mem := m, freeIndex := i, path := pathAfter s.path c
      pages := (s.markStale ((k.slotPages[slot]?).getD [])).pages
      scrubQueue := (s.markStale ((k.slotPages[slot]?).getD [])).scrubQueue })
    (congrArg State.tasks (setTask_setTask s t (some k1) (some { k1 with op := none })))

end Abort

/-- Settles O40: a fill's abort by whether its write was under way, and on which page. -/
theorem abortsLeaveWhatTheTableSays : Obligations.AbortsLeaveWhatTheTableSays := by
  unfold Obligations.AbortsLeaveWhatTheTableSays
  intro s t k c o hk hc ho u path
  refine ⟨abortOp_of_other hk hc ho, ?_⟩
  intro slot next w bytes x fill pages
  subst fill
  obtain ⟨m, i, hv⟩ : ∃ m i, (if s.path = some (.port c.port) then s.abandonFill k slot next bytes else s) =
      { s with mem := m, freeIndex := i } := by
    split
    · exact ⟨_, _, abandonFill_frame ..⟩
    · exact ⟨_, _, rfl⟩
  have run := abortOp_of_fill hk hc ho hv
  have mem := (congrArg State.mem run).trans (congrArg State.mem hv).symm
  have index := (congrArg State.freeIndex run).trans (congrArg State.freeIndex hv).symm
  have marked : u.pages = (s.markStale pages).pages := (congrArg State.pages run).trans rfl
  have queued : u.scrubQueue = (s.markStale pages).scrubQueue := (congrArg State.scrubQueue run).trans rfl
  refine ⟨?_, fun n => ?_, fun nd => queued.trans (markStale_queue s pages nd), fun off => ?_, fun none => ?_,
    fun n on hn => ?_⟩
  · rw [marked, queued, (congrArg State.mem run : u.mem = _), (congrArg State.freeIndex run : u.freeIndex = _)]
    exact run
  · exact (congrArg (fun v : Vector Page _ => v[n.val]) marked).trans (markStale_page s pages n)
  · rw [show u.mem = _ from mem, show u.freeIndex = _ from index, if_neg off]
    exact ⟨rfl, rfl⟩
  · have still : s.abandonFill k slot next bytes = s := by simp only [State.abandonFill, none]
    rw [show u.mem = _ from mem, show u.freeIndex = _ from index, still, ite_self]
    exact ⟨rfl, rfl⟩
  · rw [show u.mem = _ from mem, show u.freeIndex = _ from index, if_pos on]
    exact abandonFill_mem hn bytes

/-! ### The scrubber, the lease timers and the resets -/

theorem afterScrub_eq (g : Page) (queued : Bool) : g.afterScrub queued = match g.state, queued with
    | .scrubbing, false => { g with state := .free, poisoned := false }
    | .reserved, false => { g with stale := false, poisoned := false }
    | _, _ => { g with poisoned := false } := by
  obtain ⟨state⟩ := g
  cases state <;> cases queued <;> rfl

/-- Settles O58: by the queue and the scrubber, and by the state of the page scrubbed. -/
theorem scrubberTakesAndSettlesPages : Obligations.ScrubberTakesAndSettlesPages := by
  unfold Obligations.ScrubberTakesAndSettlesPages
  intro s
  refine ⟨fun n rest on idle hq => ?_, fun h => ?_, fun n hp ht => ?_⟩
  · simp only [exec, execScrubberTakePage]
    rw [if_neg (by simp [on, idle]), hq]
  · simp only [exec, execScrubberTakePage]
    by_cases busy : s.frst = true ∨ s.scrubbing ≠ none
    · rw [if_pos busy]
    · rw [if_neg busy, (h.resolve_left fun e => busy (.inl e)).resolve_left fun e => busy (.inr e)]
  · intro g settled
    have record : g.afterScrub (n ∈ s.scrubQueue) = settled := afterScrub_eq g _
    simp only [exec, execScrubCompletion, hp, ht, writePage_eq, State.onPage]
    exact congrArg (fun x => Host.Outcome.next (State.setPage
      { s with path := none, scrubbing := none, mem := s.mem.writeRange (1024 * n.val) 1024 [] } n x)) record

/-- The tasks after one change of each of several, each listed once. -/
theorem onTasks_task (f : Machine.Task → Machine.Task) {ts : List TaskNo} (nd : ts.Nodup) (s : State) (u : TaskNo) :
    (ts.foldl (fun s t => s.onTask t f) s).task u = if u ∈ ts then (s.task u).map f else s.task u := by
  induction ts generalizing s with
  | nil => simp
  | cons t ts ih =>
    obtain ⟨ht, nd⟩ := List.nodup_cons.1 nd
    rw [List.foldl_cons, ih nd, onTask_task]
    by_cases e : u = t
    · subst e; simp [ht]
    · simp [e]

theorem onTasks_frame (f : Machine.Task → Machine.Task) (ts : List TaskNo) (s : State) :
    ts.foldl (fun s t => s.onTask t f) s = { s with tasks := (ts.foldl (fun s t => s.onTask t f) s).tasks } := by
  induction ts generalizing s with
  | nil => rfl
  | cons t ts ih => rw [List.foldl_cons, ih]; rfl

/-- Settles O59: each task's timer by itself, and an expiry by whether it is due. -/
theorem leasesFallAndExpire : Obligations.LeasesFallAndExpire := by
  unfold Obligations.LeasesFallAndExpire
  intro s
  refine ⟨⟨_, rfl, onTasks_frame _ _ _, fun t => ?_⟩, fun t c n hc hn due => ?_, fun t h => ?_⟩
  · refine (onTasks_task _ (List.nodup_finRange 64) s t).trans ?_
    rw [if_pos (List.mem_finRange t)]
    refine congrArg (fun f => (s.task t).map f) (funext fun k => ?_)
    cases hc : k.claim with
    | none => exact congrArg (fun x => { k with claim := x }) hc.symm
    | some c => rfl
  · have expired : s.expiryDue t = true := by
      simp only [State.expiryDue, State.claimOf] at hc ⊢
      simp [hc, hn, due]
    simp only [exec, execLeaseExpiry, expired, if_true]
  · have running : s.expiryDue t = false := by
      simp only [State.expiryDue, State.claimOf] at h ⊢
      cases hc : (s.task t).bind (·.claim) with
      | none => rfl
      | some c => rcases h c hc with e | e <;> simp [e]
    simp only [exec, execLeaseExpiry, running, Bool.false_eq_true, if_false]

/-- Port 0 alone has rights after full reset (R167). -/
theorem reset_rights (r : Port) :
    (State.reset.port r).rights = if r = 0 then ⟨true, true, true⟩ else ⟨false, false, false⟩ := by
  revert r; decide

/-- The port records after a full reset (R169). -/
theorem fullyReset_ports (s : State) (m : Memory) (b : Bool) : (s.fullyReset m b).ports = Vector.ofFn (fun r : Port =>
    { session := .offline, rights := if r = 0 then ⟨true, true, true⟩ else ⟨false, false, false⟩,
      requests := [], linkAnswers := [], unanswered := 0, waiting := none, sending := none, notices := [],
      lost := 0, attention := false, held := (s.port r).held }) := by
  have record : ∀ r : Port, { State.reset.port r with held := (s.port r).held } =
      ({ session := .offline, rights := if r = 0 then ⟨true, true, true⟩ else ⟨false, false, false⟩,
         requests := [], linkAnswers := [], unanswered := 0, waiting := none, sending := none, notices := [],
         lost := 0, attention := false, held := (s.port r).held } : PortRecord) := by
    intro r
    rw [reset_port, show (State.reset.port r).rights = _ from reset_rights r]
    rfl
  exact congrArg Vector.ofFn (funext record)

/-- Every record but those of the ports after a full reset (R23, R116, R138, R140, R169). -/
theorem fullyReset_tables (s : State) (m : Memory) (b : Bool) : s.fullyReset m b =
    { ports := (s.fullyReset m b).ports, tasks := Vector.replicate 64 none, nextToken := 1
      locks := Vector.replicate 32 { state := .unallocated, holder := none, waiters := [], lastHolder := none }
      pages := Vector.replicate 1024
        { state := .scrubbing, owner := none, role := none, stale := false, poisoned := false }
      scrubQueue := List.finRange 1024, scrubbing := none, pointer := .scrubber, path := none, mem := m
      frst := b, freeIndex := s.freeIndex, pending := s.pending } := by
  simp only [State.fullyReset, State.reset, Lock.unallocated, Page.reset]

/-- Settles O60: a full reset's values for every memory and state of its line, and the port line's events. -/
theorem resetsLeaveTheirValues : Obligations.ResetsLeaveTheirValues := by
  unfold Obligations.ResetsLeaveTheirValues
  intro s p
  refine ⟨rfl, fun held => ?_, fun free => ?_, ?_⟩
  · simp only [exec, execPortResetRelease, held, if_true]
    rfl
  · simp only [exec, execPortResetRelease, free, Bool.false_eq_true, if_false]
  · intro clean
    have values : ∀ m b, s.fullyReset m b = clean m b := fun m b => by
      rw [fullyReset_tables, fullyReset_ports]
    refine ⟨congrArg Host.Outcome.next (values s.mem true), congrArg Host.Outcome.next (values [] true),
      fun on => ?_, fun off => ?_⟩
    · have released : exec .fullResetRelease s = .next (s.fullyReset s.mem false) := by
        simp only [exec, execFullResetRelease, on, if_true]
      exact released.trans (congrArg Host.Outcome.next (values s.mem false))
    · simp only [exec, execFullResetRelease, off, Bool.false_eq_true, if_false]

end Sys2Proof.Laws

/-! SUPPORT. The teardown of a port (R84, R166). -/

namespace Sys2Proof.Laws

open Sys2Proof Sys2Proof.Machine

theorem close_eq (r : PortRecord) :
    r.close = { r with session := .offline, notices := [], lost := 0, attention := false } := rfl

theorem mem_otherPorts {p r : Port} : r ∈ otherPorts p ↔ r ≠ p := by simp [otherPorts]

/-- Waits are withdrawn claim by claim, each found where it stood before. -/
theorem withdrawClaims_eq {s u : State} (h : ∀ t, u.task t = s.task t) (ts : List TaskNo) :
    ts.foldl State.withdrawClaim u = ts.foldl (fun u t => match s.claimOf t with
      | none => u
      | some c => u.withdraw ⟨t, c.token⟩) u := by
  induction ts generalizing u with
  | nil => rfl
  | cons t ts ih =>
    have first : u.withdrawClaim t = match s.claimOf t with
        | none => u
        | some c => u.withdraw ⟨t, c.token⟩ := by
      rw [← show u.claimOf t = s.claimOf t from congrArg (·.bind (·.claim)) (h t)]
      rfl
    have tasks : ∀ v, (u.withdrawClaim t).task v = s.task v := fun v => ((told_withdrawClaim ..).task v).trans (h v)
    rw [List.foldl_cons, List.foldl_cons, ← first, ih tasks]

/-- A task without claim and operation, READY or SUSPENDED by depth. -/
def AtRest (k : Machine.Task) : Prop :=
  k.claim = none ∧ k.op = none ∧ k.state = if k.stack = [] then .ready else .suspended

theorem atRest_endClaim (k : Machine.Task) : AtRest k.endClaim := by
  rw [endClaim_eq]
  exact ⟨rfl, rfl, rfl⟩

/-- The end of a claim leaves its task at rest and every other task as it was. -/
theorem abnormalEnd_atRest {s : State} {t : TaskNo} (h : (s.claimOf t).isSome) (cause : EndCause) :
    (∀ u ≠ t, (s.abnormalEnd t cause).task u = s.task u) ∧ ∃ k, (s.abnormalEnd t cause).task t = some k ∧ AtRest k := by
  obtain ⟨c, hc⟩ := Option.isSome_iff_exists.1 h
  obtain ⟨k, hk, hc⟩ := Option.bind_eq_some_iff.1 hc
  obtain ⟨k1, tasks, -⟩ := abnormalEnd_tasks cause hk hc
  exact ⟨fun u hu => (tasks u).trans (if_neg hu), _, (tasks t).trans (if_pos rfl), atRest_endClaim k1⟩

/-- The ends of several claims, each listed once. -/
theorem abnormalEnds_atRest {ts : List TaskNo} (nd : ts.Nodup) {s : State} (h : ∀ t ∈ ts, (s.claimOf t).isSome)
    (cause : EndCause) :
    (∀ u ∉ ts, (ts.foldl (fun u t => u.abnormalEnd t cause) s).task u = s.task u)
    ∧ ∀ t ∈ ts, ∃ k, (ts.foldl (fun u t => u.abnormalEnd t cause) s).task t = some k ∧ AtRest k := by
  induction ts generalizing s with
  | nil => exact ⟨fun _ _ => rfl, fun _ ht => absurd ht List.not_mem_nil⟩
  | cons t ts ih =>
    obtain ⟨ht, nd⟩ := List.nodup_cons.1 nd
    obtain ⟨others, k, own, rest⟩ := abnormalEnd_atRest (h t List.mem_cons_self) cause
    have claims : ∀ u ∈ ts, ((s.abnormalEnd t cause).claimOf u).isSome := fun u hu => by
      rw [State.claimOf, others u fun e => ht (e ▸ hu)]
      exact h u (List.mem_cons_of_mem _ hu)
    obtain ⟨outside, inside⟩ := ih nd claims
    refine ⟨fun u hu => ?_, fun u hu => ?_⟩
    · exact (outside u fun m => hu (List.mem_cons_of_mem _ m)).trans
        (others u fun e => hu (e ▸ List.mem_cons_self))
    · obtain rfl | hu := List.mem_cons.1 hu
      · exact ⟨k, (outside u ht).trans own, rest⟩
      · exact inside u hu

/-- A post to an ONLINE port is its last notice, or was lost for want of room (R143). -/
theorem post_last {s : State} {p : Port} (on : (s.port p).session = .online) (n : Notice) :
    ((s.post p n).port p).notices.getLast? = some n
    ∨ 16 ≤ ((s.post p n).port p).notices.length ∧ ((s.post p n).port p).lost ≠ 0 := by
  by_cases room : (s.port p).notices.length < 16
  · left
    rw [post_of_room on room, State.onPort, port_setPort, if_pos rfl]
    exact List.getLast?_concat
  · right
    rw [post_of_full on (Nat.le_of_not_lt room), State.onPort, port_setPort, if_pos rfl]
    exact ⟨Nat.le_of_not_lt room, by simp only; omega⟩

/-- Settles O26: the ends of the claims change no port but by posts, the session closes, and the last post is to the
other ports alone. -/
theorem teardownLeavesThePortOffline : Obligations.TeardownLeavesThePortOffline := by
  unfold Obligations.TeardownLeavesThePortOffline
  intro s p
  refine ⟨fun off => if_neg (by simp [off]), fun on => ?_⟩
  intro ts waitless ended closed
  have list : s.claimsOf p = ts := claimsOf_eq s p
  have withdrawn : ts.foldl State.withdrawClaim s = waitless := withdrawClaims_eq (fun _ => rfl) ts
  have run : s.teardown p = closed.postAll (([0, 1, 2, 3] : List Port).filter (· ≠ p)) (.portDown p ts.length) := by
    simp only [State.teardown, on, if_true, list, withdrawn]
    rfl
  have others : (([0, 1, 2, 3] : List Port).filter (· ≠ p)) = otherPorts p := rfl
  have nodup : ts.Nodup := (List.nodup_finRange 64).filter _
  have tasks : ∀ t, waitless.task t = s.task t := by
    rw [← withdrawn]
    exact (Told.foldl State.withdrawClaim told_withdrawClaim ts s).task
  have claimed : ∀ t ∈ ts, (waitless.claimOf t).isSome := fun t ht => by
    have own := of_decide_eq_true (List.mem_filter.1 ht).2
    obtain ⟨c, hc, -⟩ := Option.map_eq_some_iff.1 own
    rw [State.claimOf, tasks t]
    exact Option.isSome_of_mem hc
  obtain ⟨outside, inside⟩ := abnormalEnds_atRest nodup claimed .portDown
  have posted : Posted s ended := by
    refine .trans ?_ (.foldl (fun u t => u.abnormalEnd t .portDown) posted_abnormalEnd ts waitless)
    rw [← withdrawn]
    exact .foldl State.withdrawClaim posted_withdrawClaim ts s
  have same : ∀ t, (s.teardown p).task t = ended.task t := fun t => by
    rw [run]
    exact (told_postAll ..).task t
  have port : ∀ r, (s.teardown p).port r =
      if r ∈ otherPorts p then (closed.post r (.portDown p ts.length)).port r else closed.port r := fun r => by
    rw [run, others]
    exact postAll_port _ _ ((List.nodup_finRange 4).filter _) _ r
  have other : ∀ r ≠ p, closed.port r = ended.port r := fun r hr => (port_setPort ..).trans (if_neg hr)
  refine ⟨run, ?_, fun r hr => ?_, fun t ht => ?_, fun t ht => ?_, ?_⟩
  · rw [port p, if_neg (by simp [mem_otherPorts])]
    refine (port_setPort ..).trans ((if_pos rfl).trans ?_)
    rw [posted.port p]
  · have last := port r
    rw [if_pos (mem_otherPorts.2 hr)] at last
    obtain ⟨session, rights, requests⟩ := posted.link r
    obtain ⟨session', rights', requests'⟩ := (posted_post closed r (.portDown p ts.length)).link r
    rw [other r hr] at session' rights' requests'
    rw [last]
    refine ⟨session'.trans session, rights'.trans rights, requests'.trans requests, fun up => post_last ?_ _⟩
    rw [other r hr, session, up]
  · exact (same t).trans ((outside t ht).trans (tasks t))
  · obtain ⟨k, hk, noClaim, noOp, state⟩ := inside t ht
    exact ⟨k, (same t).trans hk, noClaim, noOp, state⟩
  · rw [run]
    exact (posted_postAll ..).token.trans posted.token

end Sys2Proof.Laws
